-- ==== Sys2Proof/Word.lean ====
section
/-! DEFINITION. The word types of the Cerzon C7-128 and the bundle width (00_scope.md R2, R3). -/

namespace Sys2Proof

/-- One byte of memory. -/
abbrev Byte := BitVec 8

/-- One lane value of a v register: 32 bits (R86). -/
abbrev Word := BitVec 32

/-- An s register, a k register, a 64-bit address: 64 bits (R86). -/
abbrev DWord := BitVec 64

/-- One bit per lane position (FMASK, HELPER, TRAPMASK, a divergence mask). -/
abbrev LaneMask := BitVec 32

/-- W, the bundle width of the C7-128 (R2). -/
abbrev W : Nat := 32

/-- One value per lane position 0 … W − 1, in ascending order. -/
def lanesOf {α : Type} (f : Nat → α) : List α := (List.range W).map f

/-- The lane mask whose bit L is `p L`. -/
def maskOf (p : Nat → Bool) : LaneMask :=
  (List.range W).foldl (fun m L => if p L then m ||| (1#32 <<< L) else m) 0#32

/-- The lane positions of a mask, ascending. -/
def LaneMask.lanes (m : LaneMask) : List Nat := (List.range W).filter fun L => m.getLsbD L

end Sys2Proof
end

