-- ==== Sys2Proof/Syntax.lean ====
section
/-! DEFINITION. The instructions and events of the C7-128: the six instruction formats of 02_instruction_formats.md (R25, R32, R33,
R35 to R37), each kept whole, reserved bits included, because a nonzero reserved or unused field is a trap (R26, R42) and not an
undefined encoding; and one constructor of `Instr` per row of the opcode table. -/

namespace Sys2Proof

/-- Format A (R25): three sources and one destination. The opcode is the constructor of `Instr`. -/
structure FmtA where
  m : BitVec 1
  dst : BitVec 10
  opa : BitVec 10
  opb : BitVec 10
  opc : BitVec 10
  moda : BitVec 7
  modb : BitVec 7
  modc : BitVec 7
  ty : BitVec 4
  guard : BitVec 5
  dsub : BitVec 5
  round : BitVec 3
  func : BitVec 8
  deriving DecidableEq, Repr

/-- Format I (R32): a 32-bit immediate. -/
structure FmtI where
  m : BitVec 1
  dst : BitVec 10
  opa : BitVec 10
  opb : BitVec 10
  imm : BitVec 32
  round : BitVec 3
  guard : BitVec 5
  ty : BitVec 4
  func : BitVec 8
  rsv : BitVec 4
  deriving DecidableEq, Repr

/-- Format M (R33): one memory access. -/
structure FmtM where
  m : BitVec 1
  data : BitVec 10
  base : BitVec 10
  index : BitVec 10
  aux : BitVec 10
  offset : BitVec 22
  scale : BitVec 2
  rsvHi : BitVec 1
  guard : BitVec 5
  width : BitVec 3
  order : BitVec 3
  scope : BitVec 3
  func : BitVec 4
  rsvLo : BitVec 3
  deriving DecidableEq, Repr

/-- Format B (R35): a branch. -/
structure FmtB where
  m : BitVec 1
  reg : BitVec 10
  aux : BitVec 10
  rsvHi : BitVec 10
  offset : BitVec 32
  rsvMid : BitVec 3
  guard : BitVec 5
  func : BitVec 8
  rsvLo : BitVec 8
  deriving DecidableEq, Repr

/-- Format P (R36): `rep` alone. -/
structure FmtP where
  m : BitVec 1
  count : BitVec 6
  dstep : BitVec 4
  astep : BitVec 4
  bstep : BitVec 4
  cstep : BitVec 4
  rsvHi : BitVec 43
  guard : BitVec 5
  rsvLo : BitVec 16
  deriving DecidableEq, Repr

/-- Format E (R37): engine work. -/
structure FmtE where
  m : BitVec 1
  recd : BitVec 10
  stamp : BitVec 10
  aux : BitVec 10
  queue : BitVec 5
  rsvHi : BitVec 30
  guard : BitVec 5
  func : BitVec 8
  rsvLo : BitVec 8
  deriving DecidableEq, Repr

/-- One register that a debugger writes in a halted slot (R373): the register's code in the operand space of R30, or the
number of a trap register of R88, with its lane for a v or p register. -/
inductive RegEdit where
  | operand (code lane : Nat) (value : DWord)
  | special (code : Nat) (value : BitVec 128)
  deriving DecidableEq, Repr

/-- The forms of `tret` (R372), with which a debugger also resumes a slot (R373). -/
inductive TretForm where
  | restart
  | next
  | kill
  | to (pc : DWord)
  deriving DecidableEq, Repr

/-- What the signed configuration blob sets (R1, R339, R354, R355, R364, R385, R388). -/
structure Blob where
  /-- installed main memory in bytes (R1) -/
  memBytes : Nat
  /-- N, starts per 100 ns window, 1 to 128 (R354) -/
  rampStarts : Nat
  /-- U, units per 100 ns window, 4 to 512 (R354) -/
  rampUnits : Nat
  /-- idle time of a compute column in ns, 0 disables sleeping (R355) -/
  idleNs : Nat
  /-- corrected-error threshold of a vertical bus (R364) -/
  vbusThreshold : Nat
  /-- fault timeout in ns (R385) -/
  faultTimeoutNs : Nat
  /-- this device's number in the coherent window (R388) -/
  deviceNumber : Nat
  /-- the Nelaig link that leads to each peer device 0 … 31 (R388) -/
  peerLinks : List Nat
  /-- firmware version shown in DEVINFO (R379) -/
  fwVersion : BitVec 32
  /-- the root control blocks of regions 0, 1 and 2, words 0 to 3 (R339, R340) -/
  roots : List (List DWord)
  deriving DecidableEq, Repr

/-- Every row of the opcode table: the 133 instructions of R41, each with its format's fields, and the device's events, each with
what names the place it happens at. Crews, walks, requests, entries and contexts are named by the numbers State gives them; bundles
by their BUNDLE index. -/
inductive Instr where
  /-- No operation; affects only the stretch (through M) and timing (R75). -/
  | nop (f : FmtA)
  /-- Relative branch of the ACTIVE strands, dividing the sub-bundle by next PC (R76). -/
  | bra (f : FmtB)
  /-- Indirect branch of each ACTIVE strand to a register target (R77). -/
  | brx (f : FmtB)
  /-- Writes the link and branches to a relative target (R78). -/
  | call (f : FmtB)
  /-- Writes the link and branches to a register target (R78). -/
  | callx (f : FmtB)
  /-- Return: an indirect branch that differs from brx only in fetch prediction (R77). -/
  | ret (f : FmtB)
  /-- Parks the sub-bundle until the bundle's strands reconverge, then continues as one sub-bundle (R79). -/
  | join (f : FmtA)
  /-- Acts as join, then files the parked strands into reform bins keyed by their target (R80). -/
  | reform (f : FmtB)
  /-- Ends the ACTIVE strands once the slot's pending results are written (R81). -/
  | exit (f : FmtA)
  /-- Arrives at the crew barrier and parks until every non-exited strand of the crew has arrived (R82). -/
  | bar (f : FmtA)
  /-- Gang barrier that ends a phase and swaps the live and shadow exchange banks (R202). -/
  | gbar (f : FmtA)
  /-- Parks until every crew of every producer cast has triggered or retired (R236). -/
  | wait (f : FmtA)
  /-- Marks the ACTIVE strands triggered, as a device-scope release (R236). -/
  | trig (f : FmtA)
  /-- Ends the sub-bundle's turn after its marker wait (R83). -/
  | yield (f : FmtA)
  /-- Parks the sub-bundle for n to n + 256 clocks (R84). -/
  | sleep (f : FmtI)
  /-- Raises SOFTWARE if the guard holds in at least one non-helper lane (R375). -/
  | trap (f : FmtI)
  /-- Leaves trap mode by restarting, going to the next slot, going to a k-register target, or killing the cast (R377). -/
  | tret (f : FmtA)
  /-- Raises BREAK with a code, or halts the slot when a debugger is attached (R376). -/
  | brk (f : FmtA)
  /-- Issues the bound instruction COUNT+1 times with its operand fields stepped (R39). -/
  | rep (f : FmtP)
  /-- Copies a source to a destination, with field selection and rounding (R103). -/
  | mov (f : FmtA)
  /-- Writes an immediate, or its high half with .hi (R104). -/
  | movi (f : FmtI)
  /-- Selects one of two sources per lane by a predicate (R105). -/
  | sel (f : FmtA)
  /-- Reads a special register into a v or s register (R106). -/
  | sreg (f : FmtA)
  /-- Writes a scalar or crew constant from the lowest non-helper ACTIVE lane (R107). -/
  | sset (f : FmtA)
  /-- Reads a register's shape tag and format tag (R108). -/
  | tag (f : FmtA)
  /-- Forces a register to shape G, taking a row (R109). -/
  | expand (f : FmtA)
  /-- Acquires extended register names, stalling until the claim fits the bound (R110). -/
  | xacq (f : FmtI)
  /-- Releases extended names back to the base block (R111). -/
  | xrel (f : FmtA)
  /-- Saves registers into the slot's trap area (R378). -/
  | tsave (f : FmtA)
  /-- Restores registers from the slot's trap area (R378). -/
  | tload (f : FmtA)
  /-- Computes a predicate from three predicates through a truth table (R112). -/
  | pbool (f : FmtA)
  /-- Moves predicates to a register, or from a register with .set (R113). -/
  | pmov (f : FmtA)
  /-- Clears sticky FLAGS bits, or clears HINTDROP with .hint (R114). -/
  | fclr (f : FmtA)
  /-- Integer add (R141). -/
  | add (f : FmtA)
  /-- Integer subtract (R141). -/
  | sub (f : FmtA)
  /-- Add with carry-in and a carry-out predicate (R142). -/
  | addc (f : FmtA)
  /-- Subtract with borrow-in and a borrow-out predicate (R142). -/
  | subb (f : FmtA)
  /-- Integer multiply (R141). -/
  | mul (f : FmtA)
  /-- High half of the integer product (R141). -/
  | mulh (f : FmtA)
  /-- Integer multiply-add (R141). -/
  | mad (f : FmtA)
  /-- Widening 32-by-32 multiply added to a 64-bit source (R141). -/
  | madw (f : FmtA)
  /-- Integer minimum by TYPE's signedness (R141). -/
  | min (f : FmtA)
  /-- Integer maximum by TYPE's signedness (R141). -/
  | max (f : FmtA)
  /-- Bitwise and (R143). -/
  | and (f : FmtA)
  /-- Bitwise or (R143). -/
  | or (f : FmtA)
  /-- Bitwise exclusive or (R143). -/
  | xor (f : FmtA)
  /-- Bitwise a and not b (R143). -/
  | andn (f : FmtA)
  /-- Shift left (R144). -/
  | shl (f : FmtA)
  /-- Logical shift right (R144). -/
  | shr (f : FmtA)
  /-- Arithmetic shift right (R144). -/
  | sar (f : FmtA)
  /-- Rotate left by k mod w (R144). -/
  | rot (f : FmtA)
  /-- Bit-field extract (R145). -/
  | bfe (f : FmtA)
  /-- Bit-field insert (R145). -/
  | bfi (f : FmtA)
  /-- Population count (R146). -/
  | popc (f : FmtA)
  /-- Count leading zeros (R146). -/
  | clz (f : FmtA)
  /-- Count trailing zeros (R146). -/
  | ctz (f : FmtA)
  /-- Bit reversal (R146). -/
  | brev (f : FmtA)
  /-- Integer compare into a predicate, with optional combine (R147). -/
  | cmp (f : FmtA)
  /-- Address formation: base plus a shifted index (R148). -/
  | lea (f : FmtA)
  /-- Packed four-byte dot product plus accumulator (R149). -/
  | dp4 (f : FmtA)
  /-- Packed two-half dot product plus accumulator (R149). -/
  | dp2 (f : FmtA)
  /-- Saturating add (R150). -/
  | sadd (f : FmtA)
  /-- Saturating subtract (R150). -/
  | ssub (f : FmtA)
  /-- Byte permute, with optional reversal, inversion or clearing of each byte (R151). -/
  | prmt (f : FmtA)
  /-- Float add (R154). -/
  | fadd (f : FmtA)
  /-- Float multiply (R154). -/
  | fmul (f : FmtA)
  /-- Fused multiply-add with one rounding (R154). -/
  | ffma (f : FmtA)
  /-- IEEE minimumNumber (R155). -/
  | fmin (f : FmtA)
  /-- IEEE maximumNumber (R155). -/
  | fmax (f : FmtA)
  /-- Float compare into a predicate (R156). -/
  | fcmp (f : FmtA)
  /-- Classifies a float encoding into a one-hot mask (R157). -/
  | fclass (f : FmtA)
  /-- Rounds to an integral value in the same format (R158). -/
  | frnd (f : FmtA)
  /-- Two-term 16-bit dot product with f32 accumulation (R159). -/
  | fdot2 (f : FmtA)
  /-- Multiplies by 2^k (R160). -/
  | fscale (f : FmtA)
  /-- Extracts the exponent, or the significand with .sig (R160). -/
  | fexp (f : FmtA)
  /-- Converts between types (R161). -/
  | cvt (f : FmtA)
  /-- Packing conversion of two f32 sources (R162). -/
  | cvtp (f : FmtA)
  /-- Quantises with a scale and a zero point (R163). -/
  | quant (f : FmtA)
  /-- Correctly rounded reciprocal (R164). -/
  | rcp (f : FmtA)
  /-- Correctly rounded reciprocal square root (R164). -/
  | rsq (f : FmtA)
  /-- Correctly rounded square root (R164). -/
  | sqrt (f : FmtA)
  /-- Correctly rounded log2 (R164). -/
  | lg2 (f : FmtA)
  /-- Correctly rounded 2^a (R164). -/
  | ex2 (f : FmtA)
  /-- Correctly rounded sin(πa) (R164). -/
  | sinp (f : FmtA)
  /-- Correctly rounded cos(πa) (R164). -/
  | cosp (f : FmtA)
  /-- Correctly rounded tanh (R164). -/
  | tanh (f : FmtA)
  /-- Copies a value from a relative lane, or the fallback value (R170). -/
  | shfl (f : FmtA)
  /-- Copies a value from a named lane, or the fallback value (R170). -/
  | shfr (f : FmtA)
  /-- Evaluates a predicate across the contributing lanes (R171). -/
  | vote (f : FmtA)
  /-- Gathers a predicate mask from the contributing lanes (R172). -/
  | ballot (f : FmtA)
  /-- Gives the mask of contributing lanes that hold equal values (R173). -/
  | matchLanes (f : FmtA)
  /-- Butterfly reduction across the bundle (R175). -/
  | lred (f : FmtA)
  /-- Ascending prefix scan, inclusive or exclusive (R176). -/
  | lscan (f : FmtA)
  /-- Moves a value within each quad (R177). -/
  | qswap (f : FmtA)
  /-- Horizontal difference within a quad (R178). -/
  | ddx (f : FmtA)
  /-- Vertical difference within a quad (R178). -/
  | ddy (f : FmtA)
  /-- Scratch load (R197). -/
  | lds (f : FmtM)
  /-- Scratch store (R198). -/
  | sts (f : FmtM)
  /-- Scratch atomic read-modify-write (R199). -/
  | atoms (f : FmtM)
  /-- Producer or consumer arrival on a ring stage (R200). -/
  | stbar (f : FmtA)
  /-- Reads a snapshot of a ring's state (R201). -/
  | ringq (f : FmtA)
  /-- Global load (R228). -/
  | ld (f : FmtM)
  /-- Global store (R229). -/
  | st (f : FmtM)
  /-- Compress-store of the ACTIVE lanes to consecutive addresses (R230). -/
  | cst (f : FmtM)
  /-- Expand load, with a first-fault form (R231). -/
  | xld (f : FmtM)
  /-- Prefetch or residency hint (R232). -/
  | pref (f : FmtM)
  /-- Ordering point at a named scope (R233). -/
  | fence (f : FmtA)
  /-- Waits until a stamp location reaches a value, as an acquire (R234). -/
  | mwait (f : FmtM)
  /-- Cache and translation control operation (R235). -/
  | cctl (f : FmtM)
  /-- Global atomic that returns the old value (R245). -/
  | atom (f : FmtM)
  /-- Global reduction, possibly combined in update-only lines (R245). -/
  | red (f : FmtM)
  /-- Adds an f32 value to an exact-sum cell (R246). -/
  | xsadd (f : FmtM)
  /-- Reads an exact-sum cell rounded to f32, optionally clearing it (R246). -/
  | xsrd (f : FmtM)
  /-- Clears an exact-sum cell and sets its scale E (R246). -/
  | xsclr (f : FmtM)
  /-- Enqueues a global-to-scratch copy (R269). -/
  | lcopy (f : FmtE)
  /-- Enqueues a scratch-to-global copy (R269). -/
  | lput (f : FmtE)
  /-- Enqueues the load of a codebook table (R270). -/
  | lcode (f : FmtE)
  /-- Enqueues a queue fence, or abandons queues with .drop (R271). -/
  | qfence (f : FmtE)
  /-- Reads the Ladle's queue state (R272). -/
  | qstat (f : FmtA)
  /-- Enqueues a matrix multiply-accumulate task (R288). -/
  | mma (f : FmtE)
  /-- Enqueues a load of weight-buffer granules from scratch (R289). -/
  | mwld (f : FmtE)
  /-- Enqueues a store of accumulator tiles to scratch (R290). -/
  | mst (f : FmtE)
  /-- Enqueues the zeroing of accumulator tiles and their counts (R291). -/
  | mzero (f : FmtE)
  /-- Reads a tile's statistics counts, optionally clearing them (R292). -/
  | astat (f : FmtA)
  /-- Reads accumulator elements into lanes (R293). -/
  | ard (f : FmtA)
  /-- Writes a vertex into the bundle's meshlet slot (R330). -/
  | vemit (f : FmtA)
  /-- Writes a triangle into the bundle's meshlet slot (R331). -/
  | pemit (f : FmtA)
  /-- Writes the vertex block and hands the meshlet to the raster units (R332). -/
  | mcommit (f : FmtA)
  /-- Ray against box intersection (R333). -/
  | ixbox (f : FmtA)
  /-- Watertight ray against triangle intersection (R334). -/
  | ixtri (f : FmtA)
  /-- Deposits hit records into Riddle bins (R335). -/
  | hitbin (f : FmtA)
  /-- Releases HELD tiles to FREE (R336). -/
  | vtrel (f : FmtA)
  /-- Reads the identifier, depth or material of a surface pixel (R337). -/
  | vtld (f : FmtM)
  /-- A refetched line arrives after a parity mismatch; a second mismatch raises a machine check and kills the cast with FETCH_PARITY (R17). -/
  | lineRefetch (crew bun : Nat)
  /-- A long instruction's result and flags are written to its destinations (R60). -/
  | longResultWrite (crew bun pend : Nat)
  /-- A parked slot's pending results are all written, so its stop marker completes and the turn moves on (R57). -/
  | markerComplete (crew bun : Nat)
  /-- A sub-bundle has issued 1,024 instructions without a marker, so a completed marker is inserted and the turn passes (R64). -/
  | turnInstructionLimit (crew bun : Nat)
  /-- An instruction has stalled for 256 clocks and is withdrawn, and the turn passes (R64). -/
  | stallTimeout (crew bun : Nat)
  /-- A withdrawn or stalled instruction issues again once its condition holds or its turn returns (R64). -/
  | stallReissue (crew bun : Nat)
  /-- A bin's oldest record reaches 4,096 clocks, or 512 clocks pass since its last arrival (R69). -/
  | reformBinTimeout (core bin : Nat)
  /-- A qualifying bin is drawn into a free slot of its crew as a fresh bundle (R69). -/
  | reformBinDraw (crew : Nat)
  /-- A barrier or join deadlock lasts 2^20 clocks, so every bundle of the crew traps WATCHDOG (R73). -/
  | crewWatchdog (crew : Nat)
  /-- An xacq has waited 2^20 clocks while the rest of the crew is stalled, so it traps WATCHDOG (R110). -/
  | xacqWatchdog (crew bun : Nat)
  /-- A gang's parked strands cannot complete for 2^20 clocks, so each parked bundle traps WATCHDOG (R194). -/
  | gangWatchdog (crew : Nat)
  /-- A sleeping sub-bundle becomes ready again (R84). -/
  | sleepWake (crew bun sub : Nat)
  /-- Every producer crew has triggered or retired, so the parked wait continues as an acquire (R236). -/
  | waitRelease (crew bun : Nat)
  /-- Every gang strand has arrived and the awaited accesses have performed, so the banks swap and strands resume (R194). -/
  | gbarComplete (crew : Nat)
  /-- The spill engine packs a victim row into the spill reserve and frees it (R96). -/
  | rowSpill (crew bun : Nat)
  /-- A stbar.p arrival completes once the earlier scratch stores have performed, possibly making the stage FULL (R190). -/
  | producerArrivalComplete (crew arrival : Nat)
  /-- A page walk ends in a translation, not present or malformed (R206). -/
  | pageWalkComplete (walk : Nat)
  /-- Parked stores translate afresh after a resolve and perform in order, or are discarded (R209). -/
  | parkedStoreDrain (core root vpage : Nat)
  /-- A request reaches its home slice and is served, placed on a waiting list, or refused (R295). -/
  | sliceRequest (req : Nat)
  /-- A fill arrives and the slice serves the line's waiting list in order (R296). -/
  | memoryFill (line : Nat) (bad : BitVec 2)
  /-- The back-off after a refusal expires and the requester retries (R297). -/
  | requestRetry (req : Nat)
  /-- A line reservation lapses after 8,192 clocks without a retry (R297). -/
  | reservationLapse (line : Nat)
  /-- An update-only line is merged into its line at the home (R241). -/
  | updateLineMerge (core line : Nat)
  /-- A core's logical time rises by at least 1 every 4,096 clocks (R219). -/
  | ltIdleTick (core : Nat)
  /-- The rotating noon source marks its oldest queued packet golden (R300). -/
  | noonMark (replyMesh : Bool)
  /-- A copy performs its next unit, or stops with a detail code (R262). -/
  | copyUnitPerform (core entry : Nat)
  /-- A copy's last byte lands, its arrival completes and its stamp is written (R256). -/
  | copyComplete (core entry : Nat)
  /-- An lcode entry performs and fills its table (R266). -/
  | codebookFill (core entry : Nat)
  /-- Everything a fence names has completed, so it writes its stamp (R271). -/
  | qfenceComplete (core entry : Nat)
  /-- An idle engine takes the oldest ready task (R273). -/
  | taskStart (core engine : Nat)
  /-- An engine finishes a task, updates counts and writes its stamp (R282). -/
  | taskComplete (core engine : Nat)
  /-- The raster units resolve a committed meshlet into tile pixel pairs (R310). -/
  | meshletRaster (meshlet : Nat)
  /-- A pipeline cast's geometry ends and its OPEN tiles become SEALED (R317). -/
  | geometryEnd (castId : Nat)
  /-- A Riddle unit takes a SEALED tile and files quad records by material (R319). -/
  | riddleSieve (unit surf tile : Nat)
  /-- A Riddle bin's oldest record has waited 2,048 clocks (R320). -/
  | riddleBinTimeout (unit bin : Nat)
  /-- A Riddle bin launches a one-bundle material crew (R320). -/
  | riddleBinLaunch (unit bin : Nat)
  /-- The Runner fills v0 to v(7 + NAM) before a material bundle's first instruction (R324). -/
  | runnerFill (crew : Nat)
  /-- The dispatcher places the first fitting candidate on a core or rectangle (R350). -/
  | dispatchPlace
  /-- A candidate passed over for 50 µs starts blocking lower priorities (R350). -/
  | candidateBlock (cand : Nat)
  /-- A new 100 ns window opens for crew starts and stops (R354). -/
  | startRampWindow
  /-- An idle compute column goes to sleep after the idle time (R355). -/
  | columnSleep (column : Nat)
  /-- A wake slot ends and its column becomes ready (R355). -/
  | columnWake (column : Nat)
  /-- A crew whose retirement conditions hold retires and returns its resources (R353). -/
  | crewRetire (crew : Nat)
  /-- A cast completes, its completion record is written and its journal entry becomes DONE (R347). -/
  | castComplete (castId : Nat)
  /-- Victims are chosen and halted within 0.8 µs (R357). -/
  | preemptRequest
  /-- After copies and tasks complete, a halted crew's state is written to context slots (R358). -/
  | contextSave (crew : Nat)
  /-- A saved context is restored and its crew resumes (R361). -/
  | contextResume (ctx : Nat)
  /-- A core adds its counter share for resident crews every 100 µs (R344). -/
  | counterFlush (core : Nat)
  /-- A slot enters trap mode at its region's handler after draining its pending results (R366). -/
  | trapEntry (crew bun : Nat)
  /-- A debugger attaches to a cast through an authenticated request (R373). -/
  | debugAttach (castId : Nat) (causes : BitVec 32)
  /-- A debugger halts named slots at an instruction boundary (R373). -/
  | debugHaltRequest (crew bun : Nat)
  /-- A debugger resumes a halted slot with the effect of a tret form (R373). -/
  | debugResume (crew bun : Nat) (edits : List RegEdit) (form : TretForm)
  /-- The host writes a queue tail and the device accepts new commands (R380). -/
  | qtailWrite (port queue tail : Nat) (writes : List Host.Cell)
  /-- Enabling a queue sets QHEAD to 0 and clears ERROR (R380). -/
  | qctlEnable (port queue : Nat)
  /-- Fails the ACCEPTED commands with ABORTED and clears ENABLE (R387). -/
  | qctlAbort (port queue : Nat)
  /-- Sets up the fault ring, which is then written from index 0 (R385). -/
  | faultbaseWrite (port base size : Nat)
  /-- The host resolves a page-fault request, so translations are invalidated and waiters retry (R385). -/
  | faultackResolve (port id : Nat)
  /-- The host rejects a page-fault request, so waiting loads trap and parked stores are discarded (R385). -/
  | faultackReject (port id : Nat)
  /-- A request unanswered within the fault timeout is rejected (R385). -/
  | faultTimeout (id : Nat)
  /-- A host write to a BAR0 register with no behaviour of its own, such as QBASE or QSIZE (R379). -/
  | registerWrite (port offset bytes : Nat) (value : DWord)
  /-- A host writes a recovery image and sets the mailbox status to 2 (R392). -/
  | recoveryImageSubmit (port : Nat) (image : List Byte) (verified : Bool)
  /-- Accepts a cast descriptor and launches it (R381). -/
  | cast (seq : Nat)
  /-- Creates a region in the host's subtree (R381). -/
  | regionCreate (seq : Nat)
  /-- Modifies a region's command fields (R381). -/
  | regionModify (seq : Nat)
  /-- Destroys a region and its subtree (R381). -/
  | regionDestroy (seq : Nat)
  /-- The firmware Ladle fills memory with a pattern (R384). -/
  | fill (seq : Nat)
  /-- The firmware Ladle copies memory (R384). -/
  | copy (seq : Nat)
  /-- Writes 8 bytes as a system-scope release (R381). -/
  | signal (seq : Nat)
  /-- Waits until a location reaches a value, holding the rest of the queue (R381). -/
  | waitsignal (seq : Nat)
  /-- Copies journal entries to memory (R381). -/
  | journalread (seq : Nat)
  /-- Kills every cast of the subtree, discards saved contexts and zeroes counters (R381). -/
  | resetRegion (seq : Nat)
  /-- Bring-up: firmware and blob verification, regions 0 to 2, and BARs enabled (R392). -/
  | deviceReset (verified : Bool) (blob : Blob)
  /-- A Nelaig link fails, so sharers are declared lost and window lines are invalidated (R389). -/
  | linkDown (link : Nat)
  /-- The link is back and Ebandyan rejoins the coherent window (R389). -/
  | linkRejoin (link : Nat)
  /-- A vertical bus passes its error threshold, so its contexts are moved and the bus is retired (R364). -/
  | vbusPlannedRetire (bank : Nat)
  /-- A vertical bus fails uncorrectably, so the crews holding state there are killed with CONTEXT_LOST (R365). -/
  | vbusForcedRetire (bank : Nat)
  /-- A fetch line read from L2 arrives at the core, is parity-checked and makes the bundle's next instruction fetched and ready (R17). -/
  | lineFetchArrival (crew bun : Nat)
  /-- The firmware Ladle finishes the lines of a FILL or COPY command and its journal entry becomes DONE as a system-scope release (R384). -/
  | firmwareLadleComplete (port : Nat)
  /-- The n64 watched by a WAITSIGNAL command reaches its value, so the command becomes DONE and the later commands of its queue may start (R381). -/
  | waitsignalSatisfied (seq : Nat)
  /-- The debugger detaches from a cast, after which BREAK and the selected causes enter the handler again instead of halting (R373). -/
  | debugDetach (castId : Nat)
  /-- An invalidation from a remote home device reaches this device as a sharer of a coherent-window line, which drops its copy and acknowledges (R388). -/
  | sharerInvalidation (line : Nat)
  deriving DecidableEq, Repr

end Sys2Proof
end

