-- ==== Sys2Proof/Machine/Checks.lean ====
section
/-! DEFINITION. The encoding checks of R26, R30, R34, R42 and R43: for every instruction the operand kinds, modifiers, TYPE, FUNC, ROUND,
WIDTH, ORDER, SCOPE and QUEUE values its encoding table lists, the checks made from them, and which registers it reads and writes. -/

namespace Sys2Proof.Machine

/-- What an operand field may hold (R30). -/
structure Pos where
  /-- the instruction uses the field -/
  used : Bool
  v : Bool
  s : Bool
  c : Bool
  p : Bool
  lane : Bool
  /-- 1023 may stand -/
  empty : Bool
  /-- a k register even where no s register may stand (`tret.to`) -/
  k : Bool
  /-- codes allowed besides -/
  also : List Nat
  /-- v names the operand spans; 0 where ownership is not checked -/
  names : Nat
  /-- the v number must be a multiple of this -/
  align : Nat
  /-- the s number, or the k number that stands for it, must be a multiple of this -/
  salign : Nat
  /-- the s number must be below this -/
  slim : Nat
  /-- no k register although an s register may stand -/
  nok : Bool
  read : Bool
  write : Bool
  deriving DecidableEq, Repr

/-- A field the instruction does not use: it must be 0 (R26). -/
def Pos.unused : Pos :=
  { used := false, v := false, s := false, c := false, p := false, lane := false, empty := false, k := false, also := [],
    names := 0, align := 1, salign := 1, slim := 160, nok := false, read := false, write := false }
/-- A used field that accepts nothing yet. -/
def Pos.used0 : Pos := { Pos.unused with used := true }
/-- A value source of n names: v, s, constant, LANE (R140 "val"). -/
def Pos.val (n : Nat) : Pos := { Pos.used0 with v := true, s := true, c := true, lane := true, names := n, align := n, read := true }
/-- A v source of n names, its number a multiple of `al`. -/
def Pos.vsrc (n al : Nat) : Pos := { Pos.used0 with v := true, names := n, align := al, read := true }
/-- A v or s source of n names. -/
def Pos.vs (n : Nat) : Pos := { Pos.vsrc n n with s := true }
/-- A v, s or constant source of n names. -/
def Pos.vsc (n : Nat) : Pos := { Pos.vs n with c := true, salign := if n = 4 then 2 else 1 }
/-- An s source. -/
def Pos.ssrc : Pos := { Pos.used0 with s := true, read := true }
/-- A v destination of n names, its number a multiple of `al`. -/
def Pos.vdst (n al : Nat) : Pos := { Pos.used0 with v := true, names := n, align := al, write := true }
/-- A predicate source. -/
def Pos.psrc : Pos := { Pos.used0 with p := true, read := true }
/-- A predicate destination. -/
def Pos.pdst : Pos := { Pos.used0 with p := true, write := true }
/-- The same field, or 1023. -/
def Pos.opt (x : Pos) : Pos := { x with empty := true }
/-- A field that must be 1023. -/
def Pos.absent : Pos := { Pos.used0 with empty := true }

/-- How a modifier field is used (R26, R28). -/
inductive ModUse where
  /-- the source is not read: the field must be 0 -/
  | unused
  /-- SIGN and SUBFIELD as R28 allows for a TYPE -/
  | any (ty : Nat)
  /-- SIGN only -/
  | sign (ty : Nat)
  /-- the entry allows no modifier -/
  | zero
  deriving DecidableEq, Repr

/-- How DSUB is used. -/
inductive SubUse where
  | unused
  | any
  | zero
  /-- 0, 18 or 19 (`frnd` of a 16-bit type) -/
  | halves
  deriving DecidableEq, Repr

/-- What an entry lists for a format A instruction. -/
structure SpecA where
  dst : Pos
  a : Pos
  b : Pos
  c : Pos
  ma : ModUse
  mb : ModUse
  mc : ModUse
  types : List Nat
  always : Bool
  dsub : SubUse
  rounds : List Nat
  func : Bool
  /-- a failing operand the entry names: low bit of its field -/
  bad : List Nat
  deriving DecidableEq, Repr

/-- A format A entry that uses nothing but FUNC 0. -/
def SpecA.bare : SpecA :=
  { dst := .unused, a := .unused, b := .unused, c := .unused, ma := .unused, mb := .unused, mc := .unused, types := [0],
    always := false, dsub := .unused, rounds := [0], func := true, bad := [] }

/-- Causes of R43, in order. -/
inductive CheckCause where
  | illegalOp
  | privilege
  | illegalOperand
  | unnamedReg
  deriving DecidableEq, Repr

/-- A failing check: its cause, the low bit of its field, and the operand code UNNAMED_REG names. -/
structure Failure where
  cause : CheckCause
  bit : Nat
  code : Nat
  deriving DecidableEq, Repr

/-- What the checks need to know of the bundle. -/
structure CheckEnv where
  owned : Nat
  inTrap : Bool
  base : Nat
  deriving DecidableEq, Repr

/-- Order of R43. -/
def CheckCause.rank : CheckCause → Nat
  | .illegalOp => 0
  | .privilege => 1
  | .illegalOperand => 2
  | .unnamedReg => 3

/-- The cause code of R368. -/
def CheckCause.code : CheckCause → Nat
  | .illegalOp => 1
  | .privilege => 4
  | .illegalOperand => 2
  | .unnamedReg => 5

/-- ILLEGAL_OP at a field, when a condition holds. -/
def illOp (bit : Nat) (bad : Bool) : List Failure := if bad then [{ cause := .illegalOp, bit := bit, code := 0 }] else []
/-- ILLEGAL_OPERAND at a field, when a condition holds. -/
def illOperand (bit : Nat) (bad : Bool) : List Failure := if bad then [{ cause := .illegalOperand, bit := bit, code := 0 }] else []

/-- The first name of a span that is not owned. -/
def firstUnowned (owned code names : Nat) : Option Nat := ((List.range names).map (code + ·)).find? fun n => decide (owned ≤ n)

/-- The checks of an operand field (R26, R30, R42). -/
def Pos.check (x : Pos) (env : CheckEnv) (bit code : Nat) : List Failure :=
  if !x.used then illOp bit (code != 0)
  else if x.also.contains code then []
  else if code < 640 then
    if !x.v || code % x.align != 0 then illOperand bit true
    else match firstUnowned env.owned code x.names with
      | some n => [{ cause := .unnamedReg, bit := bit, code := n }]
      | none => []
  else if code < 800 then illOperand bit (!x.s || (code - 640) % x.salign != 0 || decide (x.slim ≤ code - 640))
  else if code < 864 then illOperand bit (!x.c)
  else if code < 880 then illOperand bit (!x.p)
  else if code < 888 then
    if !env.inTrap then [{ cause := .privilege, bit := bit, code := 0 }]
    else illOperand bit (!(x.k || (x.s && !x.nok)) || (code - 880) % x.salign != 0)
  else if code = 888 then illOperand bit (!x.lane)
  else if code = 1023 then illOperand bit (!x.empty)
  else illOperand bit true

/-- A 64-bit TYPE code. -/
def wide (ty : Nat) : Bool := ty == 4 || ty == 5 || ty == 6
/-- An n or b TYPE code, for which SIGN must be 0 (R28). -/
def signless (ty : Nat) : Bool := ty == 0 || ty == 2 || ty == 4 || ty == 6 || ty == 11 || ty == 13

/-- The checks of a modifier field (R28). -/
def ModUse.check (u : ModUse) (bit m : Nat) : List Failure :=
  let sign := m / 32
  let sub := m % 32
  match u with
  | .unused => illOp bit (m != 0)
  | .zero => illOperand bit (m != 0)
  | .sign ty => illOperand bit (sub != 0 || (signless ty && sign != 0))
  | .any ty => illOperand bit (decide (20 ≤ sub) || (wide ty && sub != 0) || (signless ty && sign != 0))

/-- The checks of DSUB (R29). -/
def SubUse.check (u : SubUse) (ty bit d : Nat) : List Failure :=
  match u with
  | .unused => illOp bit (d != 0)
  | .zero => illOperand bit (d != 0)
  | .halves => illOperand bit (!(d == 0 || d == 18 || d == 19))
  | .any => illOperand bit (decide (20 ≤ d) || (wide ty && d != 0))

/-- The checks of a format A slot, fields from the high bits to the low. -/
def SpecA.check (x : SpecA) (env : CheckEnv) (f : FmtA) : List Failure :=
  x.dst.check env 76 f.dst.toNat ++ x.a.check env 66 f.opa.toNat ++ x.b.check env 56 f.opb.toNat ++ x.c.check env 46 f.opc.toNat ++
  x.ma.check 39 f.moda.toNat ++ x.mb.check 32 f.modb.toNat ++ x.mc.check 25 f.modc.toNat ++
  illOp 21 (!x.types.contains f.ty.toNat) ++ illOp 16 (x.always && f.guard != 0b11110#5) ++ x.dsub.check f.ty.toNat 11 f.dsub.toNat ++
  illOp 8 (!x.rounds.contains f.round.toNat) ++ illOp 0 (!x.func) ++ (x.bad.map fun b => illOperand b true).flatten

/-- What an entry lists for a format M instruction. -/
structure SpecM where
  data : Pos
  base : Pos
  index : Pos
  aux : Pos
  widths : List Nat
  /-- plain ORDER, with SCOPE 0, is listed -/
  plain : Bool
  /-- the other ORDERs listed, and the SCOPEs they take -/
  orders : List Nat
  scopes : List Nat
  func : Bool
  /-- FUNC that only trap mode may use -/
  priv : Bool
  /-- OFFSET and SCALE are not used -/
  noOffset : Bool
  bad : List Nat
  deriving DecidableEq, Repr

/-- The checks of a format M slot (R33, R34). -/
def SpecM.check (x : SpecM) (env : CheckEnv) (f : FmtM) : List Failure :=
  x.data.check env 76 f.data.toNat ++ x.base.check env 66 f.base.toNat ++ x.index.check env 56 f.index.toNat ++
  x.aux.check env 46 f.aux.toNat ++ illOp 24 (x.noOffset && f.offset != 0) ++
  illOp 22 ((x.noOffset || f.index == 1023#10) && f.scale != 0) ++ illOp 21 (f.rsvHi != 0) ++
  illOp 13 (!x.widths.contains f.width.toNat) ++
  illOp 10 (if f.order = 0 then !x.plain else !x.orders.contains f.order.toNat) ++
  illOp 7 (if f.order = 0 then f.scope != 0 else !x.scopes.contains f.scope.toNat) ++
  illOp 3 (!x.func) ++ (if x.priv && !env.inTrap then [{ cause := .privilege, bit := 3, code := 0 }] else []) ++
  illOp 0 (f.rsvLo != 0) ++ (x.bad.map fun b => illOperand b true).flatten

/-- What an entry lists for a format B instruction. -/
structure SpecB where
  reg : Pos
  aux : Pos
  /-- AUX is a count up to the base block (R80) -/
  count : Bool
  offset : Bool
  always : Bool
  deriving DecidableEq, Repr

/-- The checks of a format B slot (R35, R74). -/
def SpecB.check (x : SpecB) (env : CheckEnv) (f : FmtB) : List Failure :=
  x.reg.check env 76 f.reg.toNat ++
  (if x.count then illOperand 66 (decide (env.base < f.aux.toNat)) else x.aux.check env 66 f.aux.toNat) ++
  illOp 56 (f.rsvHi != 0) ++ illOp 24 (!x.offset && f.offset != 0) ++ illOp 21 (f.rsvMid != 0) ++
  illOp 16 (x.always && f.guard != 0b11110#5) ++ illOp 8 (f.func != 0) ++ illOp 0 (f.rsvLo != 0)

/-- What an entry lists for a format I instruction. -/
structure SpecI where
  dst : Pos
  types : List Nat
  func : Bool
  imm : Bool
  deriving DecidableEq, Repr

/-- The checks of a format I slot (R32). -/
def SpecI.check (x : SpecI) (env : CheckEnv) (f : FmtI) : List Failure :=
  x.dst.check env 76 f.dst.toNat ++ illOp 66 (f.opa != 0) ++ illOp 56 (f.opb != 0) ++ illOp 24 (!x.imm) ++ illOp 21 (f.round != 0) ++
  illOp 12 (!x.types.contains f.ty.toNat) ++ illOp 4 (!x.func) ++ illOp 0 (f.rsv != 0)

/-- What an entry lists for a format E instruction. -/
structure SpecE where
  recd : Pos
  queue : Bool
  func : Bool
  /-- ILLEGAL_OP at STAMP, when a form takes none -/
  noStamp : Bool
  deriving DecidableEq, Repr

/-- The checks of a format E slot (R37, R268): a stamp and its value stand together; a value without a stamp fails at STAMP, a stamp without a value
at AUX (R43, log entry 69). -/
def SpecE.check (x : SpecE) (env : CheckEnv) (f : FmtE) : List Failure :=
  x.recd.check env 76 f.recd.toNat ++ illOp 66 (x.noStamp && f.stamp != 1023#10) ++ Pos.ssrc.opt.check env 66 f.stamp.toNat ++
  illOperand 66 (f.stamp == 1023#10 && f.aux != 1023#10) ++
  { Pos.ssrc.opt with c := true }.check env 56 f.aux.toNat ++ illOperand 56 (f.stamp != 1023#10 && f.aux == 1023#10) ++
  illOp 51 (!x.queue) ++ illOp 21 (f.rsvHi != 0) ++ illOp 8 (!x.func) ++ illOp 0 (f.rsvLo != 0)

/-! ## The tables -/

/-- Integer types of R27. -/
def intTypes : List Nat := [0, 1, 2, 4, 5, 6, 10, 11, 12, 13]
/-- s and n types. -/
def snTypes : List Nat := [1, 2, 5, 6, 10, 11, 12, 13]
/-- Float types. -/
def fTypes : List Nat := [3, 8, 9]
/-- Names of a value of a TYPE: 2 for a 64-bit TYPE. -/
def namesOf (ty : Nat) : Nat := if wide ty then 2 else 1
/-- The 32-bit type of the same signedness (R139). -/
def ty32 (ty : Nat) : Nat :=
  match ty with
  | 5 | 1 | 10 | 12 => 1
  | 6 | 2 | 11 | 13 => 2
  | _ => 0
/-- All of ROUND. -/
def allRounds : List Nat := [0, 1, 2, 3, 4, 5, 6, 7]

/-- A two-source instruction (R140, R153). -/
def spec2 (f : FmtA) (types rounds : List Nat) : SpecA :=
  let ty := f.ty.toNat
  let n := namesOf ty
  { SpecA.bare with dst := .vdst n n, a := .val n, b := .val n, ma := .any ty, mb := .any ty, types := types, dsub := .any,
                    rounds := rounds, func := f.func == 0 }
/-- A three-source instruction. -/
def spec3 (f : FmtA) (types rounds : List Nat) : SpecA :=
  { spec2 f types rounds with c := .val (namesOf f.ty.toNat), mc := .any f.ty.toNat }
/-- A one-source instruction. -/
def spec1 (f : FmtA) (types rounds : List Nat) : SpecA := { spec2 f types rounds with b := .unused, mb := .unused }
/-- A shift or a field extract: OPB is read at 32 bits. -/
def specShift (f : FmtA) (types : List Nat) : SpecA := { spec2 f types [0] with b := .val 1, mb := .any (ty32 f.ty.toNat) }
/-- Condition and combination of a compare. -/
def specCmp (f : FmtA) (types : List Nat) (conds : Nat) : SpecA :=
  let comb := f.func.toNat / 16
  { spec2 f types [0] with
    dst := .pdst
    c := if comb = 0 then .unused else .psrc
    mc := if comb = 0 then .unused else .zero
    dsub := .unused
    func := decide (f.func.toNat % 16 < conds) && decide (comb < 3) }
/-- A carry instruction (R142). -/
def specCarry (f : FmtA) : SpecA :=
  { spec2 f [2, 6] [0] with c := { Pos.psrc with also := [800, 801] }, mc := .zero, func := decide (f.func.toNat < 16) }
/-- An SFU instruction. -/
def specSfu (f : FmtA) : SpecA := { spec1 f [3] [0] with dsub := .zero }
/-- A shuffle of R170 or R177. -/
def specShuffle (f : FmtA) (func : Bool) : SpecA :=
  let n := namesOf f.ty.toNat
  { SpecA.bare with dst := .vdst n n, a := .val n, c := .val n, ma := .zero, mc := .zero, types := [0, 4], dsub := .zero, func := func }
/-- TYPEs of a reduction's op (R174). DESIGN CHOICE (log entry 84): an op 9 to 15, which R169 faults and for which R174 lists no TYPE, has none, so TYPE
fails beside FUNC, and TRAPINFO names TYPE, the higher field (R43). -/
def redTypes (op : Nat) : List Nat :=
  match op with
  | 0 | 1 | 2 => [1, 2, 5, 6]
  | 3 | 4 | 5 => [0, 4]
  | 6 | 7 | 8 => [3]
  | _ => []
/-- `lred` and `lscan`. -/
def specRed (f : FmtA) (func : Bool) : SpecA :=
  let n := namesOf f.ty.toNat
  { SpecA.bare with dst := .vdst n n, a := .val n, ma := .zero, types := redTypes (f.func.toNat % 16), dsub := .zero, func := func }
/-- `ddx` and `ddy`. -/
def specDd (f : FmtA) : SpecA := { spec1 f [3] [0, 1, 2, 3] with dsub := .zero, func := decide (f.func.toNat < 2) }
/-- `tsave` and `tload` (R374). -/
def specTsave (f : FmtA) : SpecA :=
  let n := f.opa.toNat
  let cnt := f.func.toNat + 1
  let pos : Pos :=
    if f.ty = 4 then { Pos.used0 with s := true, nok := true, slim := 128 } else { Pos.used0 with v := true }
  { SpecA.bare with a := pos, ma := .zero, types := [0, 4], always := true,
                    bad := if (f.ty = 0 ∧ n < 640 ∧ 256 < n + cnt) ∨ (f.ty = 4 ∧ 640 ≤ n ∧ n < 800 ∧ 128 < n - 640 + cnt) then [66] else [] }

/-- The TYPEs of `sreg` for a code: b64 for TRAPINFO, b32 or b64 for the other 64-bit registers CLOCK and TRAPPC, b32 for every other register
(R88, R102, R106; b32 of CLOCK and TRAPPC by log entry 16). -/
def sregTypes (code : Nat) : List Nat :=
  if code == 25 then [4] else if code == 12 || code == 23 then [0, 4] else [0]
/-- Is a special register's tag U (R88)? -/
def sregU (code : Nat) : Bool := !(code == 1 || code == 2 || code == 16 || code == 18)

/-- What the encoding tables list for a format A instruction; the others get the bare entry. A mov to an s register under a TYPE that is not 64-bit fails at
DST (R43, log entry 69), one to s128 or above, as R103's example has it, is ILLEGAL_OPERAND (R86, R102, log entry 72). -/
def specA (i : Instr) (f : FmtA) : SpecA :=
  let ty := f.ty.toNat
  let n := namesOf ty
  let fn := f.func.toNat
  match i with
  | .nop _ => { SpecA.bare with func := fn == 0 }
  | .join _ => { SpecA.bare with always := true, func := fn == 0 }
  | .exit _ => { SpecA.bare with func := fn == 0 }
  | .bar _ => { SpecA.bare with always := true, func := decide (1 ≤ fn) && decide (fn ≤ 5) }
  | .gbar _ => { SpecA.bare with always := true, func := fn == 0 }
  | .wait _ => { SpecA.bare with always := true, func := fn == 0 }
  | .trig _ => { SpecA.bare with func := fn == 0 }
  | .yield _ => { SpecA.bare with func := fn == 0 }
  | .tret _ =>
    { SpecA.bare with a := if fn = 3 then { Pos.used0 with k := true, read := true } else .unused
                      ma := if fn = 3 then .zero else .unused, always := true, func := decide (fn < 4) }
  | .brk _ => SpecA.bare
  | .mov _ =>
    let toS := decide (640 ≤ f.dst.toNat) && decide (f.dst.toNat < 888)
    { SpecA.bare with
      dst := { Pos.vdst n n with s := true, slim := 128 }
      a := { Pos.val n with v := !toS, lane := !toS }, ma := .any ty
      types := [0, 1, 2, 3, 4, 5, 6, 8, 9, 10, 11, 12, 13]
      dsub := if toS then .unused else .any, rounds := allRounds, func := fn == 0
      bad := if toS && !wide ty then [76] else [] }
  | .sel _ =>
    { SpecA.bare with
      dst := .vdst n n, a := .val n, b := .val n, c := .psrc, ma := .any ty, mb := .any ty, mc := .zero
      types := [0, 1, 2, 3, 4, 5, 6, 8, 9, 10, 11, 12, 13], dsub := .any, rounds := allRounds, func := fn == 0 }
  | .sreg _ =>
    let code := fn % 32
    let word := fn / 32
    let toS := decide (640 ≤ f.dst.toNat)
    { SpecA.bare with
      dst := { Pos.vdst n n with s := true, slim := 128 }
      types := sregTypes code
      dsub := if toS then .unused else .zero
      func := decide (code ≤ 25) && (word == 0 || code == 14 || code == 15 || code == 24 || (code == 25 && decide (word ≤ 1)))
      bad := if toS && !sregU code then [76] else [] }
  | .sset _ =>
    { SpecA.bare with dst := { Pos.used0 with s := true, write := true }, a := .val n, ma := .zero, types := [0, 1, 2, 4], func := fn == 0 }
  | .tag _ => { SpecA.bare with dst := .vdst 1 1, a := .vsrc 1 1, ma := .zero, dsub := .zero, func := fn == 0 }
  | .expand _ => { SpecA.bare with dst := { Pos.vdst 1 1 with read := true, write := false }, dsub := .zero, func := fn == 0 }
  | .xrel _ => { SpecA.bare with func := fn == 0 }
  | .tsave _ => specTsave f
  | .tload _ => { specTsave f with ma := .unused }
  | .pbool _ => { SpecA.bare with dst := .pdst, a := .psrc, b := .psrc, c := .psrc, ma := .zero, mb := .zero, mc := .zero }
  | .pmov _ =>
    if fn = 0 then { SpecA.bare with dst := .vdst 1 1, dsub := .zero }
    else { SpecA.bare with a := .vsrc 1 1, ma := .zero, func := fn == 1 }
  | .fclr _ =>
    if fn = 0 then { SpecA.bare with a := { Pos.ssrc with c := true }, ma := .zero } else { SpecA.bare with func := fn == 1 }
  | .add _ => spec2 f intTypes [0, 5]
  | .sub _ => spec2 f intTypes [0, 5]
  | .mul _ => spec2 f intTypes [0, 5]
  | .addc _ => specCarry f
  | .subb _ => specCarry f
  | .mulh _ => { spec2 f [1, 2, 5, 6] [0] with dsub := .zero }
  | .mad _ => spec3 f intTypes [0, 5]
  | .madw _ =>
    { spec3 f [5, 6] [0, 5] with
      dst := .vdst 2 2, a := .val 1, b := .val 1, ma := .any (ty32 ty), mb := .any (ty32 ty), mc := .sign ty, dsub := .zero }
  | .min _ => spec2 f snTypes [0, 5]
  | .max _ => spec2 f snTypes [0, 5]
  | .and _ => spec2 f [0, 4] [0]
  | .or _ => spec2 f [0, 4] [0]
  | .xor _ => spec2 f [0, 4] [0]
  | .andn _ => spec2 f [0, 4] [0]
  | .shl _ => specShift f [0, 4]
  | .shr _ => specShift f [0, 4]
  | .rot _ => specShift f [0, 4]
  | .sar _ => specShift f [1, 5]
  | .bfe _ => specShift f [1, 2, 5, 6]
  | .bfi _ => { spec3 f [0, 4] [0] with c := .val 1, mc := .any (ty32 ty) }
  | .popc _ => { spec1 f [0, 4] [0] with dst := .vdst 1 1, dsub := .zero }
  | .clz _ => { spec1 f [0, 4] [0] with dst := .vdst 1 1, dsub := .zero }
  | .ctz _ => { spec1 f [0, 4] [0] with dst := .vdst 1 1, dsub := .zero }
  | .brev _ => { spec1 f [0, 4] [0] with dsub := .zero }
  | .cmp _ => specCmp f [0, 1, 2, 4, 5, 6, 10, 11, 12, 13] 6
  | .lea _ =>
    { spec3 f [0, 4] [0] with
      b := .val 1, c := .val 1, mb := .any (ty32 ty), mc := .any (ty32 ty), func := fn == 0 || (fn == 1 && ty == 4) }
  | .dp4 _ => { spec3 f [1, 2] [0, 5] with ma := .zero, mb := .zero, func := decide (fn < 2) }
  | .dp2 _ => { spec3 f [1, 2] [0, 5] with ma := .zero, mb := .zero, func := decide (fn < 2) }
  | .sadd _ => spec2 f snTypes [0]
  | .ssub _ => spec2 f snTypes [0]
  | .prmt _ => { spec3 f [0] [0] with ma := .zero, mb := .zero, mc := .zero, dsub := .zero }
  | .fadd _ => spec2 f fTypes allRounds
  | .fmul _ => spec2 f fTypes allRounds
  | .ffma _ => spec3 f fTypes allRounds
  | .fmin _ => spec2 f fTypes allRounds
  | .fmax _ => spec2 f fTypes allRounds
  | .fcmp _ => specCmp f fTypes 8
  | .fclass _ => { spec1 f fTypes [0] with dsub := .zero }
  | .frnd _ => { spec1 f fTypes [0, 1, 2, 3] with dsub := if ty = 3 then .zero else .halves }
  | .fdot2 _ =>
    { spec3 f [3] allRounds with
      a := .vs 1, b := .vs 1, ma := .sign 3, mb := .sign 3, func := fn == 8 || fn == 9 }
  | .fscale _ => { spec2 f fTypes allRounds with mb := .any 1 }
  | .fexp _ => { spec1 f fTypes [0] with dsub := .zero, func := decide (fn < 2) }
  | .cvt _ =>
    let src := fn
    let ok := (fTypes.contains ty && ((fTypes.contains src && src != ty) || snTypes.contains src)) || (snTypes.contains ty && fTypes.contains src)
    { spec1 f [1, 2, 3, 5, 6, 8, 9, 10, 11, 12, 13] allRounds with a := .val (namesOf src), ma := .any src, func := ok }
  | .cvtp _ =>
    { spec2 f [8, 9, 10, 11] allRounds with ma := .any 3, mb := .any 3, dsub := .zero, func := fn == 0 || (fn == 1 && decide (10 ≤ ty)) }
  | .quant _ =>
    { spec3 f [1, 2, 10, 11, 12, 13] [0, 1, 2, 3, 4] with ma := .any fn, mb := .any 1, mc := .any 1, func := fTypes.contains fn }
  | .rcp _ => specSfu f
  | .rsq _ => specSfu f
  | .sqrt _ => specSfu f
  | .lg2 _ => specSfu f
  | .ex2 _ => specSfu f
  | .sinp _ => specSfu f
  | .cosp _ => specSfu f
  | .tanh _ => specSfu f
  | .shfl _ => { specShuffle f (decide (fn < 128)) with b := .val 1, mb := .zero }
  | .shfr _ => { specShuffle f (decide (fn < 16)) with b := .val 1, mb := .zero }
  | .vote _ => { SpecA.bare with dst := .vdst 1 1, a := .psrc, ma := .zero, dsub := .zero }
  | .ballot _ => { SpecA.bare with dst := .vdst n n, a := .psrc, ma := .zero, types := [0, 4], dsub := .zero, func := fn % 64 == 0 }
  | .matchLanes _ => { SpecA.bare with dst := .vdst 1 1, a := .val n, ma := .zero, types := [0, 4], dsub := .zero, func := fn % 64 == 0 }
  | .lred _ => specRed f (decide (fn ≤ 8))
  | .lscan _ => specRed f (decide (fn % 16 ≤ 8) && decide (fn < 32))
  | .qswap _ => specShuffle f (fn / 16 % 4 == 3 || decide (fn < 64))
  | .ddx _ => specDd f
  | .ddy _ => specDd f
  | .stbar _ => { SpecA.bare with func := decide (fn < 4) }
  | .ringq _ => { SpecA.bare with dst := .vdst 1 1, dsub := .zero, func := decide (fn < 4) }
  | .fence _ => { SpecA.bare with func := decide (1 ≤ fn % 8) && decide (fn % 8 ≤ 4) && decide (fn < 48) }
  | .qstat _ => { SpecA.bare with dst := .vdst 1 1, dsub := .zero, func := decide (fn < 8) }
  | .astat _ => { SpecA.bare with dst := .vdst 1 1, a := .vsc 1, ma := .zero, dsub := .zero, func := decide (fn < 4) }
  | .ard _ =>
    { SpecA.bare with dst := .vdst 1 1, a := .vsc 1, b := .val 1, c := .val 1, ma := .zero, mb := .zero, mc := .zero, dsub := .zero
                      func := fn == 0 }
  | .vemit _ => { SpecA.bare with a := .val 1, ma := .zero, func := fn == 0 }
  | .pemit _ => { SpecA.bare with a := .val 1, b := .val 1, ma := .zero, mb := .zero, func := fn == 0 }
  | .mcommit _ =>
    { SpecA.bare with a := .val 1, b := .val 1, c := .vs 2, ma := .zero, mb := .zero, mc := .zero, func := fn == 0 }
  | .ixbox _ =>
    { SpecA.bare with dst := .vdst 1 1, a := .vsrc 4 4, b := .vsrc 4 4, c := .vsrc 8 8, ma := .zero, mb := .zero, mc := .zero
                      types := [3], dsub := .zero, func := fn == 0 }
  | .ixtri _ =>
    { SpecA.bare with dst := .vdst 4 4, a := .vsrc 4 4, b := .vsrc 4 4, c := .vsrc 12 4, ma := .zero, mb := .zero, mc := .zero
                      types := [3], dsub := .zero, func := decide (fn < 16) }
  | .hitbin _ =>
    { SpecA.bare with a := .val 1, b := .vs 2, c := .vsrc 4 4, ma := .zero, mb := .zero, mc := .zero, func := fn == 0 }
  | .vtrel _ => { SpecA.bare with a := .vs 2, b := .val 1, ma := .zero, mb := .zero, func := fn == 0 }
  | _ => SpecA.bare

/-- What R74 lists for a format B instruction. -/
def specB (i : Instr) (f : FmtB) : SpecB :=
  match i with
  | .bra _ => { reg := .absent, aux := .absent, count := false, offset := true, always := false }
  | .brx _ => { reg := .vs 2, aux := .absent, count := false, offset := false, always := false }
  | .ret _ => { reg := .vs 2, aux := .absent, count := false, offset := false, always := false }
  | .call _ => { reg := .vdst 2 2, aux := .absent, count := false, offset := true, always := false }
  | .callx _ => { reg := .vdst 2 2, aux := .vs 2, count := false, offset := false, always := false }
  | _ =>
    { reg := { Pos.vsrc 2 2 with p := true }, aux := .absent, count := true
      offset := decide (864 ≤ f.reg.toNat) && decide (f.reg.toNat < 880), always := true }

/-- What R74, R102 and R374 list for a format I instruction. A movi to s128 or above, as R104's example has it, is ILLEGAL_OPERAND: only `sset` names a crew
constant as destination (R86, R102, log entry 72). -/
def specI (i : Instr) (f : FmtI) : SpecI :=
  match i with
  | .movi _ =>
    let n := namesOf f.ty.toNat
    { dst := { Pos.vdst n n with s := true, slim := 128 }, types := [0, 1, 2, 3, 4, 5, 6, 8, 9]
      func := f.func == 0 || (f.func == 1 && wide f.ty.toNat), imm := true }
  | .xacq _ => { dst := .unused, types := [0], func := f.func == 0, imm := decide (f.imm.toNat % 64 = 0 ∧ 64 ≤ f.imm.toNat ∧ f.imm.toNat ≤ 640) }
  | _ => { dst := .unused, types := [0], func := f.func == 0, imm := true }

/-- v names of data moved at a WIDTH (R34). -/
def widthNames (w : Nat) : Nat := if w = 5 then 2 else if w = 6 then 4 else 1
/-- Data of a load. -/
def dataDst (w : Nat) : Pos := .vdst (widthNames w) (widthNames w)
/-- The base of a global access. -/
def baseGlobal : Pos := (Pos.vs 2).opt
/-- The base of a scratch access. -/
def baseScratch : Pos := (Pos.vs 1).opt
/-- An index. -/
def indexPos : Pos := { (Pos.vs 1).opt with lane := true }
/-- A store's entry with plain or the orders given. -/
def specStore (f : FmtM) (orders : List Nat) (func : Bool) : SpecM :=
  { data := .vsc (widthNames f.width.toNat), base := baseGlobal, index := indexPos, aux := .absent, widths := [0, 1, 2, 3, 4, 5, 6]
    plain := true, orders := orders, scopes := [0, 1, 2, 3, 4, 5], func := func, priv := false, noOffset := false, bad := [] }
/-- An exact-sum cell's entry: DATA is one 32-bit register (R246). -/
def specCell (_ : FmtM) (orders : List Nat) (func : Bool) : SpecM :=
  { data := .vsc 1, base := baseGlobal, index := indexPos, aux := .absent, widths := [6]
    plain := true, orders := orders, scopes := [0, 1, 2, 3, 4, 5], func := func, priv := false, noOffset := false, bad := [] }

/-- What the tables list for a format M instruction. -/
def specM (i : Instr) (f : FmtM) : SpecM :=
  let w := f.width.toNat
  let n := widthNames w
  let fn := f.func.toNat
  let st := specStore f [2, 4] (decide (fn < 3))
  match i with
  | .lds _ => { st with data := dataDst w, base := baseScratch, orders := [1], scopes := [1, 2], func := fn == 0 }
  | .sts _ => { st with base := baseScratch, orders := [2], scopes := [1, 2], func := fn == 0 }
  | .atoms _ =>
    { st with data := { Pos.vdst n n with read := fn == 9, also := [800] }, base := baseScratch, aux := .vsc n, widths := [4, 5]
              orders := [1, 2, 3], scopes := [1, 2], func := decide (fn < 12) && !(fn == 10 && w == 5)
              bad := if fn = 9 ∧ f.data = 800#10 then [76] else [] }
  | .ld _ =>
    let toS := decide (640 ≤ f.data.toNat) && decide (f.data.toNat < 888)
    { st with data := { dataDst w with s := true, slim := 128, salign := if w = 6 then 2 else 1 }
              base := if toS then Pos.ssrc.opt else baseGlobal, index := if toS then Pos.ssrc.opt else indexPos
              orders := [1, 4] }
  | .st _ => st
  | .cst _ =>
    { st with data := .vsrc n n, base := Pos.ssrc.opt, index := Pos.ssrc.opt, widths := [4, 5], orders := [], func := fn == 0 }
  | .xld _ =>
    let d := f.data.toNat
    let c := f.aux.toNat
    { st with data := dataDst w, base := Pos.ssrc.opt, index := Pos.ssrc.opt, aux := if fn = 1 then .vdst 1 1 else .absent
              widths := [4, 5], orders := [], func := decide (fn < 2), bad := if fn = 1 ∧ d ≤ c ∧ c < d + n then [46] else [] }
  | .pref _ => { st with data := { Pos.used0 with also := [800] }, widths := [0], orders := [] }
  | .mwait _ =>
    { st with data := { Pos.vdst 2 2 with also := [800] }, aux := .vsc 2, widths := [5], plain := false, orders := [1], func := decide (fn < 2) }
  | .cctl _ =>
    { st with data := { Pos.used0 with also := [800] }, widths := [0], orders := []
              func := decide (fn < 4) || fn == 8 || fn == 9 || fn == 10, priv := fn == 8 || fn == 9 || fn == 10 }
  | .atom _ =>
    { st with data := { Pos.vdst n n with read := fn == 9 }, aux := .vsc n, widths := [4, 5], orders := [1, 2, 3, 4]
              func := decide (fn < 12) && !(fn == 10 && w == 5) }
  | .red _ => { st with widths := [4, 5], orders := [2], func := decide (fn < 8) || (fn == 10 && w != 5) }
  | .xsadd _ => specCell f [2] (fn == 0)
  | .xsclr _ => specCell f [2] (fn == 0)
  | .xsrd _ =>
    { specCell f (if 8 ≤ fn then [1, 2, 3] else [1]) (decide (fn % 8 ≤ 4)) with data := .vdst 1 1, aux := Pos.pdst.opt }
  | .vtld _ =>
    { st with data := .vdst (if fn = 0 then 2 else 1) (if fn = 0 then 2 else 1), base := .vs 2, index := .vs 1
              widths := if fn = 0 then [5] else [4], orders := [], noOffset := true }
  | _ => st

/-- What R268 and R287 list for a format E instruction. -/
def specE (i : Instr) (f : FmtE) : SpecE :=
  let reg : Pos := { Pos.ssrc with salign := 4, nok := true }
  let fn := f.func.toNat
  match i with
  | .lcopy _ => { recd := reg, queue := decide (f.queue.toNat < 4), func := fn == 0, noStamp := false }
  | .lput _ => { recd := reg, queue := decide (f.queue.toNat < 4), func := fn == 0, noStamp := false }
  | .lcode _ => { recd := reg, queue := decide (f.queue.toNat < 4), func := fn == 0, noStamp := false }
  | .qfence _ =>
    let drop := fn / 4 % 2 == 1
    { recd := .absent, queue := f.queue != 0 && !(drop && decide (16 ≤ f.queue.toNat))
      func := decide (fn / 8 < 6) && !(drop && fn / 8 != 0), noStamp := drop }
  | _ => { recd := reg, queue := f.queue == 0, func := fn == 0, noStamp := false }

/-! ## Every instruction's fields -/

/-- The format record an instruction carries. -/
inductive Fmt where
  | a (f : FmtA)
  | i (f : FmtI)
  | m (f : FmtM)
  | b (f : FmtB)
  | p (f : FmtP)
  | e (f : FmtE)
  /-- an event of the device -/
  | event
  deriving DecidableEq, Repr

/-- The format record of an instruction. -/
def fmtOf (i : Instr) : Fmt :=
  match i with
  | .nop f => .a f
  | .join f => .a f
  | .exit f => .a f
  | .bar f => .a f
  | .gbar f => .a f
  | .wait f => .a f
  | .trig f => .a f
  | .yield f => .a f
  | .tret f => .a f
  | .brk f => .a f
  | .mov f => .a f
  | .sel f => .a f
  | .sreg f => .a f
  | .sset f => .a f
  | .tag f => .a f
  | .expand f => .a f
  | .xrel f => .a f
  | .tsave f => .a f
  | .tload f => .a f
  | .pbool f => .a f
  | .pmov f => .a f
  | .fclr f => .a f
  | .add f => .a f
  | .sub f => .a f
  | .addc f => .a f
  | .subb f => .a f
  | .mul f => .a f
  | .mulh f => .a f
  | .mad f => .a f
  | .madw f => .a f
  | .min f => .a f
  | .max f => .a f
  | .and f => .a f
  | .or f => .a f
  | .xor f => .a f
  | .andn f => .a f
  | .shl f => .a f
  | .shr f => .a f
  | .sar f => .a f
  | .rot f => .a f
  | .bfe f => .a f
  | .bfi f => .a f
  | .popc f => .a f
  | .clz f => .a f
  | .ctz f => .a f
  | .brev f => .a f
  | .cmp f => .a f
  | .lea f => .a f
  | .dp4 f => .a f
  | .dp2 f => .a f
  | .sadd f => .a f
  | .ssub f => .a f
  | .prmt f => .a f
  | .fadd f => .a f
  | .fmul f => .a f
  | .ffma f => .a f
  | .fmin f => .a f
  | .fmax f => .a f
  | .fcmp f => .a f
  | .fclass f => .a f
  | .frnd f => .a f
  | .fdot2 f => .a f
  | .fscale f => .a f
  | .fexp f => .a f
  | .cvt f => .a f
  | .cvtp f => .a f
  | .quant f => .a f
  | .rcp f => .a f
  | .rsq f => .a f
  | .sqrt f => .a f
  | .lg2 f => .a f
  | .ex2 f => .a f
  | .sinp f => .a f
  | .cosp f => .a f
  | .tanh f => .a f
  | .shfl f => .a f
  | .shfr f => .a f
  | .vote f => .a f
  | .ballot f => .a f
  | .matchLanes f => .a f
  | .lred f => .a f
  | .lscan f => .a f
  | .qswap f => .a f
  | .ddx f => .a f
  | .ddy f => .a f
  | .stbar f => .a f
  | .ringq f => .a f
  | .fence f => .a f
  | .qstat f => .a f
  | .astat f => .a f
  | .ard f => .a f
  | .vemit f => .a f
  | .pemit f => .a f
  | .mcommit f => .a f
  | .ixbox f => .a f
  | .ixtri f => .a f
  | .hitbin f => .a f
  | .vtrel f => .a f
  | .sleep f => .i f
  | .trap f => .i f
  | .movi f => .i f
  | .xacq f => .i f
  | .bra f => .b f
  | .brx f => .b f
  | .call f => .b f
  | .callx f => .b f
  | .ret f => .b f
  | .reform f => .b f
  | .lds f => .m f
  | .sts f => .m f
  | .atoms f => .m f
  | .ld f => .m f
  | .st f => .m f
  | .cst f => .m f
  | .xld f => .m f
  | .pref f => .m f
  | .mwait f => .m f
  | .cctl f => .m f
  | .atom f => .m f
  | .red f => .m f
  | .xsadd f => .m f
  | .xsrd f => .m f
  | .xsclr f => .m f
  | .vtld f => .m f
  | .lcopy f => .e f
  | .lput f => .e f
  | .lcode f => .e f
  | .qfence f => .e f
  | .mma f => .e f
  | .mwld f => .e f
  | .mst f => .e f
  | .mzero f => .e f
  | .rep f => .p f
  | _ => .event

/-- `tret`, `tsave` and `tload` may be issued in trap mode only (R41, R374). -/
def privileged (i : Instr) : Bool :=
  match i with
  | .tret _ => true
  | .tsave _ => true
  | .tload _ => true
  | _ => false

/-- Instructions that trap ILLEGAL_OP in trap mode (R367), at OPCODE (R43, log entry 69). -/
def notInTrap (i : Instr) : Bool :=
  match i with
  | .exit _ => true
  | .join _ => true
  | .reform _ => true
  | .bar _ => true
  | .gbar _ => true
  | .wait _ => true
  | .sleep _ => true
  | .yield _ => true
  | .trap _ => true
  | _ => false

/-- Every failing check of a slot, fields from the high bits to the low (R42). -/
def checks (env : CheckEnv) (i : Instr) : List Failure :=
  illOp 86 (notInTrap i && env.inTrap) ++
  (if privileged i && !env.inTrap then [{ cause := .privilege, bit := 86, code := 0 }] else []) ++
  match fmtOf i with
  | .a f => (specA i f).check env f
  | .i f => (specI i f).check env f
  | .m f => (specM i f).check env f
  | .b f => (specB i f).check env f
  | .e f => (specE i f).check env f
  | .p f => illOp 95 (f.m != 0) ++ illOp 21 (f.rsvHi != 0) ++ illOp 0 (f.rsvLo != 0)
  | .event => []

/-- A failing check comes before another: by the order of causes, and within one cause by the field, from the high bits to the low (R43). -/
def Failure.before (f g : Failure) : Bool := decide (f.cause.rank < g.cause.rank) || (f.cause == g.cause && decide (g.bit < f.bit))
/-- The failing check that traps (R43): none comes before it; of several on one field the first. -/
def firstFailure (l : List Failure) : Option Failure :=
  l.foldr (fun f best => match best with
    | none => some f
    | some g => if g.before f then some g else some f) none

/-- The check that traps, if any. -/
def failing (env : CheckEnv) (i : Instr) : Option Failure := firstFailure (checks env i)

/-- TRAPINFO of a failing check (R369); `bound` says that it is the bound instruction of a pair. -/
def Failure.info (f : Failure) (bound : Bool) : BitVec 128 :=
  let b := if bound then 512 else 0
  match f.cause with
  | .unnamedReg => BitVec.ofNat 128 (f.code + b * 2 ^ 64)
  | _ => BitVec.ofNat 128 (f.bit + b)

/-! ## Classes (R58, R61) -/

/-- Long instructions (R58). -/
def isLong (i : Instr) : Bool :=
  match i with
  | .rcp _ | .rsq _ | .sqrt _ | .lg2 _ | .ex2 _ | .sinp _ | .cosp _ | .tanh _ => true
  | .shfl _ | .shfr _ | .vote _ | .ballot _ | .matchLanes _ | .lred _ | .lscan _ | .qswap _ | .ddx _ | .ddy _ => true
  | .ld _ | .xld _ | .lds _ | .vtld _ | .ard _ | .xsrd _ | .atom _ => true
  | .mwait f => f.data != 800#10
  | .atoms f => f.data != 800#10
  | .tag _ | .qstat _ | .astat _ | .ringq _ | .ixbox _ | .ixtri _ | .tload _ => true
  | _ => false

/-- Instructions that act as a stop marker placed on themselves (R61, R236, R377). -/
def implicitMarker (i : Instr) : Bool :=
  match i with
  | .yield _ | .sleep _ | .join _ | .reform _ | .bar _ | .exit _ | .gbar _ | .wait _ | .tret _ => true
  | _ => false

/-- Long instructions whose entry lists IV among their flags: under FP_INVALID they act as if marked (R129). -/
def longIV (i : Instr) : Bool :=
  match i with
  | .rcp _ | .rsq _ | .sqrt _ | .lg2 _ | .ex2 _ | .sinp _ | .cosp _ | .tanh _ | .ddx _ | .ddy _ => true
  | .lred f => decide (6 ≤ f.func.toNat % 16)
  | .lscan f => decide (6 ≤ f.func.toNat % 16)
  | .atoms f => f.func == 10#4 && f.data != 800#10
  | _ => false

/-! ## Registers read and written, by operand code (R60, R62) -/

/-- The names an operand code spans. -/
def span (code n : Nat) : List Nat := if code < 640 then (List.range n).map (code + ·) else [code]

/-- A position's code may stand for a name that can be pending: v names, s0 to s127, predicates but p15, k registers. -/
def Pos.named (x : Pos) (code : Nat) : Bool :=
  x.used && (decide (code < 768) || (x.p && decide (code < 879)) || (decide (880 ≤ code) && decide (code < 888))) && !x.also.contains code
/-- The pending names a position reads. -/
def Pos.reads (x : Pos) (code : Nat) : List Nat := if x.read && x.named code then span code (max x.names 1) else []
/-- The names a position writes. -/
def Pos.writes (x : Pos) (code : Nat) : List Nat := if x.write && x.named code then span code (max x.names 1) else []

/-- The guard's predicate, when it is not p15 (R22). -/
def guardReads (g : BitVec 5) : List Nat := if g.toNat / 2 < 15 then [864 + g.toNat / 2] else []

/-- The predicate numbered in FUNC[3:0], when it is not p15. -/
def funcPred (fn : Nat) : List Nat := if fn % 16 < 15 then [864 + fn % 16] else []

/-- Predicates written through FUNC (R142, R170, R171, R177, R334) or by `pmov.set`. -/
def extraWrites (i : Instr) : List Nat :=
  match i with
  | .addc f => funcPred f.func.toNat
  | .subb f => funcPred f.func.toNat
  | .shfl f => funcPred f.func.toNat
  | .shfr f => funcPred f.func.toNat
  | .vote f => funcPred f.func.toNat
  | .qswap f => funcPred f.func.toNat
  | .ixtri f => funcPred f.func.toNat
  | .pmov f => if f.func = 1 then (List.range 15).map (864 + ·) else []
  | .tload f => (List.range (f.func.toNat + 1)).map (f.opa.toNat + ·)
  | _ => []

/-- Registers read besides the operand fields: all predicates by `pmov`; what a `tsave` saves; the record of an enqueue; s pairs of a
16-byte store; what a partial field write keeps. -/
def extraReads (i : Instr) : List Nat :=
  match i with
  | .pmov f => if f.func = 0 then (List.range 15).map (864 + ·) else []
  | .tsave f => (List.range (f.func.toNat + 1)).map (f.opa.toNat + ·)
  | .lcopy f => (List.range 4).map (f.recd.toNat + ·)
  | .lput f => (List.range 4).map (f.recd.toNat + ·)
  | .lcode f => [f.recd.toNat]
  | .mma f => (List.range 4).map (f.recd.toNat + ·)
  | .mwld f => (List.range 4).map (f.recd.toNat + ·)
  | .mst f => (List.range 4).map (f.recd.toNat + ·)
  | .mzero f => (List.range 4).map (f.recd.toNat + ·)
  | .cvtp f => if 10 ≤ f.ty.toNat then [f.dst.toNat] else []
  | .st f | .sts f => if f.width = 6 ∧ 640 ≤ f.data.toNat then Pos.ssrc.reads (f.data.toNat + 1) else []
  | _ => []

/-- Names of the OPC group that the ray tests do not read, by their place in it (R333, R334). -/
def unreadC (i : Instr) : List Nat :=
  match i with
  | .ixbox _ => [6, 7]
  | .ixtri _ => [3, 7, 11]
  | _ => []

/-- Names of the DST group an instruction leaves unchanged, by their place in it (R334). -/
def unwritten (i : Instr) : List Nat :=
  match i with
  | .ixtri _ => [3]
  | _ => []

/-- Names an instruction reads, in field order. -/
def readNames (i : Instr) : List Nat :=
  (match fmtOf i with
   | .a f =>
     let x := specA i f
     (if f.dsub != 0 && decide (f.dst.toNat < 640) then [f.dst.toNat] else []) ++
     x.dst.reads f.dst.toNat ++ x.a.reads f.opa.toNat ++ x.b.reads f.opb.toNat ++
     ((x.c.reads f.opc.toNat).filter fun n => !(unreadC i).contains (n - f.opc.toNat)) ++ guardReads f.guard
   | .i f => (if f.func == 1 && decide (640 ≤ f.dst.toNat) && decide (f.dst.toNat < 768) then [f.dst.toNat] else []) ++ guardReads f.guard
   | .m f =>
     let x := specM i f
     x.data.reads f.data.toNat ++ x.base.reads f.base.toNat ++ x.index.reads f.index.toNat ++ x.aux.reads f.aux.toNat ++ guardReads f.guard
   | .b f => (specB i f).reg.reads f.reg.toNat ++ (if (specB i f).count then [] else (specB i f).aux.reads f.aux.toNat) ++ guardReads f.guard
   | .e f => Pos.ssrc.reads f.stamp.toNat ++ Pos.ssrc.reads f.aux.toNat ++ guardReads f.guard
   | _ => []) ++ extraReads i

/-- Names an instruction writes. -/
def writeNames (i : Instr) : List Nat :=
  (match fmtOf i with
   | .a f =>
     ((specA i f).dst.writes f.dst.toNat).filter fun n => !(unwritten i).contains (n - f.dst.toNat)
   | .i f =>
     let x := specI i f
     if f.func == 1 && decide (f.dst.toNat < 640) then [f.dst.toNat + 1] else x.dst.writes f.dst.toNat
   | .m f =>
     let x := specM i f
     let pair := if decide (640 ≤ f.data.toNat) && f.width == 6 then x.data.writes (f.data.toNat + 1) else []
     x.data.writes f.data.toNat ++ pair ++ x.aux.writes f.aux.toNat
   | .b f => (specB i f).reg.writes f.reg.toNat
   | _ => []) ++ extraWrites i

end Sys2Proof.Machine
end

