-- ==== Sys2Proof/Machine/Flags.lean ====
section
/-! DEFINITION. Number formats, rounding and the sticky flags (05_number_formats.md, R115 to R125): exact dyadic values, one rounding, and
the FLAGS bits each rounding sets. -/

namespace Sys2Proof.Machine

/-- FLAGS bits (R88, R127). -/
abbrev Flags := BitVec 5
/-- IV -/
def flagIV : Flags := 1#5
/-- OF -/
def flagOF : Flags := 2#5
/-- UF -/
def flagUF : Flags := 4#5
/-- SAT -/
def flagSAT : Flags := 8#5
/-- MNAN -/
def flagMNAN : Flags := 16#5

/-- A float format: width, significand bits p, bias (R117). -/
structure FFmt where
  bits : Nat
  p : Nat
  bias : Nat
  deriving DecidableEq, Repr

/-- f32 -/
def f32 : FFmt := { bits := 32, p := 24, bias := 127 }
/-- f16 -/
def f16 : FFmt := { bits := 16, p := 11, bias := 15 }
/-- bf16 -/
def bf16 : FFmt := { bits := 16, p := 8, bias := 127 }

/-- Exponent bits of a format. -/
def FFmt.ebits (f : FFmt) : Nat := f.bits - f.p
/-- The exponent field of all ones. -/
def FFmt.emax (f : FFmt) : Nat := 2 ^ f.ebits - 1
/-- The exponent of the last place of a subnormal. -/
def FFmt.elow (f : FFmt) : Int := 1 - (f.bias : Int) - ((f.p : Int) - 1)
/-- The encoding of an infinity. -/
def FFmt.inf (f : FFmt) (neg : Bool) : Nat := (if neg then 2 ^ (f.bits - 1) else 0) + f.emax * 2 ^ (f.p - 1)
/-- The canonical NaN (R6, R118). -/
def FFmt.nan (f : FFmt) : Nat := f.emax * 2 ^ (f.p - 1) + 2 ^ (f.p - 2)
/-- The largest finite value's encoding. -/
def FFmt.big (f : FFmt) (neg : Bool) : Nat := f.inf neg - 1
/-- A zero. -/
def FFmt.zero (f : FFmt) (neg : Bool) : Nat := if neg then 2 ^ (f.bits - 1) else 0

/-- What an encoding holds (R118): a finite value is ±m · 2^e. -/
inductive FVal where
  | nan (signalling : Bool)
  | inf (neg : Bool)
  | fin (neg : Bool) (m : Nat) (e : Int)
  deriving DecidableEq, Repr

/-- Sign bit, exponent field and fraction of an encoding. -/
def FFmt.fields (f : FFmt) (x : Nat) : Bool × Nat × Nat :=
  (x / 2 ^ (f.bits - 1) % 2 == 1, x / 2 ^ (f.p - 1) % 2 ^ f.ebits, x % 2 ^ (f.p - 1))

/-- Read an encoding (R118); under flush to zero a subnormal is a zero of its sign (R121). -/
def FFmt.read (f : FFmt) (ftz : Bool) (x : Nat) : FVal :=
  let (neg, e, m) := f.fields x
  if e = f.emax then (if m = 0 then .inf neg else .nan (m / 2 ^ (f.p - 2) % 2 == 0))
  else if e = 0 then (if ftz then .fin neg 0 0 else .fin neg m f.elow)
  else .fin neg (2 ^ (f.p - 1) + m) ((e : Int) - f.bias - (f.p - 1))

/-- An exact result: a NaN (with or without an invalid operation), an infinity, or ±(m + δ) · 2^e with δ = 0, or 0 < δ < 1 when `more`;
a result with `more` carries enough bits for one rounding. -/
inductive FRes where
  | nan (iv : Bool)
  | inf (neg : Bool)
  | num (neg : Bool) (m : Nat) (e : Int) (more : Bool)
  deriving DecidableEq, Repr

/-- Rounding modes (R29, R122). -/
inductive RMode where
  | rne
  | rtz
  | rdn
  | rup
  | odd
  deriving DecidableEq, Repr

/-- The mode of a ROUND code and whether it saturates (R29). -/
def roundMode (code : Nat) : RMode × Bool :=
  match code with
  | 0 => (.rne, false)
  | 1 => (.rtz, false)
  | 2 => (.rdn, false)
  | 3 => (.rup, false)
  | 4 => (.odd, false)
  | 5 => (.rne, true)
  | 6 => (.odd, true)
  | _ => (.rtz, true)

/-- Bits of a natural number. -/
def bitLen (n : Nat) : Nat := if n = 0 then 0 else Nat.log2 n + 1

/-- The neighbour R122 chooses on a grid: `q` whole steps, remainder `rem` out of `2^sh`, `more` beyond it; the Bool says inexact. -/
def pickNeighbour (mode : RMode) (neg : Bool) (q rem sh : Nat) (more : Bool) : Nat × Bool :=
  let inexact := rem != 0 || more
  let half := 2 ^ sh
  let up :=
    match mode with
    | .rne => decide (2 * rem > half) || (2 * rem == half && (more || q % 2 == 1))
    | .rtz => false
    | .rdn => neg && inexact
    | .rup => !neg && inexact
    | .odd => inexact && q % 2 == 0
  (if up then q + 1 else q, inexact)

/-- m · 2^e (with `more`) on the grid of step 2^g: quotient and inexactness. -/
def toGrid (mode : RMode) (neg : Bool) (m : Nat) (e g : Int) (more : Bool) : Nat × Bool :=
  if g ≤ e then pickNeighbour mode neg (m * 2 ^ (e - g).toNat) 0 0 more
  else
    let sh := (g - e).toNat
    pickNeighbour mode neg (m / 2 ^ sh) (m % 2 ^ sh) sh more

/-- Round a finite value once into a float format (R122, R123, R125, R121): the encoding and the flags. -/
def roundNum (f : FFmt) (code : Nat) (ftz neg : Bool) (m : Nat) (e : Int) (more : Bool) : Nat × Flags :=
  let (mode, sat) := roundMode code
  let sign := f.zero neg
  if m = 0 && !more then (sign, 0)
  else
    let top := e + bitLen m                       -- 2^(top-1) ≤ value < 2^top
    let g0 := top - f.p                           -- grid with p bits, unbounded exponents
    let g := max g0 f.elow
    let (q, inexact) := toGrid mode neg m e g more
    let (q0, _) := toGrid mode neg m e g0 more
    -- below the smallest normal after rounding with unbounded exponents
    let tiny := decide (g0 + (bitLen q0 : Int) < f.elow + f.p)
    let uf := tiny && inexact
    let (q, g) := if q = 2 ^ f.p then (q / 2, g + 1) else (q, g)
    if q < 2 ^ (f.p - 1) then                     -- subnormal or zero
      if ftz && q != 0 then (sign, flagUF) else (sign + q, if uf then flagUF else 0)
    else
      let ef := g - f.elow + 1
      if ef ≥ f.emax then
        if sat then (f.big neg, flagSAT)
        else
          let toInf := match mode with
            | .rne => true
            | .rtz => false
            | .odd => false
            | .rdn => neg
            | .rup => !neg
          (if toInf then f.inf neg else f.big neg, flagOF)
      else (sign + ef.toNat * 2 ^ (f.p - 1) + (q - 2 ^ (f.p - 1)), if uf then flagUF else 0)

/-- Round a result into a float format: NaN is canonical (R119), an infinity stays (R123). -/
def roundTo (f : FFmt) (code : Nat) (ftz : Bool) (r : FRes) : Nat × Flags :=
  match r with
  | .nan iv => (f.nan, if iv then flagIV else 0)
  | .inf neg => (f.inf neg, 0)
  | .num neg m e more => roundNum f code ftz neg m e more

/-- Clamp an integer to a range (sat of R6): the value and SAT. -/
def clampInt (lo hi x : Int) : Int × Flags := if x < lo then (lo, flagSAT) else if hi < x then (hi, flagSAT) else (x, 0)

/-- Least and greatest value of an n-bit field. -/
def intRange (signed : Bool) (n : Nat) : Int × Int :=
  if signed then (-(2 ^ (n - 1) : Int), (2 ^ (n - 1) : Int) - 1) else (0, (2 ^ n : Int) - 1)

/-- An exact finite value rounded to an integer (R122). -/
def roundInt (mode : RMode) (neg : Bool) (m : Nat) (e : Int) (more : Bool) : Int :=
  let q := (toGrid mode neg m e 0 more).1
  if neg then -(q : Int) else q

/-- A float result rounded and clamped to an integer field (R124): NaN gives 0 and IV, an infinity an end of the range and SAT. -/
def toIntField (code : Nat) (signed : Bool) (n : Nat) (r : FRes) : Int × Flags :=
  let (lo, hi) := intRange signed n
  match r with
  | .nan _ => (0, flagIV)
  | .inf neg => (if neg then lo else hi, flagSAT)
  | .num neg m e more => clampInt lo hi (roundInt (roundMode code).1 neg m e more)

/-! ## Exact arithmetic on values -/

/-- The value of a source as a result; a signalling NaN is an invalid operation (R119). -/
def FVal.res : FVal → FRes
  | .nan s => .nan s
  | .inf n => .inf n
  | .fin n m e => .num n m e false

/-- A NaN among two sources: quiet unless one is signalling. -/
def nanOf (a b : FVal) : Option Bool :=
  match a, b with
  | .nan x, .nan y => some (x || y)
  | .nan x, _ => some x
  | _, .nan y => some y
  | _, _ => none

/-- Sign and magnitude of an exact sum of ±m1·2^e1 and ±m2·2^e2; a cancelled sum is +0, or −0 under RDN (R120). -/
def addFin (rdn : Bool) (n1 : Bool) (m1 : Nat) (e1 : Int) (n2 : Bool) (m2 : Nat) (e2 : Int) : FRes :=
  let e := min e1 e2
  let a := m1 * 2 ^ (e1 - e).toNat
  let b := m2 * 2 ^ (e2 - e).toNat
  if n1 = n2 then .num n1 (a + b) e false
  else if a = b then .num rdn 0 e false
  else if b < a then .num n1 (a - b) e false
  else .num n2 (b - a) e false

/-- Exact sum. Two zeros of one sign keep it. -/
def addVal (rdn : Bool) (a b : FVal) : FRes :=
  match nanOf a b with
  | some iv => .nan iv
  | none =>
    match a, b with
    | .inf x, .inf y => if x = y then .inf x else .nan true
    | .inf x, _ => .inf x
    | _, .inf y => .inf y
    | .fin n1 m1 e1, .fin n2 m2 e2 => addFin rdn n1 m1 e1 n2 m2 e2
    | _, _ => .nan false

/-- A finite or infinite value as a value again (results without `more`). -/
def FRes.val : FRes → FVal
  | .nan iv => .nan iv
  | .inf n => .inf n
  | .num n m e _ => .fin n m e

/-- Exact product. -/
def mulVal (a b : FVal) : FRes :=
  match nanOf a b with
  | some iv => .nan iv
  | none =>
    match a, b with
    | .inf x, .inf y => .inf (x != y)
    | .inf x, .fin y m _ => if m = 0 then .nan true else .inf (x != y)
    | .fin x m _, .inf y => if m = 0 then .nan true else .inf (x != y)
    | .fin x m e, .fin y k d => .num (x != y) (m * k) (e + d) false
    | _, _ => .nan false

/-- Exact a·b + c. 0·∞ is invalid whatever c holds. -/
def fmaVal (rdn : Bool) (a b c : FVal) : FRes :=
  match mulVal a b with
  | .nan iv => match c with
    | .nan s => .nan (iv || s)
    | _ => .nan iv
  | p => addVal rdn p.val c

/-- Negation of a value. -/
def FVal.negate : FVal → FVal
  | .nan s => .nan s
  | .inf n => .inf (!n)
  | .fin n m e => .fin (!n) m e

/-- An integer as an exact value. -/
def FVal.ofInt (x : Int) : FVal := .fin (decide (x < 0)) x.natAbs 0

/-- The exact quotient of two nonzero finite values to `k` bits and `more`. -/
def divFin (n1 : Bool) (m1 : Nat) (e1 : Int) (n2 : Bool) (m2 : Nat) (e2 : Int) (k : Nat) : FRes :=
  .num (n1 != n2) (m1 * 2 ^ k / m2) (e1 - e2 - k) (m1 * 2 ^ k % m2 != 0)

/-- Compare two finite values: −1, 0 or 1. -/
def cmpFin (n1 : Bool) (m1 : Nat) (e1 : Int) (n2 : Bool) (m2 : Nat) (e2 : Int) : Int :=
  let e := min e1 e2
  let a : Int := (m1 * 2 ^ (e1 - e).toNat : Nat)
  let b : Int := (m2 * 2 ^ (e2 - e).toNat : Nat)
  let x := if n1 then -a else a
  let y := if n2 then -b else b
  if x < y then -1 else if x = y then 0 else 1

/-- Compare two values that are not NaN: −1, 0 or 1; the two zeros are equal. -/
def cmpVal (a b : FVal) : Int :=
  match a, b with
  | .inf x, .inf y => if x = y then 0 else if x then -1 else 1
  | .inf x, _ => if x then -1 else 1
  | _, .inf y => if y then 1 else -1
  | .fin n1 m1 e1, .fin n2 m2 e2 => cmpFin n1 m1 e1 n2 m2 e2
  | _, _ => 0

/-- Sign of a value; a NaN reads as positive. -/
def FVal.neg : FVal → Bool
  | .nan _ => false
  | .inf n => n
  | .fin n _ _ => n

/-- Is the value a NaN? -/
def FVal.isNan : FVal → Bool
  | .nan _ => true
  | _ => false

/-- Is the value a signalling NaN? -/
def FVal.isSnan : FVal → Bool
  | .nan s => s
  | _ => false

/-- f32 RNE operations on encodings without flush to zero, as the raster units, the engines and memory use them (R306, R238). -/
def f32Add (a b : Nat) : Nat := (roundTo f32 0 false (addVal false (f32.read false a) (f32.read false b))).1
/-- f32 RNE product -/
def f32Mul (a b : Nat) : Nat := (roundTo f32 0 false (mulVal (f32.read false a) (f32.read false b))).1
/-- f32 RNE fused multiply-add -/
def f32Fma (a b c : Nat) : Nat := (roundTo f32 0 false (fmaVal false (f32.read false a) (f32.read false b) (f32.read false c))).1
/-- f32 RNE difference -/
def f32Sub (a b : Nat) : Nat := (roundTo f32 0 false (addVal false (f32.read false a) (f32.read false b).negate)).1

/-- Exact quotient of two values (raster division and `rcp`): x / 0 is an infinity, 0 / 0 and ∞ / ∞ are invalid. -/
def divVal (a b : FVal) : FRes :=
  match nanOf a b with
  | some iv => .nan iv
  | none =>
    match a, b with
    | .inf _, .inf _ => .nan true
    | .inf x, .fin y _ _ => .inf (x != y)
    | .fin x _ _, .inf y => .num (x != y) 0 0 false
    | .fin x m e, .fin y k d =>
      if k = 0 then (if m = 0 then .nan true else .inf (x != y))
      else if m = 0 then .num (x != y) 0 0 false
      else divFin x m e y k d (64 + bitLen k)
    | _, _ => .nan false
/-- f32 RNE quotient -/
def f32Div (a b : Nat) : Nat := (roundTo f32 0 false (divVal (f32.read false a) (f32.read false b))).1

end Sys2Proof.Machine
end

