-- ==== Sys2Proof/Decode.lean ====
section
/-! DEFINITION. Decoding one 96-bit slot and its inverse: the bit positions of R25, R32, R33, R35, R36, R37 and the opcode map of
R41. Decoding keeps every bit of a slot whose opcode is assigned; what a wrong field then does is the instruction's own check
(R26, R42). -/

namespace Sys2Proof

/-- Why a slot is no instruction (R41, R42), or why bytes are no slot. -/
inductive DecodeError where
  /-- the OPCODE is not in the map of R41 (0x000 included): the slot traps ILLEGAL_OP -/
  | unassignedOpcode (op : BitVec 9)
  /-- fewer than 12 bytes were given -/
  | tooShort
  deriving DecidableEq, Repr

/-- The fields of a FmtA slot, at the bit positions of its table. -/
def FmtA.ofBits (w : BitVec 96) : FmtA :=
  { m := w.extractLsb' 95 1, dst := w.extractLsb' 76 10, opa := w.extractLsb' 66 10, opb := w.extractLsb' 56 10, opc := w.extractLsb' 46 10, moda := w.extractLsb' 39 7, modb := w.extractLsb' 32 7, modc := w.extractLsb' 25 7, ty := w.extractLsb' 21 4, guard := w.extractLsb' 16 5, dsub := w.extractLsb' 11 5, round := w.extractLsb' 8 3, func := w.extractLsb' 0 8 }

/-- The FmtA slot that holds the fields `f` and OPCODE `op`. -/
def FmtA.toBits (op : BitVec 9) (f : FmtA) : BitVec 96 :=
  f.m ++ op ++ f.dst ++ f.opa ++ f.opb ++ f.opc ++ f.moda ++ f.modb ++ f.modc ++ f.ty ++ f.guard ++ f.dsub ++ f.round ++ f.func

/-- The fields of a FmtI slot, at the bit positions of its table. -/
def FmtI.ofBits (w : BitVec 96) : FmtI :=
  { m := w.extractLsb' 95 1, dst := w.extractLsb' 76 10, opa := w.extractLsb' 66 10, opb := w.extractLsb' 56 10, imm := w.extractLsb' 24 32, round := w.extractLsb' 21 3, guard := w.extractLsb' 16 5, ty := w.extractLsb' 12 4, func := w.extractLsb' 4 8, rsv := w.extractLsb' 0 4 }

/-- The FmtI slot that holds the fields `f` and OPCODE `op`. -/
def FmtI.toBits (op : BitVec 9) (f : FmtI) : BitVec 96 :=
  f.m ++ op ++ f.dst ++ f.opa ++ f.opb ++ f.imm ++ f.round ++ f.guard ++ f.ty ++ f.func ++ f.rsv

/-- The fields of a FmtM slot, at the bit positions of its table. -/
def FmtM.ofBits (w : BitVec 96) : FmtM :=
  { m := w.extractLsb' 95 1, data := w.extractLsb' 76 10, base := w.extractLsb' 66 10, index := w.extractLsb' 56 10, aux := w.extractLsb' 46 10, offset := w.extractLsb' 24 22, scale := w.extractLsb' 22 2, rsvHi := w.extractLsb' 21 1, guard := w.extractLsb' 16 5, width := w.extractLsb' 13 3, order := w.extractLsb' 10 3, scope := w.extractLsb' 7 3, func := w.extractLsb' 3 4, rsvLo := w.extractLsb' 0 3 }

/-- The FmtM slot that holds the fields `f` and OPCODE `op`. -/
def FmtM.toBits (op : BitVec 9) (f : FmtM) : BitVec 96 :=
  f.m ++ op ++ f.data ++ f.base ++ f.index ++ f.aux ++ f.offset ++ f.scale ++ f.rsvHi ++ f.guard ++ f.width ++ f.order ++ f.scope ++ f.func ++ f.rsvLo

/-- The fields of a FmtB slot, at the bit positions of its table. -/
def FmtB.ofBits (w : BitVec 96) : FmtB :=
  { m := w.extractLsb' 95 1, reg := w.extractLsb' 76 10, aux := w.extractLsb' 66 10, rsvHi := w.extractLsb' 56 10, offset := w.extractLsb' 24 32, rsvMid := w.extractLsb' 21 3, guard := w.extractLsb' 16 5, func := w.extractLsb' 8 8, rsvLo := w.extractLsb' 0 8 }

/-- The FmtB slot that holds the fields `f` and OPCODE `op`. -/
def FmtB.toBits (op : BitVec 9) (f : FmtB) : BitVec 96 :=
  f.m ++ op ++ f.reg ++ f.aux ++ f.rsvHi ++ f.offset ++ f.rsvMid ++ f.guard ++ f.func ++ f.rsvLo

/-- The fields of a FmtP slot, at the bit positions of its table. -/
def FmtP.ofBits (w : BitVec 96) : FmtP :=
  { m := w.extractLsb' 95 1, count := w.extractLsb' 80 6, dstep := w.extractLsb' 76 4, astep := w.extractLsb' 72 4, bstep := w.extractLsb' 68 4, cstep := w.extractLsb' 64 4, rsvHi := w.extractLsb' 21 43, guard := w.extractLsb' 16 5, rsvLo := w.extractLsb' 0 16 }

/-- The FmtP slot that holds the fields `f` and OPCODE `op`. -/
def FmtP.toBits (op : BitVec 9) (f : FmtP) : BitVec 96 :=
  f.m ++ op ++ f.count ++ f.dstep ++ f.astep ++ f.bstep ++ f.cstep ++ f.rsvHi ++ f.guard ++ f.rsvLo

/-- The fields of a FmtE slot, at the bit positions of its table. -/
def FmtE.ofBits (w : BitVec 96) : FmtE :=
  { m := w.extractLsb' 95 1, recd := w.extractLsb' 76 10, stamp := w.extractLsb' 66 10, aux := w.extractLsb' 56 10, queue := w.extractLsb' 51 5, rsvHi := w.extractLsb' 21 30, guard := w.extractLsb' 16 5, func := w.extractLsb' 8 8, rsvLo := w.extractLsb' 0 8 }

/-- The FmtE slot that holds the fields `f` and OPCODE `op`. -/
def FmtE.toBits (op : BitVec 9) (f : FmtE) : BitVec 96 :=
  f.m ++ op ++ f.recd ++ f.stamp ++ f.aux ++ f.queue ++ f.rsvHi ++ f.guard ++ f.func ++ f.rsvLo

/-- OPCODE of a slot (R22). -/
def slotOpcode (w : BitVec 96) : BitVec 9 := w.extractLsb' 86 9

/-- The instruction an OPCODE names (R41). -/
def decodeOp (op : Nat) (w : BitVec 96) : Option Instr :=
  match op with
  | 0x001 => some (.nop (FmtA.ofBits w))
  | 0x002 => some (.bra (FmtB.ofBits w))
  | 0x003 => some (.brx (FmtB.ofBits w))
  | 0x004 => some (.call (FmtB.ofBits w))
  | 0x005 => some (.callx (FmtB.ofBits w))
  | 0x006 => some (.ret (FmtB.ofBits w))
  | 0x007 => some (.join (FmtA.ofBits w))
  | 0x008 => some (.reform (FmtB.ofBits w))
  | 0x009 => some (.exit (FmtA.ofBits w))
  | 0x00A => some (.bar (FmtA.ofBits w))
  | 0x00B => some (.gbar (FmtA.ofBits w))
  | 0x00C => some (.wait (FmtA.ofBits w))
  | 0x00D => some (.trig (FmtA.ofBits w))
  | 0x00E => some (.yield (FmtA.ofBits w))
  | 0x00F => some (.sleep (FmtI.ofBits w))
  | 0x010 => some (.trap (FmtI.ofBits w))
  | 0x011 => some (.tret (FmtA.ofBits w))
  | 0x012 => some (.brk (FmtA.ofBits w))
  | 0x013 => some (.rep (FmtP.ofBits w))
  | 0x040 => some (.mov (FmtA.ofBits w))
  | 0x041 => some (.movi (FmtI.ofBits w))
  | 0x042 => some (.sel (FmtA.ofBits w))
  | 0x043 => some (.sreg (FmtA.ofBits w))
  | 0x044 => some (.sset (FmtA.ofBits w))
  | 0x045 => some (.tag (FmtA.ofBits w))
  | 0x046 => some (.expand (FmtA.ofBits w))
  | 0x047 => some (.xacq (FmtI.ofBits w))
  | 0x048 => some (.xrel (FmtA.ofBits w))
  | 0x049 => some (.tsave (FmtA.ofBits w))
  | 0x04A => some (.tload (FmtA.ofBits w))
  | 0x04B => some (.pbool (FmtA.ofBits w))
  | 0x04C => some (.pmov (FmtA.ofBits w))
  | 0x04D => some (.fclr (FmtA.ofBits w))
  | 0x080 => some (.add (FmtA.ofBits w))
  | 0x081 => some (.sub (FmtA.ofBits w))
  | 0x082 => some (.addc (FmtA.ofBits w))
  | 0x083 => some (.subb (FmtA.ofBits w))
  | 0x084 => some (.mul (FmtA.ofBits w))
  | 0x085 => some (.mulh (FmtA.ofBits w))
  | 0x086 => some (.mad (FmtA.ofBits w))
  | 0x087 => some (.madw (FmtA.ofBits w))
  | 0x088 => some (.min (FmtA.ofBits w))
  | 0x089 => some (.max (FmtA.ofBits w))
  | 0x08A => some (.and (FmtA.ofBits w))
  | 0x08B => some (.or (FmtA.ofBits w))
  | 0x08C => some (.xor (FmtA.ofBits w))
  | 0x08D => some (.andn (FmtA.ofBits w))
  | 0x08E => some (.shl (FmtA.ofBits w))
  | 0x08F => some (.shr (FmtA.ofBits w))
  | 0x090 => some (.sar (FmtA.ofBits w))
  | 0x091 => some (.rot (FmtA.ofBits w))
  | 0x092 => some (.bfe (FmtA.ofBits w))
  | 0x093 => some (.bfi (FmtA.ofBits w))
  | 0x094 => some (.popc (FmtA.ofBits w))
  | 0x095 => some (.clz (FmtA.ofBits w))
  | 0x096 => some (.ctz (FmtA.ofBits w))
  | 0x097 => some (.brev (FmtA.ofBits w))
  | 0x098 => some (.cmp (FmtA.ofBits w))
  | 0x099 => some (.lea (FmtA.ofBits w))
  | 0x09A => some (.dp4 (FmtA.ofBits w))
  | 0x09B => some (.dp2 (FmtA.ofBits w))
  | 0x09C => some (.sadd (FmtA.ofBits w))
  | 0x09D => some (.ssub (FmtA.ofBits w))
  | 0x09E => some (.prmt (FmtA.ofBits w))
  | 0x100 => some (.fadd (FmtA.ofBits w))
  | 0x101 => some (.fmul (FmtA.ofBits w))
  | 0x102 => some (.ffma (FmtA.ofBits w))
  | 0x103 => some (.fmin (FmtA.ofBits w))
  | 0x104 => some (.fmax (FmtA.ofBits w))
  | 0x105 => some (.fcmp (FmtA.ofBits w))
  | 0x106 => some (.fclass (FmtA.ofBits w))
  | 0x107 => some (.frnd (FmtA.ofBits w))
  | 0x108 => some (.fdot2 (FmtA.ofBits w))
  | 0x109 => some (.fscale (FmtA.ofBits w))
  | 0x10A => some (.fexp (FmtA.ofBits w))
  | 0x10B => some (.cvt (FmtA.ofBits w))
  | 0x10C => some (.cvtp (FmtA.ofBits w))
  | 0x10D => some (.quant (FmtA.ofBits w))
  | 0x10E => some (.rcp (FmtA.ofBits w))
  | 0x10F => some (.rsq (FmtA.ofBits w))
  | 0x110 => some (.sqrt (FmtA.ofBits w))
  | 0x111 => some (.lg2 (FmtA.ofBits w))
  | 0x112 => some (.ex2 (FmtA.ofBits w))
  | 0x113 => some (.sinp (FmtA.ofBits w))
  | 0x114 => some (.cosp (FmtA.ofBits w))
  | 0x115 => some (.tanh (FmtA.ofBits w))
  | 0x160 => some (.shfl (FmtA.ofBits w))
  | 0x161 => some (.shfr (FmtA.ofBits w))
  | 0x162 => some (.vote (FmtA.ofBits w))
  | 0x163 => some (.ballot (FmtA.ofBits w))
  | 0x164 => some (.matchLanes (FmtA.ofBits w))
  | 0x165 => some (.lred (FmtA.ofBits w))
  | 0x166 => some (.lscan (FmtA.ofBits w))
  | 0x167 => some (.qswap (FmtA.ofBits w))
  | 0x168 => some (.ddx (FmtA.ofBits w))
  | 0x169 => some (.ddy (FmtA.ofBits w))
  | 0x180 => some (.lds (FmtM.ofBits w))
  | 0x181 => some (.sts (FmtM.ofBits w))
  | 0x182 => some (.atoms (FmtM.ofBits w))
  | 0x183 => some (.stbar (FmtA.ofBits w))
  | 0x184 => some (.ringq (FmtA.ofBits w))
  | 0x1A0 => some (.ld (FmtM.ofBits w))
  | 0x1A1 => some (.st (FmtM.ofBits w))
  | 0x1A2 => some (.cst (FmtM.ofBits w))
  | 0x1A3 => some (.xld (FmtM.ofBits w))
  | 0x1A4 => some (.pref (FmtM.ofBits w))
  | 0x1A5 => some (.fence (FmtA.ofBits w))
  | 0x1A6 => some (.mwait (FmtM.ofBits w))
  | 0x1A7 => some (.cctl (FmtM.ofBits w))
  | 0x1C0 => some (.atom (FmtM.ofBits w))
  | 0x1C1 => some (.red (FmtM.ofBits w))
  | 0x1C2 => some (.xsadd (FmtM.ofBits w))
  | 0x1C3 => some (.xsrd (FmtM.ofBits w))
  | 0x1C4 => some (.xsclr (FmtM.ofBits w))
  | 0x1D0 => some (.lcopy (FmtE.ofBits w))
  | 0x1D1 => some (.lput (FmtE.ofBits w))
  | 0x1D2 => some (.lcode (FmtE.ofBits w))
  | 0x1D3 => some (.qfence (FmtE.ofBits w))
  | 0x1D4 => some (.qstat (FmtA.ofBits w))
  | 0x1E0 => some (.mma (FmtE.ofBits w))
  | 0x1E1 => some (.mwld (FmtE.ofBits w))
  | 0x1E2 => some (.mst (FmtE.ofBits w))
  | 0x1E3 => some (.mzero (FmtE.ofBits w))
  | 0x1E4 => some (.astat (FmtA.ofBits w))
  | 0x1E5 => some (.ard (FmtA.ofBits w))
  | 0x1F0 => some (.vemit (FmtA.ofBits w))
  | 0x1F1 => some (.pemit (FmtA.ofBits w))
  | 0x1F2 => some (.mcommit (FmtA.ofBits w))
  | 0x1F3 => some (.ixbox (FmtA.ofBits w))
  | 0x1F4 => some (.ixtri (FmtA.ofBits w))
  | 0x1F5 => some (.hitbin (FmtA.ofBits w))
  | 0x1F6 => some (.vtrel (FmtA.ofBits w))
  | 0x1F7 => some (.vtld (FmtM.ofBits w))
  | _ => none

/-- Decode one slot: its instruction, or the refusal by name. -/
def decode (w : BitVec 96) : Except DecodeError Instr :=
  match decodeOp (slotOpcode w).toNat w with
  | some i => .ok i
  | none => .error (.unassignedOpcode (slotOpcode w))

/-- The little-endian number that bytes hold, first byte lowest (R3). -/
def leNat : List Byte → Nat
  | [] => 0
  | b :: bs => b.toNat + 256 * leNat bs

/-- The `n` bytes that hold `v`, little-endian (R3). -/
def leBytes : Nat → Nat → List Byte
  | 0, _ => []
  | n + 1, v => BitVec.ofNat 8 v :: leBytes n (v / 256)

/-- Decode the first slot of a byte list and return the rest: total on any bytes. -/
def decodeBytes (bs : List Byte) : Except DecodeError (Instr × List Byte) :=
  if bs.length < 12 then .error .tooShort
  else
    match decode (BitVec.ofNat 96 (leNat (bs.take 12))) with
    | .ok i => .ok (i, bs.drop 12)
    | .error e => .error e

/-- The OPCODE of an instruction; an event has none. -/
def opcodeOf : Instr → Option (BitVec 9)
  | .nop _ => some 0x001#9
  | .bra _ => some 0x002#9
  | .brx _ => some 0x003#9
  | .call _ => some 0x004#9
  | .callx _ => some 0x005#9
  | .ret _ => some 0x006#9
  | .join _ => some 0x007#9
  | .reform _ => some 0x008#9
  | .exit _ => some 0x009#9
  | .bar _ => some 0x00A#9
  | .gbar _ => some 0x00B#9
  | .wait _ => some 0x00C#9
  | .trig _ => some 0x00D#9
  | .yield _ => some 0x00E#9
  | .sleep _ => some 0x00F#9
  | .trap _ => some 0x010#9
  | .tret _ => some 0x011#9
  | .brk _ => some 0x012#9
  | .rep _ => some 0x013#9
  | .mov _ => some 0x040#9
  | .movi _ => some 0x041#9
  | .sel _ => some 0x042#9
  | .sreg _ => some 0x043#9
  | .sset _ => some 0x044#9
  | .tag _ => some 0x045#9
  | .expand _ => some 0x046#9
  | .xacq _ => some 0x047#9
  | .xrel _ => some 0x048#9
  | .tsave _ => some 0x049#9
  | .tload _ => some 0x04A#9
  | .pbool _ => some 0x04B#9
  | .pmov _ => some 0x04C#9
  | .fclr _ => some 0x04D#9
  | .add _ => some 0x080#9
  | .sub _ => some 0x081#9
  | .addc _ => some 0x082#9
  | .subb _ => some 0x083#9
  | .mul _ => some 0x084#9
  | .mulh _ => some 0x085#9
  | .mad _ => some 0x086#9
  | .madw _ => some 0x087#9
  | .min _ => some 0x088#9
  | .max _ => some 0x089#9
  | .and _ => some 0x08A#9
  | .or _ => some 0x08B#9
  | .xor _ => some 0x08C#9
  | .andn _ => some 0x08D#9
  | .shl _ => some 0x08E#9
  | .shr _ => some 0x08F#9
  | .sar _ => some 0x090#9
  | .rot _ => some 0x091#9
  | .bfe _ => some 0x092#9
  | .bfi _ => some 0x093#9
  | .popc _ => some 0x094#9
  | .clz _ => some 0x095#9
  | .ctz _ => some 0x096#9
  | .brev _ => some 0x097#9
  | .cmp _ => some 0x098#9
  | .lea _ => some 0x099#9
  | .dp4 _ => some 0x09A#9
  | .dp2 _ => some 0x09B#9
  | .sadd _ => some 0x09C#9
  | .ssub _ => some 0x09D#9
  | .prmt _ => some 0x09E#9
  | .fadd _ => some 0x100#9
  | .fmul _ => some 0x101#9
  | .ffma _ => some 0x102#9
  | .fmin _ => some 0x103#9
  | .fmax _ => some 0x104#9
  | .fcmp _ => some 0x105#9
  | .fclass _ => some 0x106#9
  | .frnd _ => some 0x107#9
  | .fdot2 _ => some 0x108#9
  | .fscale _ => some 0x109#9
  | .fexp _ => some 0x10A#9
  | .cvt _ => some 0x10B#9
  | .cvtp _ => some 0x10C#9
  | .quant _ => some 0x10D#9
  | .rcp _ => some 0x10E#9
  | .rsq _ => some 0x10F#9
  | .sqrt _ => some 0x110#9
  | .lg2 _ => some 0x111#9
  | .ex2 _ => some 0x112#9
  | .sinp _ => some 0x113#9
  | .cosp _ => some 0x114#9
  | .tanh _ => some 0x115#9
  | .shfl _ => some 0x160#9
  | .shfr _ => some 0x161#9
  | .vote _ => some 0x162#9
  | .ballot _ => some 0x163#9
  | .matchLanes _ => some 0x164#9
  | .lred _ => some 0x165#9
  | .lscan _ => some 0x166#9
  | .qswap _ => some 0x167#9
  | .ddx _ => some 0x168#9
  | .ddy _ => some 0x169#9
  | .lds _ => some 0x180#9
  | .sts _ => some 0x181#9
  | .atoms _ => some 0x182#9
  | .stbar _ => some 0x183#9
  | .ringq _ => some 0x184#9
  | .ld _ => some 0x1A0#9
  | .st _ => some 0x1A1#9
  | .cst _ => some 0x1A2#9
  | .xld _ => some 0x1A3#9
  | .pref _ => some 0x1A4#9
  | .fence _ => some 0x1A5#9
  | .mwait _ => some 0x1A6#9
  | .cctl _ => some 0x1A7#9
  | .atom _ => some 0x1C0#9
  | .red _ => some 0x1C1#9
  | .xsadd _ => some 0x1C2#9
  | .xsrd _ => some 0x1C3#9
  | .xsclr _ => some 0x1C4#9
  | .lcopy _ => some 0x1D0#9
  | .lput _ => some 0x1D1#9
  | .lcode _ => some 0x1D2#9
  | .qfence _ => some 0x1D3#9
  | .qstat _ => some 0x1D4#9
  | .mma _ => some 0x1E0#9
  | .mwld _ => some 0x1E1#9
  | .mst _ => some 0x1E2#9
  | .mzero _ => some 0x1E3#9
  | .astat _ => some 0x1E4#9
  | .ard _ => some 0x1E5#9
  | .vemit _ => some 0x1F0#9
  | .pemit _ => some 0x1F1#9
  | .mcommit _ => some 0x1F2#9
  | .ixbox _ => some 0x1F3#9
  | .ixtri _ => some 0x1F4#9
  | .hitbin _ => some 0x1F5#9
  | .vtrel _ => some 0x1F6#9
  | .vtld _ => some 0x1F7#9
  | _ => none

/-- The slot that encodes an instruction, from the same tables; an event has no encoding. -/
def encode : Instr → Option (BitVec 96)
  | .nop f => some (f.toBits 0x001#9)
  | .bra f => some (f.toBits 0x002#9)
  | .brx f => some (f.toBits 0x003#9)
  | .call f => some (f.toBits 0x004#9)
  | .callx f => some (f.toBits 0x005#9)
  | .ret f => some (f.toBits 0x006#9)
  | .join f => some (f.toBits 0x007#9)
  | .reform f => some (f.toBits 0x008#9)
  | .exit f => some (f.toBits 0x009#9)
  | .bar f => some (f.toBits 0x00A#9)
  | .gbar f => some (f.toBits 0x00B#9)
  | .wait f => some (f.toBits 0x00C#9)
  | .trig f => some (f.toBits 0x00D#9)
  | .yield f => some (f.toBits 0x00E#9)
  | .sleep f => some (f.toBits 0x00F#9)
  | .trap f => some (f.toBits 0x010#9)
  | .tret f => some (f.toBits 0x011#9)
  | .brk f => some (f.toBits 0x012#9)
  | .rep f => some (f.toBits 0x013#9)
  | .mov f => some (f.toBits 0x040#9)
  | .movi f => some (f.toBits 0x041#9)
  | .sel f => some (f.toBits 0x042#9)
  | .sreg f => some (f.toBits 0x043#9)
  | .sset f => some (f.toBits 0x044#9)
  | .tag f => some (f.toBits 0x045#9)
  | .expand f => some (f.toBits 0x046#9)
  | .xacq f => some (f.toBits 0x047#9)
  | .xrel f => some (f.toBits 0x048#9)
  | .tsave f => some (f.toBits 0x049#9)
  | .tload f => some (f.toBits 0x04A#9)
  | .pbool f => some (f.toBits 0x04B#9)
  | .pmov f => some (f.toBits 0x04C#9)
  | .fclr f => some (f.toBits 0x04D#9)
  | .add f => some (f.toBits 0x080#9)
  | .sub f => some (f.toBits 0x081#9)
  | .addc f => some (f.toBits 0x082#9)
  | .subb f => some (f.toBits 0x083#9)
  | .mul f => some (f.toBits 0x084#9)
  | .mulh f => some (f.toBits 0x085#9)
  | .mad f => some (f.toBits 0x086#9)
  | .madw f => some (f.toBits 0x087#9)
  | .min f => some (f.toBits 0x088#9)
  | .max f => some (f.toBits 0x089#9)
  | .and f => some (f.toBits 0x08A#9)
  | .or f => some (f.toBits 0x08B#9)
  | .xor f => some (f.toBits 0x08C#9)
  | .andn f => some (f.toBits 0x08D#9)
  | .shl f => some (f.toBits 0x08E#9)
  | .shr f => some (f.toBits 0x08F#9)
  | .sar f => some (f.toBits 0x090#9)
  | .rot f => some (f.toBits 0x091#9)
  | .bfe f => some (f.toBits 0x092#9)
  | .bfi f => some (f.toBits 0x093#9)
  | .popc f => some (f.toBits 0x094#9)
  | .clz f => some (f.toBits 0x095#9)
  | .ctz f => some (f.toBits 0x096#9)
  | .brev f => some (f.toBits 0x097#9)
  | .cmp f => some (f.toBits 0x098#9)
  | .lea f => some (f.toBits 0x099#9)
  | .dp4 f => some (f.toBits 0x09A#9)
  | .dp2 f => some (f.toBits 0x09B#9)
  | .sadd f => some (f.toBits 0x09C#9)
  | .ssub f => some (f.toBits 0x09D#9)
  | .prmt f => some (f.toBits 0x09E#9)
  | .fadd f => some (f.toBits 0x100#9)
  | .fmul f => some (f.toBits 0x101#9)
  | .ffma f => some (f.toBits 0x102#9)
  | .fmin f => some (f.toBits 0x103#9)
  | .fmax f => some (f.toBits 0x104#9)
  | .fcmp f => some (f.toBits 0x105#9)
  | .fclass f => some (f.toBits 0x106#9)
  | .frnd f => some (f.toBits 0x107#9)
  | .fdot2 f => some (f.toBits 0x108#9)
  | .fscale f => some (f.toBits 0x109#9)
  | .fexp f => some (f.toBits 0x10A#9)
  | .cvt f => some (f.toBits 0x10B#9)
  | .cvtp f => some (f.toBits 0x10C#9)
  | .quant f => some (f.toBits 0x10D#9)
  | .rcp f => some (f.toBits 0x10E#9)
  | .rsq f => some (f.toBits 0x10F#9)
  | .sqrt f => some (f.toBits 0x110#9)
  | .lg2 f => some (f.toBits 0x111#9)
  | .ex2 f => some (f.toBits 0x112#9)
  | .sinp f => some (f.toBits 0x113#9)
  | .cosp f => some (f.toBits 0x114#9)
  | .tanh f => some (f.toBits 0x115#9)
  | .shfl f => some (f.toBits 0x160#9)
  | .shfr f => some (f.toBits 0x161#9)
  | .vote f => some (f.toBits 0x162#9)
  | .ballot f => some (f.toBits 0x163#9)
  | .matchLanes f => some (f.toBits 0x164#9)
  | .lred f => some (f.toBits 0x165#9)
  | .lscan f => some (f.toBits 0x166#9)
  | .qswap f => some (f.toBits 0x167#9)
  | .ddx f => some (f.toBits 0x168#9)
  | .ddy f => some (f.toBits 0x169#9)
  | .lds f => some (f.toBits 0x180#9)
  | .sts f => some (f.toBits 0x181#9)
  | .atoms f => some (f.toBits 0x182#9)
  | .stbar f => some (f.toBits 0x183#9)
  | .ringq f => some (f.toBits 0x184#9)
  | .ld f => some (f.toBits 0x1A0#9)
  | .st f => some (f.toBits 0x1A1#9)
  | .cst f => some (f.toBits 0x1A2#9)
  | .xld f => some (f.toBits 0x1A3#9)
  | .pref f => some (f.toBits 0x1A4#9)
  | .fence f => some (f.toBits 0x1A5#9)
  | .mwait f => some (f.toBits 0x1A6#9)
  | .cctl f => some (f.toBits 0x1A7#9)
  | .atom f => some (f.toBits 0x1C0#9)
  | .red f => some (f.toBits 0x1C1#9)
  | .xsadd f => some (f.toBits 0x1C2#9)
  | .xsrd f => some (f.toBits 0x1C3#9)
  | .xsclr f => some (f.toBits 0x1C4#9)
  | .lcopy f => some (f.toBits 0x1D0#9)
  | .lput f => some (f.toBits 0x1D1#9)
  | .lcode f => some (f.toBits 0x1D2#9)
  | .qfence f => some (f.toBits 0x1D3#9)
  | .qstat f => some (f.toBits 0x1D4#9)
  | .mma f => some (f.toBits 0x1E0#9)
  | .mwld f => some (f.toBits 0x1E1#9)
  | .mst f => some (f.toBits 0x1E2#9)
  | .mzero f => some (f.toBits 0x1E3#9)
  | .astat f => some (f.toBits 0x1E4#9)
  | .ard f => some (f.toBits 0x1E5#9)
  | .vemit f => some (f.toBits 0x1F0#9)
  | .pemit f => some (f.toBits 0x1F1#9)
  | .mcommit f => some (f.toBits 0x1F2#9)
  | .ixbox f => some (f.toBits 0x1F3#9)
  | .ixtri f => some (f.toBits 0x1F4#9)
  | .hitbin f => some (f.toBits 0x1F5#9)
  | .vtrel f => some (f.toBits 0x1F6#9)
  | .vtld f => some (f.toBits 0x1F7#9)
  | _ => none

/-- What the decoder reads from an instruction whose bits are `w` below `nbits`, laid out as a slot lies in memory. -/
def decodeTableWord (nbits w : Nat) : Option Instr :=
  match decodeBytes (leBytes 12 (w % 2 ^ nbits)) with
  | .ok (i, _) => some i
  | .error _ => none

end Sys2Proof
end

