-- ==== Sys2Proof/Config.lean ====
section
/-! DEFINITION. What the C7-128 fixes (R2, R9, R11) and the values the manual leaves open, as constants with no body (log entry 4). -/

namespace Sys2Proof.Config

/-- Cores of the device (R8, R9). -/
def nCores : Nat := 128
/-- L2 slices (R8). -/
def nSlices : Nat := 64
/-- Bundle slots of a core (R11, R51). -/
def nSlots : Nat := 256
/-- Scheduler partitions of a core (R51). -/
def nPartitions : Nat := 32
/-- Reform bins of a core (R67). -/
def nBins : Nat := 64
/-- Context slots of a bank (R360). -/
def nCtxSlots : Nat := 768
/-- Granules of a core's SRAM pool (R11). -/
def nGranules : Nat := 64
/-- Bytes of a granule (R7). -/
def granuleBytes : Nat := 49152
/-- Nelaig links (R388). -/
def nLinks : Nat := 8

/-- A free bit: the choice number `i` of kind `kind` made in the step number `step` (log entry 4). Nothing constrains it. -/
opaque freeBit (step kind i : Nat) : Bool

/-- A free number, used modulo the number of alternatives: the choice `i` of kind `kind` in the step `step` (log entry 4). -/
opaque freeNat (step kind i : Nat) : Nat

end Sys2Proof.Config
end

