-- ==== Sys2Proof/Machine/State.lean ====
section
/-! DEFINITION. The state of the whole device as plain data: bundle slots and crews, cores, the memory system, the visibility path, the
dispatcher, the hosts' side, and the model's own bookkeeping (log entry 1). -/

namespace Sys2Proof.Machine

/-! ## Sparse memory -/

/-- A memory as its listed bytes, addresses strictly rising, no listed byte equal to what an unlisted address reads as (0, log entry 2). -/
abbrev Mem := List Host.Cell

/-- A sparse table of 32-bit elements in the same canonical form (accumulator tiles). -/
abbrev Mem32 := List (Nat × Word)

/-! ## Registers of a bundle slot -/

/-- How a v register's lane values are held (R91). -/
inductive Shape where
  /-- tag U: one value for every lane -/
  | u (v : Word)
  /-- tag A: base + L · stride in lane L -/
  | a (base stride : Word)
  /-- tag G: one value per lane -/
  | g (vals : List Word)
  deriving DecidableEq, Repr

/-- One owned v name: its values, its format tag (R97; 0 is resident) and the clock of its last access (R96). -/
structure VReg where
  shape : Shape
  fmt : Nat
  last : Nat
  deriving DecidableEq, Repr

/-- One write of a v register: the lanes written and their values, and, when the write is full (R92), the shape it stores. -/
structure VWrite where
  name : Nat
  mask : LaneMask
  vals : List Word
  full : Option Shape
  deriving DecidableEq, Repr

/-- One write of a predicate register in the lanes of `mask`. -/
structure PWrite where
  name : Nat
  mask : LaneMask
  vals : LaneMask
  deriving DecidableEq, Repr

/-- Everything an instruction writes to its slot's registers: v, p and s registers, FLAGS bits, and the lanes that set IV. -/
structure RegResult where
  v : List VWrite
  p : List PWrite
  s : List (Nat × DWord)
  flags : BitVec 5
  iv : LaneMask
  deriving DecidableEq, Repr

/-- What an access does at the home for one lane. -/
inductive LaneOp where
  | load (n : Nat)
  | store (bytes : List Byte)
  /-- atomic FUNC, width in bytes, operand, compare value (R199, R245) -/
  | atom (func n : Nat) (v cmp : Nat)
  | xsadd (x : Word)
  | xsclr (e : Byte)
  | xsrd (clear : Bool)
  deriving DecidableEq, Repr

/-- A lane of a request: its lane, its virtual address, its place (R204, R388) and what it does there. -/
structure LaneReq where
  lane : Nat
  va : Nat
  pa : Nat
  op : LaneOp
  deriving DecidableEq, Repr

/-- Where a line of an access is kept: the hint of R228, and the ORDER and SCOPE codes of the access. -/
structure Keep where
  hint : Nat
  order : Nat
  scope : Nat
  deriving DecidableEq, Repr

/-- What a global load still gathers: its lanes, its width and extension, and the bytes bound so far (lane, bytes). -/
structure Gather where
  /-- lanes that wait for data -/
  mask : LaneMask
  bytes : Nat
  signed : Bool
  /-- operand code of the destination -/
  dst : Nat
  /-- the write is full (R92) -/
  full : Bool
  /-- shape U is stored on a full write (R93) -/
  uniform : Bool
  got : List (Nat × List Byte)
  /-- further register writes made with the data (the count of `xld.ff`) -/
  also : RegResult
  /-- `some (m, p)`: the data are an exact-sum cell, read with rounding code m, and p takes O (R246) -/
  cell : Option (Nat × Nat)
  /-- it is an acquire: later accesses of the strand wait until it is bound (R214) -/
  acquire : Bool
  /-- v names from here up have been released: what is bound for them is discarded (R111) -/
  limit : Nat := 640
  /-- all its lanes, and where their lines are kept -/
  lanes : List LaneReq := []
  keep : Keep := { hint := 0, order := 0, scope := 0 }
  deriving DecidableEq, Repr

/-- A long instruction whose stretch has not ended (R60). Registers are named by their operand codes (R30). -/
structure Pending where
  id : Nat
  pc : DWord
  /-- the names it writes -/
  names : List Nat
  /-- it may set FLAGS bits -/
  setsFlags : Bool
  gather : Option Gather
  /-- the result, once bound -/
  result : Option RegResult
  written : Bool
  /-- per name, once the result is written, what the file would hold without the stretch's long results: the value from before them, or
  that of a later short instruction -/
  prev : List (Nat × List DWord)
  /-- writes of its names by other instructions of the stretch since its issue: name, lanes, and whether a short one wrote -/
  rivals : List (Nat × LaneMask × Bool)
  /-- the repeat of a bound pair it belongs to (R40) -/
  rep : Option Nat := none
  deriving DecidableEq, Repr

/-- A load whose data arrived poisoned (R212), and where its sub-bundle stood when it trapped: the PC, at a marker or not, and the repeats and
elements done there. It is performed again, those that issued after it are not (log entry 10). -/
structure Redo where
  load : Pending
  pc : DWord
  marker : Bool
  rep : Nat
  cst : Nat
  deriving DecidableEq, Repr

/-! ## Control state of a bundle slot -/

/-- A fetch line as a bundle entered it: its virtual address and its 64 bytes (R19). -/
structure FLine where
  addr : DWord
  data : List Byte
  deriving DecidableEq, Repr

/-- Why a sub-bundle does not issue (R53). -/
inductive Park where
  /-- not parked -/
  | run
  /-- at a stop marker until the slot's pending results are written (R57) -/
  | marker
  /-- at an implicit marker: the instruction at the PC waits for the slot's pending results (R61) -/
  | drain
  /-- at `join` (R79) -/
  | join
  /-- at `reform`: carry count and per-lane targets (R68, R80) -/
  | reform (n : Nat) (targets : List DWord)
  /-- at `bar` with its scope code (R82) -/
  | bar (scope : Nat)
  /-- at `gbar` (R194) -/
  | gbar
  /-- at `wait` (R236) -/
  | wait
  /-- at `sleep` until the clock given (R84) -/
  | sleep (wake : Nat)
  /-- waiting for a fetch line: virtual line address, and whether one copy has already failed parity (R17) -/
  | fetch (line : DWord) (again : Bool)
  deriving DecidableEq, Repr

/-- An issued instruction that has stalled (R5, R64): since which clock, whether it has been withdrawn, the page requests it waits
for, the virtual pages whose requests were rejected, for `astat` and `ard` the tile and the place in the core's enqueue order they
sample at (R292), and for `vtld` the OPEN tiles it met: surface, tile, and the pixels once sealed (R337, R338). -/
structure Stall where
  since : Nat
  withdrawn : Bool
  requests : List Nat
  rejected : List Nat
  sample : Option (Nat × Nat)
  tiles : List (Nat × Nat × Option (List (Word × DWord)))
  /-- it issues again at its slot's next issue (STALL_REISSUE) -/
  retry : Bool
  /-- it waits for rows: how many it needs, and the names the spill engine may not take for it (R96) -/
  rows : Option (Nat × List Nat)
  /-- of an `xacq`: the clock since when it waits, and its place in the order of the crew's requests (R110) -/
  xacq : Option (Nat × Nat)
  deriving DecidableEq, Repr

/-- A stall that begins now. -/
def Stall.start (clock : Nat) : Stall :=
  { since := clock, withdrawn := false, requests := [], rejected := [], sample := none, tiles := [], retry := false, rows := none,
    xacq := none }

/-- One sub-bundle (R63): its divergence mask, its PC, where it is parked or stalled, the repeats done of a bound pair, the elements
done of a `cst`, instructions issued since its last completed marker, the clock since when it is ready, and the fetch line entered. -/
structure SubB where
  mask : LaneMask
  pc : DWord
  park : Park
  stall : Option Stall
  rep : Nat
  cst : Nat
  issued : Nat
  ready : Nat
  line : Option FLine
  /-- the load at its PC is performed again after a POISON trap -/
  redo : Option Redo := none
  deriving DecidableEq, Repr

/-- The trap registers while a slot is in trap mode, and the sub-bundles that take no turn until `tret` (R366). -/
structure TrapSt where
  cause : Nat
  pc : DWord
  mask : LaneMask
  info : BitVec 128
  others : List SubB
  /-- the trap came from a bound pair (its `rep`) -/
  pair : Bool
  /-- the handler's first line has not been fetched yet (R370) -/
  entering : Bool
  /-- the debugger took it: the slot is halted instead of running the handler (R373) -/
  debug : Bool
  /-- of a load that is performed again, where its sub-bundle goes on -/
  redo : Option Redo := none
  deriving DecidableEq, Repr

/-- The trap area of a trap-mode episode (R371): 256 v places and 128 s places, and the context slot it occupies. -/
structure TrapArea where
  v : Vector Shape 256
  s : Vector DWord 128
  bank : Nat
  ctxSlot : Nat
  deriving DecidableEq, Repr

/-- A primitive-buffer slot held by a bundle (R304): vertices and triangles written, as (index, words). -/
structure PrimSlot where
  na : Nat
  verts : List (Nat × List Word)
  tris : List (Nat × Word)
  deriving DecidableEq, Repr

/-- An FP_INVALID of a long instruction that is due (R129): its PC, the lanes that set IV, and its repeat in a bound pair. -/
structure FpDue where
  pc : DWord
  lanes : LaneMask
  rep : Option Nat
  deriving DecidableEq, Repr

/-- A DEFERRED_STORE_FAULT owed to a bundle (R210). -/
structure Owed where
  va : DWord
  pc : DWord
  lackedW : Bool
  /-- place of its store in the order of parking -/
  seq : Nat
  deriving DecidableEq, Repr

/-- Bytes of one 32-byte sector of a CHECKED page that an open span has touched (R223). -/
structure Sector where
  sector : Nat
  reads : BitVec 32
  writes : BitVec 32
  /-- bytes that unordered atomics touched, recorded as stores (R239) -/
  atoms : BitVec 32
  deriving DecidableEq, Repr

/-- The open sync span of one strand (R222). -/
structure Span where
  strand : Nat
  sectors : List Sector
  deriving DecidableEq, Repr

/-- A bundle slot of a crew. -/
structure Bundle where
  /-- BUNDLE -/
  index : Nat
  /-- bundle slot of the core, 0 … 255 (R51) -/
  slot : Nat
  /-- the physical stage a spawned bundle is bound to (R189) -/
  stage : Option Nat
  v : List VReg
  s : Vector DWord 128
  /-- p0 … p14 -/
  p : Vector LaneMask 15
  k : Vector DWord 8
  /-- lanes that hold a strand, exited ones included -/
  present : LaneMask
  exited : LaneMask
  /-- STRAND per lane -/
  strands : List Nat
  fmask : LaneMask
  helper : LaneMask
  flags : BitVec 5
  hintDrop : BitVec 32
  pixel : List Word
  material : Word
  hitid : List Word
  /-- drawn from a reform bin at least once (tag of STRAND, R88) -/
  drawn : Bool
  /-- sub-bundles in rotation order, the current one first -/
  subs : List SubB
  pend : List Pending
  nextPend : Nat
  trap : Option TrapSt
  area : Option TrapArea
  /-- REPCOUNT and CSTDONE as trap mode reads them (R366) -/
  repCount : Nat
  cstDone : Nat
  prim : Option PrimSlot
  primTicket : Option Nat
  owed : List Owed
  spans : List Span
  /-- crew constants as this bundle last saw them, and how far into the crew's log of them that was (R107) -/
  seen : Vector DWord 32
  seenAt : Vector Nat 32
  /-- an FP_INVALID due at a marker (R129), kept through a trap for its own sub-bundle (R367) -/
  fpDue : Option FpDue
  /-- halted by the debugger or by pre-emption (R373, R358) -/
  halted : Bool
  /-- a trap due before the first instruction of a Runner-filled bundle (R325): cause and TRAPINFO -/
  runnerTrap : Option (Nat × BitVec 128)
  /-- it was launched or spawned at an entry PC that its first instruction has not checked yet (R21) -/
  atEntry : Bool
  deriving DecidableEq, Repr

/-! ## Crews -/

/-- A ring stage's state (R187). -/
inductive StageSt where
  | empty
  | full
  | held
  deriving DecidableEq, Repr

/-- One physical stage (R187). -/
structure Stage where
  issued : Nat
  completed : Nat
  consumed : Nat
  st : StageSt
  deriving DecidableEq, Repr

/-- A declared ring area (R186, R187). -/
structure Ring where
  stages : Nat
  size : Nat
  dist : Nat
  parr : Nat
  carr : Nat
  spawn : Bool
  /-- byte offset of the ring in the ring granules -/
  base : Nat
  hp : Nat
  prime : Nat
  st : List Stage
  deriving DecidableEq, Repr

/-- An area of a crew's scratch, by the bank its bytes are in (R182, R193). -/
inductive Area where
  | plain
  | ring
  | live
  | shadow
  deriving DecidableEq, Repr

/-- A producer arrival of `stbar.p`, issued and not completed (R190). -/
structure Arrival where
  id : Nat
  bun : Nat
  ring : Nat
  stage : Nat
  deriving DecidableEq, Repr

/-- An accumulator tile with its counts and the elements that are poisoned (R276, R284, R286). -/
structure AccTile where
  elems : Mem32
  satc : Nat
  nanc : Nat
  infc : Nat
  poison : List Nat
  deriving DecidableEq, Repr

/-- An unreported NaN mark of a matrix task (R285). -/
structure NanMark where
  bun : Nat
  pc : DWord
  tile : Nat
  row : Nat
  col : Nat
  firstTile : Nat
  lastTile : Nat
  stamp : Option DWord
  deriving DecidableEq, Repr

/-- An `sset` of a crew constant: its number and value, the writing bundle and its clock (R107). -/
structure ConstWrite where
  num : Nat
  value : DWord
  bun : Nat
  clock : Nat
  deriving DecidableEq, Repr

/-- A quad or hit record of a Riddle bin (R319, R335), seated in a material bundle. -/
structure MatRecord where
  surf : Nat
  tile : Nat
  quad : Nat
  cover : BitVec 4
  material : Nat
  /-- identifier of each quad position; for a hit, of the hit in place 0 -/
  ids : List DWord
  depths : List Word
  hit : Bool
  ray : Word
  t : Word
  b1 : Word
  b2 : Word
  cone : Word
  /-- the cast that supplied the record -/
  castId : Nat
  /-- the material cast that shades it (R318) -/
  matCast : Nat
  /-- clock (2.0 GHz) of filing -/
  filed : Nat
  /-- the core whose `hitbin` filed it -/
  core : Nat
  deriving DecidableEq, Repr

/-- Where a crew is in its life. -/
inductive CrewSt where
  /-- admitted, waiting for its start window or the Runner -/
  | starting
  | running
  /-- halted for pre-emption (R358) -/
  | halted
  /-- a gang's crew that has retired while others of the gang run: it stays resident (R181) -/
  | retired
  deriving DecidableEq, Repr

/-- A resident crew. -/
structure Crew where
  cid : Nat
  castId : Nat
  region : Nat
  core : Nat
  /-- admission sequence number (R52) -/
  adm : Nat
  st : CrewSt
  x : Nat
  y : Nat
  z : Nat
  gangId : Nat
  gangIdx : Nat
  gangW : Nat
  gangH : Nat
  /-- launch bundles b -/
  launch : Nat
  base : Nat
  bundles : List Bundle
  consts : Vector DWord 32
  /-- crew constants written since the last completed `bar`, in the order performed (R107) -/
  constLog : List ConstWrite
  flagAcc : BitVec 5
  faultAcc : LaneMask
  off : Nat
  plain : Mem
  ringMem : Mem
  live : Mem
  shadow : Mem
  /-- poisoned 64-byte units of scratch, and of the weight buffer's data (false) and sides (true) (R212, R286) -/
  poison : List (Area × Nat)
  wpoison : List (Bool × Nat)
  plainSize : Nat
  exchSize : Nat
  /-- granules the crew holds: the cost of R180 -/
  cost : Nat
  regGranules : Nat
  /-- OVC, PRIORITY and DEMAND at its admission or last resume (R341) -/
  ovc : Nat
  priority : Nat
  demand : Bool
  rings : List (Option Ring)
  arrivals : List Arrival
  nextArrival : Nat
  tiles : List AccTile
  /-- weight-buffer granules: count, data bytes (4096 a granule) and side bytes (512 a granule) -/
  wbg : Nat
  wdata : Mem
  wside : Mem
  /-- last stamp value enqueued and written per queue (R252, R272) -/
  stampEnq : List DWord
  stampDone : List DWord
  /-- strands that executed `trig` (R236) -/
  triggered : List Nat
  nan : List NanMark
  /-- records seated by the Riddle, in order (R321) -/
  records : List MatRecord
  /-- the Runner has filled the registers (R323) -/
  runnerDone : Bool
  /-- clock since when the crew is stuck at barriers and joins (R73), and since when its gang is stuck (R194) -/
  stuck : Option Nat
  gangStuck : Option Nat
  /-- context slots of the spill reserve and their bank (R90) -/
  spillSlots : List Nat
  spillBank : Nat
  /-- clock (ns) of admission or of the last POOLCNT update (R181) -/
  poolFrom : Nat
  /-- instructions, in lanes, not yet added to INSTCNT (R344) -/
  inst : Nat
  /-- fault counts by class not yet added (R344) -/
  faults : List Nat
  xacqSeq : Nat
  /-- its place in the order of pre-emption, once halted for one (R350) -/
  haltOrder : Nat
  /-- the start-ramp window in which it started (R354) -/
  startWin : Nat
  deriving DecidableEq, Repr

/-! ## Cores -/

/-- A partition's scheduling state (R54). -/
structure PartSt where
  rot : Nat
  last : Option Nat
  deriving DecidableEq, Repr

/-- A strand record of a reform bin (R68). -/
structure BinRecord where
  strand : Nat
  carried : List (Word × Bool)
  preds : BitVec 15
  clock : Nat
  deriving DecidableEq, Repr

/-- A reform bin in use (R67). The Bool of a carried value says that its register was U. -/
structure Bin where
  crew : Nat
  target : DWord
  records : List BinRecord
  /-- the time limits of R69 rule 2 have been met -/
  aged : Bool
  /-- rows of its records that the spill engine has moved to the reserve (R67) -/
  spilled : Nat
  deriving DecidableEq, Repr

/-- A physical scratch range of a crew: which bank, first byte, length (R258, R281). -/
structure PRange where
  area : Area
  off : Nat
  len : Nat
  deriving DecidableEq, Repr

/-- The kinds of copy-queue entries. -/
inductive QKind where
  | lcopy
  | lput
  | lcode
  | qfence
  deriving DecidableEq, Repr

/-- Whether a queue entry waits, has begun, or is stopped with a detail code and faulting address (R262). -/
inductive QState where
  | waiting
  | begun
  | stopped (detail : Nat) (va : DWord)
  deriving DecidableEq, Repr

/-- A copy-queue entry (R248 to R271). -/
structure QEntry where
  id : Nat
  seq : Nat
  crew : Nat
  queue : Nat
  kind : QKind
  recd : List DWord
  stamp : Option (DWord × DWord)
  scope : Nat
  range : Option PRange
  arrive : Option (Nat × Nat)
  unit : Nat
  st : QState
  /-- `qfence`: named copy queues and task pool -/
  mask : BitVec 5
  /-- race records of the copy's span (R222) -/
  sectors : List Sector
  /-- page requests it waits for -/
  requests : List Nat
  /-- the clock of its enqueue, and its bundle's place in order of age: admission number of the crew, BUNDLE (R52, R249) -/
  clock : Nat := 0
  age : Nat × Nat := (0, 0)
  /-- what it has read of plane blocks, each of which is read once (R253) -/
  held : List (Nat × Byte) := []
  deriving DecidableEq, Repr

/-- A range-scoreboard entry (R258): of a copy or a task, with its place in the enqueue order. -/
structure SbEntry where
  seq : Nat
  crew : Nat
  write : Bool
  range : PRange
  deriving DecidableEq, Repr

/-- The kinds of matrix tasks. -/
inductive TKind where
  | mma
  | mwld
  | mst
  | mzero
  deriving DecidableEq, Repr

/-- A matrix task in the pool (R273, R274). -/
structure Task where
  id : Nat
  seq : Nat
  crew : Nat
  bun : Nat
  pc : DWord
  kind : TKind
  w0 : DWord
  w1 : DWord
  range : Option PRange
  /-- stamp: virtual address, physical address, value -/
  stamp : Option (DWord × Nat × DWord)
  /-- the leaf entry it was translated by -/
  pte : DWord := 0
  engine : Option Nat
  /-- the bundle that enqueued it has exited or filed since (R285) -/
  left : Bool
  /-- the clock of its enqueue, and its bundle's place in order of age (R52, R249) -/
  clock : Nat := 0
  age : Nat × Nat := (0, 0)
  deriving DecidableEq, Repr

/-- A codebook table (R265): its tag, its 2,048 bytes, and, while the `lcode` that filled it has not completed, what it held before
(R266). -/
structure Codebook where
  owner : Option Nat
  data : Mem
  old : Option Mem
  deriving DecidableEq, Repr

/-- A replay-queue entry: one per bundle, page and instruction (R209). -/
structure Replay where
  crew : Nat
  bun : Nat
  pc : DWord
  root : Nat
  vpage : Nat
  /-- lanes with their virtual addresses, not yet translated -/
  lanes : List LaneReq
  /-- stores of `red`, which may go to an update-only line (R240) -/
  red : Bool
  /-- the page request it waits for; `none` once that has been resolved -/
  request : Option Nat
  /-- place in the order of parking -/
  seq : Nat
  /-- the strands of its lanes -/
  strands : List Nat := []
  /-- its bundle has executed a synchronising operation since: other accesses may be ordered after it (R215, log entry 78) -/
  out : Bool := false
  deriving DecidableEq, Repr

/-- A data line held by L1 (R219), with its poisoned units (R212). -/
structure L1Copy where
  line : Nat
  data : List Byte
  wt : Nat
  lease : Nat
  bad : List Nat := []
  deriving DecidableEq, Repr

/-- A fetch line held by the instruction cache, by physical line address (R17, R19). -/
structure ILine where
  phys : Nat
  data : List Byte
  deriving DecidableEq, Repr

/-- One word of an update-only line (R240). -/
structure UpdWord where
  idx : Nat
  func : Nat
  bytes : Nat
  val : Nat
  deriving DecidableEq, Repr

/-- An update-only line of a core (R240), with the strands whose `red`s it holds as (crew, bundle, strand). -/
structure UpdLine where
  line : Nat
  words : List UpdWord
  users : List (Nat × Nat × Nat)
  deriving DecidableEq, Repr

/-- A core. -/
structure CoreSt where
  startPtr : Nat
  admSeq : Nat
  parts : List PartSt
  bins : List (Option Bin)
  entries : List QEntry
  sboard : List SbEntry
  tasks : List Task
  tables : List Codebook
  primOrder : List Nat
  nextTicket : Nat
  /-- the core's enqueue order (R249) -/
  enq : Nat
  replay : List Replay
  lt : Nat
  ltClock : Nat
  l1 : List L1Copy
  icache : List ILine
  upd : List UpdLine
  deriving DecidableEq, Repr

/-! ## The memory system -/

/-- An L2 line present in its slice (R294): 128 bytes, dirty, evicted first (CACHE 2), allocation order. -/
structure L2Line where
  line : Nat
  data : List Byte
  dirty : Bool
  first : Bool
  deriving DecidableEq, Repr

/-- Write time and lease end of a line (R219). -/
structure LineTime where
  line : Nat
  wt : Nat
  rt : Nat
  deriving DecidableEq, Repr

/-- An entry of the L1 TLB of a core (R207): the translation root, the virtual page of 8 KiB, and the leaf entry with its size code. -/
structure TlbEntry where
  core : Nat
  root : Nat
  vpage : Nat
  pte : DWord
  deriving DecidableEq, Repr

/-- An entry of the L2 TLB of a slice (R207, R294). -/
structure L2TlbEntry where
  slice : Nat
  host : Nat
  root : Nat
  vpage : Nat
  pte : DWord
  deriving DecidableEq, Repr

/-- How a walk ends (R206). -/
inductive WalkEnd where
  | leaf (pte : DWord)
  | absent
  | malformed
  deriving DecidableEq, Repr

/-- A page walk in progress: the cores that ask for it (walks of one page coalesce, R207), the host of their regions, the root and the
page. -/
structure Walk where
  id : Nat
  cores : List Nat
  host : Nat
  root : Nat
  vpage : Nat
  deriving DecidableEq, Repr

/-- The last walk of a page on a core that found no translation, kept until the page is asked for again. -/
structure Missing where
  core : Nat
  root : Nat
  vpage : Nat
  malformed : Bool
  /-- the entry that is not valid is a leaf marked CHECKED (R209) -/
  checked : Bool
  deriving DecidableEq, Repr

/-- An outstanding page-fault request (R208, R385). -/
structure PageReq where
  id : Nat
  host : Nat
  region : Nat
  root : Nat
  vpage : Nat
  write : Bool
  fetch : Bool
  time : Nat
  deriving DecidableEq, Repr

/-- Where a request to an L2 slice stands (R295 to R297). -/
inductive ReqSt where
  | flight
  | queued
  | listed
  | refused (retryAt : Nat)
  /-- served at its home, where it performs together with the other lines of its atomic (R245), or when its agent acts (log entry 86) -/
  | ready
  /-- a write at its home that waits for the sharers of its line to acknowledge their invalidation (R388) -/
  | inval
  deriving DecidableEq, Repr

/-- An agent that sends requests and is no instruction of a strand that takes data or is acknowledged (R295, R298): the merge of a core's
update-only line, the fetch of a bundle's line, `mwait`, a copy-queue entry, a matrix task's stamp, a page walk, the firmware Ladle's
queue of a port. -/
inductive Agent where
  | merge (core line : Nat)
  | fetch (crew bun : Nat)
  | mwait (crew bun : Nat)
  | copy (core crew entry : Nat)
  | task (core crew id : Nat)
  | walk (id : Nat)
  | ladle (port : Nat) (wr : Bool)
  deriving DecidableEq, Repr

/-- A request to one 128-byte line: of a core's instruction, or of an agent. -/
structure Request where
  id : Nat
  core : Nat
  crew : Nat
  bun : Nat
  /-- the pending entry that takes its data -/
  pend : Option Nat
  pc : DWord
  /-- the host of its region, and the translation root its addresses were translated under -/
  host : Nat
  root : Nat
  line : Nat
  lanes : List LaneReq
  order : Nat
  scope : Nat
  /-- strands it belongs to -/
  strands : List Nat
  /-- its line is kept in L1 (R205, R228) -/
  cacheL1 : Bool
  /-- its line is allocated in L2 as first to evict -/
  first : Bool
  /-- CACHE 3: it passes L2 without allocating a line -/
  uncached : Bool
  time : Nat
  refusals : Nat
  st : ReqSt
  /-- the network clock of being marked golden, while it is (R300) -/
  golden : Option Nat
  /-- the agent it belongs to, if it is no instruction's -/
  agent : Option Agent := none
  /-- its agent writes the line -/
  wr : Bool := false
  /-- the router that injects it: of a core the one at its position (R298) -/
  router : Nat := 0
  /-- address bits of the page whose translation it holds -/
  page : Nat := 13
  /-- the network clock at which it joined the 32 of its injection queue (R300) -/
  sent : Option Nat := none
  /-- its page is COHERENT_SHARED and homed here (R388) -/
  shared : Bool := false
  /-- a parked store that drained after its bundle had synchronised (R215) -/
  late : Bool := false
  deriving DecidableEq, Repr

/-- An entry of a waiting-requester list (R296): operation kind, requester tag and requester agent number, and the request they stand for. -/
structure WaitEntry where
  kind : Nat
  tag : Nat
  agent : Nat
  req : Nat
  deriving DecidableEq, Repr

/-- A line's waiting-requester list, held in the data of its way (R296), entries in order. -/
structure WaitList where
  line : Nat
  entries : List WaitEntry
  deriving DecidableEq, Repr

/-- A reservation of a line for a request, and the network clock of its creation or of the requester's last retry (R297). -/
structure Reserve where
  line : Nat
  req : Nat
  since : Nat
  deriving DecidableEq, Repr

/-- What a packet on the reply mesh carries (R298). -/
inductive ReplyKind where
  /-- data of a load or an atomic: crew, bundle, pending entry; of an atomic they acknowledge it for a core and a line (R301) -/
  | data (crew bun pend : Nat) (acks : Option (Nat × Nat))
  /-- the acknowledgement of stores of a core to a line, for strands of a crew -/
  | ack (core line crew : Nat) (strands : List Nat)
  /-- a refusal of a request, with its count (R297) -/
  | refusal (req count : Nat)
  /-- a core's answer to a recall of a line (R241) -/
  | recall (core line : Nat)
  deriving DecidableEq, Repr

/-- A packet on the reply mesh (R298, R300): the router that injects it, what it carries, the network clock at which it joined the 32 of its
injection queue, and that of being marked golden. -/
structure Reply where
  router : Nat
  kind : ReplyKind
  sent : Option Nat
  golden : Option Nat
  deriving DecidableEq, Repr

/-- The memory system. -/
structure MemSys where
  /-- this device's number in the coherent window, from the configuration blob (R388) -/
  device : Nat
  /-- GDDR and the reserved areas, by device physical address -/
  gddr : Mem
  /-- poisoned 64-byte units -/
  poison : List Nat
  l2 : List L2Line
  times : List LineTime
  lists : List WaitList
  reserves : List Reserve
  requests : List Request
  nextReq : Nat
  tlb : List TlbEntry
  tlb2 : List L2TlbEntry
  walks : List Walk
  nextWalk : Nat
  missing : List Missing
  pageReqs : List PageReq
  nextPageReq : Nat
  /-- stores parked so far (R210) -/
  nextPark : Nat
  /-- memory behind the aperture of each host -/
  host : List Mem
  /-- lines of peers' coherent-window homes held here; per line homed here that is being written, the sharers that have not acknowledged yet
  (R388) -/
  window : List Nat
  sharers : List (Nat × List Nat)
  /-- bytes of coherent-window lines whose home is a peer, as this device sees them -/
  peerMem : Mem
  /-- packets on the reply mesh, oldest first -/
  replies : List Reply
  /-- the last noon turn in which a packet was marked, on the request mesh and on the reply mesh (R300) -/
  noon : Option Nat × Option Nat
  deriving DecidableEq, Repr

/-! ## The visibility path -/

/-- The fields of a surface descriptor (R303). -/
structure SurfDesc where
  surf : Nat
  keep : Bool
  retain : Bool
  face : Bool
  cull : Nat
  depth : Bool
  height : Nat
  width : Nat
  map : Nat
  maplen : Nat
  dir : Nat
  mattab : Nat
  deriving DecidableEq, Repr

/-- Tile states (R314); FREE tiles are not listed. -/
inductive TileSt where
  | open
  | sealed
  | sorting
  | held
  deriving DecidableEq, Repr

/-- A tile that is not FREE: its number (ty · tiles per row + tx), its 64 (depth, identifier) pairs, the pipeline cast it belongs to,
records still to be filed or shaded, the order of sealing, and whether its lines are pinned (R312, R314, R316). -/
structure TileRec where
  tile : Nat
  st : TileSt
  pix : List (Word × DWord)
  castId : Nat
  /-- quad records the Riddle has filed, and whether it has filed them all -/
  sieved : Nat
  filed : Bool
  sealSeq : Nat
  pinned : Bool
  deriving DecidableEq, Repr

/-- A surface named by an accepted cast: the descriptor's address and region, its fields, and its tiles that are not FREE. -/
structure Surface where
  desc : Nat
  region : Nat
  d : SurfDesc
  tiles : List TileRec
  deriving DecidableEq, Repr

/-- A committed meshlet waiting for the raster units (R305). -/
structure Meshlet where
  id : Nat
  castId : Nat
  surf : Nat
  core : Nat
  inst : BitVec 24
  clus : BitVec 24
  nv : Nat
  nt : Nat
  verts : List (Nat × List Word)
  tris : List (Nat × Word)
  deriving DecidableEq, Repr

/-- A Riddle bin (R319): surface, material, and for hits the issuing cast; its records in arrival order; once it qualifies for a launch,
its place in the order of qualifying (R320, R350). -/
structure RBin where
  surf : Nat
  material : Nat
  hits : Option Nat
  records : List MatRecord
  qual : Option Nat
  deriving DecidableEq, Repr

/-- The visibility path. -/
structure Visib where
  surfaces : List Surface
  meshlets : List Meshlet
  nextMeshlet : Nat
  /-- bins of the 16 Riddle units -/
  riddle : List (List RBin)
  sealCtr : Nat
  qualCtr : Nat
  deriving DecidableEq, Repr

/-! ## Regions, casts, contexts and the dispatcher -/

/-- A region control block (R340). -/
structure Region where
  num : Nat
  parent : Nat
  depth : Nat
  host : Nat
  priority : Nat
  faultdom : Bool
  demand : Bool
  ovc : Nat
  ovr : BitVec 7
  root : Nat
  /-- the ROOT in effect: a change of ROOT takes effect after `cctl.tlbinvall` (R341) -/
  rootUsed : Nat
  handler : DWord
  ctxb : Nat
  granb : Nat
  poolcnt : DWord
  instcnt : DWord
  mxcnt : DWord
  ldcnt : DWord
  fcnt : List (BitVec 32)
  killCast : BitVec 32
  killCause : BitVec 8
  kills : BitVec 24
  deriving DecidableEq, Repr

/-- An accepted cast (R345 to R348): its descriptor words, its launch progress and what its completion record gathers. -/
structure Cast where
  castId : Nat
  host : Nat
  region : Nat
  seq : Nat
  descVa : Nat
  desc : List DWord
  consts : Vector DWord 32
  surf : Option Nat
  /-- next grid crew to launch, crews admitted, crews retired -/
  nextCrew : Nat
  admitted : Nat
  retired : Nat
  mcrews : Nat
  flags : BitVec 5
  fmask : LaneMask
  off : Nat
  dropped : Nat
  prodFail : Bool
  geomEnded : Bool
  done : Bool
  killed : Option Nat
  /-- triggered or retired crews, by grid index (R236) -/
  trigged : List Nat
  /-- the logical time its crews' triggers and retirements carry (R219, R236) -/
  trigLT : Nat
  deriving DecidableEq, Repr

/-- A saved context (R359, R360): the crew with its pool tasks, queue entries, their scoreboard entries, replay entries, tagged tables and
bin records, the bank and slots it occupies, and its place in the order of pre-emption. -/
structure Context where
  id : Nat
  crew : Crew
  tasks : List Task
  entries : List QEntry
  sboard : List SbEntry
  replay : List Replay
  tables : List (Nat × Mem)
  bins : List Bin
  bank : Nat
  slots : List Nat
  order : Nat
  /-- the logical time of the core it ran on (R219, R221) -/
  lt : Nat := 0
  deriving DecidableEq, Repr

/-- What a launch candidate is (R350). -/
inductive CandKind where
  | saved (ctx : Nat)
  | riddle (unit bin : Nat)
  | fresh (castId : Nat)
  deriving DecidableEq, Repr

/-- A launch candidate that has been passed over since the ns given, and whether it blocks (R350). -/
structure Passed where
  kind : CandKind
  since : Nat
  blocking : Bool
  deriving DecidableEq, Repr

/-- The dispatcher and the context layer. -/
structure Dispatch where
  passed : List Passed
  rr : Nat
  /-- corners in order of last use, least recent first (R352) -/
  corners : List Nat
  /-- the last start-ramp window with a start or stop: its number, its starts and units (R354) -/
  window : Nat
  starts : Nat
  units : Nat
  /-- crews whose start waits for its window, in order -/
  waitStart : List Nat
  /-- compute columns asleep; columns waking with the ns they become ready (R355) -/
  asleep : List Nat
  waking : List (Nat × Nat)
  /-- context-layer columns not yet ready after a wake, with the ns they become ready (R355) -/
  ctxWake : List (Nat × Nat)
  /-- cache-die columns asleep, and those waking with the ns they become ready (R355) -/
  cacheAsleep : List Nat
  cacheWake : List (Nat × Nat)
  idleFrom : List Nat
  /-- context slots in use as (bank, slot), banks retired, saved contexts -/
  ctxUsed : List (Nat × Nat)
  retiredBanks : List Nat
  contexts : List Context
  nextCtx : Nat
  preOrder : Nat
  nextCrewId : Nat
  nextGangId : Nat
  nextCast : Nat
  deriving DecidableEq, Repr

/-! ## Hosts and firmware -/

/-- A command queue of a port (R379, R380). -/
structure CmdQueue where
  base : DWord
  size : Nat
  tail : Nat
  head : Nat
  enable : Bool
  error : Bool
  deriving DecidableEq, Repr

/-- Journal states (R386). -/
inductive JState where
  | accepted
  | started
  | done
  | failed
  deriving DecidableEq, Repr

/-- A journal entry (R386) and the command it is for. -/
structure JEntry where
  seq : Nat
  digest : DWord
  host : Nat
  queue : Nat
  kind : Nat
  st : JState
  code : Nat
  value : BitVec 32
  time : Nat
  cmd : List DWord
  deriving DecidableEq, Repr

/-- One port's registers and fault ring (R379, R385). -/
structure Port where
  queues : List CmdQueue
  faultBase : DWord
  faultSize : Nat
  faultNext : Nat
  faultPhase : Bool
  /-- the firmware Ladle's commands of this host, by journal SEQ, in start order (R384) -/
  fw : List Nat
  /-- lines of the running command already moved -/
  fwLine : Nat
  fwReqs : List Nat
  fwRejected : Bool
  /-- race records of the running command's span (R384) -/
  fwSectors : List Sector
  mailboxStatus : BitVec 32
  mailbox : List Byte
  /-- FAULTBASE has been written: the fault ring takes records (R385) -/
  faultOpen : Bool := false
  /-- the logical time of what its commands have written or read (R219, R381) -/
  lt : Nat := 0
  deriving DecidableEq, Repr

/-- What the journal also tells, without an entry layout (R364, R365, R389): a link rejoined, a vertical bus retired as planned or by force. -/
inductive HostNote where
  | rejoined (link : Nat)
  | planned (bank : Nat)
  | forced (bank : Nat)
  deriving DecidableEq, Repr

/-- A debugger attached to a cast (R373), with the causes it selects. -/
structure Debugger where
  castId : Nat
  causes : BitVec 32
  deriving DecidableEq, Repr

/-- Where bring-up stands (R392). -/
inductive BringUp where
  | off
  /-- the firmware image failed: the recovery mailbox waits -/
  | recovery
  | ready
  deriving DecidableEq, Repr

/-- The hosts' side of the device. -/
structure HostSide where
  bring : BringUp
  ports : List Port
  journal : List JEntry
  notes : List HostNote
  nextSeq : Nat
  /-- corrected-error counters (R379) -/
  errors : List DWord
  /-- machine-check events sent to Ebandyan (R17): physical lines -/
  checks : List Nat
  debuggers : List Debugger
  linksDown : List Nat
  /-- the device is out of the coherent window until it rejoins (R389) -/
  windowLost : Bool
  blob : Blob
  deriving DecidableEq, Repr

/-! ## The whole -/

/-- One step the environment schedules (log entry 1): a partition issues, an event of the opcode table happens, or time passes. -/
inductive Act where
  /-- partition `part` of core `core` issues the candidate R54 chooses -/
  | issue (core part : Nat)
  /-- that partition issues from the slot given: the candidates before it are passed over because their pipe or port is busy (R54) -/
  | issueSlot (core slot : Nat)
  | event (i : Instr)
  /-- time passes, in sixths of a nanosecond -/
  | tick (n : Nat)
  /-- structure n corrects an error; the vertical bus of bank n is structure n (R364, R390; log entry 88) -/
  | corrected (n : Nat)
  /-- a check fails on the way of a 64-byte unit of memory, or of an area of a crew's scratchpad (R390) -/
  | mismatch (crew : Option (Nat × Area)) (unit : Nat)
  deriving DecidableEq, Repr

/-- The device. -/
structure State where
  /-- time since reset in sixths of a nanosecond: 4 to a core clock, 3 to a network clock, 6 to an Ebandyan clock (R10) -/
  time : Nat
  crews : List Crew
  cores : List CoreSt
  mem : MemSys
  vis : Visib
  regions : List Region
  casts : List Cast
  disp : Dispatch
  host : HostSide
  /-- the model's own: the steps to come (log entry 1) -/
  agenda : List Act
  /-- the model's own: the number of the step, to which the free values of Config are applied (log entry 4) -/
  step : Nat
  /-- the model's own: the crew and bundle that issues -/
  cur : Option (Nat × Nat)
  deriving DecidableEq, Repr

/-- Why a step stops with a fault. -/
inductive Fault where
  /-- an instruction is executed while no bundle issues: `exec` raises it when `State.cur` names no bundle; `step` never does that.
  Safe: the machine stops where no hardware behaviour is described. -/
  | noBundle
  deriving DecidableEq, Repr

/-- Why a step is refused. -/
inductive Refusal where
  /-- the instruction has no meaning yet: raised by an arm of `exec`. Safe: the machine stops. -/
  | notModelled (mnemonic : String)
  deriving DecidableEq, Repr

/-- A partition at reset (log entry 3). -/
def PartSt.init : PartSt := { rot := 0, last := none }

/-- A codebook table no crew has loaded (R265). -/
def Codebook.init : Codebook := { owner := none, data := [], old := none }

/-- A core at reset. -/
def CoreSt.init : CoreSt :=
  { startPtr := 0, admSeq := 0, parts := List.replicate Config.nPartitions PartSt.init,
    bins := List.replicate Config.nBins none, entries := [], sboard := [], tasks := [],
    tables := List.replicate 8 Codebook.init, primOrder := [], nextTicket := 0, enq := 0, replay := [],
    lt := 0, ltClock := 0, l1 := [], icache := [], upd := [] }

/-- The memory system at reset. -/
def MemSys.init : MemSys :=
  { device := 0, gddr := [], poison := [], l2 := [], times := [], lists := [], reserves := [], requests := [], nextReq := 0,
    tlb := [], tlb2 := [], walks := [], nextWalk := 0, missing := [], pageReqs := [], nextPageReq := 0, nextPark := 0,
    host := [[], []], window := [], sharers := [], peerMem := [], replies := [], noon := (none, none) }

/-- The visibility path at reset: every tile FREE. -/
def Visib.init : Visib :=
  { surfaces := [], meshlets := [], nextMeshlet := 0, riddle := List.replicate 16 [], sealCtr := 0, qualCtr := 0 }

/-- The dispatcher at reset (log entry 3). -/
def Dispatch.init : Dispatch :=
  { passed := [], rr := 0, corners := [0, 15, 112, 127], window := 0, starts := 0, units := 0, waitStart := [],
    asleep := [], waking := [], ctxWake := [], cacheAsleep := [], cacheWake := [], idleFrom := List.replicate 16 0, ctxUsed := [], retiredBanks := [], contexts := [],
    nextCtx := 0, preOrder := 0, nextCrewId := 1, nextGangId := 1, nextCast := 1 }

/-- A command queue at reset (R379). -/
def CmdQueue.init : CmdQueue := { base := 0, size := 0, tail := 0, head := 0, enable := false, error := false }

/-- A port at reset (R379; the mailbox by log entry 3). -/
def Port.init : Port :=
  { queues := List.replicate 64 CmdQueue.init, faultBase := 0, faultSize := 0, faultNext := 0, faultPhase := true,
    fw := [], fwLine := 0, fwReqs := [], fwRejected := false, fwSectors := [], mailboxStatus := 0, mailbox := [] }

/-- The configuration blob before one has been verified: the defaults of R354, the rest by log entry 3. -/
def Blob.init : Blob :=
  { memBytes := 206158430208, rampStarts := 16, rampUnits := 32, idleNs := 0, vbusThreshold := 0, faultTimeoutNs := 0,
    deviceNumber := 0, peerLinks := List.replicate 32 0, fwVersion := 0, roots := [] }

/-- The hosts' side at reset: bring-up has not begun (R392), the journal is empty and SEQ starts at 1 (R386). -/
def HostSide.init : HostSide :=
  { bring := .off, ports := [Port.init, Port.init], journal := [], notes := [], nextSeq := 1, errors := [], checks := [], debuggers := [],
    linksDown := [], windowLost := false, blob := Blob.init }

/-- The device right after reset: no region, cast, crew or journal entry exists before bring-up (R392), memory lists nothing. -/
def State.reset : State :=
  { time := 0, crews := [], cores := List.replicate Config.nCores CoreSt.init, mem := MemSys.init, vis := Visib.init,
    regions := [], casts := [], disp := Dispatch.init, host := HostSide.init, agenda := [], step := 0, cur := none }

end Sys2Proof.Machine
end

