-- ==== Sys2Proof/Machine/Mem.lean ====
section
/-! DEFINITION. Sparse memories in canonical form, physical memory through L2 (R294, R295), page walks (R205, R206) and translation
(R207). -/

namespace Sys2Proof.Machine

/-- Bits [hi:lo] of a 64-bit word. -/
def bitsOf (w : DWord) (hi lo : Nat) : Nat := w.toNat / 2 ^ lo % 2 ^ (hi + 1 - lo)

/-- Bit i of a 64-bit word. -/
def bitOf (w : DWord) (i : Nat) : Bool := w.getLsbD i

/-! ## Sparse memories -/

/-- The byte at an address; an unlisted address reads 0 (log entry 2). -/
def Mem.get (m : Mem) (a : Nat) : Byte :=
  match m with
  | [] => 0
  | (x, w) :: t => if x = a then w else Mem.get t a

/-- Write one byte, keeping the canonical form. -/
def Mem.set (m : Mem) (a : Nat) (v : Byte) : Mem :=
  match m with
  | [] => if v = 0 then [] else [(a, v)]
  | (x, w) :: t =>
    if a < x then (if v = 0 then (x, w) :: t else (a, v) :: (x, w) :: t)
    else if a = x then (if v = 0 then t else (a, v) :: t)
    else (x, w) :: Mem.set t a v

/-- The canonical form: addresses strictly rising, no listed byte 0. -/
def Mem.wf (m : Mem) : Bool :=
  match m with
  | [] => true
  | [(_, w)] => w != 0
  | (x, w) :: (y, u) :: t => w != 0 && decide (x < y) && Mem.wf ((y, u) :: t)

/-- n bytes from an address, lowest first. -/
def Mem.read (m : Mem) (a n : Nat) : List Byte := (List.range n).map fun i => m.get (a + i)

/-- Write bytes from an address, lowest first. -/
def Mem.write (m : Mem) (a : Nat) (bs : List Byte) : Mem :=
  match bs with
  | [] => m
  | b :: t => Mem.write (m.set a b) (a + 1) t

/-- The little-endian number in n bytes (R3). -/
def Mem.readNat (m : Mem) (a n : Nat) : Nat := leNat (m.read a n)

/-- The element at an index of a sparse table; an unlisted one reads 0. -/
def Mem32.get (m : Mem32) (a : Nat) : Word :=
  match m with
  | [] => 0
  | (x, w) :: t => if x = a then w else Mem32.get t a

/-- Write one element, keeping the canonical form. -/
def Mem32.set (m : Mem32) (a : Nat) (v : Word) : Mem32 :=
  match m with
  | [] => if v = 0 then [] else [(a, v)]
  | (x, w) :: t =>
    if a < x then (if v = 0 then (x, w) :: t else (a, v) :: (x, w) :: t)
    else if a = x then (if v = 0 then t else (a, v) :: t)
    else (x, w) :: Mem32.set t a v

/-- The canonical form of a sparse table: indices strictly rising, no listed element 0. -/
def Mem32.wf (m : Mem32) : Bool :=
  match m with
  | [] => true
  | [(_, w)] => w != 0
  | (x, w) :: (y, u) :: t => w != 0 && decide (x < y) && Mem32.wf ((y, u) :: t)

/-- Replace bytes of a list from a position. -/
def patch (l : List Byte) (i : Nat) (bs : List Byte) : List Byte := l.take i ++ bs ++ l.drop (i + bs.length)

/-! ## Physical memory -/

/-- A physical address of the host aperture (R204). -/
def isHost (a : Nat) : Bool := a / 2 ^ 45 % 2 == 1

/-- The first byte of the 128-byte line of an address. -/
def lineOf (a : Nat) : Nat := a / 128 * 128

/-- The home slice of a line of device memory (R294). -/
def homeSlice (a : Nat) : Nat :=
  let f := fun i => a / 2 ^ i % 64
  f 7 ^^^ f 13 ^^^ f 19 ^^^ f 25 ^^^ f 31 ^^^ f 37 ^^^ (a / 2 ^ 43 % 8)

/-- The set of a line within its slice (R294). -/
def setOf (a : Nat) : Nat := a / 2 ^ 13 % 4096

/-- The L2 line that holds an address, when present. -/
def MemSys.l2At (m : MemSys) (a : Nat) : Option L2Line := m.l2.find? fun l => l.line == lineOf a

/-- One byte of device memory as its home holds it: the L2 line where present, else GDDR (R294). -/
def MemSys.devByte (m : MemSys) (a : Nat) : Byte :=
  match m.l2At a with
  | some l => l.data.getD (a % 128) 0
  | none => m.gddr.get a

/-- One byte of device memory written at its home: into the L2 line where present, which turns dirty, else into GDDR. -/
def MemSys.setDevByte (m : MemSys) (a : Nat) (v : Byte) : MemSys :=
  match m.l2At a with
  | some _ =>
    { m with l2 := m.l2.map fun l => if l.line == lineOf a then { l with data := l.data.set (a % 128) v, dirty := true } else l }
  | none => { m with gddr := m.gddr.set a v }

/-- The mark of an address of a COHERENT_SHARED page, above the 46 physical bits. -/
def sharedMark : Nat := 2 ^ 46

/-- Where an address lies: a coherent-window address whose bits [44:40] name this device is device memory at its low 40 bits; one homed at
a peer keeps its mark (R388, log entry 8). -/
def MemSys.place (m : MemSys) (a : Nat) : Nat :=
  if a < sharedMark then a else if a / 2 ^ 40 % 32 = m.device then a % 2 ^ 40 else a

/-- A placed address is homed at a peer device. -/
def isPeer (a : Nat) : Bool := decide (sharedMark ≤ a)

/-- One byte at a placed address. -/
def MemSys.byte (m : MemSys) (a : Nat) : Byte := if isPeer a then m.peerMem.get a else m.devByte a

/-- Bytes at a physical address of a host-`h` region: its aperture where bit 45 is set (R204), else device memory or a peer's. No capacity bounds an
access: a byte at or past the installed GDDR is kept and read as any other (R1, R12, log entry 66). -/
def MemSys.read (m : MemSys) (h a n : Nat) : List Byte :=
  if isHost a then (m.host.getD h []).read (a % 2 ^ 45) n
  else (List.range n).map fun i => m.byte (m.place a + i)

/-- Device bytes written from an address upward. -/
def MemSys.writeDev (m : MemSys) (a : Nat) (bs : List Byte) : MemSys :=
  match bs with
  | [] => m
  | b :: t => MemSys.writeDev (m.setDevByte a b) (a + 1) t

/-- The poisoned units left after a write of n bytes at a: a write of a whole 64-byte unit clears its poison (R212). -/
def clearPoison (ps : List Nat) (a n : Nat) : List Nat := ps.filter fun u => !(decide (a ≤ u) && decide (u + 64 ≤ a + n))

/-- Bytes written at a physical address of a host-`h` region. -/
def MemSys.write (m : MemSys) (h a : Nat) (bs : List Byte) : MemSys :=
  if isHost a then { m with host := m.host.set h ((m.host.getD h []).write (a % 2 ^ 45) bs) }
  else
    let b := m.place a
    let m := { m with poison := clearPoison m.poison b bs.length }
    if isPeer b then { m with peerMem := m.peerMem.write b bs } else m.writeDev b bs

/-- The 64-byte units that a list of ranges (start, length) covers whole. -/
def unitsCovered (l : List (Nat × Nat)) : List Nat :=
  let starts := (l.flatMap fun e => (List.range ((e.1 % 64 + e.2 + 63) / 64)).map fun i => e.1 / 64 * 64 + 64 * i).dedup
  starts.filter fun u => (List.range 64).all fun i => l.any fun e => decide (e.1 ≤ u + i) && decide (u + i < e.1 + e.2)

/-- A 64-bit word at a physical address. -/
def MemSys.word (m : MemSys) (h a : Nat) : DWord := BitVec.ofNat 64 (leNat (m.read h a 8))

/-- A poisoned 64-byte unit meets the n bytes at a (R212). -/
def MemSys.poisoned (m : MemSys) (a n : Nat) : Bool :=
  let b := m.place a
  m.poison.any fun u => decide (u < b + n) && decide (b < u + 64)

/-! ## Page tables -/

/-- A leaf entry's page size in address bits (R205). -/
def pageBits (pte : DWord) : Nat :=
  match bitsOf pte 2 1 with
  | 1 => 13
  | 2 => 23
  | _ => 33

/-- R, W, X, CHECKED, COHERENT_SHARED and CACHE of a leaf entry (R205). -/
def pteR (p : DWord) : Bool := bitOf p 3
/-- W of a leaf entry -/
def pteW (p : DWord) : Bool := bitOf p 4
/-- X of a leaf entry -/
def pteX (p : DWord) : Bool := bitOf p 5
/-- CHECKED of a leaf entry -/
def pteChecked (p : DWord) : Bool := bitOf p 6
/-- COHERENT_SHARED of a leaf entry -/
def pteShared (p : DWord) : Bool := bitOf p 7
/-- CACHE of a leaf entry -/
def pteCache (p : DWord) : Nat := bitsOf p 9 8

/-- An entry that is malformed at a level (R206). -/
def malformedAt (level : Nat) (p : DWord) : Bool :=
  bitsOf p 63 46 != 0 || bitsOf p 12 10 != 0 ||
  (match bitsOf p 2 1 with
   | 0 => level == 4
   | 1 => level != 4
   | 2 => level != 3 || bitsOf p 22 13 != 0
   | _ => level != 2 || bitsOf p 32 13 != 0) ||
  (bitsOf p 2 1 != 0 && pteChecked p && pteShared p)

/-- The index bits of a level (R205). -/
def levelIndex (level va : Nat) : Nat :=
  match level with
  | 1 => va / 2 ^ 43 % 32
  | 2 => va / 2 ^ 33 % 1024
  | 3 => va / 2 ^ 23 % 1024
  | _ => va / 2 ^ 13 % 1024

/-- A walk from a table down `fuel` levels (R205, R206): V is looked at first, so an entry with V = 0 is not present. -/
def walkFrom (m : MemSys) (h : Nat) (fuel table va : Nat) : WalkEnd :=
  match fuel with
  | 0 => .malformed
  | k + 1 =>
    let level := 4 - k
    let p := m.word h (table + 8 * levelIndex level va)
    if !bitOf p 0 then .absent
    else if malformedAt level p then .malformed
    else if bitsOf p 2 1 == 0 then walkFrom m h k (bitsOf p 45 13 * 8192) va
    else .leaf p

/-- The walk of a virtual address from a root (R205). -/
def walk (m : MemSys) (h root va : Nat) : WalkEnd := walkFrom m h 4 root va

/-- The physical address a leaf gives (R205), marked when its page belongs to the coherent window. -/
def physOf (pte : DWord) (va : Nat) : Nat :=
  let b := pageBits pte
  let a := bitsOf pte 45 13 * 8192 / 2 ^ b * 2 ^ b + va % 2 ^ b
  if pteShared pte && !isHost a then a + sharedMark else a

/-- The walk ends at a leaf entry that is not valid and has CHECKED set (R209, log entry 9). -/
def absentChecked (m : MemSys) (h : Nat) (fuel table va : Nat) : Bool :=
  match fuel with
  | 0 => false
  | k + 1 =>
    let p := m.word h (table + 8 * levelIndex (4 - k) va)
    if !bitOf p 0 then bitsOf p 2 1 != 0 && pteChecked p
    else if malformedAt (4 - k) p || bitsOf p 2 1 != 0 then false
    else absentChecked m h k (bitsOf p 45 13 * 8192) va

/-- The 8 KiB virtual page of an address; a larger page is cached page by page. -/
def vpageOf (va : Nat) : Nat := va / 8192

/-- What the L1 TLB of a core holds for a page, and what a walk of the present tables gives: until `tlbinv` an access may use either the
old entry or the new one (R207). -/
def tlbChoices (m : MemSys) (core h root va : Nat) : List WalkEnd :=
  let own := (m.tlb.filter fun e => e.core == core && e.root == root && e.vpage == vpageOf va).map fun e => WalkEnd.leaf e.pte
  match own with
  | [] => []
  | l => if l.contains (walk m h root va) then l else l ++ [walk m h root va]

/-- What a walk of a page may come to: an entry of an L2 TLB, or what the tables hold (R207). -/
def walkChoices (m : MemSys) (h root vpage : Nat) : List WalkEnd :=
  let now := walk m h root (vpage * 8192)
  let held := (m.tlb2.filter fun e => e.host == h && e.root == root && e.vpage == vpage).map fun e => WalkEnd.leaf e.pte
  now :: held.filter (· != now)

/-- The addresses of the entries a walk reads. -/
def walkPath (m : MemSys) (h fuel table va : Nat) : List Nat :=
  match fuel with
  | 0 => []
  | k + 1 =>
    let a := table + 8 * levelIndex (4 - k) va
    let p := m.word h a
    if !bitOf p 0 || malformedAt (4 - k) p || bitsOf p 2 1 != 0 then [a] else a :: walkPath m h k (bitsOf p 45 13 * 8192) va

/-- The slice whose L2 TLB keeps a page's translation: the home of its last table entry (log entry 75). -/
def tlbSlice (m : MemSys) (h root vpage : Nat) : Nat := homeSlice ((walkPath m h 4 root (vpage * 8192)).getLastD root)

/-- One of a list of alternatives, taken by a free value (log entry 4). -/
def choose {α : Type} (step kind i : Nat) (l : List α) (d : α) : α :=
  match l with
  | [] => d
  | [x] => x
  | _ => l.getD (Config.freeNat step kind i % l.length) d

/-- What a core's TLB gives for an address, if it holds an entry of the page. -/
def tlbLookup (m : MemSys) (step core h root va : Nat) : Option WalkEnd :=
  match tlbChoices m core h root va with
  | [] => none
  | p :: l => some (choose step 1 va (p :: l) p)

/-- Translation for an agent that has no TLB of a core: any cached entry of the page or a fresh walk (R207). -/
def anyTranslate (m : MemSys) (step h root va : Nat) : WalkEnd :=
  if va / 2 ^ 48 != 0 then .absent
  else
    let old := ((m.tlb.filter fun e => e.root == root && e.vpage == vpageOf va).map fun e => WalkEnd.leaf e.pte) ++
      (m.tlb2.filter fun e => e.root == root && e.vpage == vpageOf va).map fun e => WalkEnd.leaf e.pte
    let now := walk m h root va
    choose step 2 va (now :: old.filter (· != now)) now

/-- The physical address of an engine's or Ebandyan's access, when its page translates and satisfies `ok`. -/
def physFor (m : MemSys) (step h root : Nat) (ok : DWord → Bool) (va : Nat) : Option Nat :=
  match anyTranslate m step h root va with
  | .leaf p => if ok p then some (physOf p va) else none
  | _ => none

/-- Every byte of [va, va + n) has a physical address with `ok`: the address of each 8 KiB part, in order. -/
def spanPhys (m : MemSys) (step h root : Nat) (ok : DWord → Bool) (va n : Nat) : Option (List Nat) :=
  (List.range n).mapM fun i => physFor m step h root ok (va + i)

/-- Bytes read at virtual addresses, when every byte is readable. -/
def readVirt (m : MemSys) (step h root va n : Nat) : Option (List Byte) :=
  (spanPhys m step h root pteR va n).map fun l => l.map fun a => (m.read h a 1).headD 0

/-- Bytes written at virtual addresses, byte by byte, when every byte is writable. -/
def writeVirt (m : MemSys) (step h root va : Nat) (bs : List Byte) : Option MemSys :=
  (spanPhys m step h root pteW va bs.length).map fun l => (l.zip bs).foldl (fun m ab => m.write h ab.1 [ab.2]) m

/-! ## Times of lines (R219) -/

/-- Write time and lease end of a line. -/
def MemSys.timeOf (m : MemSys) (line : Nat) : LineTime :=
  match m.times.find? fun t => t.line == line with
  | some t => t
  | none => { line := line, wt := 0, rt := 0 }

/-- Replace a line's times. -/
def MemSys.setTime (m : MemSys) (t : LineTime) : MemSys := { m with times := t :: m.times.filter fun x => x.line != t.line }

/-- A line of device memory written at its home by an agent that is no core, as a release that carries time v. -/
def MemSys.releaseTime (m : MemSys) (line v : Nat) : MemSys :=
  let t := m.timeOf line
  m.setTime { t with wt := max v (t.rt + 1), rt := max v (t.rt + 1) }

end Sys2Proof.Machine
end

