-- ==== Sys2Proof/Machine/Ops.lean ====
section
/-! DEFINITION. The named operations over the state: lookups and updates, program counters (R20), reading and writing registers with
pending results (R60) and shape tags (R91 to R94), killing a cast (R343, R410), taking a trap (R366) and returning from one (R372). -/

namespace Sys2Proof.Machine

/-! ## Sorting -/

/-- Insert before the first element that does not come before it. -/
def insertBy {α : Type} (le : α → α → Bool) (a : α) : List α → List α
  | [] => [a]
  | b :: t => if le a b then a :: b :: t else b :: insertBy le a t

/-- Insertion sort; equal elements keep their order. -/
def sortBy {α : Type} (le : α → α → Bool) (l : List α) : List α := l.foldr (insertBy le) []

/-! ## Clocks (R10) -/

/-- 1.5 GHz core clocks since reset. -/
def State.coreClock (s : State) : Nat := s.time / 4
/-- 2.0 GHz network clocks since reset. -/
def State.netClock (s : State) : Nat := s.time / 3
/-- Nanoseconds since reset. -/
def State.ns (s : State) : Nat := s.time / 6

/-! ## Lookups and updates -/

/-- The resident crew with an identifier. -/
def State.crew? (s : State) (cid : Nat) : Option Crew := s.crews.find? fun c => c.cid == cid
/-- Replace a crew. -/
def State.setCrew (s : State) (c : Crew) : State :=
  { s with crews := s.crews.map fun d => if d.cid == c.cid then c else d }
/-- The bundle slot of a crew with a BUNDLE index. -/
def Crew.bundle? (c : Crew) (i : Nat) : Option Bundle := c.bundles.find? fun b => b.index == i
/-- Replace a bundle. -/
def Crew.setBundle (c : Crew) (b : Bundle) : Crew :=
  { c with bundles := c.bundles.map fun d => if d.index == b.index then b else d }
/-- A core. -/
def State.core (s : State) (n : Nat) : CoreSt := s.cores.getD n CoreSt.init
/-- Replace a core. -/
def State.setCore (s : State) (n : Nat) (k : CoreSt) : State := { s with cores := s.cores.set n k }
/-- The accepted cast with an identifier. -/
def State.cast? (s : State) (id : Nat) : Option Cast := s.casts.find? fun a => a.castId == id
/-- Replace a cast. -/
def State.setCast (s : State) (a : Cast) : State :=
  { s with casts := s.casts.map fun d => if d.castId == a.castId then a else d }
/-- A region. -/
def State.region? (s : State) (n : Nat) : Option Region := s.regions.find? fun r => r.num == n
/-- Replace a region. -/
def State.setRegion (s : State) (r : Region) : State :=
  { s with regions := s.regions.map fun d => if d.num == r.num then r else d }
/-- The translation root and host of a region (R204, R205). -/
def State.rootHost (s : State) (n : Nat) : Nat × Nat :=
  match s.region? n with
  | some r => (r.rootUsed, r.host)
  | none => (0, 0)
/-- A bundle of a resident crew. -/
def State.bundle? (s : State) (cid bi : Nat) : Option (Crew × Bundle) :=
  match s.crew? cid with
  | none => none
  | some c =>
    match c.bundle? bi with
    | none => none
    | some b => some (c, b)
/-- Replace a bundle of a resident crew. -/
def State.setBundle (s : State) (c : Crew) (b : Bundle) : State := s.setCrew (c.setBundle b)

/-! ## Cast descriptor fields (R345) -/

/-- Word i of a cast descriptor. -/
def Cast.word (a : Cast) (i : Nat) : DWord := a.desc.getD i 0
/-- KIND: 0 compute, 1 pipeline, 2 material -/
def Cast.kind (a : Cast) : Nat := bitsOf (a.word 4) 15 14
/-- PLACE -/
def Cast.place (a : Cast) : Nat := bitsOf (a.word 4) 13 12
/-- HAZARDS (R62) -/
def Cast.hazards (a : Cast) : Bool := bitOf (a.word 4) 11
/-- FTZ (R121) -/
def Cast.ftz (a : Cast) : Bool := bitOf (a.word 4) 10
/-- FPINV (R129) -/
def Cast.fpinv (a : Cast) : Bool := bitOf (a.word 4) 9
/-- NANTRAP (R285) -/
def Cast.nantrap (a : Cast) : Bool := bitOf (a.word 4) 8
/-- PRODUCER (R247, R71) -/
def Cast.producer (a : Cast) : Nat := bitsOf (a.word 2) 14 10
/-- DEP0 … of the producer casts (R356) -/
def Cast.deps (a : Cast) : List Nat :=
  ([bitsOf (a.word 5) 31 0, bitsOf (a.word 5) 63 32, bitsOf (a.word 6) 31 0, bitsOf (a.word 6) 63 32]).take (bitsOf (a.word 4) 7 5)
/-- Grid dimensions -/
def Cast.grid (a : Cast) : Nat × Nat × Nat :=
  (bitsOf (a.word 1) 63 44 + 1, bitsOf (a.word 1) 43 28 + 1, bitsOf (a.word 1) 27 12 + 1)
/-- Crews of the grid -/
def Cast.gridCrews (a : Cast) : Nat := a.grid.1 * a.grid.2.1 * a.grid.2.2
/-- Strands of a crew -/
def Cast.strands (a : Cast) : Nat :=
  (bitsOf (a.word 2) 53 44 + 1) * (bitsOf (a.word 2) 43 34 + 1) * (bitsOf (a.word 2) 33 24 + 1)
/-- Launch bundles of a crew (R346) -/
def Cast.launch (a : Cast) : Nat := (a.strands + (W - 1)) / W
/-- Gang shape -/
def Cast.gang (a : Cast) : Nat × Nat := (bitsOf (a.word 2) 23 21 + 1, bitsOf (a.word 2) 20 18 + 1)
/-- Base block (R89) -/
def Cast.base (a : Cast) : Nat := 32 * (bitsOf (a.word 2) 17 15 + 1)
/-- Weight-buffer granules -/
def Cast.wbg (a : Cast) : Nat := bitsOf (a.word 2) 9 3
/-- NA and NAM and VPOS (R303) -/
def Cast.na (a : Cast) : Nat := bitsOf (a.word 13) 13 8
/-- NAM -/
def Cast.nam (a : Cast) : Nat := bitsOf (a.word 13) 5 0
/-- VPOS -/
def Cast.vpos (a : Cast) : Nat := bitsOf (a.word 13) 23 16
/-- DONE -/
def Cast.done? (a : Cast) : Nat := bitsOf (a.word 12) 47 0

/-- The cast of a crew; a crew whose cast is not listed reads a descriptor of zeros. -/
def State.castOf (s : State) (c : Crew) : Cast :=
  match s.cast? c.castId with
  | some a => a
  | none => { castId := c.castId, host := 0, region := c.region, seq := 0, descVa := 0, desc := [], consts := Vector.replicate 32 0, surf := none,
              nextCrew := 0, admitted := 0, retired := 0, mcrews := 0, flags := 0, fmask := 0, off := 0, dropped := 0,
              prodFail := false, geomEnded := false, done := false, killed := none, trigged := [], trigLT := 0 }

/-! ## Program counters (R20) -/

/-- Slot number of a PC. -/
def pcSlot (pc : DWord) : Nat := pc.toNat % 8
/-- Line address of a PC. -/
def pcLine (pc : DWord) : DWord := BitVec.ofNat 64 (pc.toNat / 64 * 64)
/-- Linear slot index of a PC. -/
def pcLinear (pc : DWord) : Nat := pc.toNat / 64 * 5 + pcSlot pc
/-- The PC with a linear slot index, modulo 2^48. -/
def pcOfLinear (t : Int) : DWord := BitVec.ofInt 64 ((t / 5 * 64 + t % 5) % 2 ^ 48)
/-- The slot after a PC (R20): from slot 4 to slot 0 of the next line. -/
def nextPc (pc : DWord) : DWord :=
  if pcSlot pc ≥ 4 then BitVec.ofNat 64 ((pc.toNat / 64 * 64 + 64) % 2 ^ 48) else pc + 1
/-- n slots after a PC. -/
def skipPc (pc : DWord) : Nat → DWord
  | 0 => pc
  | n + 1 => skipPc (nextPc pc) n
/-- Bits [5:3] and [63:48] of a PC are zero and its slot is 0 to 4 (R20, R77). -/
def pcWellFormed (pc : DWord) : Bool := decide (pcSlot pc ≤ 4) && bitsOf pc 5 3 == 0 && bitsOf pc 63 48 == 0

/-! ## v registers: shapes and tags (R91 to R94) -/

/-- The value of a lane (R91). -/
def Shape.lane (sh : Shape) (L : Nat) : Word :=
  match sh with
  | .u v => v
  | .a base stride => base + BitVec.ofNat 32 L * stride
  | .g vals => vals.getD L 0

/-- The shape tag's code: 0 U, 1 A, 2 G (R108). -/
def Shape.code : Shape → Nat
  | .u _ => 0
  | .a _ _ => 1
  | .g _ => 2

/-- A register that has not been written: U, 0 (R87). -/
def VReg.zero : VReg := { shape := .u 0, fmt := 0, last := 0 }

/-- An owned v name; another name reads as U 0. -/
def Bundle.vreg (b : Bundle) (n : Nat) : VReg := b.v.getD n VReg.zero

/-- Predicate n in lane L; p15 reads 1 (R86). -/
def Bundle.predOf (b : Bundle) (n : Nat) : LaneMask := if n < 15 then b.p.getD n 0 else BitVec.allOnes 32

/-- Lanes that hold a non-exited strand. -/
def Bundle.live (b : Bundle) : LaneMask := b.present &&& ~~~b.exited

/-- What a write of lanes leaves in a register: a full write stores its shape, with a G shape keeping the lanes not written; a partial
write expands to G (R92). -/
def Shape.written (old : Shape) (w : VWrite) : Shape :=
  let merged := lanesOf fun L => if w.mask.getLsbD L then w.vals.getD L 0 else old.lane L
  match w.full with
  | some (.u v) => .u v
  | some (.a x y) => .a x y
  | _ => .g merged

/-- The value a result gives to a name in a lane, by operand code (R30): v names, s names and predicates. -/
def RegResult.lane (r : RegResult) (code L : Nat) : Option DWord :=
  if code < 640 then
    match r.v.find? fun w => w.name == code && w.mask.getLsbD L with
    | some w => some ((w.vals.getD L 0).setWidth 64)
    | none => none
  else if code < 800 || 880 ≤ code then (r.s.find? fun w => w.1 == code - 640).map (·.2)
  else
    match r.p.find? fun w => w.name == code - 864 && w.mask.getLsbD L with
    | some w => some (if w.vals.getLsbD L then 1 else 0)
    | none => none

/-- No effect on registers. -/
def RegResult.empty : RegResult := { v := [], p := [], s := [], flags := 0, iv := 0 }

/-- Two results of one instruction together. -/
def RegResult.append (x y : RegResult) : RegResult :=
  { v := x.v ++ y.v, p := x.p ++ y.p, s := x.s ++ y.s, flags := x.flags ||| y.flags, iv := x.iv ||| y.iv }

/-- What the register file holds in a name and lane. -/
def Bundle.fileLane (b : Bundle) (code L : Nat) : DWord :=
  if code < 640 then ((b.vreg code).shape.lane L).setWidth 64
  else if code < 800 then b.s.getD (code - 640) 0
  else if 880 ≤ code then b.k.getD (code - 880) 0
  else if (b.predOf (code - 864)).getLsbD L then 1 else 0

/-- A name is a destination of a pending long instruction (R60). -/
def Bundle.isPending (b : Bundle) (code : Nat) : Bool := b.pend.any fun p => p.names.contains code

/-- The lane of a per-lane list kept by name. -/
def prevLane (l : List (Nat × List DWord)) (code L : Nat) : Option DWord :=
  match l.find? fun e => e.1 == code with
  | some e => e.2[L]?
  | none => none

/-- The value a pending long instruction gives a lane of a name, once it is bound (R60). -/
def Pending.other (p : Pending) (code L : Nat) : Option DWord :=
  if !p.names.contains code then none
  else
    match p.result with
    | some r => r.lane code L
    | none => none

/-- What a lane of a name would hold without the long results of the stretch: the old value, or that of the last short instruction to write
it since (R60). -/
def Bundle.baseLane (b : Bundle) (code L : Nat) : DWord :=
  (b.pend.findSome? fun p => if p.names.contains code then prevLane p.prev code L else none).getD (b.fileLane code L)

/-- The values of the long instructions of the stretch for a lane of a name. -/
def Bundle.longLane (b : Bundle) (code L : Nat) : List DWord := b.pend.filterMap fun p => p.other code L

/-- A read of a register in a lane: what the file holds, or where the name is pending the value without the long results or one of theirs,
each lane choosing for itself (R60). -/
def Bundle.readLane (b : Bundle) (step code L : Nat) : DWord :=
  if b.isPending code then choose step 3 (code * W + L) (b.baseLane code L :: b.longLane code L) (b.fileLane code L) else b.fileLane code L

/-- The names a result writes, with their lanes. -/
def RegResult.writes (r : RegResult) : List (Nat × LaneMask) :=
  r.v.map (fun w => (w.name, w.mask)) ++ r.s.map (fun w => (640 + w.1, BitVec.allOnes 32)) ++ r.p.map fun w => (864 + w.name, w.mask)

/-- The lanes of a name that a pending instruction's result writes. -/
def Pending.lanes (p : Pending) (code : Nat) : LaneMask :=
  match p.result with
  | some r => (r.writes.filter fun w => w.1 == code).foldl (fun m w => m ||| w.2) 0
  | none => 0

/-- Lanes of a name that another instruction of the stretch also wrote, a short one where `short` asks for it. -/
def Pending.rivalMask (p : Pending) (short : Bool) (code : Nat) : LaneMask :=
  p.rivals.foldl (fun m e => if e.1 == code && (!short || e.2.2) then m ||| e.2.1 else m) 0

/-- Another instruction has written lanes of a name; the value of a short one becomes what they hold without the long results (R60). -/
def Pending.rivalled (p : Pending) (b : Bundle) (short : Bool) (code : Nat) (lanes : LaneMask) : Pending :=
  if !p.names.contains code then p
  else
    { p with
      prev := if short then p.prev.map fun e => if e.1 == code then (code, lanesOf fun L => if lanes.getLsbD L then b.fileLane code L else e.2.getD L 0) else e
              else p.prev
      rivals := p.rivals ++ [(code, lanes, short)] }

/-- Note a write of a name in the pending results `ok` selects. -/
def Bundle.noteWrite (b : Bundle) (ok : Pending → Bool) (short : Bool) (code : Nat) (mask : LaneMask) : Bundle :=
  if mask = 0 ∨ !b.isPending code then b
  else { b with pend := b.pend.map fun p => if ok p then p.rivalled b short code mask else p }

/-- Store a v write in the file, at a clock. A write of no lane changes nothing, the tag included (R92). -/
def Bundle.storeV (b : Bundle) (clock : Nat) (w : VWrite) : Bundle :=
  if w.mask = 0 then b
  else { b with v := b.v.set w.name { shape := (b.vreg w.name).shape.written w, fmt := 0, last := clock } }

/-- Store a predicate write; p15 discards it (R86). -/
def Bundle.storeP (b : Bundle) (w : PWrite) : Bundle :=
  if w.name < 15 then { b with p := b.p.setIfInBounds w.name ((b.predOf w.name &&& ~~~w.mask) ||| (w.vals &&& w.mask)) } else b

/-- Store an s register, or a k register, numbered from 240 as its operand code stands to those of the s registers (R30). -/
def Bundle.storeS (b : Bundle) (w : Nat × DWord) : Bundle :=
  { b with s := b.s.setIfInBounds w.1 w.2, k := if w.1 < 240 then b.k else b.k.setIfInBounds (w.1 - 240) w.2 }

/-- Store a result in the file. -/
def Bundle.store (b : Bundle) (clock : Nat) (r : RegResult) : Bundle :=
  let b := r.v.foldl (fun b w => b.storeV clock w) b
  let b := r.p.foldl (fun b w => b.storeP w) b
  r.s.foldl (fun b w => b.storeS w) b

/-- The result of a short instruction: written at once (R59), and noted where a pending instruction also writes (R60). -/
def Bundle.writeShort (b : Bundle) (clock : Nat) (r : RegResult) : Bundle :=
  r.writes.foldl (fun b w => b.noteWrite (fun _ => true) true w.1 w.2) (b.store clock r)

/-- LONG_RESULT_WRITE: the bound result of pending instruction `id` is written; what its names held stays readable in the stretch (R60). -/
def Bundle.writeLong (b : Bundle) (clock id : Nat) : Bundle :=
  match b.pend.find? fun p => p.id == id with
  | none => b
  | some p =>
    match p.result with
    | none => b
    | some r =>
      if p.written then b
      else
        let prev := r.writes.map fun w => (w.1, lanesOf fun L => b.baseLane w.1 L)
        let b := r.writes.foldl (fun b w => b.noteWrite (fun q => q.id != id) false w.1 w.2) b
        let b := b.store clock r
        { b with pend := b.pend.map fun q => if q.id == id then { q with written := true, prev := prev } else q }

/-- The lanes of a name that a long instruction and another of its stretch both wrote: each takes one of the values written, that of a short
instruction where one wrote after the long one, and the register is G (R60, R94). -/
def Bundle.settleName (b : Bundle) (step clock : Nat) (p : Pending) (code : Nat) : Bundle :=
  let mask := p.lanes code &&& p.rivalMask false code
  if mask = 0 then b
  else
    let short := p.rivalMask true code
    let pick := fun L => choose step 4 (code * W + L) ((if short.getLsbD L then [b.baseLane code L] else []) ++ b.longLane code L) 0
    if code < 640 then
      b.storeV clock { name := code, mask := mask, vals := lanesOf fun L => (pick L).setWidth 32, full := none }
    else if code < 800 || 880 ≤ code then b.storeS (code - 640, pick 0)
    else b.storeP { name := code - 864, mask := mask, vals := maskOf fun L => (pick L).getLsbD 0 }

/-- Every pending result is written: the marker can complete (R57). -/
def Bundle.drained (b : Bundle) : Bool := b.pend.all fun p => p.written

/-- A marker completes (R57, R60): conflicting lanes settle, pending FLAGS bits are set (in trap mode none, R367), nothing is pending. An
IV bit of a long instruction falls due as FP_INVALID when the cast enables it (R129). -/
def Bundle.completeMarker (b : Bundle) (step clock : Nat) (fpinv : Bool) : Bundle :=
  let b' := b.pend.foldl (fun x p => p.names.foldl (fun x code => x.settleName step clock p code) x) b
  let inTrap := b.trap.isSome
  let flags := b.pend.foldl (fun f p => match p.result with | some r => f ||| r.flags | none => f) (0 : BitVec 5)
  let due := b.pend.findSome? fun p =>
    match p.result with
    | some r => if r.iv &&& ~~~b.helper != 0 then some { pc := p.pc, lanes := r.iv &&& ~~~b.helper, rep := p.rep : FpDue } else none
    | none => none
  { b' with
    pend := []
    flags := if inTrap then b.flags else b.flags ||| flags
    fpDue := if fpinv && !inTrap then (match b.fpDue with | some d => some d | none => due) else b.fpDue }

/-- The completed marker of a slot that is saved, or that enters a trap: what was pending before the entry is written as outside trap mode,
FLAGS bits too (R366). -/
def Bundle.completeEntry (b : Bundle) (step clock : Nat) (fpinv : Bool) : Bundle :=
  match b.trap with
  | some t => if t.entering then { ({ b with trap := none }.completeMarker step clock fpinv) with trap := b.trap } else b.completeMarker step clock fpinv
  | none => b.completeMarker step clock fpinv

/-! ## Sub-bundles (R63, R64) -/

/-- A fresh sub-bundle of a mask at a PC. -/
def SubB.start (mask : LaneMask) (pc : DWord) (clock : Nat) : SubB :=
  { mask := mask, pc := pc, park := .run, stall := none, rep := 0, cst := 0, issued := 0, ready := clock, line := none }

/-- The sub-bundle leaves its park and continues at a PC; in the line it has entered it goes on out of the same copy (R18, R19). -/
def SubB.goto (x : SubB) (pc : DWord) (clock : Nat) : SubB :=
  { x with pc := pc, park := .run, stall := none, rep := 0, cst := 0, ready := clock, redo := none,
           line := match x.line with
             | some l => if l.addr == pcLine pc then some l else none
             | none => none }

/-- The sub-bundle enters its line anew at its next instruction (R18). -/
def SubB.leaveLine (x : SubB) : SubB := { x with line := none }

/-- A parked sub-bundle takes no turn at `join`, `reform`, `bar`, `gbar`, `wait` or `sleep` (R64). -/
def SubB.takesTurn (x : SubB) : Bool :=
  match x.park with
  | .run => true
  | .marker => true
  | .drain => true
  | .fetch _ _ => true
  | _ => false

/-- The rotation from the first sub-bundle that takes a turn; the order stays. -/
def turnFrom (l : List SubB) : Nat → List SubB
  | 0 => l
  | n + 1 =>
    match l with
    | [] => []
    | x :: t => if x.takesTurn then l else turnFrom (t ++ [x]) n

/-- The turn lies with a sub-bundle that takes one, ready from a clock on when it was not its turn before. -/
def Bundle.turn (b : Bundle) (clock : Nat) : Bundle :=
  match b.subs with
  | [] => b
  | x :: _ =>
    if x.takesTurn then b
    else
      match turnFrom b.subs b.subs.length with
      | [] => b
      | y :: t => { b with subs := { y with ready := clock } :: t }

/-- The current sub-bundle has left the rotation: the next that takes a turn has it, ready from a clock on (R54, R64). -/
def Bundle.takeOver (b : Bundle) (clock : Nat) : Bundle :=
  match turnFrom b.subs b.subs.length with
  | [] => b
  | y :: t => { b with subs := { y with ready := clock } :: t }

/-- The turn passes: the current sub-bundle goes to the end of the rotation, its instruction count at 0 (R64). -/
def Bundle.rotate (b : Bundle) (clock : Nat) : Bundle :=
  match b.subs with
  | [] => b
  | x :: t =>
    match turnFrom (t ++ [{ x with issued := 0 }]) b.subs.length with
    | [] => b
    | y :: t' => { b with subs := { y with ready := clock } :: t' }

/-- Sub-bundles with a strand left: one all of whose strands have exited leaves the rotation list (R66). -/
def Bundle.dropExited (b : Bundle) : Bundle :=
  { b with subs := (b.subs.map fun x => { x with mask := x.mask &&& b.live }).filter fun x => x.mask != 0 }

/-- Replace the current sub-bundle. -/
def Bundle.setCurrent (b : Bundle) (x : SubB) : Bundle := { b with subs := x :: b.subs.tail }

/-! ## Region counters (R340, R344) -/

/-- The fault class of a cause (R344). -/
def faultClass (cause : Nat) : Nat :=
  match cause with
  | 1 | 2 | 3 | 4 | 5 => 0
  | 6 | 7 | 8 | 9 => 1
  | 10 | 11 => 2
  | 12 | 13 | 14 => 3
  | 15 | 16 | 17 => 4
  | 18 | 19 => 5
  | _ => 6

/-- Add to a fault count of a list of eight. -/
def bump (l : List Nat) (i n : Nat) : List Nat := l.set i (l.getD i 0 + n)

/-- A fault count saturates at 32 bits (R344). -/
def satAdd32 (x : BitVec 32) (n : Nat) : BitVec 32 := if x.toNat + n < 2 ^ 32 then BitVec.ofNat 32 (x.toNat + n) else BitVec.allOnes 32

/-- A core adds a crew's share of the counters to the crew's region (R344, R181). -/
def State.flushCrew (s : State) (c : Crew) : State :=
  let us := (s.ns - c.poolFrom) / 1000
  let c' := { c with inst := 0, faults := List.replicate 8 0, poolFrom := c.poolFrom + 1000 * us }
  let s := s.setCrew c'
  match s.region? c.region with
  | none => s
  | some r =>
    s.setRegion { r with
      poolcnt := r.poolcnt + BitVec.ofNat 64 (c.cost * us)
      instcnt := r.instcnt + BitVec.ofNat 64 c.inst
      fcnt := (List.range 8).map fun i => satAdd32 (r.fcnt.getD i 0) (c.faults.getD i 0) }

/-- Add n to a fault count of a region directly. -/
def State.countFault (s : State) (region cls n : Nat) : State :=
  match s.region? region with
  | none => s
  | some r => s.setRegion { r with fcnt := r.fcnt.set cls (satAdd32 (r.fcnt.getD cls 0) n) }

/-- A region lies in the subtree of another (at most 8 levels, R339). -/
def State.inSubtree (s : State) (fuel n top : Nat) : Bool :=
  if n == top then true
  else
    match fuel with
    | 0 => false
    | k + 1 =>
      match s.region? n with
      | some r => if r.num == 0 then false else s.inSubtree k r.parent top
      | none => false

/-- The nearest ancestor-or-self with FAULTDOM (R343). -/
def State.faultDomain (s : State) (fuel n : Nat) : Nat :=
  match fuel with
  | 0 => n
  | k + 1 =>
    match s.region? n with
    | some r => if r.faultdom || r.num == 0 then n else s.faultDomain k r.parent
    | none => n

/-! ## Budgets and context slots (R342, R360) -/

/-- A region and its ancestors, nearest first (at most 8 levels). -/
def State.ancestors (s : State) (fuel n : Nat) : List Nat :=
  match fuel with
  | 0 => [n]
  | k + 1 =>
    match s.region? n with
    | some r => if r.num == 0 then [n] else n :: s.ancestors k r.parent
    | none => [n]

/-- Context slots that the saved contexts, spill reserves and trap areas of a subtree hold (R342, R371). -/
def State.ctxHeld (s : State) (top : Nat) : Nat :=
  ((s.crews.filter fun c => s.inSubtree 8 c.region top).map fun c =>
    c.spillSlots.length + (c.bundles.filter fun b => b.area.isSome).length).sum +
  ((s.disp.contexts.filter fun x => s.inSubtree 8 x.crew.region top).map fun x =>
    x.slots.length + (x.crew.bundles.filter fun b => b.area.isSome).length).sum

/-- Pool granules that the admitted crews of a subtree cost. -/
def State.granHeld (s : State) (top : Nat) : Nat :=
  ((s.crews.filter fun c => s.inSubtree 8 c.region top).map (·.cost)).sum

/-- n more context slots break no budget of the region or an ancestor; a budget of 0 is no limit (R340, R342). -/
def State.ctxFits (s : State) (region n : Nat) : Bool :=
  n == 0 || (s.ancestors 8 region).all fun k =>
    match s.region? k with
    | some r => r.ctxb == 0 || decide (s.ctxHeld k + n ≤ r.ctxb)
    | none => true

/-- n more granules break no budget. -/
def State.granFits (s : State) (region n : Nat) : Bool :=
  (s.ancestors 8 region).all fun k =>
    match s.region? k with
    | some r => r.granb == 0 || decide (s.granHeld k + n ≤ r.granb)
    | none => true

/-- Free slots of a context bank, lowest first; a retired bank has none (R360, R364). -/
def State.freeSlots (s : State) (bank : Nat) : List Nat :=
  if s.disp.retiredBanks.contains bank then []
  else (List.range Config.nCtxSlots).filter fun n => !s.disp.ctxUsed.contains (bank, n)

/-- Take n slots of a bank, when it has them. -/
def State.takeSlots (s : State) (bank n : Nat) : Option (State × List Nat) :=
  let l := (s.freeSlots bank).take n
  if l.length < n then none
  else some ({ s with disp := { s.disp with ctxUsed := s.disp.ctxUsed ++ l.map fun k => (bank, k) } }, l)

/-- A bank's context-layer column is ready (R355). -/
def State.bankAwake (s : State) (bank : Nat) : Bool :=
  !s.disp.asleep.contains (bank % 16) && s.disp.ctxWake.all fun w => w.1 != bank % 16 || decide (w.2 ≤ s.ns)

/-- Begin to wake columns: compute cores and context-layer columns are ready at the times of R355; the cache-die columns that sleep wake with
them. -/
def State.wake (s : State) (cols : List Nat) : State :=
  let ready := fun x => s.ns + 2000 + 250 * (x / 2 + 1)
  { s with disp := { s.disp with
      asleep := s.disp.asleep.filter fun x => !cols.contains x
      waking := s.disp.waking ++ cols.map fun x => (x, ready x)
      ctxWake := (s.disp.ctxWake.filter fun w => !cols.contains w.1) ++ cols.map fun x => (x, ready x + 2000)
      cacheAsleep := []
      cacheWake := s.disp.cacheWake ++ s.disp.cacheAsleep.map fun x => (x, s.ns + 250 * (x / 2 + 1)) } }

/-- Every cache-die column is ready (R355). -/
def State.cacheAwake (s : State) : Bool := s.disp.cacheAsleep.isEmpty && s.disp.cacheWake.all fun w => decide (w.2 ≤ s.ns)

/-- Traffic to a bank: its column is not idle (R355). -/
def State.bankTraffic (s : State) (bank : Nat) : State :=
  { s with disp := { s.disp with idleFrom := s.disp.idleFrom.set (bank % 16) s.ns } }

/-- Horizontal distance of two cores (R9, R313). -/
def coreDist (a b : Nat) : Nat :=
  let d := fun x y : Nat => (x - y) + (y - x)
  d (a % 16) (b % 16) + d (a / 16) (b / 16)

/-- The bank that a core's spill reserves are taken in: the one above it, or where that is retired the nearest live bank by R313's rule
(R90, R364). -/
def State.liveBank (s : State) (core : Nat) : Nat :=
  ((List.range Config.nCores).filter fun b => !s.disp.retiredBanks.contains b).foldl
    (fun best b => if s.disp.retiredBanks.contains best || decide (coreDist core b < coreDist core best) then b else best) core

/-- The bank for n slots of a crew of a core: the one above it, else the live bank nearest by R313's rule that has them (R360). -/
def State.bankFor (s : State) (core n : Nat) : Option Nat :=
  let ok := (List.range Config.nCores).filter fun b => !s.disp.retiredBanks.contains b && decide (n ≤ (s.freeSlots b).length)
  if ok.contains core then some core
  else ok.foldl (fun best b => match best with
    | none => some b
    | some a => if coreDist core b < coreDist core a then some b else some a) none

/-! ## The journal (R386) -/

/-- An entry moves forward to a state with a code; VALUE is given where the command yields one. -/
def State.journalTo (s : State) (seq : Nat) (st : JState) (code : Nat) (value : Option (BitVec 32)) : State :=
  { s with host := { s.host with journal := s.host.journal.map fun e =>
      if e.seq == seq then { e with st := st, code := code, value := value.getD e.value, time := s.ns } else e } }

/-! ## Completion records (R347) -/

/-- The 64 bytes of a completion record. -/
def Cast.record (a : Cast) (state cause ns : Nat) : List Byte :=
  let w0 := a.castId % 2 ^ 32 * 2 ^ 32 + state * 2 ^ 24 + cause * 2 ^ 16 + (if a.prodFail then 32 else 0) + a.flags.toNat
  let w3 := min a.off (2 ^ 32 - 1) * 2 ^ 32 + min a.dropped (2 ^ 32 - 1)
  ([w0, a.fmask.toNat, 0, w3, a.retired, ns, a.mcrews, 0].map fun w => leBytes 8 w).flatten

/-- A place in the coherent window while the window is lost (R389). -/
def State.lostAt (s : State) (a : Nat) : Bool := s.host.windowLost && decide (sharedMark ≤ a)

/-- Write a cast's completion record at DONE, when it names one, as a release of what its crews have done; the Bool says that it was written. -/
def State.writeRecord (s : State) (a : Cast) (state cause : Nat) : State × Bool :=
  let rh := s.rootHost a.region
  if a.done? = 0 then (s, true)
  else
    match writeVirt s.mem s.step rh.2 rh.1 a.done? (a.record state cause s.ns), physFor s.mem s.step rh.2 rh.1 pteW a.done? with
    | some m, some p =>
      if s.lostAt p then (s, false)
      else
      let line := lineOf (s.mem.place p)
      let m := m.releaseTime line a.trigLT
      let p := s.host.ports.getD a.host Port.init
      ({ s with mem := m, host := { s.host with ports := s.host.ports.set a.host { p with lt := max p.lt (m.timeOf line).wt } } }, true)
    | _, _ => (s, false)

/-! ## Tiles in surface memory (R312, R314) -/

/-- The address of line j of a tile in surface memory (R312): its virtual address block, and the offset of the slice hash. -/
def tileLine (s : State) (f : Surface) (tile j : Nat) : Option Nat :=
  let tw := f.d.width / 8
  let tx := tile % tw
  let ty := tile / tw
  let gw := (f.d.width + 63) / 64
  let g := ty / 8 * gw + tx / 8
  let rh := s.rootHost f.region
  match physFor s.mem s.step rh.2 rh.1 (fun _ => true) (f.d.surf + 8192 * (6 * g + j)) with
  | none => none
  | some p => some (p + 128 * ((8 * (ty % 8) + tx % 8) ^^^ homeSlice p))

/-- A surface by its number. -/
def State.surface? (s : State) (n : Nat) : Option Surface := s.vis.surfaces[n]?
/-- Replace a surface. -/
def State.setSurface (s : State) (n : Nat) (f : Surface) : State := { s with vis := { s.vis with surfaces := s.vis.surfaces.set n f } }
/-- A tile of a surface that is not FREE. -/
def Surface.tile? (f : Surface) (t : Nat) : Option TileRec := f.tiles.find? fun r => r.tile == t
/-- Put a tile record in place. -/
def Surface.putTile (f : Surface) (r : TileRec) : Surface :=
  { f with tiles := if f.tiles.any (fun e => e.tile == r.tile) then f.tiles.map fun e => if e.tile == r.tile then r else e else f.tiles ++ [r] }

/-- The bytes of line j of a tile (R312). -/
def tileBytes (pix : List (Word × DWord)) (j : Nat) : List Byte :=
  if j < 4 then (((pix.drop (16 * j)).take 16).map fun p => leBytes 8 p.2.toNat).flatten
  else (((pix.drop (32 * (j - 4))).take 32).map fun p => leBytes 4 p.1.toNat).flatten

/-- The six lines of a tile written to surface memory, as stores at their homes (R219, R314, R316); in a lost window nothing is (R389). -/
def State.writeTile (s : State) (f : Surface) (tile : Nat) (pix : List (Word × DWord)) : State :=
  (List.range 6).foldl (fun s j => match tileLine s f tile j with
    | some a => if s.lostAt a then s else { s with mem := (s.mem.write (s.rootHost f.region).2 a (tileBytes pix j)).releaseTime (lineOf (s.mem.place a)) 0 }
    | none => s) s

/-- A tile leaves for FREE: with KEEP its lines go to surface memory first, unless its cast was killed before it was HELD (R314, R410). -/
def State.freeTile (s : State) (n : Nat) (f : Surface) (r : TileRec) : State :=
  let killed := match s.cast? r.castId with
    | some a => a.killed.isSome
    | none => false
  let s := if f.d.keep && !(killed && r.st != .held) then s.writeTile f r.tile r.pix else s
  s.setSurface n { f with tiles := f.tiles.filter fun e => e.tile != r.tile }

/-- A quad of the tile waits in a bin or is held by a material crew. -/
def State.quadHeld (s : State) (n tile : Nat) : Bool :=
  let mine := fun q : MatRecord => !q.hit && q.surf == n && q.tile == tile
  s.vis.riddle.any (fun u => u.any fun b => b.records.any mine) || s.crews.any fun c => c.records.any mine

/-- SORTING tiles whose quads are all filed and shaded go to HELD under RETAIN, else to FREE (R314). -/
def State.settleTiles (s : State) : State :=
  (List.range s.vis.surfaces.length).foldl (fun s n =>
    match s.surface? n with
    | none => s
    | some f => f.tiles.foldl (fun s r =>
        if r.st != .sorting || !r.filed || s.quadHeld n r.tile then s
        else
          match s.surface? n with
          | none => s
          | some f =>
            let killed := match s.cast? r.castId with
              | some a => a.killed.isSome
              | none => false
            if f.d.retain && !killed then s.setSurface n (f.putTile { r with st := .held }) else s.freeTile n f r) s) s

/-! ## The enqueue order of a core (R249) -/

/-- A bundle's place in order of age on its core (R52). -/
def Crew.ageOf (c : Crew) (b : Bundle) : Nat × Nat := (c.adm, b.index)

/-- An enqueue's place in the core's order: the last, but before those of younger bundles in the same clock. -/
def CoreSt.enqPlace (k : CoreSt) (clock : Nat) (age : Nat × Nat) : Nat :=
  let later := fun (c : Nat) (a : Nat × Nat) => c == clock && (decide (age.1 < a.1) || (a.1 == age.1 && decide (age.2 < a.2)))
  ((k.entries.filter fun e => later e.clock e.age).map (·.seq) ++ (k.tasks.filter fun t => later t.clock t.age).map (·.seq)).foldl min k.enq

/-- The core with a place of its enqueue order free: those from there on move up by one. -/
def CoreSt.openPlace (k : CoreSt) (n : Nat) : CoreSt :=
  let up := fun q : Nat => if n ≤ q then q + 1 else q
  { k with
    entries := k.entries.map fun e => { e with seq := up e.seq }
    tasks := k.tasks.map fun t => { t with seq := up t.seq }
    sboard := k.sboard.map fun b => { b with seq := up b.seq }
    enq := k.enq + 1 }

/-- A list kept in enqueue order takes an element. -/
def insertSeq {α : Type} (seq : α → Nat) (a : α) (l : List α) : List α := l.takeWhile (fun b => decide (seq b < seq a)) ++ [a] ++
  l.dropWhile fun b => decide (seq b < seq a)

/-! ## Killing a cast -/

/-- An agent acts for a crew. -/
def Agent.ofCrew (a : Agent) (cid : Nat) : Bool :=
  match a with
  | .fetch c _ => c == cid
  | .mwait c _ => c == cid
  | .copy _ c _ => c == cid
  | .task _ c _ => c == cid
  | _ => false

/-- The requests of a crew's agents are withdrawn (R301). -/
def MemSys.dropAgents (m : MemSys) (cid : Nat) : MemSys :=
  { m with requests := m.requests.filter fun q => match q.agent with
      | some a => !a.ofCrew cid
      | none => true }

/-- Free a crew's core resources: queue entries, tasks, scoreboard entries, codebook tags, bins, replay entries, context slots of its
reserve and trap areas. Update-only lines and issued stores go on (R237, R240). -/
def State.releaseCore (s : State) (c : Crew) : State :=
  let k := s.core c.core
  let k := { k with
    entries := k.entries.filter fun e => e.crew != c.cid
    tasks := k.tasks.filter fun t => t.crew != c.cid
    sboard := k.sboard.filter fun e => e.crew != c.cid
    tables := k.tables.map fun t => if t.owner == some c.cid then { t with owner := none, old := none } else t
    bins := k.bins.map fun b => match b with
      | some x => if x.crew == c.cid then none else b
      | none => none
    primOrder := k.primOrder.filter fun t => !(c.bundles.any fun b => b.primTicket == some t)
    replay := k.replay.filter fun r => r.crew != c.cid }
  let areas := c.bundles.filterMap fun b => b.area.map fun a => (a.bank, a.ctxSlot)
  let gone := areas ++ c.spillSlots.map fun n => (c.spillBank, n)
  let s := { (s.setCore c.core k) with mem := s.mem.dropAgents c.cid }
  { s with disp := { s.disp with ctxUsed := s.disp.ctxUsed.filter fun x => !gone.contains x } }

/-- Remove a crew: its counters are added, its resources return. -/
def State.removeCrew (s : State) (cid : Nat) : State :=
  match s.crew? cid with
  | none => s
  | some c =>
    let s := (s.flushCrew c).releaseCore c
    { s with crews := s.crews.filter fun d => d.cid != cid
             disp := { s.disp with
               waitStart := s.disp.waitStart.filter (· != cid)
               idleFrom := s.disp.idleFrom.set (c.core % 16) s.ns } }

/-- Discard a cast's saved contexts and free their slots. -/
def State.dropContexts (s : State) (gone : Crew → Bool) : State :=
  let dead := s.disp.contexts.filter fun x => gone x.crew
  let slots := (dead.map fun x => x.slots.map (fun n => (x.bank, n)) ++
    x.crew.bundles.filterMap fun b => b.area.map fun a => (a.bank, a.ctxSlot)).flatten
  { s with disp := { s.disp with
      contexts := s.disp.contexts.filter fun x => !gone x.crew
      ctxUsed := s.disp.ctxUsed.filter fun x => !slots.contains x } }

/-- Material records of a cast that still wait in bins are discarded: those it supplied, and, counted as dropped at their supplier, those
a killed material cast was to shade (R410). -/
def State.dropRecords (s : State) (castId : Nat) : State :=
  let all := ((s.vis.riddle.map fun u => (u.map fun b => b.records).flatten)).flatten
  let lost := all.filter fun r => r.matCast == castId && r.castId != castId
  let size := fun r : MatRecord => if r.hit then 1 else ((List.range 4).filter fun i => r.cover.getLsbD i).length
  let casts := s.casts.map fun a => { a with dropped := a.dropped + ((lost.filter fun r => r.castId == a.castId).map size).sum }
  let riddle := s.vis.riddle.map fun u =>
    (u.map fun b => { b with records := b.records.filter fun r => r.matCast != castId && r.castId != castId }).filter fun b => b.records != []
  { s with casts := casts, vis := { s.vis with riddle := riddle } }

/-- What a kill of a pipeline cast does to its surface: OPEN and SEALED tiles become FREE, a SORTING tile keeps its state until no material
crew holds one of its quads, meshlets not rasterised are discarded (R410). -/
def State.dropTiles (s : State) (castId : Nat) : State :=
  let held := fun t : TileRec => s.crews.any fun c => c.records.any fun r => r.castId == castId && r.tile == t.tile && !r.hit
  let keep := fun t : TileRec =>
    if t.castId != castId then true
    else match t.st with
      | .open => false
      | .sealed => false
      | .sorting => held t
      | .held => true
  { s with vis := { s.vis with
      meshlets := s.vis.meshlets.filter fun m => m.castId != castId
      surfaces := s.vis.surfaces.map fun f =>
        { f with tiles := (f.tiles.filter keep).map fun t => if t.castId == castId && t.st == .sorting then { t with filed := true } else t } } }

/-- Every crew of a producer cast counts as retired when it is killed; PRODFAIL of the casts that depend on it (R356). -/
def State.failDependents (s : State) (castId : Nat) : State :=
  { s with casts := s.casts.map fun a => if a.deps.contains castId && !a.done then { a with prodFail := true } else a }

/-- Kill a cast with a cause (R343): crews and contexts discarded, resources returned, queued copies and tasks discarded with their stamps
unwritten, the completion record written with STATE killed, the fault domain's word 12 updated, the journal entry FAILED KILLED, the
visibility path as R410 says. -/
def State.killCast (s : State) (castId cause : Nat) : State :=
  match s.cast? castId with
  | none => s
  | some a =>
    if a.done then s
    else
      let mine := (s.crews.filter fun c => c.castId == castId).map (·.cid)
      let s := mine.foldl State.removeCrew s
      let s := s.dropContexts fun c => c.castId == castId
      let s := (s.dropTiles castId).dropRecords castId
      let s := s.failDependents castId
      let a := (s.cast? castId).getD a
      -- a material cast has no completion record (R348)
      let s := if a.kind = 2 then s else (s.writeRecord a 2 cause).1
      let s := s.setCast { a with done := true, killed := some cause }
      let s := s.journalTo a.seq .failed 5 none
      let dom := s.faultDomain 8 a.region
      let s := match s.region? dom with
        | none => s
        | some r => s.setRegion { r with
            killCast := BitVec.ofNat 32 castId
            killCause := BitVec.ofNat 8 cause
            kills := if r.kills = BitVec.allOnes 24 then r.kills else r.kills + 1 }
      { s with host := { s.host with debuggers := s.host.debuggers.filter fun d => d.castId != castId } }.settleTiles

/-! ## Taking a trap (R366, R367, R370) -/

/-- A debugger attached to the cast takes this cause: BREAK always, the others when selected (R373). -/
def State.debugTakes (s : State) (castId cause : Nat) : Bool :=
  s.host.debuggers.any fun d => d.castId == castId && (cause == 19 || d.causes.getLsbD cause)

/-- A sleep that a halt or a trap of the slot completes (R84). -/
def SubB.awake (x : SubB) : SubB :=
  match x.park with
  | .sleep _ => { x with park := .run }
  | _ => x

/-- The bundle in trap mode (R366): the trap registers set, the handler's PC as its one sub-bundle's, the others set aside. -/
def Bundle.enterTrap (b : Bundle) (clock cause : Nat) (info : BitVec 128) (pc handler : DWord) (mask : LaneMask) (pair : Bool)
    (rep cst : Nat) : Bundle :=
  { b with
    trap := some { cause := cause, pc := pc, mask := mask, info := info, others := b.subs.tail.map SubB.awake, pair := pair, entering := true,
                   debug := false, redo := b.subs.head?.bind (·.redo) }
    subs := [SubB.start mask handler clock]
    repCount := rep
    cstDone := cst
    area := none }

/-- The slot is halted by its debugger with the trap registers set, instead of entering the handler (R373). -/
def Bundle.debugHalted (b : Bundle) : Bundle := { b with halted := true, trap := b.trap.map fun t => { t with debug := true } }

/-- HANDLER of a region. -/
def State.handlerOf (s : State) (region : Nat) : DWord :=
  match s.region? region with
  | some r => r.handler
  | none => 0

/-- A slot that enters its handler continues at a PC. -/
def State.setHandler (s : State) (cid bi : Nat) (pc : DWord) : State :=
  match s.bundle? cid bi with
  | none => s
  | some (c, b) => s.setBundle c { b with subs := b.subs.map fun x => { x with pc := pc } }

/-- TAKE A TRAP: cause, TRAPINFO, the PC of the trapping instruction, whether it is a bound pair, REPCOUNT and CSTDONE. In trap mode, with
no handler, or for a cause marked kill, the cast is killed; every entry is counted (R344, R366 to R370). While results are pending HANDLER
has not been read: it is when the entry completes (TRAP_ENTRY, R366). -/
def State.takeTrap (s : State) (cid bi cause : Nat) (info : BitVec 128) (pc : DWord) (pair : Bool) (rep cst : Nat) : State :=
  match s.bundle? cid bi with
  | none => s
  | some (c, b) =>
    let c := { c with faults := bump c.faults (faultClass cause) 1 }
    let mask := match b.subs with
      | x :: _ => x.mask &&& b.live
      | [] => 0
    let handler := s.handlerOf c.region
    if b.trap.isSome then (s.setCrew c).killCast c.castId cause
    else if s.debugTakes c.castId cause then
      s.setBundle c (b.enterTrap s.coreClock cause info pc handler mask pair rep cst).debugHalted
    else if handler = 0 && b.pend.isEmpty then (s.setCrew c).killCast c.castId cause
    else s.setBundle c (b.enterTrap s.coreClock cause info pc handler mask pair rep cst)

/-! ## Returning from a trap (R372) -/

/-- Where a cause returns to: SOFTWARE, FP_INVALID outside a pair, and `brk` at the next slot; every other cause restarts (R368). -/
def returnsNext (t : TrapSt) : Bool :=
  t.cause == 18 || (t.cause == 16 && !t.pair) || (t.cause == 19 && !t.info.getLsbD 8)

/-- The bundle outside trap mode at a PC, with REPCOUNT and CSTDONE kept or cleared; the trap registers read 0 from then on. A load whose
data were poisoned is performed again when it is restarted. -/
def Bundle.leaveTrap (b : Bundle) (t : TrapSt) (clock : Nat) (pc : DWord) (keep : Bool) : Bundle :=
  { b with
    trap := none
    area := none
    repCount := 0
    cstDone := 0
    halted := false
    subs := { (SubB.start (t.mask &&& b.live) pc clock) with rep := if keep then b.repCount else 0, cst := if keep then b.cstDone else 0, redo := if keep then t.redo else none } ::
      t.others.map SubB.leaveLine }

/-- The context slot of a trap area returns at `tret` (R371). -/
def State.freeArea (s : State) (b : Bundle) : State :=
  match b.area with
  | none => s
  | some a => { s with disp := { s.disp with ctxUsed := s.disp.ctxUsed.filter fun x => x != (a.bank, a.ctxSlot) } }

/-- A `tret` from a QUEUE_FAULT taken for a stopped copy restarts it at its first unperformed unit (R263). -/
def State.restartCopy (s : State) (c : Crew) (t : TrapSt) : State :=
  if t.cause != 13 || t.info.getLsbD 63 then s
  else
    let k := s.core c.core
    let go := fun e : QEntry => match e.st with
      | .stopped _ _ => if e.crew == c.cid && e.queue == t.info.toNat % 4 then { e with st := .begun, requests := [] } else e
      | _ => e
    s.setCore c.core { k with entries := k.entries.map go }

/-- RETURN FROM A TRAP in one of the forms of R372. -/
def State.trapReturn (s : State) (cid bi : Nat) (form : TretForm) : State :=
  match s.bundle? cid bi with
  | none => s
  | some (c, b) =>
    match b.trap with
    | none => s
    | some t =>
      let past := if t.pair then skipPc t.pc 2 else nextPc t.pc
      let leave := fun pc keep => ((s.freeArea b).restartCopy c t).setBundle c ((b.leaveTrap t s.coreClock pc keep).dropExited.rotate s.coreClock)
      match form with
      | .restart => if returnsNext t then leave past true else leave t.pc true
      | .next => leave past false
      | .kill => s.killCast c.castId t.cause
      | .to pc => if pcWellFormed pc then leave pc false else s.killCast c.castId 3

/-! ## Crew constants (R107) -/

/-- What a bundle may see of a crew constant: the value it last saw, and those written after it; with each the place in the log behind it
(log entry 77). -/
def Crew.constChoices (c : Crew) (b : Bundle) (n : Nat) : List (DWord × Nat) :=
  (b.seen.getD n 0, b.seenAt.getD n 0) :: (List.range c.constLog.length).filterMap fun i => match c.constLog[i]? with
    | some e => if e.num == n && decide (b.seenAt.getD n 0 ≤ i) then some (e.value, i + 1) else none
    | none => none

/-- A bundle sees crew constant n (s(128 + n)) for an instruction that reads it. -/
def Crew.see (c : Crew) (step : Nat) (b : Bundle) (n : Nat) : Bundle :=
  let v := choose step 5 n (c.constChoices b n) (0, 0)
  { b with seen := b.seen.setIfInBounds n v.1, seenAt := b.seenAt.setIfInBounds n v.2 }

/-- The place of an `sset` in the order performed: last, but before those of younger bundles to the same constant in the same clock. -/
def Crew.constPlace (c : Crew) (n bun clock : Nat) : Nat :=
  c.constLog.findIdx fun e => e.num == n && e.clock == clock && decide (bun < e.bun)

/-- A bundle's places in the log after an entry has come in at place i. -/
def Bundle.logShift (b : Bundle) (i : Nat) : Bundle := { b with seenAt := b.seenAt.map fun p => if i < p then p + 1 else p }

/-- An `sset` of a crew constant performs (R107). -/
def Crew.writeConst (c : Crew) (n : Nat) (v : DWord) (bun clock : Nat) : Crew :=
  let i := c.constPlace n bun clock
  let log := c.constLog.insertIdx i { num := n, value := v, bun := bun, clock := clock }
  let last := ((log.filter fun e => e.num == n).map (·.value)).getLastD v
  { c with constLog := log, consts := c.consts.setIfInBounds n last, bundles := c.bundles.map fun b => b.logShift i }

/-- The writing bundle sees its value, entered at place i, at once. -/
def Bundle.wroteConst (b : Bundle) (n : Nat) (v : DWord) (i : Nat) : Bundle :=
  { b with seen := b.seen.setIfInBounds n v, seenAt := (b.logShift i).seenAt.setIfInBounds n (i + 1) }

/-- A completed `bar`: every bundle reads the last value performed (R107). -/
def Crew.settleConsts (c : Crew) : Crew :=
  { c with constLog := [], bundles := c.bundles.map fun b => { b with seen := c.consts, seenAt := Vector.replicate 32 0 } }

end Sys2Proof.Machine
end

