-- ==== Sys2Proof/Machine/Operands.lean ====
section
/-! DEFINITION. The operand forms (R27 to R31, R34): types, subfields and signs, inline constants, reading a source in a lane, its shape
(R93), forming a result's write with its subfield (R29) and tag (R92 to R94), and the address of a lane. -/

namespace Sys2Proof.Machine

/-! ## Types (R27) -/

/-- Width in bits of a TYPE. -/
def tyBits (ty : Nat) : Nat :=
  match ty with
  | 4 | 5 | 6 => 64
  | 8 | 9 | 12 | 13 => 16
  | 10 | 11 => 8
  | _ => 32
/-- A 64-bit TYPE. -/
def tyWide (ty : Nat) : Bool := ty == 4 || ty == 5 || ty == 6
/-- An s TYPE. -/
def tySigned (ty : Nat) : Bool := ty == 1 || ty == 5 || ty == 10 || ty == 12
/-- A float TYPE. -/
def tyFloat (ty : Nat) : Bool := ty == 3 || ty == 8 || ty == 9
/-- The format of a float TYPE. -/
def tyFmt (ty : Nat) : FFmt := if ty == 8 then f16 else if ty == 9 then bf16 else f32

/-- The pattern x of n bits read with or without sign. -/
def readInt (signed : Bool) (n x : Nat) : Int :=
  if signed && decide (2 ^ (n - 1) ≤ x % 2 ^ n) then (x % 2 ^ n : Nat) - (2 ^ n : Int) else (x % 2 ^ n : Nat)

/-- An integer's low n bits. -/
def wrapInt (n : Nat) (x : Int) : Nat := (x % (2 ^ n : Int)).toNat

/-! ## Subfields and signs (R28) -/

/-- Lowest bit and width of a SUBFIELD or DSUB code (0 full). -/
def subField (code : Nat) : Nat × Nat :=
  if code = 0 then (0, 32)
  else if code ≤ 4 then (8 * (code - 1), 8)
  else if code ≤ 9 then (6 * (code - 5), 6)
  else if code ≤ 17 then (4 * (code - 10), 4)
  else (16 * (code - 18), 16)

/-- The encoding of an integer in a float format, RNE (exact where R28 uses it). -/
def intToFloat (f : FFmt) (x : Int) : Nat := (roundTo f 0 false (FVal.ofInt x).res).1

/-- A 32-bit source through its SUBFIELD, widened by TYPE (R28): the pattern at the TYPE's width. -/
def widen (ty sub x : Nat) : Nat :=
  let n := tyBits ty
  if sub = 0 then x % 2 ^ n
  else
    let (lo, w) := subField sub
    let v := x / 2 ^ lo % 2 ^ w
    if tyFloat ty then
      if ty != 3 && w == 16 then v else intToFloat (tyFmt ty) (readInt true w v)
    else if w > n then v % 2 ^ n
    else wrapInt n (readInt (tySigned ty) w v)

/-- SIGN of R28 on a pattern of the TYPE's width: absolute value, then negation. -/
def applySign (ty sign x : Nat) : Nat :=
  let n := tyBits ty
  let top := 2 ^ (n - 1)
  if tyFloat ty then
    let a := if sign ≥ 2 then x % top else x
    if sign % 2 = 1 then (if a ≥ top then a - top else a + top) else a
  else
    let a := if sign ≥ 2 && decide (top ≤ x) then wrapInt n (-(x : Int)) else x
    if sign % 2 = 1 then wrapInt n (-(a : Int)) else a

/-- SIGN of a modifier. -/
def modSign (m : BitVec 7) : Nat := m.toNat / 32
/-- SUBFIELD of a modifier. -/
def modSub (m : BitVec 7) : Nat := m.toNat % 32

/-! ## Inline constants (R31) -/

/-- The integer reading of constant entry c. -/
def constInt (c : Nat) : Int :=
  if c < 32 then c
  else if c < 48 then -((c : Int) - 31)
  else (2 ^ (c - 43) : Nat)

/-- The float reading of constant entry c, as an encoding of the TYPE. -/
def constFloat (ty c : Nat) : Nat :=
  if c < 48 then intToFloat (tyFmt ty) (constInt c)
  else if c < 56 then (roundTo (tyFmt ty) 0 false (.num false 1 (47 - (c : Int)) false)).1
  else
    let t32 := [0x3EAAAAAB, 0x3E4CCCCD, 0x3E2AAAAB, 0x3E124925, 0x3DE38E39, 0x3DCCCCCD, 0x3EA2F983, 0x3FB8AA3B]
    let t16 := [0x3555, 0x3266, 0x3155, 0x3092, 0x2F1C, 0x2E66, 0x3518, 0x3DC5]
    let tbf := [0x3EAB, 0x3E4D, 0x3E2B, 0x3E12, 0x3DE4, 0x3DCD, 0x3EA3, 0x3FB9]
    (if ty == 8 then t16 else if ty == 9 then tbf else t32).getD (c - 56) 0

/-- Constant entry c under a TYPE, as a pattern of n bits (sign-extended integer reading, or the float reading). -/
def constBits (ty n c : Nat) : Nat := if tyFloat ty then constFloat ty c else wrapInt n (constInt c)

/-! ## The issuing bundle -/

/-- What an instruction acts on: the device, the issuing bundle's crew and bundle taken out of it, the current sub-bundle, its ACTIVE lanes
(R6) and its cast. `commit` puts them back. -/
structure Ctx where
  s : State
  c : Crew
  b : Bundle
  sub : SubB
  act : LaneMask
  cast : Cast

/-- Lanes where a guard holds (R22, R23). -/
def Bundle.guardLanes (b : Bundle) (step : Nat) (guard : BitVec 5) : LaneMask :=
  let n := guard.toNat / 2
  let p := if n < 15 && b.isPending (864 + n) then maskOf fun L => (b.readLane step (864 + n) L).getLsbD 0 else b.predOf n
  if guard.getLsbD 0 then ~~~p else p

/-- The context of a bundle of a resident crew, for an instruction with a guard. -/
def State.ctx? (s : State) (cid bi : Nat) (guard : BitVec 5) : Option Ctx :=
  match s.bundle? cid bi with
  | none => none
  | some (c, b) =>
    match b.subs with
    | [] => none
    | x :: _ =>
      some { s := s, c := c, b := b, sub := x, act := x.mask &&& b.live &&& b.guardLanes s.step guard, cast := s.castOf c }

/-- The device with the context's crew, bundle and sub-bundle put back. -/
def Ctx.commit (x : Ctx) : State := x.s.setCrew (x.c.setBundle (x.b.setCurrent x.sub))

/-- ACTIVE lanes that hold no helper strand. -/
def Ctx.actNH (x : Ctx) : LaneMask := x.act &&& ~~~x.b.helper

/-- ACTIVE contains every lane that holds a non-exited strand: a write is full (R92). -/
def Ctx.full (x : Ctx) : Bool := x.b.live &&& ~~~x.act == 0

/-- The slot is in trap mode. -/
def Ctx.inTrap (x : Ctx) : Bool := x.b.trap.isSome

/-- Flush to zero is set (R121). -/
def Ctx.ftz (x : Ctx) : Bool := x.cast.ftz

/-- The lowest lane of a mask. -/
def lowLane (m : LaneMask) : Nat := (LaneMask.lanes m).headD 0

/-! ## Reading sources (R28, R30) -/

/-- An s register: s0 to s127 of the slot, s128 to s159 of the crew (R86, R107). -/
def Ctx.sreg (x : Ctx) (n L : Nat) : DWord :=
  if n < 128 then x.b.readLane x.s.step (640 + n) L else x.b.seen.getD (n - 128) 0

/-- The 32-bit value of an operand code in a lane under a TYPE, before its modifier. -/
def Ctx.raw32 (x : Ctx) (ty code L : Nat) : Nat :=
  if code < 640 then (x.b.readLane x.s.step code L).toNat % 2 ^ 32
  else if code < 800 then (x.sreg (code - 640) L).toNat % 2 ^ 32
  else if code < 864 then constBits ty 32 (code - 800)
  else if code < 880 then (if (x.b.readLane x.s.step code L).getLsbD 0 then 1 else 0)
  else if code < 888 then (x.b.readLane x.s.step code L).toNat % 2 ^ 32
  else if code = 888 then L
  else 0

/-- The 64-bit value of an operand code in a lane (R27, R30). -/
def Ctx.raw64 (x : Ctx) (ty code L : Nat) : Nat :=
  if code < 640 then x.raw32 ty code L + 2 ^ 32 * x.raw32 ty (code + 1) L
  else if code < 800 then (x.sreg (code - 640) L).toNat
  else if code < 864 then constBits ty 64 (code - 800)
  else if 880 ≤ code && code < 888 then (x.b.readLane x.s.step code L).toNat
  else x.raw32 ty code L

/-- A source in a lane: SUBFIELD, widening by TYPE, SIGN (R28). The pattern at the TYPE's width. -/
def Ctx.src (x : Ctx) (ty code : Nat) (m : BitVec 7) (L : Nat) : Nat :=
  if tyWide ty then applySign ty (modSign m) (x.raw64 ty code L)
  else applySign ty (modSign m) (widen ty (modSub m) (x.raw32 ty code L))

/-- A source read as an integer under its TYPE's signedness. -/
def Ctx.srcInt (x : Ctx) (ty code : Nat) (m : BitVec 7) (L : Nat) : Int := readInt (tySigned ty) (tyBits ty) (x.src ty code m L)

/-- A source read as a float of its TYPE, under flush to zero. -/
def Ctx.srcF (x : Ctx) (ty code : Nat) (m : BitVec 7) (L : Nat) : FVal := (tyFmt ty).read x.ftz (x.src ty code m L)

/-- A predicate operand in a lane. -/
def Ctx.pred (x : Ctx) (code L : Nat) : Bool := (x.b.readLane x.s.step code L).getLsbD 0

/-! ## Shapes of sources (R93) -/

/-- A shape with no value of its own: G. -/
def shapeG : Shape := .g []

/-- Is a shape U? -/
def Shape.isU : Shape → Bool
  | .u _ => true
  | _ => false

/-- The shape of a 32-bit source, its modifier applied: a nonzero SUBFIELD or SIGN keeps U and makes anything else G, but for the negate of
an A source of an s type; a pending source is G. -/
def Ctx.srcShape (x : Ctx) (ty code : Nat) (m : BitVec 7) : Shape :=
  let plain :=
    if code < 888 && x.b.isPending code then shapeG
    else if code < 640 then (x.b.vreg code).shape
    else if code = 888 then .a 0 1
    else if 864 ≤ code && code < 880 then shapeG
    else .u (BitVec.ofNat 32 (x.raw32 ty code 0))
  if m = 0 then plain
  else
    match plain with
    | .u _ => .u (BitVec.ofNat 32 (x.src ty code m 0))
    | .a base stride => if tySigned ty && modSub m == 0 && modSign m == 1 then .a (-base) (-stride) else shapeG
    | .g l => .g l

/-- A source counts as U at its TYPE's width: both names of a pair for a 64-bit TYPE. -/
def Ctx.srcU (x : Ctx) (ty code : Nat) (m : BitVec 7) : Bool :=
  (x.srcShape ty code m).isU && (!tyWide ty || decide (640 ≤ code) || (x.srcShape ty (code + 1) m).isU)

/-! ## Forming results (R29, R92 to R94) -/

/-- A v register's present value in a lane. -/
def Ctx.oldLane (x : Ctx) (name L : Nat) : Word := (x.b.readLane x.s.step name L).setWidth 32

/-- A value put into a field of a word. -/
def putField (old : Word) (lo w v : Nat) : Word :=
  let mask : Word := BitVec.ofNat 32 ((2 ^ w - 1) * 2 ^ lo)
  (old &&& ~~~mask) ||| (BitVec.ofNat 32 (v % 2 ^ w * 2 ^ lo))

/-- An integer result formed for a 32-bit destination (R29): narrowed to the narrower of field and type, then extended over the field. -/
def formInt (ty dsub round : Nat) (old : Word) (r : Int) : Word × Flags :=
  let (lo, w) := subField dsub
  let n := min (tyBits ty) w
  let sg := tySigned ty
  let (v, fl) := if round ≥ 5 then (let (a, b) := intRange sg n; clampInt a b r) else (readInt sg n (wrapInt n r), 0)
  (putField old lo w (wrapInt w v), fl)

/-- An integer result formed for a 64-bit destination. -/
def formInt64 (ty round : Nat) (r : Int) : DWord × Flags :=
  if round ≥ 5 then
    let (a, b) := intRange (tySigned ty) 64
    let (v, fl) := clampInt a b r
    (BitVec.ofInt 64 v, fl)
  else (BitVec.ofInt 64 r, 0)

/-- A float result formed for its destination (R29): rounded into the format for the full register or a half field of a 16-bit format, else
rounded to an integer and clamped to the field's two's-complement range. -/
def formF (ty dsub round : Nat) (ftz : Bool) (old : Word) (r : FRes) : Word × Flags :=
  let (lo, w) := subField dsub
  if dsub = 0 then
    let (v, fl) := roundTo (tyFmt ty) round ftz r
    (BitVec.ofNat 32 v, fl)
  else if ty != 3 && w == 16 then
    let (v, fl) := roundTo (tyFmt ty) round ftz r
    (putField old lo w v, fl)
  else
    let (v, fl) := toIntField round true w r
    (putField old lo w (wrapInt w v), fl)

/-- Per-lane words with flags over the lanes of a mask: the values, the flags all lanes set together and the lanes that set IV. -/
def gatherLanes (mask : LaneMask) (f : Nat → Word × Flags) : List Word × Flags × LaneMask :=
  let rs := lanesOf fun L => if mask.getLsbD L then f L else (0, 0)
  (rs.map (·.1), rs.foldl (fun a r => a ||| r.2) 0, maskOf fun L => (rs.getD L (0, 0)).2.getLsbD 0)

/-- Flags count for lanes that hold no helper (R127). -/
def gatherFlags (mask helper : LaneMask) (f : Nat → Word × Flags) : List Word × Flags × LaneMask :=
  gatherLanes mask fun L => ((f L).1, if helper.getLsbD L then 0 else (f L).2)

/-- The write of a v register in the ACTIVE lanes, with the shape its class gives (`none`: U from the values when `uni`, else G). With a
nonzero DSUB a full write is U only over a U destination (R94). -/
def Ctx.vwrite (x : Ctx) (dst dsub : Nat) (vals : List Word) (sh : Option Shape) (uni : Bool) : VWrite :=
  let uVal : Shape := .u (vals.getD (lowLane x.act) 0)
  let cls : Shape := match sh with
    | some g => g
    | none => if uni then uVal else shapeG
  let shape : Shape :=
    if dsub = 0 then cls
    else if cls.isU && (x.srcShape 0 dst 0).isU then uVal else shapeG
  { name := dst, mask := x.act, vals := vals, full := if x.full then some shape else none }

/-- Lanes of a mask that hold the values of a shape. -/
def affineFits (mask : LaneMask) (vals : List Word) (sh : Shape) : Bool := mask.lanes.all fun L => vals.getD L 0 == sh.lane L

/-- The A shape of a result, where the values written are its values: a clamped lane leaves G (R29, R91, log entry 23). -/
def fitShape (mask : LaneMask) (vals : List Word) (sh : Option Shape) : Option Shape :=
  match sh with
  | some (.a b t) => if affineFits mask vals (.a b t) then some (.a b t) else some shapeG
  | o => o

/-- A result with one v destination of 32 bits, its lanes formed from the old value by `f`. -/
def Ctx.result32 (x : Ctx) (dst dsub : Nat) (sh : Option Shape) (uni : Bool) (f : Nat → Word → Word × Flags) : RegResult :=
  let (vals, fl, iv) := gatherFlags x.act x.b.helper fun L => f L (x.oldLane dst L)
  { RegResult.empty with v := [x.vwrite dst dsub vals (fitShape x.act vals sh) uni], flags := fl, iv := iv }

/-- A result with a v pair of 64 bits. -/
def Ctx.result64 (x : Ctx) (dst : Nat) (uni : Bool) (f : Nat → DWord × Flags) : RegResult :=
  let (lo, fl, iv) := gatherFlags x.act x.b.helper fun L => ((f L).1.setWidth 32, (f L).2)
  let hi := (gatherLanes x.act fun L => ((f L).1.extractLsb' 32 32, 0)).1
  { RegResult.empty with v := [x.vwrite dst 0 lo none uni, x.vwrite (dst + 1) 0 hi none uni], flags := fl, iv := iv }

/-- An integer result of either width (R29). -/
def Ctx.resultInt (x : Ctx) (ty dst dsub round : Nat) (sh : Option Shape) (uni : Bool) (f : Nat → Int) : RegResult :=
  if tyWide ty then x.result64 dst uni fun L => formInt64 ty round (f L)
  else x.result32 dst dsub sh uni fun L old => formInt ty dsub round old (f L)

/-- A float result (R29); `more` flags of the operation itself are added by `g`. -/
def Ctx.resultF (x : Ctx) (ty dst dsub round : Nat) (uni : Bool) (f : Nat → FRes) : RegResult :=
  x.result32 dst dsub none uni fun L old => formF ty dsub round x.ftz old (f L)

/-- A predicate destination written in the ACTIVE lanes. -/
def Ctx.pwrite (x : Ctx) (dst : Nat) (f : Nat → Bool) : PWrite := { name := dst - 864, mask := x.act, vals := maskOf f }

/-! ## Addresses (R34) -/

/-- The index of a lane, sign-extended from 32 bits. -/
def Ctx.indexOf (x : Ctx) (code L : Nat) : Int := if code = 1023 then 0 else readInt true 32 (x.raw32 0 code L)

/-- The global address of a lane, modulo 2^64. -/
def Ctx.globalAddr (x : Ctx) (f : FmtM) (L : Nat) : Nat :=
  let b : Int := if f.base = 1023 then 0 else x.raw64 0 f.base.toNat L
  wrapInt 64 (b + x.indexOf f.index.toNat L * 2 ^ f.scale.toNat + f.offset.toInt)

/-- The scratch address of a lane, modulo 2^32. -/
def Ctx.scratchAddr (x : Ctx) (f : FmtM) (L : Nat) : Nat :=
  let b : Int := if f.base = 1023 then 0 else x.raw32 0 f.base.toNat L
  wrapInt 32 (b + x.indexOf f.index.toNat L * 2 ^ f.scale.toNat + f.offset.toInt)

/-- Every address component is an s register, absent or a U v register, both names of a pair where the base is 64 bits; a pending register
counts as G (R93). -/
def Ctx.addrU (x : Ctx) (f : FmtM) (wide : Bool) : Bool :=
  let one := fun (code : Nat) (wide : Bool) =>
    code == 1023 || (decide (640 ≤ code) && code != 888 && !x.b.isPending code) ||
    (decide (code < 640) && (x.srcShape 0 code 0).isU && (!wide || (x.srcShape 0 (code + 1) 0).isU))
  one f.index.toNat false && one f.base.toNat wide

/-- Bytes of a WIDTH code (R33). -/
def widthBytes (w : Nat) : Nat :=
  match w with
  | 0 | 1 => 1
  | 2 | 3 => 2
  | 4 => 4
  | 5 => 8
  | _ => 16

/-- The data bytes of a lane for a store of n bytes (R34, R198): from a v register, pair or quad, an s register or pair, or a constant
under its integer reading. -/
def Ctx.storeBytes (x : Ctx) (code n L : Nat) : List Byte :=
  if code < 640 then ((leBytes 4 (x.raw32 0 code L) ++ leBytes 4 (x.raw32 0 (code + 1) L)) ++
    (leBytes 4 (x.raw32 0 (code + 2) L) ++ leBytes 4 (x.raw32 0 (code + 3) L))).take n
  else if code < 800 then (leBytes 8 (x.sreg (code - 640) L).toNat ++ leBytes 8 (x.sreg (code - 639) L).toNat).take n
  else if code < 864 then leBytes n (wrapInt (8 * n) (constInt (code - 800)))
  else (leBytes 8 (x.raw64 0 code L) ++ leBytes 8 (x.raw64 0 (code + 1) L)).take n

end Sys2Proof.Machine
end

