-- ==== Sys2Proof/Machine/Rows.lean ====
section
/-! DEFINITION. Rows, overcommit and the spill engine (R89, R90, R95 to R99): what holds a row, how many an instruction needs, the spill
engine's victim, packing and refill. -/

namespace Sys2Proof.Machine

/-- A name holds a row: tag G and resident (R95, R97). -/
def VReg.isRow (r : VReg) : Bool := r.shape.code == 2 && r.fmt == 0

/-- A name is spilled. -/
def VReg.spilled (r : VReg) : Bool := r.shape.code == 2 && r.fmt != 0

/-- Names of a bundle that hold a row. -/
def Bundle.rows (b : Bundle) : List Nat := (List.range b.v.length).filter fun n => (b.vreg n).isRow

/-- A full write of tag U or A. -/
def VWrite.noRow (w : VWrite) : Bool :=
  match w.full with
  | some sh => sh.code != 2
  | none => false

/-- A result leaves a name with tag G. -/
def RegResult.rowNames (r : RegResult) : List Nat := ((r.v.filter fun w => w.mask != 0 && !w.noRow).map (·.name)).dedup

/-- Names a pending instruction will take rows for. -/
def Pending.rowNames (p : Pending) : List Nat :=
  match p.result, p.gather with
  | some r, _ => r.rowNames
  | none, some g =>
    (if g.full && g.uniform then [] else p.names.filter fun n => decide (n < 640) && !g.also.v.any fun w => w.name == n) ++ g.also.rowNames
  | none, none => []

/-- Names of a bundle that hold a row or have one reserved by a pending instruction. -/
def Bundle.rowsTaken (b : Bundle) : List Nat := (b.rows ++ (b.pend.map (·.rowNames)).flatten).dedup

/-- Rows of a bin's records (R67): 32 carried words of one register to a row, in the order of filing (log entry 26). -/
def Bin.rows (x : Bin) : Nat :=
  ((List.range ((x.records.map fun r => r.carried.length).foldl max 0)).map fun k =>
    ((x.records.filter fun r => decide (k < r.carried.length)).length + (W - 1)) / W).sum

/-- The bins of a crew, with their numbers. -/
def State.binsOf (s : State) (c : Crew) : List (Nat × Bin) :=
  let bins := (s.core c.core).bins
  (List.range bins.length).filterMap fun i => match bins.getD i none with
    | some x => if x.crew == c.cid then some (i, x) else none
    | none => none

/-- Rows of a crew's register section in use: of names, reserved by pending instructions, and of records. -/
def State.rowsUsed (s : State) (c : Crew) : Nat :=
  (c.bundles.map fun b => b.rowsTaken.length).sum + ((s.binsOf c).map fun e => e.2.rows - e.2.spilled).sum

/-- Free rows of a crew's register section (R95). -/
def State.freeRows (s : State) (c : Crew) : Nat := 384 * c.regGranules - s.rowsUsed c

/-- The register bound of a crew (R89): floor(384 · g · f), f = 1 + OVC/16. -/
def Crew.bound (c : Crew) : Nat := 384 * c.regGranules * (16 + c.ovc) / 16

/-- The claim of a crew (R89): the owned names of its slots, an empty slot at its base block. -/
def Crew.claim (c : Crew) : Nat := (c.bundles.map fun b => b.v.length).sum

/-- Context slots a claim reserves (R90). -/
def reserveSlots (claim g ovc : Nat) : Nat := if ovc = 0 then 0 else ((claim - 384 * g) * 128 + 65535) / 65536

/-! ## The spill engine (R96, R97) -/

/-- The format tag of a row: the first form exact for all its lanes (R97). -/
def packTag (l : List Word) : Nat :=
  let base := l.getD 0 0
  let stride := l.getD 1 0 - base
  let fits := fun (lo hi : Int) (w : Word) => decide (lo ≤ w.toInt) && decide (w.toInt ≤ hi)
  if l.all (· == base) then 1
  else if l == lanesOf fun L => base + BitVec.ofNat 32 L * stride then 2
  else if l.all (fits (-128) 127) then 3
  else if l.all (fits 0 255) then 4
  else if l.all (fits (-32768) 32767) then 5
  else if l.all (fits 0 65535) then 6
  else 7

/-- The rows of a bundle that may be spilled: it holds more than 4 rows; names in `keep` and pending names are never taken. -/
def Bundle.victims (b : Bundle) (keep : List Nat) : List (Nat × Nat × Nat × Nat) :=
  if b.rows.length ≤ 4 then []
  else ((b.rows.filter fun n => !keep.contains n && !b.isPending n).map fun n => ((b.vreg n).last, b.slot, n, b.index))

/-- Least recently used; ties to the lower slot, then the lower name. -/
def lru (l : List (Nat × Nat × Nat × Nat)) : Option (Nat × Nat × Nat × Nat) :=
  match l with
  | [] => none
  | a :: t => some (t.foldl (fun a b =>
      if b.1 < a.1 || (b.1 == a.1 && (decide (b.2.1 < a.2.1) || (b.2.1 == a.2.1 && decide (b.2.2.1 < a.2.2.1)))) then b else a) a)

/-- What the spill engine takes: a name of a bundle, or a row of a bin's records. -/
inductive Victim where
  | name (bun n : Nat)
  | bin (i : Nat)
  deriving DecidableEq, Repr

/-- Rows of records that may be spilled, by the arrival of the bin's oldest record; they come after every slot. -/
def State.binVictims (s : State) (c : Crew) : List (Nat × Nat × Nat × Nat) :=
  ((s.binsOf c).filter fun e => decide (e.2.spilled < e.2.rows)).map fun e =>
    ((e.2.records.map (·.clock)).foldl min s.coreClock, Config.nSlots + e.1, 0, Config.nSlots + e.1)

/-- The least recently used of rows. -/
def victimOf (l : List (Nat × Nat × Nat × Nat)) : Option Victim :=
  (lru l).map fun v => if v.2.2.2 < Config.nSlots then .name v.2.2.2 v.2.2.1 else .bin (v.2.2.2 - Config.nSlots)

/-- The spill engine's victim for a stalled bundle (R96): a row of its own, else of the crew's other bundles or of its records. -/
def State.victim (s : State) (c : Crew) (b : Bundle) (keep : List Nat) : Option Victim :=
  match victimOf (b.victims keep) with
  | some v => some v
  | none => victimOf (((c.bundles.filter fun d => d.index != b.index).map fun d => d.victims []).flatten ++ s.binVictims c)

/-- A bundle with one name spilled in packed form. -/
def Bundle.spill (b : Bundle) (n : Nat) : Bundle :=
  { b with v := b.v.set n { (b.vreg n) with fmt := packTag (lanesOf fun L => (b.vreg n).shape.lane L) } }

/-- A victim is packed, written to the crew's reserve, and its row freed (R96, R97). -/
def State.spillRow (s : State) (c : Crew) (v : Victim) : State :=
  match v with
  | .name bi n => (match c.bundle? bi with
    | some b => (s.setBundle c (b.spill n)).bankTraffic c.spillBank
    | none => s)
  | .bin i =>
    let k := s.core c.core
    match k.bins.getD i none with
    | some x => (s.setCore c.core { k with bins := k.bins.set i (some { x with spilled := x.spilled + 1 }) }).bankTraffic c.spillBank
    | none => s

/-- The rows a crew holds are within its register section, or the column of its reserve's bank is ready for those that must be spilled (R355). -/
def State.rowsMayFit (s : State) (cid : Nat) : Bool :=
  match s.crew? cid with
  | none => true
  | some c => c.ovc == 0 || decide (s.rowsUsed c ≤ 384 * c.regGranules) || s.bankAwake c.spillBank

/-- Rows beyond the register section, of records filed, of a bundle drawn or of a crew resumed, are spilled at once (R67, R99, log entry
26). -/
def State.fitRows (s : State) (cid : Nat) : Nat → State
  | 0 => s
  | n + 1 =>
    match s.crew? cid with
    | none => s
    | some c =>
      if c.ovc = 0 || s.rowsUsed c ≤ 384 * c.regGranules then s
      else match victimOf ((c.bundles.map fun d => d.victims []).flatten ++ s.binVictims c) with
        | some v => (s.spillRow c v).fitRows cid n
        | none => s

/-- A bundle with names refilled into rows (R98). -/
def Bundle.refill (b : Bundle) (l : List Nat) : Bundle :=
  l.foldl (fun b n => { b with v := b.v.set n { (b.vreg n) with fmt := 0 } }) b

/-- A bundle with the recency of names it reads noted (R96). -/
def Bundle.touch (b : Bundle) (clock : Nat) (l : List Nat) : Bundle :=
  l.foldl (fun b n => { b with v := b.v.set n { (b.vreg n) with last := clock } }) b

/-- Owned names among those an instruction reads. -/
def Ctx.ownedOf (x : Ctx) (rd : List Nat) : List Nat := (rd.filter fun n => decide (n < x.b.v.length)).dedup
/-- Spilled names among them, which a read refills (R98). -/
def Ctx.fills (x : Ctx) (rd : List Nat) : List Nat := (x.ownedOf rd).filter fun n => (x.b.vreg n).spilled
/-- Names an instruction leaves with tag G that hold no row yet. -/
def Ctx.freshRows (x : Ctx) (wr : List Nat) : List Nat := (wr.filter fun n => !(x.b.rowsTaken.contains n)).dedup
/-- Rows an instruction needs that reads `rd` and leaves `wr` with tag G (R96, R98). -/
def Ctx.rowNeed (x : Ctx) (rd wr : List Nat) : Nat := (x.fills rd ++ x.freshRows wr).dedup.length

/-- The rows an instruction needs: `none` while it stalls for a row, else the context with what it reads refilled; where no row can be freed
for a name it reads, that name is read in its packed form and stays spilled (R98). With f = 1.0 a row is always free (R95). A read of a spilled
name waits for the column of the reserve's bank (R355). -/
def Ctx.takeRows (x : Ctx) (rd keep wr : List Nat) : Option Ctx :=
  if x.c.ovc = 0 then some x
  else
    let fresh := x.freshRows wr
    let free := x.s.freeRows x.c
    let touched := x.b.touch x.s.coreClock (x.ownedOf rd)
    let fills := x.fills rd
    let s := if fills.isEmpty then x.s else x.s.bankTraffic x.c.spillBank
    if !fills.isEmpty && !x.s.bankAwake x.c.spillBank then none
    else if x.rowNeed rd wr ≤ free then some { x with s := s, b := touched.refill fills }
    else if (x.s.victim x.c x.b keep).isSome || decide (free < fresh.length) then none
    else
      let own := fills.filter fun n => fresh.contains n
      let more := (fills.filter fun n => !fresh.contains n).take (free - fresh.length)
      some { x with s := s, b := touched.refill (own ++ more) }

end Sys2Proof.Machine
end

