-- ==== Sys2Proof/Machine/Update.lean ====
section
/-! DEFINITION. What the memory system does at a line's home: atomic operations (R199, R245), logical time (R219), update-only lines and
their recall (R241), the capacity of a core's caches (R11), and the accesses of agents other than a core's instructions. -/

namespace Sys2Proof.Machine

/-- The new value of an atomic operation of n bytes (R199, R245) and the flags of `fadd`. -/
def atomOp (func n old v cmp : Nat) (ftz : Bool) : Nat × Flags :=
  let bits := 8 * n
  let s := readInt true bits
  match func with
  | 0 => ((old + v) % 2 ^ bits, 0)
  | 1 => (if s v < s old then v else old, 0)
  | 2 => (if s old < s v then v else old, 0)
  | 3 => (if v < old then v else old, 0)
  | 4 => (if old < v then v else old, 0)
  | 5 => (old &&& v, 0)
  | 6 => (old ||| v, 0)
  | 7 => (old ^^^ v, 0)
  | 8 => (v, 0)
  | 9 => (if old = cmp then v else old, 0)
  | 10 => roundTo f32 0 ftz (addVal false (f32.read ftz old) (f32.read ftz v))
  | _ => (if v ≤ old then 0 else old + 1, 0)

/-! ## Logical time (R219) -/

/-- A core's logical time: what it last rose to, and 1 more for every 4,096 core clocks since then. -/
def State.ltOf (s : State) (core : Nat) : Nat := (s.core core).lt + (s.coreClock - (s.core core).ltClock) / 4096

/-- A core's logical time rises to at least v; since when it has not risen is noted. -/
def State.raiseLT (s : State) (core v : Nat) : State :=
  if s.ltOf core < v then s.setCore core { (s.core core) with lt := v, ltClock := s.coreClock } else s

/-- A read of a line at its home for a core: the core's time and the lease (R219). -/
def State.readTime (s : State) (core line : Nat) : State :=
  let t := s.mem.timeOf line
  let lt := max (s.ltOf core) t.wt
  ({ s with mem := s.mem.setTime { t with rt := max t.rt (lt + 8) } }).raiseLT core lt

/-- A store to a line at its home by a core. -/
def State.writeTime (s : State) (core line : Nat) : State :=
  let t := s.mem.timeOf line
  let wt := max (s.ltOf core) (t.rt + 1)
  ({ s with mem := s.mem.setTime { t with wt := wt, rt := wt } }).raiseLT core wt

/-! ## Ways of a slice (R294, R295) -/

/-- A line lies in a slice and a set. -/
def inSet (slice set line : Nat) : Bool := homeSlice line == slice && setOf line == set

/-- The lines of pinned tiles (R312, R316). -/
def State.pinnedLines (s : State) : List Nat :=
  (s.vis.surfaces.map fun f => ((f.tiles.filter (·.pinned)).map fun t =>
    (List.range 6).filterMap fun j => tileLine s f t.tile j).flatten).flatten

/-- A line has a waiting list. -/
def MemSys.hasList (m : MemSys) (line : Nat) : Bool := m.lists.any fun l => l.line == line

/-- A line has a reservation. -/
def MemSys.reserved (m : MemSys) (line : Nat) : Bool := m.reserves.any fun r => r.line == line

/-- Ways of a line's set that no miss may take: pinned, holding a waiting list, or held by a reservation, whether its line is present or not
(R295). -/
def State.heldWays (s : State) (line : Nat) : Nat :=
  let here := inSet (homeSlice line) (setOf line)
  let pins := s.pinnedLines.filter here
  pins.length + (s.mem.lists.filter fun l => here l.line).length +
  (s.mem.reserves.filter fun r => here r.line && !s.mem.hasList r.line && !pins.contains r.line).length

/-- Ways of a line's set in use: those no miss may take, and those of other lines present. -/
def State.usedWays (s : State) (line : Nat) : Nat :=
  s.heldWays line + (s.mem.l2.filter fun l => inSet (homeSlice line) (setOf line) l.line && !s.mem.reserved l.line).length

/-- An L2 line leaves, written back when dirty. -/
def MemSys.evict (m : MemSys) (line : Nat) : MemSys :=
  match m.l2.find? fun l => l.line == line with
  | none => m
  | some l => { m with l2 := m.l2.filter (fun x => x.line != line), gddr := if l.dirty then m.gddr.write line l.data else m.gddr }

/-- The line a full set gives up: one marked first to evict, else the oldest; none that a reservation holds (R295). -/
def MemSys.victimLine (m : MemSys) (line : Nat) : Option Nat :=
  let here := m.l2.filter fun l => inSet (homeSlice line) (setOf line) l.line && !m.reserved l.line
  match here.find? (·.first), here with
  | some l, _ => some l.line
  | none, l :: _ => some l.line
  | none, [] => none

/-- A way of a line's set is made free: a set of 16 ways in use gives one up. -/
def State.freeWay (s : State) (line : Nat) : State :=
  if s.usedWays line < 16 then s
  else match s.mem.victimLine line with
    | some v => { s with mem := s.mem.evict v }
    | none => s

/-- A miss of a line would be refused: no way, or four waiting lists in its set (R295). -/
def State.noWay (s : State) (line : Nat) : Bool :=
  decide (4 ≤ (s.mem.lists.filter fun l => inSet (homeSlice line) (setOf line) l.line).length) || decide (16 ≤ s.heldWays line)

/-- A line is kept by no slice of this device: in the host aperture, or homed at a peer (R294). -/
def homeless (line : Nat) : Bool := isHost line || isPeer line

/-- Requests in the queue of a line's slice (R295). -/
def MemSys.queueOf (m : MemSys) (line : Nat) : List Request :=
  m.requests.filter fun r => r.st == .queued && homeSlice r.line == homeSlice line && !homeless r.line

/-- An access that is at its home finds the line in L2 or brings it there: of a CACHE 2 page as first to evict, of a CACHE 3 page not
(R205). -/
def State.touchLine (s : State) (line : Nat) (cache : Nat := 0) : State :=
  if homeless line || cache == 3 || (s.mem.l2At line).isSome || s.mem.hasList line || s.pinnedLines.contains line || s.noWay line then s
  else
    let s := s.freeWay line
    { s with mem := { s.mem with
        l2 := s.mem.l2 ++ [{ line := line, data := s.mem.gddr.read line 128, dirty := false, first := cache == 2 }] } }

/-! ## Requests of agents (R295 to R301) -/

/-- The router of an agent that is no core and no slice: a fixed one (R298, log entry 83). -/
def agentRouter (a : Nat) : Nat := Config.freeNat 0 20 a % 128

/-- The core an agent belongs to, if any. -/
def Agent.core? (a : Agent) (s : State) : Option Nat :=
  match a with
  | .merge n _ => some n
  | .copy n _ _ => some n
  | .task n _ _ => some n
  | .fetch c _ => (s.crew? c).map (·.core)
  | .mwait c _ => (s.crew? c).map (·.core)
  | .walk _ => none
  | .ladle _ _ => none

/-- The lines of an agent's access, each with the leaf entry of its page, that lie at slices of this device: each once. -/
def atSlices (l : List (Nat × DWord)) : List (Nat × DWord) :=
  l.foldl (fun acc e => if homeless e.1 || acc.any (fun d => d.1 == e.1) then acc else acc ++ [e]) []

/-- The homes have served an agent's requests for all these lines: it may act (R295, log entry 86). -/
def MemSys.allReady (m : MemSys) (a : Agent) (wr : Bool) (l : List (Nat × DWord)) : Bool :=
  (atSlices l).all fun e => m.requests.any fun q => q.agent == some a && q.wr == wr && q.line == e.1 && q.st == .ready

/-- An agent has acted, or has no more use for its requests. -/
def MemSys.leave (m : MemSys) (a : Agent) : MemSys := { m with requests := m.requests.filter fun q => q.agent != some a }

/-- An agent has acted at the homes. -/
def State.acted (s : State) (a : Agent) : State := { s with mem := s.mem.leave a }

/-- An agent asks the homes of the lines it needs; requests for others are withdrawn. -/
def State.askHome (s : State) (a : Agent) (wr : Bool) (l : List (Nat × DWord)) : State :=
  let l := atSlices l
  let want := fun q : Request => q.wr == wr && l.any fun e => e.1 == q.line
  let s := { s with mem := { s.mem with requests := s.mem.requests.filter fun q => q.agent != some a || want q } }
  let core := (a.core? s).getD Config.nCores
  let router := match a.core? s with
    | some n => n
    | none => agentRouter 3
  l.foldl (fun s e =>
    if s.mem.requests.any fun q => q.agent == some a && q.line == e.1 then s
    else
      let q : Request :=
        { id := s.mem.nextReq, core := core, crew := 0, bun := 0, pend := none, pc := 0, host := 0, root := 0, line := e.1, lanes := []
          order := 0, scope := 0, strands := [], cacheL1 := false, first := pteCache e.2 == 2, uncached := pteCache e.2 == 3, time := s.netClock
          refusals := 0, st := .flight, golden := none, agent := some a, wr := wr, router := router, shared := pteShared e.2 }
      { s with mem := { s.mem with requests := s.mem.requests ++ [q], nextReq := s.mem.nextReq + 1 } }) s

/-- A core asks the home of an update-only line to merge it (R241). -/
def State.askMerge (s : State) (core line : Nat) : State := s.askHome (.merge core line) true [(line, 0)]

/-! ## Update-only lines (R240, R241) -/

/-- Merge a core's update-only line into the line at its home, word by word. -/
def State.mergeLine (s : State) (core line : Nat) : State :=
  let k := s.core core
  match k.upd.find? fun u => u.line == line with
  | none => s
  | some u =>
    let s := ((s.setCore core { k with upd := k.upd.filter fun x => x.line != line }).touchLine line).writeTime core line
    u.words.foldl (fun s w =>
      let a := line + 4 * w.idx
      let old := leNat (s.mem.read 0 a w.bytes)
      { s with mem := s.mem.write 0 a (leBytes w.bytes (atomOp w.func w.bytes old w.val 0 false).1) }) s

/-- The router through which the home of a line injects a reply: of a slice one of its two cores', else that of the port or of the Nelaig
agent (R298, log entry 83). -/
def replyRouter (step line : Nat) : Nat :=
  if homeless line then agentRouter (if isPeer line then 2 else 0)
  else homeSlice line / 8 * 16 + 2 * (homeSlice line % 8) + Config.freeNat step 21 line % 2

/-- A packet joins the reply mesh. -/
def State.reply (s : State) (router : Nat) (kind : ReplyKind) : State :=
  { s with mem := { s.mem with replies := s.mem.replies ++ [{ router := router, kind := kind, sent := none, golden := none }] } }

/-- The cores that hold an update-only line of a line. -/
def State.holders (s : State) (line : Nat) : List Nat :=
  if s.cores.all fun k => k.upd.isEmpty then []
  else (List.range Config.nCores).filter fun n => (s.core n).upd.any fun u => u.line == line

/-- The home recalls a line's update-only lines from every core, halted or not; each that holds one answers (R241). -/
def State.recall (s : State) (line : Nat) : State :=
  (s.holders line).foldl (fun s n => (s.mergeLine n line).reply n (.recall n line)) s

/-- A read of a line at its home by an agent: update-only lines of it are recalled, and the line is found in L2 or brought there (R241, R295). -/
def State.openLine (s : State) (line : Nat) (cache : Nat := 0) : State := (s.recall line).touchLine line cache

/-- An agent without a TLB of a core reads the table entries of addresses: update-only lines of them are recalled first (R241). -/
def State.recallTables (s : State) (h root : Nat) (vas : List Nat) : State :=
  vas.foldl (fun s va => (walkPath s.mem h 4 root va).foldl (fun s a => s.recall (lineOf (s.mem.place a))) s) s

/-- Bytes of a page table are read through L2: update-only lines of the entries on a walk's way are recalled first (R207, R241). -/
def State.recallWalk (s : State) (h fuel table va : Nat) : State :=
  match fuel with
  | 0 => s
  | k + 1 =>
    let a := table + 8 * levelIndex (4 - k) va
    let s := s.openLine (lineOf (s.mem.place a))
    let p := s.mem.word h a
    if !bitOf p 0 || malformedAt (4 - k) p || bitsOf p 2 1 != 0 then s else s.recallWalk h k (bitsOf p 45 13 * 8192) va

/-! ## Caches of a core (R11) -/

/-- Which of n cache entries leaves when one more comes, in a cache of `cap`: a free one, or while there is room perhaps none (n or more)
(log entry 73). -/
def evictAt (step kind i n cap : Nat) : Nat :=
  if n = 0 then 0 else if cap ≤ n then Config.freeNat step kind i % n else Config.freeNat step kind i % (n + 1)

/-- The instruction cache takes a line; it holds 128 KiB. -/
def CoreSt.takeLine (k : CoreSt) (step : Nat) (l : ILine) : CoreSt :=
  let rest := k.icache.filter fun e => e.phys != l.phys
  { k with icache := l :: rest.eraseIdx (evictAt step 14 l.phys rest.length 2048) }

/-- The lines a core's L1 holds: 256 KiB of data lines and update-only lines (R11, R240). -/
def l1Lines : Nat := 2048

/-- Room in a core's L1 for one more line: where a line leaves, a data line is dropped at once, an update-only line asks for its merge and goes
with it, a data line leaving in its place when L1 is full (R240, R241, log entry 73). There may be none. -/
def State.l1Room (s : State) (core line : Nat) : State :=
  let k := s.core core
  let n := k.l1.length + k.upd.length
  let j := evictAt s.step 15 line n l1Lines
  if j < k.l1.length then s.setCore core { k with l1 := k.l1.eraseIdx j }
  else match k.upd[j - k.l1.length]? with
    | some u =>
      let s := s.askMerge core u.line
      if n < l1Lines then s else s.setCore core { k with l1 := k.l1.tail }
    | none => s

/-- A core's L1 has room for n more lines. -/
def CoreSt.l1Free (k : CoreSt) (n : Nat) : Bool := decide (k.l1.length + k.upd.length + n ≤ l1Lines)

/-- L1 takes a copy of a line, when there is room for it. -/
def State.l1Take (s : State) (core : Nat) (c : L1Copy) : State :=
  let k := s.core core
  let s := (s.setCore core { k with l1 := k.l1.filter fun e => e.line != c.line }).l1Room core c.line
  if (s.core core).l1Free 1 then s.setCore core { (s.core core) with l1 := c :: (s.core core).l1 } else s

/-! ## Engines and Ebandyan at the home -/

/-- The lines of a range. -/
def linesOf (a n : Nat) : List Nat := (List.range (if n = 0 then 0 else (a % 128 + n + 127) / 128)).map fun i => lineOf a + 128 * i

/-- Bytes of a page with a CACHE read at the home by an agent other than a core's instruction: every update-only line of them is recalled
first. -/
def State.homeRead (s : State) (host cache a n : Nat) : State × List Byte :=
  let s := (linesOf (s.mem.place a) n).foldl (fun s l => s.openLine l cache) s
  (s, s.mem.read host a n)

/-- Bytes read at virtual addresses at their homes, when every byte is readable and none lies in a lost window. -/
def State.homeReadVirt (s : State) (host root va n : Nat) : Option (State × List Byte) :=
  let s := s.recallTables host root [va, va + (n - 1)]
  match spanPhys s.mem s.step host root pteR va n with
  | none => none
  | some l =>
    if l.any s.lostAt then none
    else
      let s := ((l.map fun a => lineOf (s.mem.place a)).eraseDups).foldl (fun s a => s.openLine a) s
      some (s, l.map fun a => (s.mem.read host a 1).headD 0)

/-- Bytes of a page with a CACHE written at the home by an engine of a core. -/
def State.homeWrite (s : State) (core host cache a : Nat) (bs : List Byte) : State :=
  let s := (linesOf (s.mem.place a) bs.length).foldl (fun s l => ((s.mergeLine core l).touchLine l cache).writeTime core l) s
  { s with mem := s.mem.write host a bs }

end Sys2Proof.Machine
end

