-- ==== Sys2Proof/Machine/Run.lean ====
section
/-! DEFINITION. How an issued instruction is carried out, the same for every instruction: its checks (R42, R43), hazards (R62), marker wait
(R61), the effect its own entry gives, and then the program counter, the markers (R57) and FP_INVALID (R129). -/

namespace Sys2Proof.Machine

/-- What the effect of an instruction comes to. -/
inductive Eff where
  /-- a short instruction: its register results, written at once (R59) -/
  | short (x : Ctx) (r : RegResult)
  /-- a long instruction whose result is bound at issue; it is written by LONG_RESULT_WRITE (R60) -/
  | long (x : Ctx) (r : RegResult)
  /-- a long instruction that waits for memory -/
  | load (x : Ctx) (p : Pending)
  /-- the effect also decides where the bundle continues -/
  | moved (s : State)
  /-- no effect yet: the instruction is held (R5, R64) -/
  | stall (x : Ctx)
  /-- a trap, after what the context already performed -/
  | trap (x : Ctx) (cause : Nat) (info : BitVec 128)

/-- The repeat of a bound pair: its number i and COUNT (R39). -/
structure PairAt where
  i : Nat
  count : Nat
  deriving DecidableEq, Repr

/-- The guard of an instruction (R22); that of `rep` is ignored (R23). -/
def guardOf (i : Instr) : BitVec 5 :=
  match fmtOf i with
  | .a f => f.guard
  | .i f => f.guard
  | .m f => f.guard
  | .b f => f.guard
  | .e f => f.guard
  | .p _ => 0b11110
  | .event => 0b11110

/-- The M bit of an instruction. -/
def markOf (i : Instr) : Bool :=
  match fmtOf i with
  | .a f => f.m == 1
  | .i f => f.m == 1
  | .m f => f.m == 1
  | .b f => f.m == 1
  | .e f => f.m == 1
  | .p _ => false
  | .event => false

/-- Ones of a mask. -/
def popMask (m : LaneMask) : Nat := (LaneMask.lanes m).length

/-- The instruction's ORDER is not plain, at global memory or scratch, or it is another synchronising instruction of R210. -/
def isSync (i : Instr) : Bool :=
  match i with
  | .ld f | .st f | .atom f | .red f | .xsadd f | .xsrd f | .xsclr f | .lds f | .sts f | .atoms f => f.order != 0
  | .fence _ | .bar _ | .gbar _ | .mwait _ | .wait _ | .trig _ | .join _ | .reform _ | .exit _ => true
  | .lcopy f | .lput f | .lcode f | .qfence f => f.stamp != 1023#10
  | _ => false

/-- The checks of an instruction against what its cast declares (R200, R201, R329): a ring that is not declared, `stbar` by a spawned bundle or on a spawn
ring's consumer side, the primitive instructions outside a pipeline cast, `hitbin` without a surface. -/
def Ctx.castChecks (x : Ctx) (i : Instr) : List Failure :=
  match i with
  | .stbar f => illOp 0 (match x.c.rings.getD (f.func.toNat / 2) none with
      | some r => x.b.stage.isSome || (f.func.getLsbD 0 && r.spawn)
      | none => true)
  | .ringq f => illOp 0 (x.c.rings.getD (f.func.toNat % 2) none).isNone
  | .vemit _ | .pemit _ | .mcommit _ => illOp 86 (x.cast.kind != 1)
  | .hitbin _ => illOp 86 (match x.cast.surf with
      | some n => (x.s.surface? n).isNone
      | none => true)
  | _ => []

/-- Instructions that may set FLAGS bits when their result is written (R60). -/
def pendsFlags (i : Instr) : Bool :=
  longIV i || (match i with
    | .xsrd _ => true
    | .atoms f => f.func == 10
    | .rcp _ | .ex2 _ | .tanh _ => true
    | _ => false)

/-- Drop names at or above v n from a list of names: pending results bound for released names are discarded (R111). -/
def keepName (n code : Nat) : Bool := decide (code < n) || decide (640 ≤ code)

/-! ## Hazards (R62) -/

/-- The pending instruction that makes a name pending. -/
def Bundle.pendingOf (b : Bundle) (code : Nat) : Option Pending := b.pend.find? fun p => p.names.contains code

/-- `sreg` of FLAGS. -/
def readsFlags (i : Instr) : Bool :=
  match i with
  | .sreg f => f.func.toNat % 32 == 13
  | _ => false

/-- Names an instruction reads that its cast descriptor chooses: the position and attributes of `vemit` (R330). -/
def Ctx.castReads (x : Ctx) (i : Instr) : List Nat :=
  match i with
  | .vemit _ => (List.range (4 + x.cast.na)).map (x.cast.vpos + ·)
  | _ => []

/-- STRETCH_HAZARD's TRAPINFO for the first case of R60 the instruction would meet: a read, a FLAGS read, a write; by the names it holds, whether or not
any lane is ACTIVE (R62, log entry 70). -/
def Ctx.hazard (x : Ctx) (i : Instr) : Option (BitVec 128) :=
  let mk := fun (low : Nat) (p : Pending) => BitVec.ofNat 128 (low + p.pc.toNat % 2 ^ 48 * 2 ^ 64)
  match (readNames i ++ x.castReads i).find? x.b.isPending with
  | some n => (x.b.pendingOf n).map (mk n)
  | none =>
    match (if readsFlags i then x.b.pend.find? (·.setsFlags) else none) with
    | some p => some (mk 2048 p)
    | none =>
      match (writeNames i).find? x.b.isPending with
      | some n => (x.b.pendingOf n).map (mk (1024 + n))
      | none => none

/-! ## After the effect -/

/-- TRAPINFO of FP_INVALID: the lanes that set IV (R369). -/
def fpInfo (lanes : LaneMask) : BitVec 128 := lanes.setWidth 128

/-- A kept FP_INVALID falls due outside trap mode for the sub-bundle whose strands set IV, no other (R129, R367). -/
def Bundle.fpOwed (b : Bundle) (x : SubB) : Bool :=
  b.trap.isNone && match b.fpDue with
    | some d => x.mask &&& d.lanes != 0
    | none => false

/-- An FP_INVALID due after a marker (R129): the trap names the long instruction, and for a pair holds the repeats done. -/
def State.fpTrap (s : State) (cid bi : Nat) : State :=
  match s.bundle? cid bi with
  | none => s
  | some (c, b) =>
    match b.fpDue, b.subs with
    | some d, x :: _ =>
      if !b.fpOwed x then s
      else
        let rep := match d.rep with
          | some n => n + 1
          | none => 0
        (s.setBundle c { b with fpDue := none }).takeTrap cid bi 16 (fpInfo d.lanes) d.pc d.rep.isSome rep 0
    | _, _ => s

/-- The marker of an instruction: with nothing pending it completes, a kept FP_INVALID is raised (R129, R367), and the turn passes; else the
sub-bundle parks (R57, R64). -/
def Ctx.mark (x : Ctx) (m : Bool) : State :=
  if !m then x.commit
  else if x.b.pend.isEmpty && !x.b.fpOwed x.sub then
    let s := x.commit
    s.setBundle x.c ((x.b.setCurrent x.sub).rotate s.coreClock)
  else if x.b.pend.isEmpty then x.commit.fpTrap x.c.cid x.b.index
  else { x with sub := { x.sub with park := .marker } }.commit

/-- The sub-bundle past the instruction: the next slot, or for a repeat the pair's next repeat (R24, R40). The M bit of a bound instruction
acts after its last repeat. -/
def Ctx.advance (x : Ctx) (pair : Option PairAt) : SubB :=
  let n := x.sub.issued + 1
  let t := x.s.coreClock
  match pair with
  | none => { (x.sub.goto (nextPc x.sub.pc) t) with issued := n }
  | some p =>
    if p.i < p.count then { x.sub with rep := p.i + 1, stall := none, issued := n, ready := t }
    else { (x.sub.goto (skipPc x.sub.pc 2) t) with issued := n }

/-- Under the FP_INVALID option a long instruction that lists IV acts as if marked, whether or not a lane is ACTIVE, and in trap mode too (R129). -/
def Ctx.asMarked (x : Ctx) (i : Instr) : Bool := x.cast.fpinv && longIV i

/-- The marker acts now: not before a pair's last repeat. -/
def markNow (m : Bool) (pair : Option PairAt) : Bool :=
  match pair with
  | none => m
  | some p => m && decide (p.count ≤ p.i)

/-- A short instruction ends: registers and FLAGS are written, the PC moves, and an IV raises FP_INVALID when enabled (R129). In trap mode
no FLAGS bit is set (R367). -/
def Ctx.endShort (x : Ctx) (i : Instr) (pair : Option PairAt) (r : RegResult) : State :=
  let b := x.b.writeShort x.s.coreClock r
  let b := if x.inTrap then b else { b with flags := b.flags ||| r.flags }
  let pc := x.sub.pc
  let y := { x with b := b, sub := x.advance pair }
  let s := y.mark (markNow (markOf i) pair || x.asMarked i)
  if x.cast.fpinv && !x.inTrap && r.iv != 0 then
    let rep := match pair with
      | some p => p.i + 1
      | none => 0
    ({ y with sub := { y.sub with pc := pc } }.commit).takeTrap x.c.cid x.b.index 16 (fpInfo r.iv) pc pair.isSome rep 0
  else s

/-- Past a load that has been performed again the sub-bundle goes on where it stood (R212, log entry 10). -/
def Ctx.resumeAt (x : Ctx) (r : Redo) : SubB :=
  { (x.sub.goto r.pc x.s.coreClock) with issued := x.sub.issued + 1, rep := r.rep, cst := r.cst }

/-- The place to go on at past a load performed again; no other instruction has one. -/
def Ctx.redoAt (x : Ctx) (i : Instr) : Option Redo :=
  match i with
  | .ld _ | .xld _ | .atom _ | .xsrd _ => x.sub.redo
  | _ => none

/-- A long instruction ends its issue: its destinations are pending (R60). -/
def Ctx.endLong (x : Ctx) (i : Instr) (pair : Option PairAt) (p : Pending) : State :=
  let p := { p with id := x.b.nextPend, pc := x.sub.pc, rep := pair.map (·.i) }
  let b := { x.b with pend := x.b.pend ++ [p], nextPend := x.b.nextPend + 1 }
  let watch := x.asMarked i
  -- under the FP_INVALID option a pair waits at its `rep`, its repeats counted, until it is known that its last repeat raises none (R129)
  let sub := match x.redoAt i, pair with
    | some r, _ => x.resumeAt r
    | none, some q => if watch then { x.sub with rep := q.i + 1, stall := none, issued := x.sub.issued + 1 } else x.advance pair
    | none, none => x.advance pair
  let m := match x.redoAt i with
    | some r => r.marker
    | none => markNow (markOf i) pair || watch
  { x with b := b, sub := sub }.mark m

/-- A bound result as a pending instruction. -/
def boundPending (i : Instr) (r : RegResult) : Pending :=
  { id := 0, pc := 0, names := r.writes.map (·.1), setsFlags := pendsFlags i, gather := none, result := some r, written := false,
    prev := [], rivals := [] }

/-- The instruction is held: since this clock when it was not held before (R64). -/
def Ctx.hold (x : Ctx) : State :=
  let st := match x.sub.stall with
    | some st => { st with withdrawn := false, retry := false, since := if st.withdrawn then x.s.coreClock else st.since, rows := none }
    | none => Stall.start x.s.coreClock
  { x with sub := { x.sub with stall := some st } }.commit

/-- The instruction is held for rows (R96). -/
def Ctx.holdRows (x : Ctx) (need : Nat) (keep : List Nat) : State :=
  let st := match x.sub.stall with
    | some st => { st with withdrawn := false, retry := false, since := if st.withdrawn then x.s.coreClock else st.since, rows := some (need, keep) }
    | none => { (Stall.start x.s.coreClock) with rows := some (need, keep) }
  { x with sub := { x.sub with stall := some st } }.commit

/-- What an effect comes to, as the next state. -/
def settle (i : Instr) (pair : Option PairAt) (e : Eff) : State :=
  let rep := match pair with
    | some p => p.i
    | none => 0
  match e with
  | .short x r => x.endShort i pair r
  | .long x r => if x.act = 0 then x.endShort i pair RegResult.empty else x.endLong i pair (boundPending i r)
  | .load x p => x.endLong i pair p
  | .moved s => s
  | .stall x => x.hold
  | .trap x cause info => x.commit.takeTrap x.c.cid x.b.index cause info x.sub.pc pair.isSome rep x.sub.cst

/-- An instruction whose ORDER field releases, a `fence` that does, or another release of R214, R222 and R249. -/
def isRelease (i : Instr) : Bool :=
  match i with
  | .st f | .atom f | .red f | .xsadd f | .xsrd f | .xsclr f | .sts f | .atoms f => f.order != 0 && f.order != 1
  | .fence f => f.func.toNat % 8 != 1
  | .bar _ | .gbar _ | .trig _ | .join _ | .reform _ | .hitbin _ => true
  | .lcopy f | .lput f | .lcode f | .qfence f => f.stamp != 1023#10
  | .mwld f | .mst f | .mma f | .mzero f => f.stamp != 1023#10
  | _ => false

/-- A release forces the merges of its strands' earlier `red`s: each update-only line that holds one of them is sent to its home (R242). -/
def Ctx.forceReds (x : Ctx) (i : Instr) : Ctx :=
  if !isRelease i then x
  else
    let strands := (if implicitMarker i then x.sub.mask &&& x.b.live else x.act).lanes.map fun L => x.b.strands.getD L 0
    { x with s := (List.range Config.nCores).foldl (fun s n => ((s.core n).upd.filter fun u =>
        u.users.any fun e => e.1 == x.c.cid && strands.contains e.2.2).foldl (fun s u => s.askMerge n u.line) s) x.s }

/-- A deferred store fault falls due at the bundle's next synchronising instruction (R210). -/
def Ctx.owedTrap (x : Ctx) (i : Instr) : Option (BitVec 128 × Ctx) :=
  if isSync i then
    match x.b.owed with
    | [] => none
    | o :: t =>
      some (BitVec.ofNat 128 (o.va.toNat + (o.pc.toNat % 2 ^ 48 + if o.lackedW then 2 ^ 48 else 0) * 2 ^ 64), { x with b := { x.b with owed := t } })
  else none

/-- Names the effect of an issuing context leaves with tag G, which need rows (R98). -/
def Eff.rowNames (e : Eff) (x0 : Ctx) (i : Instr) : List Nat :=
  match e with
  | .short x r =>
    r.rowNames ++ (match i with
      | .expand f => if x.actNH = 0 then [] else [f.dst.toNat]
      | _ => [])
  | .long _ r => r.rowNames
  | .load _ p => p.rowNames
  | .moved _ => if x0.full || x0.act == 0 then [] else (writeNames i).filter fun n => decide (n < 640)
  | .stall _ => []
  | .trap _ _ _ => []

/-- The names whose values an instruction reads; `tag` reads none. -/
def valueNames (i : Instr) : List Nat :=
  match i with
  | .tag _ => []
  | _ => (readNames i).filter fun n => decide (n < 640)

/-- The v names whose values are read: with no ACTIVE lane none; by `expand`, which acts once per bundle, with none that holds no helper (R109,
R322). -/
def Ctx.valuesRead (x : Ctx) (i : Instr) : List Nat :=
  let on := match i with
    | .expand _ => x.actNH
    | _ => x.act
  if on = 0 then [] else valueNames i ++ x.castReads i

/-- The effect of an instruction once it has the rows it needs (R96, R98). -/
def withRows (i : Instr) (pair : Option PairAt) (eff : Ctx → Eff) (x : Ctx) : State :=
  let keep := readNames i ++ x.castReads i ++ writeNames i
  let wr := (eff x).rowNames x i
  match x.takeRows (x.valuesRead i) keep wr with
  | none => x.holdRows (x.rowNeed (x.valuesRead i) wr) keep
  | some y => settle i pair (eff y)

/-- The instruction's issue is one that goes on from a stall. -/
def Ctx.again (x : Ctx) : Bool :=
  match x.sub.stall with
  | some st => !st.withdrawn
  | none => false

/-- An implicit marker waits for the bundle's pending results before it issues: this is not yet its issue (R61, R344). -/
def Ctx.waitDrain (x : Ctx) : State :=
  { x with
    c := if x.again then x.c else { x.c with inst := x.c.inst - popMask x.act }
    sub := { x.sub with park := .drain } }.commit

/-- An instruction whose checks have passed: hazards, deferred faults, the marker wait of an implicit marker, then its effect; a hazard traps before
the wait (R61, R62, log entry 70). `yield` and `sleep` with no active lane have no effect and wait for nothing (R83, R84). -/
def perform (i : Instr) (pair : Option PairAt) (eff : Ctx → Eff) (x : Ctx) : State :=
  let rep := match pair with
    | some p => p.i
    | none => 0
  let idle := (match i with
    | .yield _ => true
    | .sleep _ => true
    | _ => false) && x.act == 0
  match (if x.cast.hazards && !x.inTrap then x.hazard i else none) with
  | some info => x.commit.takeTrap x.c.cid x.b.index 17 info x.sub.pc pair.isSome rep 0
  | none =>
    match x.owedTrap i with
    | some (info, y) => y.commit.takeTrap x.c.cid x.b.index 8 info x.sub.pc pair.isSome rep x.sub.cst
    | none =>
      if implicitMarker i && !idle && !x.b.pend.isEmpty then x.waitDrain
      else withRows i pair eff (x.forceReds i)

/-- The issuing context, the issue counted (R344). A stalled instruction that goes on is not issued anew. -/
def Ctx.counted (x : Ctx) : Ctx :=
  if x.again then x else { x with c := { x.c with inst := x.c.inst + popMask x.act, stuck := none, gangStuck := none } }

/-- What the checks need of a context. -/
def Ctx.env (x : Ctx) : CheckEnv := { owned := x.b.v.length, inTrap := x.inTrap, base := x.c.base }

/-- CARRY OUT AN INSTRUCTION for the issuing bundle: its checks, then `perform`. With no issuing bundle there is nothing it could mean. -/
def run (i : Instr) (eff : Ctx → Eff) (s : State) : Host.Outcome State Fault Refusal :=
  match s.cur with
  | none => .fault .noBundle
  | some (cid, bi) =>
    match s.ctx? cid bi (guardOf i) with
    | none => .fault .noBundle
    | some x0 =>
      let x := x0.counted
      match firstFailure (checks x.env i ++ x.castChecks i) with
      | some f => .next (x.commit.takeTrap cid bi f.cause.code (f.info false) x.sub.pc false 0 0)
      | none => .next (perform i none eff x)

end Sys2Proof.Machine
end

