-- ==== Sys2Proof/Machine/Translate.lean ====
section
/-! DEFINITION. Translation for a core (R203 to R207), page-fault requests and the fault ring (R208, R385), and the fault handling of the
lanes of a load or a waiting store (R208, R209). -/

namespace Sys2Proof.Machine

/-- What a core knows of an address. -/
inductive Trans where
  /-- a leaf entry -/
  | leaf (pte : DWord)
  /-- no translation cached: a walk is needed -/
  | walk
  /-- the last walk found none; its last entry was malformed, or a CHECKED leaf not present -/
  | absent (malformed checked : Bool)
  /-- bits [63:48] are not zero (R203) -/
  | outside
  deriving DecidableEq, Repr

/-- Translation of an address by a core for a region (R207). -/
def State.translate (s : State) (core region va : Nat) : Trans :=
  let rh := s.rootHost region
  if va / 2 ^ 48 != 0 then .outside
  else
    match tlbLookup s.mem s.step core rh.2 rh.1 va with
    | some (.leaf p) => .leaf p
    | some .absent => .absent false (absentChecked s.mem rh.2 4 rh.1 va)
    | some .malformed => .absent true false
    | none =>
      match s.mem.missing.find? fun e => e.core == core && e.root == rh.1 && e.vpage == vpageOf va with
      | some e => .absent e.malformed e.checked
      | none => .walk

/-- A walk of a page is in progress. -/
def Walk.isFor (w : Walk) (host root vpage : Nat) : Bool := w.host == host && w.root == root && w.vpage == vpage

/-- A core asks for a walk; it joins one in progress for the page (R207). -/
def State.startWalk (s : State) (core region va : Nat) : State :=
  let rh := s.rootHost region
  let mine := fun w : Walk => w.isFor rh.2 rh.1 (vpageOf va)
  let join := fun w : Walk => if mine w && !w.cores.contains core then { w with cores := w.cores ++ [core] } else w
  if s.mem.walks.any mine then { s with mem := { s.mem with walks := s.mem.walks.map join } }
  else
    { s with mem := { s.mem with
        walks := s.mem.walks ++ [{ id := s.mem.nextWalk, cores := [core], host := rh.2, root := rh.1, vpage := vpageOf va }]
        nextWalk := s.mem.nextWalk + 1 } }

/-- A walk of the page is in progress for the core. -/
def State.walking (s : State) (core region va : Nat) : Bool :=
  s.mem.walks.any fun w => w.isFor (s.rootHost region).2 (s.rootHost region).1 (vpageOf va) && w.cores.contains core

/-- An entry into the L1 TLB of a core, which holds 128 (R207). -/
def MemSys.fillTlb (m : MemSys) (step : Nat) (e : TlbEntry) : MemSys :=
  let others := m.tlb.filter fun t => t.core != e.core
  let mine := m.tlb.filter fun t => t.core == e.core && !(t.root == e.root && t.vpage == e.vpage)
  { m with tlb := others ++ mine.eraseIdx (evictAt step 17 (e.core + 128 * e.vpage) mine.length 128) ++ [e] }

/-- An entry into the L2 TLB of a slice, which holds 2,048 (R207). -/
def MemSys.fillTlb2 (m : MemSys) (step : Nat) (e : L2TlbEntry) : MemSys :=
  let others := m.tlb2.filter fun t => t.slice != e.slice
  let mine := m.tlb2.filter fun t => t.slice == e.slice && !(t.host == e.host && t.root == e.root && t.vpage == e.vpage)
  { m with tlb2 := others ++ mine.eraseIdx (evictAt step 18 (e.slice + 64 * e.vpage) mine.length 2048) ++ [e] }

/-- A page is missing for a core until it is asked for again. -/
def MemSys.notePage (m : MemSys) (e : Missing) : MemSys := { m with missing := m.missing ++ [e] }

/-- PAGE_WALK_COMPLETE: once the homes of the tables' lines have served the walker, the walk's end, read through L2 or held by an L2 TLB, is
cached for every core that asked, or kept as missing until the page is asked for again (R206, R207, R295). -/
def State.endWalk (s : State) (id : Nat) : State :=
  match s.mem.walks.find? fun w => w.id == id with
  | none => s
  | some w =>
    let lines := (walkPath s.mem w.host 4 w.root (w.vpage * 8192)).map fun a => (lineOf (s.mem.place a), (0 : DWord))
    if !s.mem.allReady (.walk id) false lines then s.askHome (.walk id) false lines
    else
    let s := { s with mem := s.mem.leave (.walk id) }
    let s := s.recallWalk w.host 4 w.root (w.vpage * 8192)
    let fin := choose s.step 19 id (walkChoices s.mem w.host w.root w.vpage) .malformed
    let m := { s.mem with walks := s.mem.walks.filter fun x => x.id != id
                          missing := s.mem.missing.filter fun e => !(w.cores.contains e.core && e.root == w.root && e.vpage == w.vpage) }
    let miss := fun (mal chk : Bool) => w.cores.foldl (fun m n => m.notePage { core := n, root := w.root, vpage := w.vpage, malformed := mal, checked := chk }) m
    { s with mem := match fin with
        | .leaf p =>
          (w.cores.foldl (fun m n => m.fillTlb s.step { core := n, root := w.root, vpage := w.vpage, pte := p }) m).fillTlb2 s.step
            { slice := tlbSlice s.mem w.host w.root w.vpage, host := w.host, root := w.root, vpage := w.vpage, pte := p }
        | .absent => miss false (absentChecked s.mem w.host 4 w.root (w.vpage * 8192))
        | .malformed => miss true false }

/-- Forget that a page was missing: it is asked for again. -/
def State.askAgain (s : State) (core region va : Nat) : State :=
  let root := (s.rootHost region).1
  { s with mem := { s.mem with
      missing := s.mem.missing.filter fun e => !(e.core == core && e.root == root && e.vpage == vpageOf va) } }

/-- The 32 bytes of a fault record (R385). -/
def faultRecord (q : PageReq) (phase : Bool) : List Byte :=
  let w0 := (if q.fetch then 2 ^ 45 else 0) + (if q.write then 2 ^ 44 else 0) + q.region % 4096 * 2 ^ 32 + q.id % 2 ^ 32
  let w1 := q.vpage % 2 ^ 35 * 8192
  let w3 := (if phase then 2 ^ 63 else 0) + q.time % 2 ^ 63
  leBytes 8 w0 ++ leBytes 8 w1 ++ leBytes 8 0 ++ leBytes 8 w3

/-- A page-fault request of a region (R208, R385): coalesced with an outstanding one of the page, unless a write is needed and that one's
record does not say so; rejected at once (`none`) for a crew without demand paging (R341) or when the ring is full. -/
def State.pageRequest (s : State) (demand : Bool) (region va : Nat) (write fetch : Bool) : State × Option Nat :=
  match s.region? region with
  | none => (s, none)
  | some r =>
    if !demand then (s, none)
    else
      match s.mem.pageReqs.find? fun q => q.root == r.rootUsed && q.host == r.host && q.vpage == vpageOf va && (!write || q.write) with
      | some q => (s, some q.id)
      | none =>
        let port := s.host.ports.getD r.host Port.init
        if !port.faultOpen || port.faultSize = 0 || decide (port.faultSize ≤ (s.mem.pageReqs.filter fun q => q.host == r.host).length) then (s, none)
        else
          let q : PageReq := { id := s.mem.nextPageReq, host := r.host, region := region, root := r.rootUsed, vpage := vpageOf va,
                               write := write, fetch := fetch, time := s.ns }
          let ring := (s.mem.host.getD r.host []).write (port.faultBase.toNat + 32 * port.faultNext) (faultRecord q port.faultPhase)
          let m := { s.mem with host := s.mem.host.set r.host ring }
          let next := port.faultNext + 1
          let port := if next < port.faultSize then { port with faultNext := next }
                      else { port with faultNext := 0, faultPhase := !port.faultPhase }
          ({ s with mem := { m with pageReqs := m.pageReqs ++ [q], nextPageReq := m.nextPageReq + 1 }
                    host := { s.host with ports := s.host.ports.set r.host port } }, some q.id)

/-- A request is still unanswered. -/
def State.outstanding (s : State) (id : Nat) : Bool := s.mem.pageReqs.any fun q => q.id == id

/-! ## The lanes of an access -/

/-- An element of an access: its lane, its number in the list of `cst` and `xld` (0 elsewhere), its address and how many bytes it
needs. -/
structure LaneVA where
  lane : Nat
  elem : Nat
  va : Nat
  bytes : Nat
  deriving DecidableEq, Repr

/-- What translating an access comes to. -/
inductive Access where
  /-- every element translated and allowed: element, leaf entry, place of its address -/
  | ok (l : List (LaneVA × DWord × Nat))
  /-- held while walks or requests are outstanding -/
  | wait (x : Ctx)
  | fault (x : Ctx) (cause : Nat) (info : BitVec 128)

/-- TRAPINFO of PAGE_FAULT and PROT_FAULT (R369). -/
def faultInfo (va lane elem : Nat) (malformed write fetch : Bool) : BitVec 128 :=
  let half1 := lane % 128 + elem % 128 * 2 ^ 16 + (if malformed then 2 ^ 8 else 0) + (if write then 2 ^ 9 else 0) +
    (if fetch then 2 ^ 10 else 0)
  BitVec.ofNat 128 (va % 2 ^ 64 + half1 * 2 ^ 64)

/-- TRAPINFO of POISON (R369): source 0 global, 1 scratch, 2 accumulator tile; the address is 0 for on-die data. -/
def poisonInfo (va lane source : Nat) : BitVec 128 := BitVec.ofNat 128 (va % 2 ^ 64 + (lane + source * 2 ^ 8) * 2 ^ 64)

/-- Add the ids of requests to the sub-bundle's stall. -/
def Ctx.awaiting (x : Ctx) (ids : List Nat) : Ctx :=
  let st := match x.sub.stall with
    | some st => st
    | none => Stall.start x.s.coreClock
  { x with sub := { x.sub with stall := some { st with requests := ids } } }

/-- The pages of the stall's rejected requests. -/
def Ctx.rejected (x : Ctx) : List Nat :=
  match x.sub.stall with
  | some st => st.rejected
  | none => []

/-- Send the requests of absent pages, in order: the context, the ids, and the first element whose request is rejected at once. -/
def Ctx.sendRequests (x : Ctx) (write fetch : Bool) (l : List (LaneVA × Bool)) : Ctx × List Nat × Option (LaneVA × Bool) :=
  l.foldl (fun acc e =>
    match acc.2.2 with
    | some _ => acc
    | none =>
      let s := acc.1.s.askAgain acc.1.c.core acc.1.c.region e.1.va
      match s.pageRequest acc.1.c.demand acc.1.c.region e.1.va write fetch with
      | (s, some id) => ({ acc.1 with s := s }, if acc.2.1.contains id then acc.2.1 else acc.2.1 ++ [id], none)
      | (s, none) => ({ acc.1 with s := s }, acc.2.1, some e)) (x, [], none)

/-- TRANSLATE AS A LOAD (R208): walks first; then an element that is misaligned or whose page lacks a right traps PROT_FAULT; then an absent
page whose request was rejected traps PAGE_FAULT, and the others are requested and waited for. -/
def Ctx.loadAccess (x : Ctx) (right : DWord → Bool) (write fetch : Bool) (l : List LaneVA) : Access :=
  let ts := l.map fun e => (e, x.s.translate x.c.core x.c.region e.va)
  match ts.filter fun t => t.2 == .walk with
  | w :: ws => .wait { x with s := (w :: ws).foldl (fun s t => s.startWalk x.c.core x.c.region t.1.va) x.s }
  | [] =>
    let bad := fun t : LaneVA × Trans => t.1.va % t.1.bytes != 0 || (match t.2 with
      | .leaf p => !right p
      | _ => false)
    match ts.find? bad with
    | some t => .fault x 7 (faultInfo t.1.va t.1.lane t.1.elem false write fetch)
    | none =>
      let isMal := fun t : Trans => match t with
        | .absent m _ => m
        | _ => false
      match ts.find? fun t => t.2 == .outside || (match t.2 with
          | .absent _ _ => x.rejected.contains (vpageOf t.1.va)
          | _ => false) with
      | some t => .fault x 6 (faultInfo t.1.va t.1.lane t.1.elem (isMal t.2) write fetch)
      | none =>
        match ts.filter fun t => match t.2 with
          | .absent _ _ => true
          | _ => false with
        | [] => .ok (ts.filterMap fun t => match t.2 with
            | .leaf p => some (t.1, p, x.s.mem.place (physOf p t.1.va))
            | _ => none)
        | abs =>
          match x.sendRequests write fetch (abs.map fun t => (t.1, isMal t.2)) with
          | (y, ids, none) => .wait (y.awaiting ids)
          | (y, _, some t) => .fault y 6 (faultInfo t.1.va t.1.lane t.1.elem t.2 write fetch)

end Sys2Proof.Machine
end

