-- ==== Sys2Proof/Machine/Fetch.lean ====
section
/-! DEFINITION. Fetch lines (R16 to R19), the check of a branch target (R21), the choice of what issues (R53, R54), and the fetch of a
bundle's next instruction. -/

namespace Sys2Proof.Machine

/-- The exclusive or of n bits of x from bit i. -/
def xorBits (x : Nat) : Nat → Nat → Bool
  | _, 0 => false
  | i, n + 1 => xor (x.testBit i) (xorBits x (i + 1) n)

/-- PARITY of a line's slots: bit k is the exclusive or of line bits [60k + 59 : 60k] (R16). -/
def parityOf (line : Nat) : Nat := (List.range 8).foldl (fun a k => if xorBits line (60 * k) 60 then a + 2 ^ k else a) 0

/-- The line's PARITY matches (R17). -/
def parityOk (data : List Byte) : Bool := parityOf (leNat data) == leNat data / 2 ^ 504 % 256

/-- The line word (R16). -/
def lineWord (data : List Byte) : Nat := leNat data / 2 ^ 480 % 2 ^ 32
/-- TARGETS bit i -/
def targetBit (data : List Byte) (i : Nat) : Bool := (lineWord data).testBit i
/-- PAIRS bit j -/
def pairBit (data : List Byte) (j : Nat) : Bool := (lineWord data).testBit (5 + j)
/-- The 96 bits of slot i (R16). -/
def slotBits (data : List Byte) (i : Nat) : BitVec 96 := BitVec.ofNat 96 (leNat (data.drop (12 * i) |>.take 12))

/-- The line word fails R18: a reserved bit, adjacent PAIRS bits, a pair whose first slot holds no `rep`, or a target in a pair. -/
def lineWordBad (data : List Byte) : Bool :=
  lineWord data / 2 ^ 9 % 2 ^ 15 != 0 ||
  (List.range 3).any (fun j => pairBit data j && pairBit data (j + 1)) ||
  (List.range 4).any fun j => pairBit data j && (slotOpcode (slotBits data j) != 0x013#9 || targetBit data (j + 1))

/-- A line of the instruction cache of a core, by physical address. -/
def CoreSt.iline (k : CoreSt) (phys : Nat) : Option (List Byte) := (k.icache.find? fun l => l.phys == phys).map (·.data)

/-- What a core reads of the line of a target. -/
inductive TargetLine where
  /-- it has no executable translation -/
  | unread
  | line (data : List Byte)
  /-- PARITY of the copy from L2 does not match either (R17): the physical line -/
  | broken (phys : Nat)
  deriving DecidableEq, Repr

/-- The line of a target as the core reads it, when it is translatable: out of the instruction cache, or where it is not there or its PARITY
does not match, from L2 (R17, log entry 76). -/
def State.lineFor (s : State) (core region va : Nat) : TargetLine :=
  let rh := s.rootHost region
  let t := s.recallTables rh.2 rh.1 [va]
  match physFor t.mem s.step rh.2 rh.1 pteX va with
  | none => .unread
  | some a =>
    let d := (t.recall (lineOf (s.mem.place a))).mem.read rh.2 a 64
    match (s.core core).iline a with
    | some c => if parityOk c then .line c else if parityOk d then .line d else .broken a
    | none => if parityOk d then .line d else .broken a

/-- A computed target fails R21. A line that cannot be translated is not looked at: its fetch faults instead. -/
def State.targetBad (s : State) (core region : Nat) (pc : DWord) : Bool :=
  !pcWellFormed pc ||
  (match s.lineFor core region (pcLine pc).toNat with
   | .line d => !targetBit d (pcSlot pc)
   | _ => false)

/-- The line of a well-formed target whose PARITY does not match in any copy (R17). -/
def State.targetBroken (s : State) (core region : Nat) (pc : DWord) : Option Nat :=
  if pcWellFormed pc then
    (match s.lineFor core region (pcLine pc).toNat with
     | .broken a => some a
     | _ => none)
  else none

/-- The lines of targets have been read: update-only lines of what is read from L2 have been recalled (R241), copies in the instruction cache whose
PARITY does not match are discarded (R17). -/
def State.dropBadCopies (s : State) (core region : Nat) (pcs : List DWord) : State :=
  let rh := s.rootHost region
  let s := s.recallTables rh.2 rh.1 (pcs.map fun pc => (pcLine pc).toNat)
  let read := pcs.filterMap fun pc => physFor s.mem s.step rh.2 rh.1 pteX (pcLine pc).toNat
  let s := (read.filter fun a => match (s.core core).iline a with
    | some d => !parityOk d
    | none => true).foldl (fun s a => s.recall (lineOf (s.mem.place a))) s
  let k := s.core core
  if k.icache.any fun l => read.contains l.phys && !parityOk l.data then
    s.setCore core { k with icache := k.icache.filter fun l => !(read.contains l.phys && !parityOk l.data) }
  else s

/-! ## Choosing what issues (R53, R54) -/

/-- The data of the line a sub-bundle has entered, when its PC lies there. -/
def SubB.lineData (x : SubB) : Option (List Byte) :=
  match x.line with
  | some l => if l.addr == pcLine x.pc then some l.data else none
  | none => none

/-- The current sub-bundle may issue: its crew runs, its registers have been filled where the Runner fills them (R325), it is neither halted,
parked nor held, its turn has not ended at 1,024 instructions or 256 clocks of stall (R64), and no drain of a trap entry is due. -/
def Bundle.ready (b : Bundle) (c : Crew) (clock : Nat) : Bool :=
  match b.subs with
  | [] => false
  | x :: _ =>
    c.st == .running && (c.records.isEmpty || c.runnerDone) && !b.halted && x.park == .run && (x.mask &&& b.live) != 0 &&
    (match x.stall with
     | some st => st.withdrawn || (st.retry && decide (clock < st.since + 256))
     | none => decide (x.issued < 1024)) &&
    (match b.trap with
     | some t => !t.entering || b.pend.isEmpty
     | none => true)

/-- The next instruction has been fetched (R53), or a trap is due before it that needs none: of a bundle the Runner filled (R325), or of an
entry PC that is no PC (R21). -/
def Bundle.fetched (b : Bundle) : Bool :=
  match b.subs with
  | [] => false
  | x :: _ => x.lineData.isSome || b.runnerTrap.isSome || (b.atEntry && !pcWellFormed x.pc)

/-- The ready candidates of a partition: slot, clock since when it is ready, crew and bundle. -/
def State.candidates (s : State) (core part : Nat) : List (Nat × Nat × Nat × Nat) :=
  ((s.crews.filter fun c => c.core == core).map fun c =>
    c.bundles.filterMap fun b =>
      if b.slot / 8 == part && b.ready c s.coreClock && b.fetched then
        match b.subs with
        | x :: _ => some (b.slot, x.ready, c.cid, b.index)
        | [] => none
      else none).flatten

/-- The better of two candidates: ready longer, then nearer at or after the rotation pointer (R54). -/
def firstOf (rot : Nat) (a b : Nat × Nat × Nat × Nat) : Nat × Nat × Nat × Nat :=
  let d := fun x : Nat × Nat × Nat × Nat => (x.1 % 8 + 8 - rot) % 8
  if a.2.1 < b.2.1 then a else if b.2.1 < a.2.1 then b else if d a ≤ d b then a else b

/-- The candidate R54 takes. -/
def State.pick (s : State) (core part : Nat) : Option (Nat × Nat × Nat × Nat) :=
  match s.candidates core part with
  | [] => none
  | a :: l => some (l.foldl (firstOf ((s.core core).parts.getD part PartSt.init).rot) a)

/-- The rotation pointer moves to the slot after the one that issued. -/
def State.rotated (s : State) (core slot : Nat) : State :=
  let k := s.core core
  s.setCore core { k with parts := k.parts.set (slot / 8) { rot := (slot % 8 + 1) % 8, last := some s.coreClock } }

/-! ## Fetching -/

/-- What fetching the next instruction comes to. -/
inductive Fetched where
  /-- an instruction, with the device ready to carry it out -/
  | run (s : State) (i : Instr)
  /-- no instruction this time -/
  | idle (s : State)

/-- Kill the cast of a bundle whose line failed its parity check twice; the kill counts once in class 6 (R17, R344). -/
def State.parityKill (s : State) (c : Crew) (phys : Nat) : State :=
  let s := { s with host := { s.host with checks := s.host.checks ++ [phys] } }
  (s.countFault c.region 6 1).killCast c.castId 22

/-- The slot at a PC of a line has its PAIRS bit set (R16): it and the next are one unit. -/
def pairSlot (data : List Byte) (pc : DWord) : Bool := decide (pcSlot pc < 4) && pairBit data (pcSlot pc)

/-- The instruction at the PC of a sub-bundle is the first of a pair (R366, R372): by its repeats done, by the line it has entered, else by the line as
the core would read it. -/
def State.atPair (s : State) (core region : Nat) (x : SubB) : Bool :=
  x.rep != 0 || match x.lineData with
    | some d => pairSlot d x.pc
    | none => match s.lineFor core region (pcLine x.pc).toNat with
      | .line d => pcWellFormed x.pc && pairSlot d x.pc
      | _ => false

/-- A trap taken by fetching the instruction at the PC of a sub-bundle, with the repeats and elements it has done (R366). -/
def State.fetchTrap (s : State) (c : Crew) (b : Bundle) (x : SubB) (cause : Nat) (info : BitVec 128) : State :=
  s.takeTrap c.cid b.index cause info x.pc (s.atPair c.core c.region x) x.rep x.cst

/-- A fault of the fetch of a line: precise on its first instruction (R21); of a handler's first line it kills the cast with the trap's
own cause (R370). -/
def State.fetchFault (s : State) (c : Crew) (b : Bundle) (x : SubB) (cause : Nat) (info : BitVec 128) : State :=
  match b.trap with
  | some t => if t.entering then s.killCast c.castId t.cause else s.fetchTrap c b x cause info
  | none => s.fetchTrap c b x cause info

/-- The bundle waits for a fetch line. -/
def Ctx.awaitLine (x : Ctx) (again : Bool) : Ctx := { x with sub := { x.sub with park := .fetch (pcLine x.sub.pc) again } }

/-- The bundle has its line; one that waited for it is ready from now on (R54). -/
def Ctx.gotLine (x : Ctx) (data : List Byte) : Ctx :=
  { x with
    sub := { x.sub with park := .run, stall := none, ready := if x.sub.park == .run then x.sub.ready else x.s.coreClock, line := some { addr := pcLine x.sub.pc, data := data } }
    b := { x.b with trap := x.b.trap.map fun t => { t with entering := false } } }

/-- Look for the line of the next instruction in the instruction cache: found with matching PARITY it is entered; a copy that does not match
is discarded and fetched once more (R17); a line not there is fetched. -/
def Ctx.findLine (x : Ctx) : Ctx :=
  match x.s.translate x.c.core x.c.region (pcLine x.sub.pc).toNat with
  | .leaf p =>
    let phys := physOf p (pcLine x.sub.pc).toNat
    let k := x.s.core x.c.core
    if !pteX p then x.awaitLine false
    else
      match k.iline phys with
      | some d =>
        if parityOk d then x.gotLine d
        else { x with s := x.s.setCore x.c.core { k with icache := k.icache.filter fun l => l.phys != phys } }.awaitLine true
      | none => x.awaitLine false
  | .walk => { x with s := x.s.startWalk x.c.core x.c.region (pcLine x.sub.pc).toNat }.awaitLine false
  | _ => x.awaitLine false

/-- LINE_FETCH_ARRIVAL and LINE_REFETCH (R17, R19): once its home has served the fetch (R295), the line is read from L2 as it stands at this
moment and its PARITY checked. The first mismatch asks for the line once more; the second (`again`) raises a machine check and kills the cast. A page that is absent or not
executable faults (R21). -/
def State.lineArrives (s : State) (cid bi : Nat) (again : Bool) : State :=
  match s.ctx? cid bi 0b11110 with
  | none => s
  | some x =>
    match x.sub.park with
    | .fetch line was =>
      if was != again then s
      else if (match x.sub.stall with
          | some st => st.requests.any s.outstanding
          | none => false) then s
      else
        match x.loadAccess pteX false true [{ lane := 0, elem := 0, va := line.toNat, bytes := 64 }] with
        | .wait y => y.commit
        | .fault y cause info => y.commit.fetchFault y.c y.b y.sub cause info
        | .ok l =>
          let phys := match l with
            | e :: _ => e.2.2
            | [] => 0
          let lines := l.map fun e => (lineOf e.2.2, e.2.1)
          if !s.mem.allReady (.fetch cid bi) false lines then s.askHome (.fetch cid bi) false lines
          else
          let s := { s with mem := s.mem.leave (.fetch cid bi) }
          let (s, data) := s.homeRead (s.rootHost x.c.region).2 (pteCache (lines.headD (0, 0)).2) phys 64
          let k := s.core x.c.core
          if parityOk data then
            ({ x with s := s.setCore x.c.core (k.takeLine s.step { phys := phys, data := data }) }.gotLine data).commit
          else if again then s.parityKill x.c phys
          else ({ x with s := s }.awaitLine true).commit
    | _ => s

/-- TRAPINFO of BADTARGET for a launch: the entry PC and the lowest lane (R369). -/
def entryInfo (x : Ctx) : BitVec 128 := BitVec.ofNat 128 (x.sub.pc.toNat + lowLane (x.sub.mask &&& x.b.live) * 2 ^ 64)

/-- The crew constants an instruction names; a `rep` may name any. -/
def constsNamed (i : Instr) : List Nat :=
  let of := fun (code : BitVec 10) (n : Nat) => if 768 ≤ code.toNat && code.toNat < 800 then (List.range n).map (code.toNat - 768 + ·) else []
  match fmtOf i with
  | .a f => of f.opa 1 ++ of f.opb 1 ++ of f.opc 1 ++ of f.dst 1
  | .i f => of f.dst 1
  | .m f => of f.data 2 ++ of f.base 1 ++ of f.index 1 ++ of f.aux 1
  | .b f => of f.reg 1 ++ of f.aux 1
  | .e f => of f.stamp 1 ++ of f.aux 1 ++ of f.recd 4
  | .p _ => List.range 32
  | .event => []

/-- The issuing bundle sees the crew constants its instruction names (R107). -/
def State.seeConsts (s : State) (cid bi : Nat) (i : Instr) : State :=
  match s.bundle? cid bi with
  | none => s
  | some (c, b) => if c.constLog.isEmpty then s else s.setBundle c ((constsNamed i).foldl (c.see s.step) b)

/-- TRAPINFO of a failing line word: bit 8 (R369). DESIGN CHOICE (log entry 84): bits [6:0], the first failing field within the slot, name none and
are 0. -/
def lineWordInfo : BitVec 128 := 256

/-- FETCH: the instruction at the PC of a ready candidate, out of the line it has entered: its line word is checked (R18), the slot decoded;
an unassigned OPCODE traps ILLEGAL_OP (R42). A trap due before a Runner-filled bundle's first instruction is taken first (R325). The first
instruction of a launched or spawned bundle traps BADTARGET where its entry fails R21, before its line word is looked at (log entry 68). The
second slot of a bound pair that `tret.to`, HANDLER or a debugger's resume makes the PC is fetched like any other slot (R20, log entry 67). An
FP_INVALID kept through a trap is raised before its own sub-bundle issues again (R367, log entry 85). -/
def State.fetch (s : State) (cid bi : Nat) : Fetched :=
  match s.ctx? cid bi 0b11110 with
  | none => .idle s
  | some x =>
    if !x.b.ready x.c s.coreClock then .idle s
    else
      match x.b.runnerTrap with
      | some (cause, info) =>
        .idle ((s.setBundle x.c { x.b with runnerTrap := none }).fetchTrap x.c x.b x.sub cause info)
      | none =>
        if x.b.fpOwed x.sub && x.b.pend.isEmpty && x.sub.redo.isNone then .idle (s.fpTrap cid bi)
        else
        let badEntry := Fetched.idle ((s.setBundle x.c { x.b with atEntry := false }).fetchTrap x.c x.b x.sub 3 (entryInfo x))
        if x.b.atEntry && !pcWellFormed x.sub.pc then badEntry
        else
        match x.sub.lineData with
        | none => .idle s
        | some d =>
          if x.b.atEntry && !targetBit d (pcSlot x.sub.pc) then badEntry
          else
          let s := { x with b := { x.b with atEntry := false } }.commit
          if lineWordBad d then .idle (s.fetchTrap x.c x.b x.sub 1 lineWordInfo)
          else
            match decode (slotBits d (pcSlot x.sub.pc)) with
            | .ok i => .run { (s.seeConsts cid bi i) with cur := some (cid, bi) } i
            | .error _ => .idle (s.fetchTrap x.c x.b x.sub 1 86)

/-- The current sub-bundles of a partition that might issue but for their next instruction look for its line (R17, R53). -/
def State.beginFetches (s : State) (core part : Nat) : State :=
  let wanting := ((s.crews.filter fun c => c.core == core).map fun c =>
    (c.bundles.filter fun b => b.slot / 8 == part && b.ready c s.coreClock && !b.fetched).map fun b => (c.cid, b.index)).flatten
  wanting.foldl (fun s e => match s.ctx? e.1 e.2 0b11110 with
    | some x => x.findLine.commit
    | none => s) s

/-- Issue from a partition: the candidate R54 takes. -/
def State.issue (s : State) (core part : Nat) : Fetched :=
  let s := s.beginFetches core part
  match s.pick core part with
  | none => .idle s
  | some (slot, _, cid, bi) => (s.rotated core slot).fetch cid bi

/-- Issue from a named slot: the candidates before it are passed over (R54). -/
def State.issueSlot (s : State) (core slot : Nat) : Fetched :=
  let s := s.beginFetches core (slot / 8)
  match (s.candidates core (slot / 8)).find? fun c => c.1 == slot with
  | none => .idle s
  | some (_, _, cid, bi) => (s.rotated core slot).fetch cid bi

end Sys2Proof.Machine
end

