-- ==== Sys2Proof/Machine/Launch.lean ====
section
/-! DEFINITION. A crew and its bundles at launch: registers (R87), seating (R51, R52), rings and scratch (R181, R187), partition word
(R180). -/

namespace Sys2Proof.Machine

/-- A bundle as a launch, a draw or a spawn starts it (R70, R87, R189): every owned v name 0 with tag U, predicates, s registers and FLAGS 0,
k registers 0 (log entry 3). -/
def Bundle.fresh (index slot base : Nat) (strands : List Nat) (pc : DWord) (consts : Vector DWord 32) (clock : Nat) : Bundle :=
  let mask := maskOf fun L => decide (L < strands.length)
  { index := index, slot := slot, stage := none
    v := List.replicate base VReg.zero, s := Vector.replicate 128 0, p := Vector.replicate 15 0, k := Vector.replicate 8 0
    present := mask, exited := 0, strands := strands, fmask := 0, helper := 0, flags := 0, hintDrop := 0
    pixel := List.replicate W 0, material := 0, hitid := List.replicate W 0, drawn := false
    subs := if mask = 0 then [] else [SubB.start mask pc clock]
    pend := [], nextPend := 0, trap := none, area := none, repCount := 0, cstDone := 0, prim := none, primTicket := none
    owed := [], spans := [], seen := consts, seenAt := Vector.replicate 32 0, fpDue := none, halted := false, runnerTrap := none, atEntry := false }

/-- Fields of a partition word (R180). -/
def poolRegs (w : DWord) : Nat := bitsOf w 7 0
/-- PLAIN -/
def poolPlain (w : DWord) : Nat := bitsOf w 15 8
/-- RING -/
def poolRing (w : DWord) : Nat := bitsOf w 23 16
/-- EXCH -/
def poolExch (w : DWord) : Nat := bitsOf w 31 24
/-- ACC -/
def poolAcc (w : DWord) : Nat := bitsOf w 39 32
/-- Cost of a crew in granules (R180). -/
def poolCost (w : DWord) : Nat := poolRegs w + poolPlain w + poolRing w + 2 * poolExch w + poolAcc w

/-- Fields of a ring's descriptor word (R345): stages, bytes, distance, arrival counts, spawn entry, declared. -/
def ringOf (w : DWord) (base : Nat) : Option Ring :=
  if !bitOf w 14 then none
  else
    let n := bitsOf w 63 60 + 1
    let d := bitsOf w 43 40
    some { stages := n, size := 256 * bitsOf w 59 44, dist := d, parr := bitsOf w 39 28, carr := bitsOf w 27 16, spawn := bitOf w 15
           base := base, hp := 0, prime := if bitOf w 15 then 0 else d
           st := List.replicate n { issued := 0, completed := 0, consumed := 0, st := .empty } }

/-- The two rings of a cast; ring 1 follows ring 0 (R186). -/
def Cast.rings (a : Cast) : List (Option Ring) :=
  let r0 := ringOf (a.word 7) 0
  let b := match r0 with
    | some r => r.stages * r.size
    | none => 0
  [r0, ringOf (a.word 8) b]

/-- Stages of a cast's spawn ring: its extra bundle slots (R189). -/
def Cast.spawnStages (a : Cast) : Nat :=
  (a.rings.map fun r => match r with
    | some r => if r.spawn then r.stages else 0
    | none => 0).sum

/-- An accumulator tile at admission. -/
def AccTile.zero : AccTile := { elems := [], satc := 0, nanc := 0, infc := 0, poison := [] }

/-- Slots of a core that crews hold. -/
def State.usedSlots (s : State) (core : Nat) : List Nat :=
  ((s.crews.filter fun c => c.core == core).map fun c => c.bundles.map (·.slot)).flatten

/-- The lowest free slot of the first partition upward from q that has one (R51). -/
def seatFrom (used : List Nat) (q fuel : Nat) : Nat :=
  match fuel with
  | 0 => 0
  | k + 1 =>
    match ((List.range 8).map (8 * (q % 32) + ·)).find? fun n => !used.contains n with
    | some n => n
    | none => seatFrom used (q + 1) k

/-- Seats of n bundles from start pointer c (R51). -/
def seats (used : List Nat) (c i n : Nat) : List Nat :=
  match n with
  | 0 => []
  | m + 1 =>
    let q := seatFrom used (c + i) 33
    q :: seats (q :: used) c (i + 1) m

/-- A crew of a cast, admitted to a core with an admission number (R52, R87, R181, R187): launch bundles hold their strands, spawn slots are
empty. Strand k starts in bundle k div W, lane k mod W (R87). -/
def Cast.newCrew (a : Cast) (s : State) (cid core x y z gangId gangIdx : Nat) : Crew :=
  let k := s.core core
  let n := a.launch + a.spawnStages
  let seat := seats (s.usedSlots core) k.startPtr 0 n
  let w := a.word 3
  let bundles := (List.range n).map fun i =>
    let str := if i < a.launch then ((List.range W).map (W * i + ·)).filter fun t => decide (t < a.strands) else []
    { Bundle.fresh i (seat.getD i 0) a.base str (a.word 0) a.consts s.coreClock with
      stage := if i < a.launch then none else some (i - a.launch), atEntry := decide (i < a.launch) }
  { cid := cid, castId := a.castId, region := a.region, core := core, adm := k.admSeq, st := .starting, x := x, y := y, z := z
    gangId := gangId, gangIdx := gangIdx, gangW := a.gang.1, gangH := a.gang.2, launch := a.launch, base := a.base, bundles := bundles
    consts := a.consts, constLog := [], flagAcc := 0, faultAcc := 0, off := 0, plain := [], ringMem := [], live := [], shadow := [], poison := [], wpoison := []
    plainSize := 49152 * poolPlain w, exchSize := 49152 * poolExch w, cost := poolCost w, regGranules := poolRegs w,
    ovc := (match s.region? a.region with
      | some r => r.ovc
      | none => 0),
    priority := (match s.region? a.region with
      | some r => r.priority
      | none => 0),
    demand := (match s.region? a.region with
      | some r => r.demand
      | none => false), rings := a.rings
    arrivals := [], nextArrival := 0, tiles := List.replicate (3 * poolAcc w) AccTile.zero, wbg := a.wbg, wdata := [], wside := []
    stampEnq := List.replicate 4 0, stampDone := List.replicate 4 0, triggered := [], nan := [], records := [], runnerDone := false
    stuck := none, gangStuck := none, spillSlots := [], spillBank := 0, poolFrom := s.ns, inst := 0, faults := List.replicate 8 0, xacqSeq := 0, haltOrder := 0, startWin := s.ns / 100 }

/-- The core after a crew of n bundles is seated: c advances, the admission number rises (R51, R52). -/
def State.seated (s : State) (core n : Nat) : State :=
  let k := s.core core
  s.setCore core { k with startPtr := (k.startPtr + n) % 32, admSeq := k.admSeq + 1 }

/-! ## A program placed by hand -/

/-- The line that holds a slot's bits in slot 0 and `nop`s after it, with PARITY right. A `rep` is bound to a `mov` (R38). -/
def lineWith (w : Nat) : Nat :=
  let nop := 0x00400000_00000000_001E0000
  let mov := 0x10000000_00000000_001E0000
  let pair := w / 2 ^ 86 % 512 == 0x013
  let slots := w % 2 ^ 96 + (if pair then mov else nop) * 2 ^ 96 + nop * 2 ^ 192 + nop * 2 ^ 288 + nop * 2 ^ 384
  slots + ((if pair then 2 ^ 5 else 0) + 1 + parityOf slots * 2 ^ 24) * 2 ^ 480

/-- The descriptor of the cast that runs a placed program: one crew of one bundle of 32 strands, base block 256, entry at line 0x1_0000, two
register granules, one granule each of plain, ring and exchange scratch and accumulators, ring 0 of two stages of 256 bytes. -/
def placedDesc : List DWord :=
  [0x10000, 0, BitVec.ofNat 64 (31 * 2 ^ 44 + 7 * 2 ^ 15 + 4 * 2 ^ 3), 0x0101010102, 0, 0, 0,
   BitVec.ofNat 64 (1 * 2 ^ 60 + 1 * 2 ^ 44 + 1 * 2 ^ 40 + 1 * 2 ^ 28 + 1 * 2 ^ 16 + 2 ^ 14), 0, 0, 0, 0, 0, 0, 0, 0]

/-- The cast that runs a placed program. -/
def placedCast (id : Nat) : Cast :=
  { castId := id, host := 0, region := 1, seq := 0, descVa := 0, desc := placedDesc, consts := Vector.replicate 32 0, surf := none,
    nextCrew := 1, admitted := 1, retired := 0, mcrews := 0, flags := 0, fmask := 0, off := 0, dropped := 0, prodFail := false,
    geomEnded := false, done := false, killed := none, trigged := [], trigLT := 0 }

/-- The region of a placed program: translation root 0x4000, no trap handler, no demand paging. -/
def placedRegion : Region :=
  { num := 1, parent := 0, depth := 1, host := 0, priority := 0, faultdom := true, demand := false, ovc := 0, ovr := 0, root := 0x4000, rootUsed := 0x4000,
    handler := 0, ctxb := 0, granb := 0, poolcnt := 0, instcnt := 0, mxcnt := 0, ldcnt := 0, fcnt := List.replicate 8 0,
    killCast := 0, killCause := 0, kills := 0 }

/-- The page entry of the placed program's page: frame 0x1_0000, R W X, 8 KiB leaf. -/
def placedPte : DWord := 0x1003B

/-- Page tables that map the page 0x1_0000 to itself, and the line that holds the slot. -/
def placedMem (m : MemSys) (line : Nat) : MemSys :=
  let w := fun (m : MemSys) (a v : Nat) => m.writeDev a (leBytes 8 v)
  let m := w (w (w (w m 0x4000 0x6001) 0x6000 0x8001) 0x8000 0xA001) (0xA000 + 64) placedPte.toNat
  { (m.writeDev 0x10000 (leBytes 64 line)) with tlb := [{ core := 0, root := 0x4000, vpage := 8, pte := placedPte }] }

/-- The device with the slot's bits as the next instruction that core 0 issues: one crew of one bundle whose PC names the line, the line in
memory and in the instruction cache, its page mapped, and an issue of partition 0 as the next step. -/
def State.placeSlot (s : State) (w : Nat) : State :=
  let line := lineWith w
  let id := s.disp.nextCast
  let a := placedCast id
  let s0 := { s with crews := [], cores := s.cores.set 0 { CoreSt.init with icache := [{ phys := 0x10000, data := leBytes 64 line }] } }
  let c := { a.newCrew s0 1 0 0 0 0 0 0 with st := .running }
  { s0 with
    crews := [c], casts := [a], regions := [placedRegion], mem := placedMem s.mem line, agenda := [.issue 0 0], cur := none
    disp := { s0.disp with nextCrewId := 2, nextCast := id + 1 } }

end Sys2Proof.Machine
end

