-- ==== Sys2Proof/Machine/Integer.lean ====
section
/-! DEFINITION. The integer and address instructions (0x080 to 0x09E, R139 to R151): of each its effect on the issuing bundle and its
meaning. -/

namespace Sys2Proof.Machine

/-! ## Shared forms -/

/-- Source A, B or C as an integer of TYPE in a lane. -/
def intA (f : FmtA) (x : Ctx) (L : Nat) : Int := x.srcInt f.ty.toNat f.opa.toNat f.moda L
/-- Source B -/
def intB (f : FmtA) (x : Ctx) (L : Nat) : Int := x.srcInt f.ty.toNat f.opb.toNat f.modb L
/-- Source C -/
def intC (f : FmtA) (x : Ctx) (L : Nat) : Int := x.srcInt f.ty.toNat f.opc.toNat f.modc L
/-- A val32 source read as n32 (R139). -/
def ctl32 (f : FmtA) (x : Ctx) (code : BitVec 10) (m : BitVec 7) (L : Nat) : Nat := x.src (ty32 f.ty.toNat) code.toNat m L
/-- A val32 source as an integer of the 32-bit type. -/
def int32 (f : FmtA) (x : Ctx) (code : BitVec 10) (m : BitVec 7) (L : Nat) : Int := x.srcInt (ty32 f.ty.toNat) code.toNat m L

/-- Sources A and B are U. -/
def uniAB (f : FmtA) (x : Ctx) : Bool := x.srcU f.ty.toNat f.opa.toNat f.moda && x.srcU f.ty.toNat f.opb.toNat f.modb
/-- Source A is U. -/
def uniA (f : FmtA) (x : Ctx) : Bool := x.srcU f.ty.toNat f.opa.toNat f.moda
/-- A val32 source is U. -/
def uni32 (f : FmtA) (x : Ctx) (code : BitVec 10) (m : BitVec 7) : Bool := x.srcU (ty32 f.ty.toNat) code.toNat m

/-- Shape of a source of a 32-bit TYPE; of another TYPE only U counts. -/
def shape32 (f : FmtA) (x : Ctx) (code : BitVec 10) (m : BitVec 7) : Shape := x.srcShape f.ty.toNat code.toNat m

/-- Base and stride of a shape that is U or A. -/
def affineOf : Shape → Option (Word × Word)
  | .u v => some (v, 0)
  | .a b s => some (b, s)
  | .g _ => none

/-- The A shape of a sum or difference of shapes (R93): U op U stays U, which the values give; anything with G is G. -/
def addShape (op : Word → Word → Word) (a b : Shape) : Option Shape :=
  match affineOf a, affineOf b with
  | some (x, s), some (y, t) => if a.isU && b.isU then none else some (.a (op x y) (op s t))
  | _, _ => none

/-- The shape of a product of shapes (R93). -/
def mulShape (a b : Shape) : Shape :=
  match a, b with
  | .u x, .u y => .u (x * y)
  | .a x s, .u y => .a (x * y) (s * y)
  | .u x, .a y s => .a (x * y) (x * s)
  | _, _ => shapeG

/-- The shape of a left shift (R93): by a U amount below 32 U stays U and A stays A. -/
def shlShape (a k : Shape) : Shape :=
  match a, k with
  | .u x, .u n => if n.toNat < 32 then .u (x <<< n.toNat) else shapeG
  | .a x s, .u n => if n.toNat < 32 then .a (x <<< n.toNat) (s <<< n.toNat) else shapeG
  | _, _ => shapeG

/-- A 32-bit TYPE: the tag algebra of R93 gives A. -/
def algebra (f : FmtA) : Bool := f.ty.toNat == 0 || f.ty.toNat == 1 || f.ty.toNat == 2

/-- An A shape, where a shape is A. -/
def onlyA : Shape → Option Shape
  | .a x s => some (.a x s)
  | _ => none

/-- A short integer result (R139). -/
def intResult (f : FmtA) (x : Ctx) (sh : Option Shape) (uni : Bool) (op : Nat → Int) : Eff :=
  .short x (x.resultInt f.ty.toNat f.dst.toNat f.dsub.toNat f.round.toNat sh uni op)

/-- A two-source integer instruction with no A result. -/
def int2 (f : FmtA) (x : Ctx) (op : Int → Int → Int) : Eff := intResult f x none (uniAB f x) fun L => op (intA f x L) (intB f x L)

/-! ## Arithmetic (R141) -/

/-- add -/
def effAdd (f : FmtA) (x : Ctx) : Eff :=
  let sh := if algebra f then addShape (· + ·) (shape32 f x f.opa f.moda) (shape32 f x f.opb f.modb) else none
  intResult f x sh (uniAB f x) fun L => intA f x L + intB f x L
/-- add (R141) -/
def execAdd (f : FmtA) (s : State) : Host.Outcome State Fault Refusal := run (.add f) (effAdd f) s

/-- sub -/
def effSub (f : FmtA) (x : Ctx) : Eff :=
  let sh := if algebra f then addShape (· - ·) (shape32 f x f.opa f.moda) (shape32 f x f.opb f.modb) else none
  intResult f x sh (uniAB f x) fun L => intA f x L - intB f x L
/-- sub (R141) -/
def execSub (f : FmtA) (s : State) : Host.Outcome State Fault Refusal := run (.sub f) (effSub f) s

/-- mul -/
def effMul (f : FmtA) (x : Ctx) : Eff :=
  let sh := if algebra f then onlyA (mulShape (shape32 f x f.opa f.moda) (shape32 f x f.opb f.modb)) else none
  intResult f x sh (uniAB f x) fun L => intA f x L * intB f x L
/-- mul (R141) -/
def execMul (f : FmtA) (s : State) : Host.Outcome State Fault Refusal := run (.mul f) (effMul f) s

/-- mulh -/
def effMulh (f : FmtA) (x : Ctx) : Eff := int2 f x fun a b => a * b / (2 ^ tyBits f.ty.toNat : Int)
/-- mulh (R141) -/
def execMulh (f : FmtA) (s : State) : Host.Outcome State Fault Refusal := run (.mulh f) (effMulh f) s

/-- mad: its product by the `mul` row, then the sum by the `add` row (R93) -/
def effMad (f : FmtA) (x : Ctx) : Eff :=
  let sh := if algebra f then
      addShape (· + ·) (mulShape (shape32 f x f.opa f.moda) (shape32 f x f.opb f.modb)) (shape32 f x f.opc f.modc) else none
  intResult f x sh (uniAB f x && x.srcU f.ty.toNat f.opc.toNat f.modc) fun L => intA f x L * intB f x L + intC f x L
/-- mad (R141) -/
def execMad (f : FmtA) (s : State) : Host.Outcome State Fault Refusal := run (.mad f) (effMad f) s

/-- madw: 32-bit sources, 64-bit sum -/
def effMadw (f : FmtA) (x : Ctx) : Eff :=
  intResult f x none (uni32 f x f.opa f.moda && uni32 f x f.opb f.modb && x.srcU f.ty.toNat f.opc.toNat f.modc) fun L =>
    int32 f x f.opa f.moda L * int32 f x f.opb f.modb L + intC f x L
/-- madw (R141) -/
def execMadw (f : FmtA) (s : State) : Host.Outcome State Fault Refusal := run (.madw f) (effMadw f) s

/-- min -/
def effMin (f : FmtA) (x : Ctx) : Eff := int2 f x fun a b => if a ≤ b then a else b
/-- min (R141) -/
def execMin (f : FmtA) (s : State) : Host.Outcome State Fault Refusal := run (.min f) (effMin f) s

/-- max -/
def effMax (f : FmtA) (x : Ctx) : Eff := int2 f x fun a b => if a ≤ b then b else a
/-- max (R141) -/
def execMax (f : FmtA) (s : State) : Host.Outcome State Fault Refusal := run (.max f) (effMax f) s

/-! ## Carry (R142) -/

/-- The carry in: a predicate of the lane, or the constant 0 or 1. -/
def carryIn (f : FmtA) (x : Ctx) (L : Nat) : Int :=
  if f.opc.toNat = 801 then 1 else if f.opc.toNat = 800 then 0 else if x.pred f.opc.toNat L then 1 else 0

/-- Sum or difference with carry, the carry out in predicate FUNC[3:0]. -/
def carryOp (f : FmtA) (x : Ctx) (op : Nat → Int) (out : Int → Bool) : Eff :=
  let uni := uniAB f x && decide (f.opc.toNat < 864)
  let r := x.resultInt f.ty.toNat f.dst.toNat f.dsub.toNat 0 none uni op
  .short x { r with p := [x.pwrite (864 + f.func.toNat % 16) fun L => out (op L)] }

/-- addc -/
def effAddc (f : FmtA) (x : Ctx) : Eff :=
  carryOp f x (fun L => intA f x L + intB f x L + carryIn f x L) fun v => decide ((2 ^ tyBits f.ty.toNat : Int) ≤ v)
/-- addc (R142) -/
def execAddc (f : FmtA) (s : State) : Host.Outcome State Fault Refusal := run (.addc f) (effAddc f) s

/-- subb -/
def effSubb (f : FmtA) (x : Ctx) : Eff := carryOp f x (fun L => intA f x L - intB f x L - carryIn f x L) fun v => decide (v < 0)
/-- subb (R142) -/
def execSubb (f : FmtA) (s : State) : Host.Outcome State Fault Refusal := run (.subb f) (effSubb f) s

/-! ## Bitwise (R143) -/

/-- A bitwise instruction on natural patterns. -/
def bitwise (f : FmtA) (x : Ctx) (op : Nat → Nat → Nat) : Eff :=
  intResult f x none (uniAB f x) fun L => (op (x.src f.ty.toNat f.opa.toNat f.moda L) (x.src f.ty.toNat f.opb.toNat f.modb L) : Nat)

/-- and -/
def effAnd (f : FmtA) (x : Ctx) : Eff := bitwise f x Nat.land
/-- and (R143) -/
def execAnd (f : FmtA) (s : State) : Host.Outcome State Fault Refusal := run (.and f) (effAnd f) s
/-- or -/
def effOr (f : FmtA) (x : Ctx) : Eff := bitwise f x Nat.lor
/-- or (R143) -/
def execOr (f : FmtA) (s : State) : Host.Outcome State Fault Refusal := run (.or f) (effOr f) s
/-- xor -/
def effXor (f : FmtA) (x : Ctx) : Eff := bitwise f x Nat.xor
/-- xor (R143) -/
def execXor (f : FmtA) (s : State) : Host.Outcome State Fault Refusal := run (.xor f) (effXor f) s
/-- andn: a AND NOT b -/
def effAndn (f : FmtA) (x : Ctx) : Eff := bitwise f x fun a b => Nat.xor a (Nat.land a b)
/-- andn (R143) -/
def execAndn (f : FmtA) (s : State) : Host.Outcome State Fault Refusal := run (.andn f) (effAndn f) s

/-! ## Shifts (R144) -/

/-- A shift of source A by an amount read as n32. -/
def shiftOp (f : FmtA) (x : Ctx) (sh : Option Shape) (uni : Bool) (op : Int → Nat → Int) : Eff :=
  intResult f x sh uni fun L => op (intA f x L) (ctl32 f x f.opb f.modb L)
/-- Source A and the amount are U. -/
def uniShift (f : FmtA) (x : Ctx) : Bool := uniA f x && uni32 f x f.opb f.modb

/-- shl: by an amount of 32 or more the result is tagged G (R93) -/
def effShl (f : FmtA) (x : Ctx) : Eff :=
  let w := tyBits f.ty.toNat
  let kS := x.srcShape (ty32 f.ty.toNat) f.opb.toNat f.modb
  let sh := if algebra f then
      (match shlShape (shape32 f x f.opa f.moda) kS with
       | .u _ => none
       | z => some z)
    else none
  shiftOp f x sh (uniShift f x) fun a k => if k < w then a * 2 ^ k else 0
/-- shl (R144) -/
def execShl (f : FmtA) (s : State) : Host.Outcome State Fault Refusal := run (.shl f) (effShl f) s

/-- shr -/
def effShr (f : FmtA) (x : Ctx) : Eff := shiftOp f x none (uniShift f x) fun a k => if k < tyBits f.ty.toNat then a / 2 ^ k else 0
/-- shr (R144) -/
def execShr (f : FmtA) (s : State) : Host.Outcome State Fault Refusal := run (.shr f) (effShr f) s

/-- sar -/
def effSar (f : FmtA) (x : Ctx) : Eff :=
  shiftOp f x none (uniShift f x) fun a k => if k < tyBits f.ty.toNat then a / 2 ^ k else if a < 0 then -1 else 0
/-- sar (R144) -/
def execSar (f : FmtA) (s : State) : Host.Outcome State Fault Refusal := run (.sar f) (effSar f) s

/-- A rotate left by k mod w. -/
def rotl (w a k : Nat) : Nat := a * 2 ^ (k % w) % 2 ^ w + a / 2 ^ (w - k % w)
/-- rot -/
def effRot (f : FmtA) (x : Ctx) : Eff :=
  shiftOp f x none (uniShift f x) fun a k => (rotl (tyBits f.ty.toNat) a.toNat k : Nat)
/-- rot (R144) -/
def execRot (f : FmtA) (s : State) : Host.Outcome State Fault Refusal := run (.rot f) (effRot f) s

/-! ## Fields (R145) and bits (R146) -/

/-- The field of len bits at pos of a w-bit pattern, bits beyond w the fill bit, extended by its own sign. -/
def fieldExtract (signed : Bool) (w a pos len : Nat) : Int :=
  if len = 0 then 0
  else
    let fill := signed && a / 2 ^ (w - 1) % 2 == 1
    let bit := fun i => if pos + i < w then a / 2 ^ (pos + i) % 2 == 1 else fill
    let v := (List.range len).foldl (fun n i => if bit i then n + 2 ^ i else n) 0
    readInt signed len v

/-- bfe -/
def effBfe (f : FmtA) (x : Ctx) : Eff :=
  let ty := f.ty.toNat
  intResult f x none (uniShift f x) fun L =>
    let c := ctl32 f x f.opb f.modb L
    fieldExtract (tySigned ty) (tyBits ty) (x.src ty f.opa.toNat f.moda L) (c % 256) (min (c / 256 % 256) (tyBits ty))
/-- bfe (R145) -/
def execBfe (f : FmtA) (s : State) : Host.Outcome State Fault Refusal := run (.bfe f) (effBfe f) s

/-- base with bits pos … pos + len − 1 below w replaced by the low bits of ins. -/
def fieldInsert (w ins base pos len : Nat) : Nat :=
  (List.range w).foldl (fun n i =>
    let b := if pos ≤ i && i < pos + len then ins / 2 ^ (i - pos) % 2 else base / 2 ^ i % 2
    n + b * 2 ^ i) 0

/-- bfi -/
def effBfi (f : FmtA) (x : Ctx) : Eff :=
  let ty := f.ty.toNat
  intResult f x none (uniAB f x && uni32 f x f.opc f.modc) fun L =>
    let c := ctl32 f x f.opc f.modc L
    (fieldInsert (tyBits ty) (x.src ty f.opa.toNat f.moda L) (x.src ty f.opb.toNat f.modb L) (c % 256) (min (c / 256 % 256) (tyBits ty)) : Nat)
/-- bfi (R145) -/
def execBfi (f : FmtA) (s : State) : Host.Outcome State Fault Refusal := run (.bfi f) (effBfi f) s

/-- A 32-bit count of source A into one v register. -/
def countOp (f : FmtA) (x : Ctx) (op : Nat → Nat) : Eff :=
  .short x (x.result32 f.dst.toNat 0 none (uniA f x) fun L _ => (BitVec.ofNat 32 (op (x.src f.ty.toNat f.opa.toNat f.moda L)), 0))

/-- popc -/
def effPopc (f : FmtA) (x : Ctx) : Eff :=
  countOp f x fun a => ((List.range (tyBits f.ty.toNat)).filter fun i => a.testBit i).length
/-- popc (R146) -/
def execPopc (f : FmtA) (s : State) : Host.Outcome State Fault Refusal := run (.popc f) (effPopc f) s
/-- clz -/
def effClz (f : FmtA) (x : Ctx) : Eff := countOp f x fun a => tyBits f.ty.toNat - bitLen a
/-- clz (R146) -/
def execClz (f : FmtA) (s : State) : Host.Outcome State Fault Refusal := run (.clz f) (effClz f) s
/-- ctz -/
def effCtz (f : FmtA) (x : Ctx) : Eff :=
  countOp f x fun a => ((List.range (tyBits f.ty.toNat)).find? fun i => a.testBit i).getD (tyBits f.ty.toNat)
/-- ctz (R146) -/
def execCtz (f : FmtA) (s : State) : Host.Outcome State Fault Refusal := run (.ctz f) (effCtz f) s

/-- The low w bits of a in reverse order. -/
def reverseBits (w a : Nat) : Nat := (List.range w).foldl (fun n i => if a.testBit i then n + 2 ^ (w - 1 - i) else n) 0
/-- brev -/
def effBrev (f : FmtA) (x : Ctx) : Eff :=
  intResult f x none (uniA f x) fun L => (reverseBits (tyBits f.ty.toNat) (x.src f.ty.toNat f.opa.toNat f.moda L) : Nat)
/-- brev (R146) -/
def execBrev (f : FmtA) (s : State) : Host.Outcome State Fault Refusal := run (.brev f) (effBrev f) s

/-! ## Compare (R147) -/

/-- A comparison's condition code on an order: −1, 0 or 1. -/
def condHolds (cond : Nat) (o : Int) : Bool :=
  match cond with
  | 0 => o == 0
  | 1 => o != 0
  | 2 => o == -1
  | 3 => o != 1
  | 4 => o == 1
  | _ => o != -1

/-- Combination with predicate C (R147). -/
def combine (f : FmtA) (x : Ctx) (c : Bool) (L : Nat) : Bool :=
  match f.func.toNat / 16 with
  | 1 => c && x.pred f.opc.toNat L
  | 2 => c || x.pred f.opc.toNat L
  | _ => c

/-- cmp -/
def effCmp (f : FmtA) (x : Ctx) : Eff :=
  .short x { RegResult.empty with
    p := [x.pwrite f.dst.toNat fun L =>
      let a := intA f x L
      let b := intB f x L
      combine f x (condHolds (f.func.toNat % 16) (if a < b then -1 else if a = b then 0 else 1)) L] }
/-- cmp (R147) -/
def execCmp (f : FmtA) (s : State) : Host.Outcome State Fault Refusal := run (.cmp f) (effCmp f) s

/-! ## Addresses (R148) -/

/-- lea: base + index · 2^sh, the index sign-extended, or zero-extended for `.zx` -/
def effLea (f : FmtA) (x : Ctx) : Eff :=
  let ty := f.ty.toNat
  let w := tyBits ty
  let idx := fun L => if ty = 4 && f.func == 0 then readInt true 32 (ctl32 f x f.opb f.modb L) else (ctl32 f x f.opb f.modb L : Int)
  let sh := if ty = 0 then
      addShape (· + ·) (shape32 f x f.opa f.moda) (shlShape (shape32 f x f.opb f.modb) (shape32 f x f.opc f.modc))
    else none
  let big := match shape32 f x f.opc f.modc with
    | .u n => decide (32 ≤ n.toNat)
    | _ => false
  let uni := uniA f x && uni32 f x f.opb f.modb && uni32 f x f.opc f.modc && !(ty == 0 && big)
  intResult f x sh uni fun L =>
    let k := ctl32 f x f.opc f.modc L
    x.src ty f.opa.toNat f.moda L + (if k < w then idx L * 2 ^ k else 0)
/-- lea (R148) -/
def execLea (f : FmtA) (s : State) : Host.Outcome State Fault Refusal := run (.lea f) (effLea f) s

/-! ## Packed dot products (R149) -/

/-- Σ of the products of n fields of w bits. -/
def dotSum (sa sb : Bool) (n w a b : Nat) : Int :=
  (List.range n).foldl (fun t i => t + readInt sa w (a / 2 ^ (w * i)) * readInt sb w (b / 2 ^ (w * i))) 0

/-- A packed dot product of n fields of w bits: with FUNC 1 the b elements have the other signedness. -/
def dotOp (f : FmtA) (x : Ctx) (n w : Nat) : Eff :=
  let ty := f.ty.toNat
  let sa := tySigned ty
  let sb := if f.func = 1 then !sa else sa
  intResult f x none (uniAB f x && x.srcU ty f.opc.toNat f.modc) fun L =>
    intC f x L + dotSum sa sb n w (x.src ty f.opa.toNat 0 L) (x.src ty f.opb.toNat 0 L)

/-- dp4 -/
def effDp4 (f : FmtA) (x : Ctx) : Eff := dotOp f x 4 8
/-- dp4 (R149) -/
def execDp4 (f : FmtA) (s : State) : Host.Outcome State Fault Refusal := run (.dp4 f) (effDp4 f) s
/-- dp2 -/
def effDp2 (f : FmtA) (x : Ctx) : Eff := dotOp f x 2 16
/-- dp2 (R149) -/
def execDp2 (f : FmtA) (s : State) : Host.Outcome State Fault Refusal := run (.dp2 f) (effDp2 f) s

/-! ## Saturating add and subtract (R150) -/

/-- A result always clamped to the destination's range. -/
def satResult (f : FmtA) (x : Ctx) (op : Int → Int → Int) : Eff :=
  .short x (x.resultInt f.ty.toNat f.dst.toNat f.dsub.toNat 5 none (uniAB f x) fun L => op (intA f x L) (intB f x L))

/-- sadd -/
def effSadd (f : FmtA) (x : Ctx) : Eff := satResult f x (· + ·)
/-- sadd (R150) -/
def execSadd (f : FmtA) (s : State) : Host.Outcome State Fault Refusal := run (.sadd f) (effSadd f) s
/-- ssub -/
def effSsub (f : FmtA) (x : Ctx) : Eff := satResult f x (· - ·)
/-- ssub (R150) -/
def execSsub (f : FmtA) (s : State) : Host.Outcome State Fault Refusal := run (.ssub f) (effSsub f) s

/-! ## Byte permute (R151) -/

/-- One byte of `prmt` from a control byte and the eight source bytes. -/
def permuteByte (ctl src : Nat) : Nat :=
  let b := src / 2 ^ (8 * (ctl % 8)) % 256
  let b := if ctl / 8 % 2 = 1 then reverseBits 8 b else b
  let b := if ctl / 16 % 2 = 1 then 255 - b else b
  if ctl / 32 % 2 = 1 then 0 else b

/-- Bytes 0 to 3 of the result of `prmt`. -/
def permute (a b sel : Nat) : Nat :=
  (List.range 4).foldl (fun n i => n + permuteByte (sel / 2 ^ (8 * i) % 256) (a + b * 2 ^ 32) * 2 ^ (8 * i)) 0

/-- prmt -/
def effPrmt (f : FmtA) (x : Ctx) : Eff :=
  intResult f x none (uniAB f x && x.srcU 0 f.opc.toNat 0) fun L =>
    (permute (x.src 0 f.opa.toNat 0 L) (x.src 0 f.opb.toNat 0 L) (x.src 0 f.opc.toNat 0 L) : Nat)
/-- prmt (R151) -/
def execPrmt (f : FmtA) (s : State) : Host.Outcome State Fault Refusal := run (.prmt f) (effPrmt f) s

end Sys2Proof.Machine
end

