-- ==== Sys2Proof/Machine/Float.lean ====
section
/-! DEFINITION. The float and conversion instructions (0x100 to 0x10D, R152 to R163). -/

namespace Sys2Proof.Machine

/-! ## Shared forms -/

/-- Source A, B or C as a float of TYPE in a lane. -/
def fltA (f : FmtA) (x : Ctx) (L : Nat) : FVal := x.srcF f.ty.toNat f.opa.toNat f.moda L
/-- Source B -/
def fltB (f : FmtA) (x : Ctx) (L : Nat) : FVal := x.srcF f.ty.toNat f.opb.toNat f.modb L
/-- Source C -/
def fltC (f : FmtA) (x : Ctx) (L : Nat) : FVal := x.srcF f.ty.toNat f.opc.toNat f.modc L
/-- RDN is the rounding mode: a cancelled sum is −0 (R120). -/
def isRdn (f : FmtA) : Bool := f.round == 2
/-- A short float result (R152). -/
def fltResult (f : FmtA) (x : Ctx) (uni : Bool) (op : Nat → FRes) : Eff :=
  .short x (x.resultF f.ty.toNat f.dst.toNat f.dsub.toNat f.round.toNat uni op)

/-! ## Addition, multiplication, multiply-add (R154) -/

/-- fadd -/
def effFadd (f : FmtA) (x : Ctx) : Eff := fltResult f x (uniAB f x) fun L => addVal (isRdn f) (fltA f x L) (fltB f x L)
/-- fadd (R154) -/
def execFadd (f : FmtA) (s : State) : Host.Outcome State Fault Refusal := run (.fadd f) (effFadd f) s
/-- fmul -/
def effFmul (f : FmtA) (x : Ctx) : Eff := fltResult f x (uniAB f x) fun L => mulVal (fltA f x L) (fltB f x L)
/-- fmul (R154) -/
def execFmul (f : FmtA) (s : State) : Host.Outcome State Fault Refusal := run (.fmul f) (effFmul f) s
/-- ffma -/
def effFfma (f : FmtA) (x : Ctx) : Eff :=
  fltResult f x (uniAB f x && x.srcU f.ty.toNat f.opc.toNat f.modc) fun L => fmaVal (isRdn f) (fltA f x L) (fltB f x L) (fltC f x L)
/-- ffma (R154) -/
def execFfma (f : FmtA) (s : State) : Host.Outcome State Fault Refusal := run (.ffma f) (effFfma f) s

/-! ## Minimum and maximum (R155) -/

/-- a is ordered below b, with −0 below +0. -/
def belowVal (a b : FVal) : Bool :=
  let c := cmpVal a b
  c == -1 || (c == 0 && a.neg && !b.neg)

/-- minimumNumber or maximumNumber: a NaN is missing, a signalling one also sets IV. The value and the IV. -/
def minMaxVal (isMax : Bool) (a b : FVal) : FVal × Bool :=
  let iv := a.isSnan || b.isSnan
  if a.isNan && b.isNan then (.nan false, iv)
  else if a.isNan then (b, iv)
  else if b.isNan then (a, iv)
  else (if belowVal b a == isMax then a else b, iv)

/-- A minimum or maximum written through R29, with its IV. -/
def minMaxOp (f : FmtA) (x : Ctx) (isMax : Bool) : Eff :=
  let ty := f.ty.toNat
  .short x (x.result32 f.dst.toNat f.dsub.toNat none (uniAB f x) fun L old =>
    let (v, iv) := minMaxVal isMax (fltA f x L) (fltB f x L)
    let (w, fl) := formF ty f.dsub.toNat f.round.toNat x.ftz old v.res
    (w, if iv then fl ||| flagIV else fl))

/-- fmin -/
def effFmin (f : FmtA) (x : Ctx) : Eff := minMaxOp f x false
/-- fmin (R155) -/
def execFmin (f : FmtA) (s : State) : Host.Outcome State Fault Refusal := run (.fmin f) (effFmin f) s
/-- fmax -/
def effFmax (f : FmtA) (x : Ctx) : Eff := minMaxOp f x true
/-- fmax (R155) -/
def execFmax (f : FmtA) (s : State) : Host.Outcome State Fault Refusal := run (.fmax f) (effFmax f) s

/-! ## Compare (R156) and classify (R157) -/

/-- A float condition and its IV. -/
def fcond (cond : Nat) (a b : FVal) : Bool × Bool :=
  let nan := a.isNan || b.isNan
  let snan := a.isSnan || b.isSnan
  let c := cmpVal a b
  match cond with
  | 0 => (!nan && c == 0, snan)
  | 1 => (nan || c != 0, snan)
  | 2 => (!nan && c == -1, nan)
  | 3 => (!nan && c != 1, nan)
  | 4 => (!nan && c == 1, nan)
  | 5 => (!nan && c != -1, nan)
  | 6 => (!nan, snan)
  | _ => (nan, snan)

/-- Lanes of a mask, not helpers, that satisfy a condition. -/
def Ctx.lanesWhere (x : Ctx) (p : Nat → Bool) : LaneMask := maskOf fun L => x.actNH.getLsbD L && p L

/-- fcmp -/
def effFcmp (f : FmtA) (x : Ctx) : Eff :=
  let c := fun L => fcond (f.func.toNat % 16) (fltA f x L) (fltB f x L)
  let iv := x.lanesWhere fun L => (c L).2
  .short x { RegResult.empty with
    p := [x.pwrite f.dst.toNat fun L => combine f x (c L).1 L]
    iv := iv
    flags := if iv = 0 then 0 else flagIV }
/-- fcmp (R156) -/
def execFcmp (f : FmtA) (s : State) : Host.Outcome State Fault Refusal := run (.fcmp f) (effFcmp f) s

/-- The one-hot class of an encoding (R157). -/
def classOf (fm : FFmt) (v : Nat) : Nat :=
  let (neg, e, m) := fm.fields v
  if e = fm.emax then (if m = 0 then (if neg then 0 else 7) else if m / 2 ^ (fm.p - 2) % 2 == 0 then 8 else 9)
  else if e = 0 then (if m = 0 then (if neg then 3 else 4) else (if neg then 2 else 5))
  else (if neg then 1 else 6)

/-- fclass -/
def effFclass (f : FmtA) (x : Ctx) : Eff :=
  .short x (x.result32 f.dst.toNat 0 none (uniA f x) fun L _ =>
    (BitVec.ofNat 32 (2 ^ classOf (tyFmt f.ty.toNat) (x.src f.ty.toNat f.opa.toNat f.moda L)), 0))
/-- fclass (R157) -/
def execFclass (f : FmtA) (s : State) : Host.Outcome State Fault Refusal := run (.fclass f) (effFclass f) s

/-! ## Rounding to an integral value (R158) -/

/-- A value rounded to an integral value of its sign. -/
def integralVal (mode : RMode) (v : FVal) : FRes :=
  match v with
  | .fin neg m e => .num neg (toGrid mode neg m e 0 false).1 0 false
  | w => w.res

/-- frnd: no flag but the IV of a signalling NaN -/
def effFrnd (f : FmtA) (x : Ctx) : Eff :=
  let ty := f.ty.toNat
  .short x (x.result32 f.dst.toNat f.dsub.toNat none (uniA f x) fun L old =>
    let v := fltA f x L
    let (w, _) := formF ty f.dsub.toNat 0 false old (integralVal (roundMode f.round.toNat).1 v)
    (w, if v.isSnan then flagIV else 0))
/-- frnd (R158) -/
def execFrnd (f : FmtA) (s : State) : Host.Outcome State Fault Refusal := run (.frnd f) (effFrnd f) s

/-! ## Two-term dot product (R159) -/

/-- The exact sum of three terms: IV of an invalid product, opposite infinities, or signalling NaNs. -/
def sum3 (rdn : Bool) (p q : FRes) (c : FVal) : FRes :=
  let bad := fun r : FRes => match r with
    | .nan iv => some iv
    | _ => none
  match bad p, bad q, bad c.res with
  | none, none, none =>
    match p, q, c with
    | .inf a, .inf b, .inf d => if a = b && b = d then .inf a else .nan true
    | .inf a, .inf b, _ => if a = b then .inf a else .nan true
    | .inf a, _, .inf d => if a = d then .inf a else .nan true
    | _, .inf b, .inf d => if b = d then .inf b else .nan true
    | .inf a, _, _ => .inf a
    | _, .inf b, _ => .inf b
    | _, _, .inf d => .inf d
    | .num n1 m1 e1 _, .num n2 m2 e2 _, .fin n3 m3 e3 =>
      let allNeg := n1 && n2 && n3
      let allPos := !n1 && !n2 && !n3
      if m1 = 0 && m2 = 0 && m3 = 0 then .num (if allNeg then true else if allPos then false else rdn) 0 0 false
      else (addVal rdn (addFin rdn n1 m1 e1 n2 m2 e2).val (.fin n3 m3 e3))
    | _, _, _ => .nan false
  | a, b, d =>
    let opp := match p, q, c with
      | .inf a, .inf b, _ => a != b
      | .inf a, _, .inf d => a != d
      | _, .inf b, .inf d => b != d
      | _, _, _ => false
    .nan (a == some true || b == some true || d == some true || opp)

/-- A 16-bit half of a source with SIGN applied. -/
def halfF (x : Ctx) (src : Nat) (m : BitVec 7) (v half : Nat) : FVal :=
  (tyFmt src).read x.ftz (applySign src (modSign m) (v / 2 ^ (16 * half) % 2 ^ 16))

/-- fdot2: a.h0·b.h0 + a.h1·b.h1 + c, summed exactly and rounded once -/
def effFdot2 (f : FmtA) (x : Ctx) : Eff :=
  let src := f.func.toNat % 16
  fltResult f x (uniAB f x && x.srcU 3 f.opc.toNat f.modc) fun L =>
    let a := x.raw32 0 f.opa.toNat L
    let b := x.raw32 0 f.opb.toNat L
    sum3 (isRdn f) (mulVal (halfF x src f.moda a 0) (halfF x src f.modb b 0)) (mulVal (halfF x src f.moda a 1) (halfF x src f.modb b 1))
      (fltC f x L)
/-- fdot2 (R159) -/
def execFdot2 (f : FmtA) (s : State) : Host.Outcome State Fault Refusal := run (.fdot2 f) (effFdot2 f) s

/-! ## Scaling and exponents (R160) -/

/-- A value times 2^k. -/
def scaleVal (v : FVal) (k : Int) : FRes :=
  match v with
  | .fin n m e => .num n m (if m = 0 then 0 else e + k) false
  | w => w.res

/-- Exponents far beyond every format's range round as this bound does. -/
def clampExp (k : Int) : Int := max (-1000) (min 1000 k)

/-- fscale -/
def effFscale (f : FmtA) (x : Ctx) : Eff :=
  fltResult f x (uniA f x && x.srcU 1 f.opb.toNat f.modb) fun L => scaleVal (fltA f x L) (clampExp (x.srcInt 1 f.opb.toNat f.modb L))
/-- fscale (R160) -/
def execFscale (f : FmtA) (s : State) : Host.Outcome State Fault Refusal := run (.fscale f) (effFscale f) s

/-- floor(log2 |v|) of a finite nonzero value, and the special words of FUNC 0. -/
def exponentOf (v : FVal) : Int × Flags :=
  match v with
  | .nan _ => (0, flagIV)
  | .inf _ => (0x7FFFFFFF, 0)
  | .fin _ m e => if m = 0 then (0x80000000, 0) else (e + bitLen m - 1, 0)

/-- The significand form: magnitude in [1, 2), sign kept. -/
def significandOf (v : FVal) : FRes :=
  match v with
  | .fin n m _ => .num n m (if m = 0 then 0 else 1 - (bitLen m : Int)) false
  | w => w.res

/-- fexp: flush to zero does not apply -/
def effFexp (f : FmtA) (x : Ctx) : Eff :=
  let ty := f.ty.toNat
  let v := fun L => (tyFmt ty).read false (x.src ty f.opa.toNat f.moda L)
  .short x (x.result32 f.dst.toNat 0 none (uniA f x) fun L _ =>
    if f.func = 0 then (BitVec.ofInt 32 (exponentOf (v L)).1, (exponentOf (v L)).2)
    else (BitVec.ofNat 32 (roundTo (tyFmt ty) 0 false (significandOf (v L))).1, if (v L).isSnan then flagIV else 0))
/-- fexp (R160) -/
def execFexp (f : FmtA) (s : State) : Host.Outcome State Fault Refusal := run (.fexp f) (effFexp f) s

/-! ## Conversions (R161, R162) -/

/-- The rounding code of a conversion to an integer: 5, 6 and 7 act as 0, 4 and 1. -/
def intRound (r : Nat) : Nat :=
  match r with
  | 5 => 0
  | 6 => 4
  | 7 => 1
  | n => n

/-- An exact result written to an integer destination, clamped to the narrower of field and type (R124, R29). -/
def formToInt (ty dsub round : Nat) (old : Word) (r : FRes) : Word × Flags :=
  let (lo, w) := subField dsub
  let (v, fl) := toIntField (intRound round) (tySigned ty) (min (tyBits ty) w) r
  (putField old lo w (wrapInt w v), fl)

/-- cvt: FUNC[3:0] is the source TYPE, TYPE the destination's -/
def effCvt (f : FmtA) (x : Ctx) : Eff :=
  let ty := f.ty.toNat
  let src := f.func.toNat % 16
  let uni := x.srcU src f.opa.toNat f.moda
  let val := fun L : Nat =>
    if tyFloat src then (x.srcF src f.opa.toNat f.moda L).res else (FVal.ofInt (x.srcInt src f.opa.toNat f.moda L)).res
  if tyFloat ty then fltResult f x uni val
  else if tyWide ty then
    .short x (x.result64 f.dst.toNat uni fun L =>
      let (v, fl) := toIntField (intRound f.round.toNat) (tySigned ty) 64 (val L)
      (BitVec.ofInt 64 v, fl))
  else .short x (x.result32 f.dst.toNat f.dsub.toNat none uni fun L old => formToInt ty f.dsub.toNat f.round.toNat old (val L))
/-- cvt (R161) -/
def execCvt (f : FmtA) (s : State) : Host.Outcome State Fault Refusal := run (.cvt f) (effCvt f) s

/-- The word `cvtp` writes: both halves of a 16-bit format, or bytes 2j and 2j + 1 with the others kept. -/
def packWord (ty j round : Nat) (ftz : Bool) (old : Word) (a b : FRes) : Word × Flags :=
  if tyFloat ty then
    let (u, fu) := roundTo (tyFmt ty) round ftz a
    let (v, fv) := roundTo (tyFmt ty) round ftz b
    (BitVec.ofNat 32 (u + v * 2 ^ 16), fu ||| fv)
  else
    let (u, fu) := toIntField (intRound round) (tySigned ty) 8 a
    let (v, fv) := toIntField (intRound round) (tySigned ty) 8 b
    (putField (putField old (16 * j) 8 (wrapInt 8 u)) (16 * j + 8) 8 (wrapInt 8 v), fu ||| fv)

/-- cvtp: a and b are read as f32 whatever TYPE -/
def effCvtp (f : FmtA) (x : Ctx) : Eff :=
  let ty := f.ty.toNat
  let a := fun L => x.srcF 3 f.opa.toNat f.moda L
  let b := fun L => x.srcF 3 f.opb.toNat f.modb L
  let uni := x.srcU 3 f.opa.toNat f.moda && x.srcU 3 f.opb.toNat f.modb && (x.srcShape 0 f.dst.toNat 0).isU
  .short x (x.result32 f.dst.toNat 0 none uni fun L old => packWord ty (f.func.toNat % 2) f.round.toNat x.ftz old (a L).res (b L).res)
/-- cvtp (R162) -/
def execCvtp (f : FmtA) (s : State) : Host.Outcome State Fault Refusal := run (.cvtp f) (effCvtp f) s

/-! ## Quantise (R163) -/

/-- The quantised integer: one rounding of a · 2^k, plus z, clamped to the range. -/
def quantise (round : Nat) (signed : Bool) (n : Nat) (v : FVal) (k z : Int) : Int × Flags :=
  let (lo, hi) := intRange signed n
  match v with
  | .nan _ => (0, flagIV)
  | .inf neg => (if neg then lo else hi, flagSAT)
  | .fin neg m e => clampInt lo hi (roundInt (roundMode round).1 neg m (if m = 0 then 0 else e + clampExp k) false + z)

/-- quant -/
def effQuant (f : FmtA) (x : Ctx) : Eff :=
  let ty := f.ty.toNat
  let src := f.func.toNat % 16
  let (lo, w) := subField f.dsub.toNat
  let uni := x.srcU src f.opa.toNat f.moda && x.srcU 1 f.opb.toNat f.modb && x.srcU 1 f.opc.toNat f.modc
  .short x (x.result32 f.dst.toNat f.dsub.toNat none uni fun L old =>
    let (v, fl) := quantise f.round.toNat (tySigned ty) (min (tyBits ty) w) (x.srcF src f.opa.toNat f.moda L)
      (x.srcInt 1 f.opb.toNat f.modb L) (x.srcInt 1 f.opc.toNat f.modc L)
    (putField old lo w (wrapInt w v), fl))
/-- quant (R163) -/
def execQuant (f : FmtA) (s : State) : Host.Outcome State Fault Refusal := run (.quant f) (effQuant f) s

end Sys2Proof.Machine
end

