-- ==== Sys2Proof/Machine/Sfu.lean ====
section
/-! DEFINITION. The special functions (0x10E to 0x115, R164, R165), each rounded once from the exact value. The irrational ones are
computed in fixed point with far more bits than one rounding to f32 can need (log entry 5). -/

namespace Sys2Proof.Machine

/-- Fraction bits of the fixed-point evaluations. -/
def sfuP : Nat := 320

/-- Fixed-point product. -/
def fxMul (a b : Nat) : Nat := a * b / 2 ^ sfuP

/-- Σ z^(2k+1) / (2k+1) over n terms from k, given the power z^(2k+1): the series of atanh. -/
def atanhFrom (z2 pow k : Nat) : Nat → Nat
  | 0 => 0
  | n + 1 => pow / (2 * k + 1) + atanhFrom z2 (fxMul pow z2) (k + 1) n

/-- atanh of a fixed-point z ≤ 1/3. -/
def fxAtanh (z : Nat) : Nat := atanhFrom (fxMul z z) z 0 110

/-- Σ (−1)^k z^(2k+1) / (2k+1): the series of atan, with the sign of its next term. -/
def atanFrom (z2 pow : Nat) (k : Nat) (plus : Bool) : Nat → Int
  | 0 => 0
  | n + 1 =>
    let x : Int := (pow / (2 * k + 1) : Nat)
    (if plus then x else -x) + atanFrom z2 (fxMul pow z2) (k + 1) (!plus) n

/-- atan of a fixed-point z ≤ 1/5. -/
def fxAtan (z : Nat) : Int := atanFrom (fxMul z z) z 0 true 80

/-- ln 2 = 2 atanh(1/3). -/
def fxLn2 : Nat := 2 * fxAtanh (2 ^ sfuP / 3)
/-- π = 16 atan(1/5) − 4 atan(1/239). -/
def fxPi : Nat := (16 * fxAtan (2 ^ sfuP / 5) - 4 * fxAtan (2 ^ sfuP / 239)).toNat

/-- Σ t^n / n! over the terms from n, given the term t^(n−1)/(n−1)!. -/
def expFrom (t term n : Nat) : Nat → Nat
  | 0 => 0
  | k + 1 => fxMul term t / n + expFrom t (fxMul term t / n) (n + 1) k

/-- e^t of a fixed-point t < 1. -/
def fxExp (t : Nat) : Nat := 2 ^ sfuP + expFrom t (2 ^ sfuP) 1 80

/-- Σ (−1)^k t^(2k) / (2k+1)!: sin t / t, from the term of k − 1. -/
def sincFrom (t2 term k : Nat) (plus : Bool) : Nat → Int
  | 0 => 0
  | n + 1 =>
    let x := fxMul term t2 / ((2 * k) * (2 * k + 1))
    (if plus then (x : Int) else -(x : Int)) + sincFrom t2 x (k + 1) (!plus) n

/-- sin t / t of a fixed-point t ≤ π/2. -/
def fxSinc (t : Nat) : Nat := (2 ^ sfuP + sincFrom (fxMul t t) (2 ^ sfuP) 1 false 45).toNat

/-- An enclosed fixed-point value: its low 32 bits carry the error and are dropped. -/
def fxRes (neg : Bool) (v : Nat) (e : Int) : FRes := .num neg (v / 2 ^ 32) (e + 32 - sfuP) true

/-- The bits of an integer square root, from bit b down. -/
def isqrtFrom (n r : Nat) : Nat → Nat
  | 0 => r
  | b + 1 => isqrtFrom n (if (r + 2 ^ b) * (r + 2 ^ b) ≤ n then r + 2 ^ b else r) b

/-- The integer square root of n < 2^256. -/
def isqrt (n : Nat) : Nat := isqrtFrom n 0 128

/-- m · 2^e with an even exponent. -/
def evenExp (m : Nat) (e : Int) : Nat × Int := if e % 2 = 0 then (m, e) else (2 * m, e - 1)

/-- Square root (R164, R165). -/
def sqrtVal (v : FVal) : FRes :=
  match v with
  | .nan s => .nan s
  | .inf neg => if neg then .nan true else .inf false
  | .fin neg m e =>
    if m = 0 then .num neg 0 0 false
    else if neg then .nan true
    else
      let (m, e) := evenExp m e
      let r := isqrt (m * 2 ^ 80)
      .num false r (e / 2 - 40) (r * r != m * 2 ^ 80)

/-- Reciprocal square root. -/
def rsqVal (v : FVal) : FRes :=
  match v with
  | .nan s => .nan s
  | .inf neg => if neg then .nan true else .num false 0 0 false
  | .fin neg m e =>
    if m = 0 then .inf neg
    else if neg then .nan true
    else
      let (m, e) := evenExp m e
      let r := isqrt (2 ^ 200 / m)
      .num false r (-(e / 2) - 100) (r * r * m != 2 ^ 200)

/-- log2 of 2^e · m / 2^k, with m / 2^k in [3/4, 3/2). -/
def lg2Near (m k : Nat) (e : Int) : FRes :=
  let one := 2 ^ k
  let below := decide (m < one)
  let z := (if below then one - m else m - one) * 2 ^ sfuP / (m + one)
  let y := 2 * fxAtanh z * 2 ^ sfuP / fxLn2
  let sum : Int := e * 2 ^ sfuP + (if below then -(y : Int) else y)
  if m = one then .num (decide (e < 0)) e.natAbs 0 false
  else fxRes (decide (sum < 0)) sum.natAbs 0

/-- log2. -/
def lg2Val (v : FVal) : FRes :=
  match v with
  | .nan s => .nan s
  | .inf neg => if neg then .nan true else .inf false
  | .fin neg m e =>
    if m = 0 then .inf true
    else if neg then .nan true
    else
      let k := Nat.log2 m
      if 2 * m ≥ 3 * 2 ^ k then lg2Near m (k + 1) (e + k + 1) else lg2Near m k (e + k)

/-- 2^a for a = n + f, 0 ≤ f < 1, f in units of 2^−256. -/
def ex2Parts (n : Int) (f : Nat) : FRes :=
  if f = 0 then .num false 1 n false else fxRes false (fxExp (f * fxLn2 / 2 ^ 256)) n

/-- 2^a. Beyond the range of f32 a stand-in beyond it rounds to the same result. -/
def ex2Val (v : FVal) : FRes :=
  match v with
  | .nan s => .nan s
  | .inf neg => if neg then .num false 0 0 false else .inf false
  | .fin neg m e =>
    if decide (8 < e + bitLen m) then (if neg then .num false 1 (-300) true else .num false 1 300 false)
    else
      let x : Int := (m * 2 ^ (e + 256).toNat : Nat)
      let x := if neg then -x else x
      ex2Parts (x / 2 ^ 256) (x % 2 ^ 256).toNat

/-- sin(π q) for q = m · 2^(−k), 0 ≤ q ≤ 1/2. -/
def sinPi (neg zeroNeg : Bool) (m k : Nat) : FRes :=
  if m = 0 then .num zeroNeg 0 0 false
  else if 2 * m = 2 ^ k then .num neg 1 0 false
  else fxRes neg (fxMul (m * fxPi) (fxSinc (m * fxPi / 2 ^ k))) (-(k : Int))

/-- m · 2^e as a number of units of 2^−k. -/
def unitsOf (m : Nat) (e : Int) : Nat × Nat := if 0 ≤ e then (m * 2 ^ e.toNat, 0) else (m, (-e).toNat)

/-- sin(πa): a zero has the sign of a. -/
def sinpVal (v : FVal) : FRes :=
  match v with
  | .nan s => .nan s
  | .inf _ => .nan true
  | .fin neg m e =>
    let (u, k) := unitsOf m e
    let r := u % 2 ^ (k + 1)
    let q := r % 2 ^ k
    sinPi (neg != decide (2 ^ k ≤ r)) neg (if 2 ^ k < 2 * q then 2 ^ k - q else q) k

/-- cos(πa), as the sine of the distance to the nearest half: a zero is +0. -/
def cospVal (v : FVal) : FRes :=
  match v with
  | .nan s => .nan s
  | .inf _ => .nan true
  | .fin _ m e =>
    let (u, k) := unitsOf (2 * m) (e - 1)
    let k := if k = 0 then 1 else k
    let u := if e - 1 < 0 then u else 2 * u
    let r := u % 2 ^ (k + 1)
    let q := if 2 ^ k < r then 2 ^ (k + 1) - r else r
    let half := 2 ^ (k - 1)
    if q ≤ half then sinPi false false (half - q) k else sinPi true false (q - half) k

/-- tanh a = (E − 1) / (E + 1) with E = e^(2a): e^(2a/64) squared six times. Below 2^−13 the result lies just below a, above 16 just below
1, nearer than one rounding tells apart. -/
def tanhVal (v : FVal) : FRes :=
  match v with
  | .nan s => .nan s
  | .inf neg => .num neg 1 0 false
  | .fin neg m e =>
    let top := e + bitLen m
    if m = 0 then .num neg 0 0 false
    else if top < -12 then .num neg (m * 2 ^ 64 - 1) (e - 64) true
    else if 5 ≤ top then .num neg (2 ^ 64 - 1) (-64) true
    else
      let t := m * 2 ^ (e + sfuP - 5).toNat
      let sq := fun a : Nat => fxMul a a
      let x := sq (sq (sq (sq (sq (sq (fxExp t))))))
      fxRes neg ((x - 2 ^ sfuP) * 2 ^ sfuP / (x + 2 ^ sfuP)) 0

/-- Reciprocal. -/
def rcpVal (v : FVal) : FRes := divVal (.fin false 1 0) v

/-- A special function's result: long, one rounding RNE (R164). -/
def sfu (f : FmtA) (g : FVal → FRes) (x : Ctx) : Eff :=
  .long x (x.resultF 3 f.dst.toNat 0 0 (uniA f x) fun L => g (fltA f x L))

/-- rcp -/
def effRcp (f : FmtA) (x : Ctx) : Eff := sfu f rcpVal x
/-- rcp (R164) -/
def execRcp (f : FmtA) (s : State) : Host.Outcome State Fault Refusal := run (.rcp f) (effRcp f) s
/-- rsq -/
def effRsq (f : FmtA) (x : Ctx) : Eff := sfu f rsqVal x
/-- rsq (R164) -/
def execRsq (f : FmtA) (s : State) : Host.Outcome State Fault Refusal := run (.rsq f) (effRsq f) s
/-- sqrt -/
def effSqrt (f : FmtA) (x : Ctx) : Eff := sfu f sqrtVal x
/-- sqrt (R164) -/
def execSqrt (f : FmtA) (s : State) : Host.Outcome State Fault Refusal := run (.sqrt f) (effSqrt f) s
/-- lg2 -/
def effLg2 (f : FmtA) (x : Ctx) : Eff := sfu f lg2Val x
/-- lg2 (R164) -/
def execLg2 (f : FmtA) (s : State) : Host.Outcome State Fault Refusal := run (.lg2 f) (effLg2 f) s
/-- ex2 -/
def effEx2 (f : FmtA) (x : Ctx) : Eff := sfu f ex2Val x
/-- ex2 (R164) -/
def execEx2 (f : FmtA) (s : State) : Host.Outcome State Fault Refusal := run (.ex2 f) (effEx2 f) s
/-- sinp -/
def effSinp (f : FmtA) (x : Ctx) : Eff := sfu f sinpVal x
/-- sinp (R164) -/
def execSinp (f : FmtA) (s : State) : Host.Outcome State Fault Refusal := run (.sinp f) (effSinp f) s
/-- cosp -/
def effCosp (f : FmtA) (x : Ctx) : Eff := sfu f cospVal x
/-- cosp (R164) -/
def execCosp (f : FmtA) (s : State) : Host.Outcome State Fault Refusal := run (.cosp f) (effCosp f) s
/-- tanh -/
def effTanh (f : FmtA) (x : Ctx) : Eff := sfu f tanhVal x
/-- tanh (R164) -/
def execTanh (f : FmtA) (s : State) : Host.Outcome State Fault Refusal := run (.tanh f) (effTanh f) s

end Sys2Proof.Machine
end

