-- ==== Sys2Proof/Machine/Register.lean ====
section
/-! DEFINITION. The register instructions (0x040 to 0x048 and 0x04B to 0x04D, R102 to R114). -/

namespace Sys2Proof.Machine

/-! ## Copies -/

/-- The write of a copy (R103): a U source gives U, an A source A where its lanes are the values written (log entry 6), anything else G. -/
def Ctx.copyWrite (x : Ctx) (dst dsub : Nat) (vals : List Word) (sh : Shape) : VWrite :=
  match sh with
  | .a base stride =>
    x.vwrite dst dsub vals (if dsub = 0 && affineFits x.act vals sh then some (.a base stride) else some shapeG) false
  | .u _ => x.vwrite dst dsub vals none true
  | .g _ => x.vwrite dst dsub vals none false

/-- Both shapes of a 64-bit source, one tag for both: U, A or G (R92); with a SIGN only U passes (R93). -/
def Ctx.pairShape (x : Ctx) (ty code : Nat) (m : BitVec 7) : Shape × Shape :=
  let lo := x.srcShape ty code m
  let hi := if code < 640 then x.srcShape ty (code + 1) m else if code = 888 then .u 0 else lo
  if lo.isU && hi.isU then (lo, hi)
  else
    match affineOf lo, affineOf hi with
    | some (a, s), some (b, t) => if m = 0 then (.a a s, .a b t) else (shapeG, shapeG)
    | _, _ => (shapeG, shapeG)

/-- A copy into a v register: the source of each lane is the operand code and modifier `pick` gives, under TYPE (R103, R105). -/
def Ctx.copyTo (x : Ctx) (f : FmtA) (sh : Shape × Shape) (pick : Nat → Nat × BitVec 7) : RegResult :=
  let ty := f.ty.toNat
  let dst := f.dst.toNat
  if tyWide ty then
    let v := fun L => formInt64 ty f.round.toNat (x.srcInt ty (pick L).1 (pick L).2 L)
    let (lo, fl, _) := gatherFlags x.act x.b.helper fun L => ((v L).1.setWidth 32, (v L).2)
    let hi := (gatherLanes x.act fun L => ((v L).1.extractLsb' 32 32, 0)).1
    { RegResult.empty with v := [x.copyWrite dst 0 lo sh.1, x.copyWrite (dst + 1) 0 hi sh.2], flags := fl }
  else
    let (vals, fl, iv) := gatherFlags x.act x.b.helper fun L =>
      if tyFloat ty then formF ty f.dsub.toNat f.round.toNat x.ftz (x.oldLane dst L) (x.srcF ty (pick L).1 (pick L).2 L).res
      else formInt ty f.dsub.toNat f.round.toNat (x.oldLane dst L) (x.srcInt ty (pick L).1 (pick L).2 L)
    { RegResult.empty with v := [x.copyWrite dst f.dsub.toNat vals sh.1], flags := fl, iv := iv }

/-- The tags of a source that a copy passes on. -/
def Ctx.copyShape (x : Ctx) (ty code : Nat) (m : BitVec 7) : Shape × Shape :=
  if tyWide ty then x.pairShape ty code m else (x.srcShape ty code m, shapeG)

/-- A destination that is an s or k register, written once per bundle when the guard holds in a lane that is no helper (R23, R322). -/
def Ctx.once (x : Ctx) (dst : Nat) (v : DWord) : Eff :=
  if x.actNH = 0 then .short x RegResult.empty else .short x { RegResult.empty with s := [(dst - 640, v)] }

/-- mov -/
def effMov (f : FmtA) (x : Ctx) : Eff :=
  let ty := f.ty.toNat
  if f.dst.toNat < 640 then .short x (x.copyTo f (x.copyShape ty f.opa.toNat f.moda) fun _ => (f.opa.toNat, f.moda))
  else x.once f.dst.toNat (BitVec.ofNat 64 (x.src ty f.opa.toNat f.moda (lowLane x.actNH)))
/-- mov (R103) -/
def execMov (f : FmtA) (s : State) : Host.Outcome State Fault Refusal := run (.mov f) (effMov f) s

/-- IMM at 64 bits (R32) and as an s register takes it (R104). -/
def immWide (signed : Bool) (imm : Word) : DWord := if signed then imm.signExtend 64 else imm.setWidth 64

/-- movi -/
def effMovi (f : FmtI) (x : Ctx) : Eff :=
  let ty := f.ty.toNat
  let dst := f.dst.toNat
  let hi := f.func == 1
  if dst < 640 then
    if hi then .short x (x.result32 (dst + 1) 0 none true fun _ _ => (f.imm, 0))
    else if tyWide ty then .short x (x.result64 dst true fun _ => (immWide (ty != 6) f.imm, 0))
    else .short x (x.result32 dst 0 none true fun _ _ => (f.imm, 0))
  else
    let old : DWord := x.b.readLane x.s.step dst (lowLane x.actNH)
    if hi then x.once dst (f.imm ++ old.setWidth 32) else x.once dst (immWide (ty == 1 || ty == 4 || ty == 5) f.imm)
/-- movi (R104) -/
def execMovi (f : FmtI) (s : State) : Host.Outcome State Fault Refusal := run (.movi f) (effMovi f) s

/-- The tags of a `sel`: of the source chosen in every written lane; else U for two equal U sources; else G (R105). -/
def Ctx.selShape (x : Ctx) (f : FmtA) (p : LaneMask) : Shape × Shape :=
  let ty := f.ty.toNat
  let a := x.copyShape ty f.opa.toNat f.moda
  if x.act &&& ~~~p = 0 then a
  else if x.act &&& p = 0 then x.copyShape ty f.opb.toNat f.modb
  else if x.srcU ty f.opa.toNat f.moda && x.srcU ty f.opb.toNat f.modb && x.src ty f.opa.toNat f.moda 0 == x.src ty f.opb.toNat f.modb 0 then a
  else (shapeG, shapeG)

/-- sel: only the source a lane chooses is read there -/
def effSel (f : FmtA) (x : Ctx) : Eff :=
  let p := maskOf fun L => x.pred f.opc.toNat L
  .short x (x.copyTo f (x.selShape f p) fun L => if p.getLsbD L then (f.opa.toNat, f.moda) else (f.opb.toNat, f.modb))
/-- sel (R105) -/
def execSel (f : FmtA) (s : State) : Host.Outcome State Fault Refusal := run (.sel f) (effSel f) s

/-! ## Special registers (R88, R106) -/

/-- FLAGS as a read may see it: each pending instruction's flags may be missing or present (R60). -/
def Ctx.flagsNow (x : Ctx) : Flags :=
  x.b.pend.foldl (fun f p => match p.result with
    | some r => if Config.freeBit x.s.step 6 p.id then f ||| r.flags else f
    | none => f) x.b.flags

/-- A special register that is U: its 64-bit value, for a code and FUNC[7:5]. -/
def Ctx.special (x : Ctx) (code word : Nat) : DWord :=
  let w0 := fun n : Nat => if word = 0 then BitVec.ofNat 64 n else 0
  let t := fun g : TrapSt → DWord => match x.b.trap with
    | some t => g t
    | none => 0
  match code with
  | 0 => BitVec.ofNat 64 W
  | 3 => BitVec.ofNat 64 x.b.index
  | 4 => BitVec.ofNat 64 x.c.x
  | 5 => BitVec.ofNat 64 x.c.y
  | 6 => BitVec.ofNat 64 x.c.z
  | 7 => BitVec.ofNat 64 x.c.castId
  | 8 => BitVec.ofNat 64 x.c.gangIdx
  | 9 => BitVec.ofNat 64 x.c.gangW
  | 10 => BitVec.ofNat 64 x.c.gangH
  | 11 => BitVec.ofNat 64 x.c.core
  | 12 => BitVec.ofNat 64 x.s.coreClock
  | 13 => x.flagsNow.setWidth 64
  | 14 => w0 x.b.fmask.toNat
  | 15 => w0 x.b.helper.toNat
  | 17 => x.b.material.setWidth 64
  | 19 => if x.inTrap then BitVec.ofNat 64 x.b.repCount else 0
  | 20 => if x.inTrap then BitVec.ofNat 64 x.b.cstDone else 0
  | 21 => x.b.hintDrop.setWidth 64
  | 22 => t fun t => BitVec.ofNat 64 t.cause
  | 23 => t fun t => t.pc
  | 24 => t fun t => w0 t.mask.toNat
  | 25 => t fun t => t.info.extractLsb' (64 * word) 64
  | _ => 0

/-- A special register that is not U: its shape. -/
def Ctx.specialShape (x : Ctx) (code : Nat) : Shape :=
  match code with
  | 1 => .a 0 1
  | 2 => if x.b.drawn then .g (lanesOf fun L => BitVec.ofNat 32 (x.b.strands.getD L 0)) else .a (BitVec.ofNat 32 (W * x.b.index)) 1
  | 16 => .g x.b.pixel
  | _ => .g x.b.hitid

/-- sreg: under b32 the low 32 bits of the register, under b64 the register zero-extended (log entry 16). -/
def effSreg (f : FmtA) (x : Ctx) : Eff :=
  let code := f.func.toNat % 32
  let word := f.func.toNat / 32
  let dst := f.dst.toNat
  let wide := tyWide f.ty.toNat
  let low := (x.special code word).setWidth 32
  if 640 ≤ dst then x.once dst (if wide then x.special code word else low.setWidth 64)
  else if sregU code then
    if wide then .short x (x.result64 dst true fun _ => (x.special code word, 0))
    else .short x (x.result32 dst 0 none true fun _ _ => (low, 0))
  else
    let sh := x.specialShape code
    let w := x.vwrite dst 0 (lanesOf sh.lane) (some sh) false
    .short x { RegResult.empty with v := if wide then [w, x.vwrite (dst + 1) 0 (lanesOf fun _ => 0) none true] else [w] }
/-- sreg (R106) -/
def execSreg (f : FmtA) (s : State) : Host.Outcome State Fault Refusal := run (.sreg f) (effSreg f) s

/-! ## Scalars from lanes (R107) -/

/-- sset -/
def effSset (f : FmtA) (x : Ctx) : Eff :=
  let L := lowLane x.actNH
  let dst := f.dst.toNat
  let v : DWord :=
    if f.ty = 4 then BitVec.ofNat 64 (x.raw64 4 f.opa.toNat L)
    else immWide (f.ty == 1) (BitVec.ofNat 32 (x.raw32 0 f.opa.toNat L))
  if x.actNH = 0 then .short x RegResult.empty
  else if 768 ≤ dst ∧ dst < 800 then
    .short { x with
      c := x.c.writeConst (dst - 768) v x.b.index x.s.coreClock
      b := x.b.wroteConst (dst - 768) v (x.c.constPlace (dst - 768) x.b.index x.s.coreClock) } RegResult.empty
  else x.once dst v
/-- sset (R107) -/
def execSset (f : FmtA) (s : State) : Host.Outcome State Fault Refusal := run (.sset f) (effSset f) s

/-! ## Tags (R108, R109) -/

/-- The tag codes a pending write would leave in a name (R108). -/
def Pending.tagAfter (p : Pending) (b : Bundle) (n : Nat) : Option Nat :=
  if p.written || !p.names.contains n then none
  else
    match p.result, p.gather with
    | some r, _ => (r.v.find? fun w => w.name == n && w.mask != 0).map fun w => ((b.vreg n).shape.written w).code
    | none, some g => (match g.also.v.find? fun w => w.name == n && w.mask != 0 with
      | some w => some ((b.vreg n).shape.written w).code
      | none => some (if g.full && g.uniform then 0 else 2))
    | none, none => none

/-- The tags of a name at this moment, those of a pending write among the choices. -/
def Ctx.tagsOf (x : Ctx) (n : Nat) : Nat :=
  let r := x.b.vreg n
  choose x.s.step 7 n ((r.shape.code + 4 * r.fmt) :: x.b.pend.filterMap fun p => p.tagAfter x.b n) 0

/-- tag -/
def effTag (f : FmtA) (x : Ctx) : Eff :=
  .long x (x.result32 f.dst.toNat 0 none true fun _ _ => (BitVec.ofNat 32 (x.tagsOf f.opa.toNat), 0))
/-- tag (R108) -/
def execTag (f : FmtA) (s : State) : Host.Outcome State Fault Refusal := run (.tag f) (effTag f) s

/-- expand: the register becomes G with unchanged lanes, resident -/
def effExpand (f : FmtA) (x : Ctx) : Eff :=
  let n := f.dst.toNat
  let r := x.b.vreg n
  if x.actNH = 0 then .short x RegResult.empty
  else .short { x with b := { x.b with v := x.b.v.set n { shape := .g (lanesOf r.shape.lane), fmt := 0, last := x.s.coreClock } } } RegResult.empty
/-- expand (R109) -/
def execExpand (f : FmtA) (s : State) : Host.Outcome State Fault Refusal := run (.expand f) (effExpand f) s

/-! ## Extended names (R89, R110, R111) -/

/-- The request of the sub-bundle, once it waits: since which clock, and its place in the order. -/
def SubB.xacq? (y : SubB) : Option (Nat × Nat) := y.stall.bind (·.xacq)

/-- The request waits: since this clock, in its order. -/
def Ctx.xacqHold (x : Ctx) : Eff :=
  match x.sub.xacq? with
  | some _ => .stall x
  | none =>
    let st := (x.sub.stall.getD (Stall.start x.s.coreClock))
    .stall { x with
      sub := { x.sub with stall := some { st with xacq := some (x.s.coreClock, x.c.xacqSeq) } }
      c := { x.c with xacqSeq := x.c.xacqSeq + 1 } }

/-- An older `xacq` of the crew is waiting, in another bundle or another sub-bundle of this one. -/
def Ctx.olderXacq (x : Ctx) : Bool :=
  let mine := match x.sub.xacq? with
    | some (_, m) => m
    | none => x.c.xacqSeq
  x.c.bundles.any fun b => b.subs.any fun y => match y.xacq? with
    | some (_, n) => decide (n < mine)
    | none => false

/-- The grant: the names read 0 with tag U; the reserve grows (R90). -/
def Ctx.grant (x : Ctx) (n : Nat) (s : State) (slots : List Nat) (bank : Nat) : Eff :=
  .short { x with
    s := s
    c := { x.c with spillSlots := x.c.spillSlots ++ slots, spillBank := bank }
    b := { x.b with v := x.b.v ++ List.replicate (n - x.b.v.length) VReg.zero } } RegResult.empty

/-- xacq -/
def effXacq (f : FmtI) (x : Ctx) : Eff :=
  let n := f.imm.toNat
  let owned := x.b.v.length
  if x.actNH = 0 || decide (n ≤ owned) then .short x RegResult.empty
  else if x.c.bound < (x.c.bundles.length - 1) * x.c.base + n then .trap x 5 (BitVec.ofNat 128 (n * 2 ^ 32))
  else
    let claim := x.c.claim - owned + n
    let more := reserveSlots claim x.c.regGranules x.c.ovc - x.c.spillSlots.length
    if x.c.bound < claim || x.olderXacq || !x.s.ctxFits x.c.region more then x.xacqHold
    else
      let bank := if x.c.spillSlots.isEmpty then x.s.liveBank x.c.core else x.c.spillBank
      match x.s.takeSlots bank more with
      | some (s, slots) => x.grant n s slots bank
      | none => x.xacqHold
/-- xacq (R110) -/
def execXacq (f : FmtI) (s : State) : Host.Outcome State Fault Refusal := run (.xacq f) (effXacq f) s

/-- A register result without what is bound for v names from n up. -/
def RegResult.below (r : RegResult) (n : Nat) : RegResult := { r with v := r.v.filter fun w => decide (w.name < n) }

/-- A pending instruction without the results bound for v names from n up, those that a load still gathers among them (R111). -/
def Pending.released (p : Pending) (n : Nat) : Pending :=
  { p with
    names := p.names.filter (keepName n)
    result := p.result.map fun r => r.below n
    gather := p.gather.map fun g => { g with limit := min g.limit n }
    prev := p.prev.filter fun e => keepName n e.1
    rivals := p.rivals.filter fun e => keepName n e.1 }

/-- A bundle that releases its names from n up. -/
def Bundle.release (b : Bundle) (n : Nat) : Bundle := { b with v := b.v.take n, pend := b.pend.map fun p => p.released n }

/-- xrel -/
def effXrel (_f : FmtA) (x : Ctx) : Eff :=
  if x.actNH = 0 || decide (x.b.v.length ≤ x.c.base) then .short x RegResult.empty
  else .short { x with b := x.b.release x.c.base } RegResult.empty
/-- xrel (R111) -/
def execXrel (f : FmtA) (s : State) : Host.Outcome State Fault Refusal := run (.xrel f) (effXrel f) s

/-! ## Predicates and flags (R112 to R114) -/

/-- pbool -/
def effPbool (f : FmtA) (x : Ctx) : Eff :=
  let bit := fun (code : BitVec 10) L => if x.pred code.toNat L then 1 else 0
  .short x { RegResult.empty with
    p := [x.pwrite f.dst.toNat fun L => f.func.getLsbD (4 * bit f.opa L + 2 * bit f.opb L + bit f.opc L)] }
/-- pbool (R112) -/
def execPbool (f : FmtA) (s : State) : Host.Outcome State Fault Refusal := run (.pbool f) (effPbool f) s

/-- The sixteen predicates of a lane as a number. -/
def Ctx.predWord (x : Ctx) (L : Nat) : Word :=
  BitVec.ofNat 32 (((List.range 16).map fun i => if x.pred (864 + i) L then 2 ^ i else 0).sum)

/-- pmov -/
def effPmov (f : FmtA) (x : Ctx) : Eff :=
  if f.func = 0 then .short x (x.result32 f.dst.toNat 0 none false fun L _ => (x.predWord L, 0))
  else .short x { RegResult.empty with
    p := (List.range 15).map fun i => x.pwrite (864 + i) fun L => (x.raw32 0 f.opa.toNat L).testBit i }
/-- pmov (R113) -/
def execPmov (f : FmtA) (s : State) : Host.Outcome State Fault Refusal := run (.pmov f) (effPmov f) s

/-- fclr -/
def effFclr (f : FmtA) (x : Ctx) : Eff :=
  if x.actNH = 0 then .short x RegResult.empty
  else if f.func = 1 then .short { x with b := { x.b with hintDrop := 0 } } RegResult.empty
  else
    let m := BitVec.ofNat 5 (x.raw32 0 f.opa.toNat (lowLane x.actNH))
    .short { x with b := { x.b with flags := x.b.flags &&& ~~~m } } RegResult.empty
/-- fclr (R114) -/
def execFclr (f : FmtA) (s : State) : Host.Outcome State Fault Refusal := run (.fclr f) (effFclr f) s

end Sys2Proof.Machine
end

