-- ==== Sys2Proof/Machine/Trap.lean ====
section
/-! DEFINITION. The trap instructions (0x010 to 0x012, 0x049, 0x04A; R371 to R378). Taking a trap and returning from one are
`State.takeTrap` and `State.trapReturn` of Ops. -/

namespace Sys2Proof.Machine

/-- trap -/
def effTrap (f : FmtI) (x : Ctx) : Eff :=
  if x.actNH = 0 then .short x RegResult.empty else .trap x 18 (BitVec.ofNat 128 (f.imm.toNat + x.act.toNat * 2 ^ 64))
/-- trap (R375) -/
def execTrap (f : FmtI) (s : State) : Host.Outcome State Fault Refusal := run (.trap f) (effTrap f) s

/-- brk -/
def effBrk (f : FmtA) (x : Ctx) : Eff :=
  if x.actNH = 0 then .short x RegResult.empty else .trap x 19 (BitVec.ofNat 128 f.func.toNat)
/-- brk (R376) -/
def execBrk (f : FmtA) (s : State) : Host.Outcome State Fault Refusal := run (.brk f) (effBrk f) s

/-- The form of a `tret`. -/
def tretForm (f : FmtA) (x : Ctx) : TretForm :=
  match f.func.toNat with
  | 0 => .restart
  | 1 => .next
  | 2 => .kill
  | _ => .to (x.b.k.getD (f.opa.toNat - 880) 0)

/-- tret -/
def effTret (f : FmtA) (x : Ctx) : Eff := .moved (x.commit.trapReturn x.c.cid x.b.index (tretForm f x))
/-- tret (R377) -/
def execTret (f : FmtA) (s : State) : Host.Outcome State Fault Refusal := run (.tret f) (effTret f) s

/-! ## The trap area (R371, R378) -/

/-- A trap area as it is taken. -/
def TrapArea.zero (bank slot : Nat) : TrapArea :=
  { v := Vector.replicate 256 (.u 0), s := Vector.replicate 128 0, bank := bank, ctxSlot := slot }

/-- The slot's trap area, taken now when the episode has none; `none` while no context slot is to be had. -/
def Ctx.withArea (x : Ctx) : Option (Ctx × TrapArea) :=
  match x.b.area with
  | some a => some (x, a)
  | none =>
    if !x.s.ctxFits x.c.region 1 then none
    else
      match x.s.bankFor x.c.core 1 with
      | none => none
      | some bank =>
        match x.s.takeSlots bank 1 with
        | some (s, n :: _) => some ({ x with s := s, b := { x.b with area := some (TrapArea.zero bank n) } }, TrapArea.zero bank n)
        | _ => none

/-- The names of a range of `tsave` or `tload` that the bundle owns. -/
def Ctx.areaNames (x : Ctx) (f : FmtA) : List Nat :=
  ((List.range (f.func.toNat + 1)).map (f.opa.toNat + ·)).filter fun n => decide (640 ≤ n) || decide (n < x.b.v.length)

/-- What a name's place receives: its shape, or where the name is pending either value of each lane (R60). -/
def Ctx.savedShape (x : Ctx) (n : Nat) : Shape :=
  if x.b.isPending n then .g (lanesOf fun L => x.oldLane n L) else (x.b.vreg n).shape

/-- All lanes of a register written with a shape. -/
def wholeWrite (n : Nat) (sh : Shape) : VWrite :=
  { name := n, mask := BitVec.allOnes 32, vals := lanesOf sh.lane, full := some sh }

/-- tsave -/
def effTsave (f : FmtA) (x : Ctx) : Eff :=
  match x.withArea with
  | none => .stall x
  | some (y, a) =>
    let l := x.areaNames f
    let a' := l.foldl (fun a n =>
      if n < 640 then { a with v := a.v.setIfInBounds n (x.savedShape n) } else { a with s := a.s.setIfInBounds (n - 640) (x.sreg (n - 640) 0) }) a
    if x.s.disp.asleep.contains (a.bank % 16) then .stall { x with s := x.s.wake [a.bank % 16] }
    else if !x.s.bankAwake a.bank then .stall x
    else .short { y with s := y.s.bankTraffic a.bank, b := { y.b with area := some a' } }
      { RegResult.empty with v := (l.filter fun n => decide (n < 640)).map fun n => wholeWrite n (.u 0) }
/-- tsave (R378) -/
def execTsave (f : FmtA) (s : State) : Host.Outcome State Fault Refusal := run (.tsave f) (effTsave f) s

/-- What tload restores from an area. -/
def TrapArea.restored (a : TrapArea) (l : List Nat) : RegResult :=
  { RegResult.empty with
    v := (l.filter fun n => decide (n < 640)).map fun n => wholeWrite n (a.v.getD n (.u 0))
    s := (l.filter fun n => decide (640 ≤ n)).map fun n => (n - 640, a.s.getD (n - 640) 0) }

/-- tload: a place never saved restores 0 with tag U; an area in a bank whose column is not ready is waited for (R355). -/
def effTload (f : FmtA) (x : Ctx) : Eff :=
  match x.b.area with
  | none => .long x ((TrapArea.zero 0 0).restored (x.areaNames f))
  | some a =>
    if x.s.disp.asleep.contains (a.bank % 16) then .stall { x with s := x.s.wake [a.bank % 16] }
    else if !x.s.bankAwake a.bank then .stall x
    else .long { x with s := x.s.bankTraffic a.bank } (a.restored (x.areaNames f))
/-- tload (R378) -/
def execTload (f : FmtA) (s : State) : Host.Outcome State Fault Refusal := run (.tload f) (effTload f) s

end Sys2Proof.Machine
end

