-- ==== Sys2Proof/Machine/CrossLane.lean ====
section
/-! DEFINITION. The cross-lane instructions (0x160 to 0x169, R167 to R179). All are long; sources are read at issue. -/

namespace Sys2Proof.Machine

/-- A lane of ACTIVE: it supplies its value to others (R167). -/
def Ctx.isSource (x : Ctx) (P : Nat) : Bool := decide (P < W) && x.act.getLsbD P

/-- The predicate output numbered in FUNC[3:0]; p15 takes none. -/
def Ctx.predOut (x : Ctx) (f : FmtA) (g : Nat → Bool) : List PWrite :=
  let k := f.func.toNat % 16
  if k < 15 then [x.pwrite (864 + k) g] else []

/-! ## Shuffles (R170, R177) -/

/-- A shuffle: lane L takes the source of the lane `src L` names, when that is a source lane, else its fallback. -/
def shuffle (f : FmtA) (src : Nat → Option Nat) (x : Ctx) : Eff :=
  let ty := f.ty.toNat
  let from? := fun L => match src L with
    | some P => if x.isSource P then some P else none
    | none => none
  let v := fun L => match from? L with
    | some P => x.raw64 ty f.opa.toNat P
    | none => x.raw64 ty f.opc.toNat L
  let w := fun L => match from? L with
    | some P => x.raw32 ty f.opa.toNat P
    | none => x.raw32 ty f.opc.toNat L
  let r := if tyWide ty then x.result64 f.dst.toNat false fun L => (BitVec.ofNat 64 (v L), 0)
           else x.result32 f.dst.toNat 0 none false fun L _ => (BitVec.ofNat 32 (w L), 0)
  .long x { r with p := x.predOut f fun L => (from? L).isSome }

/-- The source position of `shfl`; W >> j under `.w`. -/
def shflSource (f : FmtA) (x : Ctx) (L : Nat) : Option Nat :=
  let k := x.raw32 0 f.opb.toNat L
  let n := if f.func.getLsbD 6 then (if k < 32 then W / 2 ^ k else 0) else k
  match f.func.toNat / 16 % 4 with
  | 0 => if n ≤ L then some (L - n) else none
  | 1 => some (L + n)
  | 2 => some (L ^^^ n)
  | _ => some ((L + n) % W)

/-- shfl -/
def effShfl (f : FmtA) (x : Ctx) : Eff := shuffle f (shflSource f x) x
/-- shfl (R170) -/
def execShfl (f : FmtA) (s : State) : Host.Outcome State Fault Refusal := run (.shfl f) (effShfl f) s

/-- shfr -/
def effShfr (f : FmtA) (x : Ctx) : Eff := shuffle f (fun L => some (x.raw32 0 f.opb.toNat L)) x
/-- shfr (R170) -/
def execShfr (f : FmtA) (s : State) : Host.Outcome State Fault Refusal := run (.shfr f) (effShfr f) s

/-- The source position of `qswap`. -/
def qswapSource (f : FmtA) (L : Nat) : Option Nat :=
  match f.func.toNat / 16 % 4 with
  | 0 => some (L ^^^ 1)
  | 1 => some (L ^^^ 2)
  | 2 => some (L ^^^ 3)
  | _ => some (L / 4 * 4 + f.func.toNat / 64)

/-- qswap -/
def effQswap (f : FmtA) (x : Ctx) : Eff := shuffle f (qswapSource f) x
/-- qswap (R177) -/
def execQswap (f : FmtA) (s : State) : Host.Outcome State Fault Refusal := run (.qswap f) (effQswap f) s

/-! ## Votes, ballots, matches (R171 to R173) -/

/-- Word j of a lane mask; words from W/32 on are 0. -/
def maskWord (m : LaneMask) (j : Nat) : Word := if j = 0 then m else 0

/-- The result of `vote` over the contributing set. -/
def voteResult (mode : Nat) (c p : LaneMask) : Bool :=
  match mode with
  | 0 => c &&& ~~~p == 0
  | 1 => c &&& p != 0
  | 2 => c &&& p == 0 || c &&& ~~~p == 0
  | _ => popMask (c &&& p) % 2 == 1

/-- vote -/
def effVote (f : FmtA) (x : Ctx) : Eff :=
  let p := maskOf fun L => x.pred f.opa.toNat L
  let c := voteResult (f.func.toNat / 16 % 4) x.actNH p
  let r := x.result32 f.dst.toNat 0 none true fun _ _ => (maskWord (~~~x.actNH) (f.func.toNat / 64), 0)
  .long x { r with p := x.predOut f fun _ => c }
/-- vote (R171) -/
def execVote (f : FmtA) (s : State) : Host.Outcome State Fault Refusal := run (.vote f) (effVote f) s

/-- ballot -/
def effBallot (f : FmtA) (x : Ctx) : Eff :=
  let j := f.func.toNat / 64
  let b := maskWord (x.actNH &&& maskOf fun L => x.pred f.opa.toNat L) j
  if tyWide f.ty.toNat then .long x (x.result64 f.dst.toNat true fun _ => (maskWord (~~~x.actNH) j ++ b, 0))
  else .long x (x.result32 f.dst.toNat 0 none true fun _ _ => (b, 0))
/-- ballot (R172) -/
def execBallot (f : FmtA) (s : State) : Host.Outcome State Fault Refusal := run (.ballot f) (effBallot f) s

/-- match -/
def effMatchLanes (f : FmtA) (x : Ctx) : Eff :=
  let vals := lanesOf fun L => if tyWide f.ty.toNat then x.raw64 f.ty.toNat f.opa.toNat L else x.raw32 f.ty.toNat f.opa.toNat L
  .long x (x.result32 f.dst.toNat 0 none false fun L _ =>
    (maskWord (x.actNH &&& maskOf fun P => vals.getD P 0 == vals.getD L 0) (f.func.toNat / 64), 0))
/-- match (R173) -/
def execMatchLanes (f : FmtA) (s : State) : Host.Outcome State Fault Refusal := run (.matchLanes f) (effMatchLanes f) s

/-! ## Reductions and scans (R174 to R176) -/

/-- The identity of an op under a TYPE. -/
def redIdentity (op ty : Nat) : Nat :=
  let n := tyBits ty
  match op with
  | 1 => if tySigned ty then 2 ^ (n - 1) - 1 else 2 ^ n - 1
  | 2 => if tySigned ty then 2 ^ (n - 1) else 0
  | 3 => 2 ^ n - 1
  | 6 => f32.zero true
  | 7 => f32.inf false
  | 8 => f32.inf true
  | _ => 0

/-- A combine of R174 on patterns, with its flags. -/
def redCombine (op ty : Nat) (ftz : Bool) (a b : Nat) : Nat × Flags :=
  let n := tyBits ty
  let lt := fun p q => decide (readInt (tySigned ty) n p < readInt (tySigned ty) n q)
  let flt := fun isMax =>
    let (v, iv) := minMaxVal isMax (f32.read ftz a) (f32.read ftz b)
    let (w, fl) := roundTo f32 0 ftz v.res
    (w, if iv then fl ||| flagIV else fl)
  match op with
  | 0 => ((a + b) % 2 ^ n, 0)
  | 1 => (if lt b a then b else a, 0)
  | 2 => (if lt a b then b else a, 0)
  | 3 => (a &&& b, 0)
  | 4 => (a ||| b, 0)
  | 5 => (a ^^^ b, 0)
  | 6 => roundTo f32 0 ftz (addVal false (f32.read ftz a) (f32.read ftz b))
  | 7 => flt false
  | _ => flt true

/-- A partial reduction: its value, its flags, the lanes whose values entered a combine that set IV, and the lanes in it. -/
structure RedPart where
  val : Nat
  flags : Flags
  iv : LaneMask
  lanes : LaneMask
  deriving DecidableEq, Repr

/-- The combine of two partial reductions. -/
def RedPart.join (op ty : Nat) (ftz : Bool) (a b : RedPart) : RedPart :=
  let (v, fl) := redCombine op ty ftz a.val b.val
  let lanes := a.lanes ||| b.lanes
  { val := v, flags := a.flags ||| b.flags ||| fl, lanes := lanes
    iv := a.iv ||| b.iv ||| (if fl.getLsbD 0 then lanes else 0) }

/-- Adjacent pairs combined, the lower lane left: one step of the butterfly. -/
def redPairs (op ty : Nat) (ftz : Bool) : List RedPart → List RedPart
  | a :: b :: t => a.join op ty ftz b :: redPairs op ty ftz t
  | l => l

/-- The value each position brings: a contributing lane its own, another the identity. -/
def redInputs (f : FmtA) (x : Ctx) : List RedPart :=
  let ty := f.ty.toNat
  lanesOf fun P =>
    if x.actNH.getLsbD P then
      { val := if tyWide ty then x.raw64 ty f.opa.toNat P else x.raw32 ty f.opa.toNat P, flags := 0, iv := 0, lanes := 1#32 <<< P }
    else { val := redIdentity (f.func.toNat % 16) ty, flags := 0, iv := 0, lanes := 0 }

/-- One value in every lane, or one per lane, as a long result with flags. -/
def redResult (f : FmtA) (x : Ctx) (uni : Bool) (flags : Flags) (iv : LaneMask) (v : Nat → Nat) : Eff :=
  let r := if tyWide f.ty.toNat then x.result64 f.dst.toNat uni fun L => (BitVec.ofNat 64 (v L), 0)
           else x.result32 f.dst.toNat 0 none uni fun L _ => (BitVec.ofNat 32 (v L), 0)
  .long x { r with flags := flags, iv := iv }

/-- lred: five steps of the butterfly; every position then holds the value of position 0 -/
def effLred (f : FmtA) (x : Ctx) : Eff :=
  let go := redPairs (f.func.toNat % 16) f.ty.toNat x.ftz
  match go (go (go (go (go (redInputs f x))))) with
  | r :: _ => redResult f x true r.flags r.iv fun _ => r.val
  | [] => .long x RegResult.empty
/-- lred (R175) -/
def execLred (f : FmtA) (s : State) : Host.Outcome State Fault Refusal := run (.lred f) (effLred f) s

/-- The prefixes of a scan: before and after each position, and the whole. -/
def scanFrom (op ty : Nat) (ftz : Bool) (acc : RedPart) : List RedPart → List (Nat × Nat) × RedPart
  | [] => ([], acc)
  | v :: t =>
    let next := if v.lanes = 0 then acc else acc.join op ty ftz v
    let (l, e) := scanFrom op ty ftz next t
    ((acc.val, next.val) :: l, e)

/-- lscan -/
def effLscan (f : FmtA) (x : Ctx) : Eff :=
  let op := f.func.toNat % 16
  let e : RedPart := { val := redIdentity op f.ty.toNat, flags := 0, iv := 0, lanes := 0 }
  let (l, last) := scanFrom op f.ty.toNat x.ftz e (redInputs f x)
  redResult f x false last.flags last.iv fun L =>
    if f.func.getLsbD 4 then (l.getD L (0, 0)).1 else (l.getD L (0, 0)).2
/-- lscan (R176) -/
def execLscan (f : FmtA) (s : State) : Host.Outcome State Fault Refusal := run (.lscan f) (effLscan f) s

/-! ## Derivatives (R178) -/

/-- The bundle shades ray hits (R321, R335): the Riddle seated it with hit records; a spawned bundle of the crew is none (R189). -/
def Ctx.isHit (x : Ctx) : Bool := x.b.stage.isNone && x.c.records.any (·.hit)

/-- A difference in each quad between the positions `pair` gives, +0 where one of them is no source lane or in a ray-hit bundle. -/
def derivative (f : FmtA) (pair : Nat → Nat × Nat) (x : Ctx) : Eff :=
  let (vals, fl, iv) := gatherFlags x.act x.b.helper fun L =>
    let (m, n) := pair L
    if x.isSource m && x.isSource n && !x.isHit then
      let (v, fl) := roundTo f32 f.round.toNat x.ftz (addVal (isRdn f) (fltA f x m) (fltA f x n).negate)
      (BitVec.ofNat 32 v, fl)
    else (0, 0)
  .long x { RegResult.empty with v := [x.vwrite f.dst.toNat 0 vals none false], flags := fl, iv := iv }

/-- ddx: right minus left -/
def effDdx (f : FmtA) (x : Ctx) : Eff :=
  derivative f (fun L =>
    let r := if f.func = 1 then 0 else L / 2 % 2
    (L / 4 * 4 + 2 * r + 1, L / 4 * 4 + 2 * r)) x
/-- ddx (R178) -/
def execDdx (f : FmtA) (s : State) : Host.Outcome State Fault Refusal := run (.ddx f) (effDdx f) s

/-- ddy: lower minus upper -/
def effDdy (f : FmtA) (x : Ctx) : Eff :=
  derivative f (fun L =>
    let c := if f.func = 1 then 0 else L % 2
    (L / 4 * 4 + 2 + c, L / 4 * 4 + c)) x
/-- ddy (R178) -/
def execDdy (f : FmtA) (s : State) : Host.Outcome State Fault Refusal := run (.ddy f) (effDdy f) s

end Sys2Proof.Machine
end

