-- ==== Sys2Proof/Machine/Bundles.lean ====
section
/-! DEFINITION. What bundles of a crew do together: ring stages and spawned bundles (R187 to R190), slots that empty (R68, R69, R185), the
release of strands parked at `join` and `reform` (R68, R79), the crew barrier (R82), reform bins and their draws (R67 to R70). -/

namespace Sys2Proof.Machine

/-! ## Rings (R187 to R189) -/

/-- A declared ring of a crew. -/
def Crew.ring? (c : Crew) (i : Nat) : Option Ring := (c.rings.getD i none)
/-- Replace a ring. -/
def Crew.setRing (c : Crew) (i : Nat) (r : Ring) : Crew := { c with rings := c.rings.set i (some r) }

/-- An empty stage, its counts 0. -/
def Stage.empty : Stage := { issued := 0, completed := 0, consumed := 0, st := .empty }
/-- Physical stage k. -/
def Ring.stage (r : Ring) (k : Nat) : Stage := r.st.getD k Stage.empty
/-- Replace physical stage k. -/
def Ring.setStage (r : Ring) (k : Nat) (x : Stage) : Ring := { r with st := r.st.set k x }
/-- The physical stage of logical stage j. -/
def Ring.phys (r : Ring) (j : Nat) : Nat := (r.hp + j) % r.stages
/-- hp advances by 1. -/
def Ring.advance (r : Ring) : Ring := { r with hp := (r.hp + 1) % r.stages }

/-- The ring whose spawn entry the crew has. -/
def Crew.spawnRing (c : Crew) : Option Nat :=
  (List.range c.rings.length).find? fun i => match c.ring? i with
    | some r => r.spawn
    | none => false

/-- Pointer moves that are due: priming, or in a spawn ring the step of R189. -/
def Ring.moves (r : Ring) : Nat → Ring
  | 0 => r
  | n + 1 =>
    if r.spawn then
      if (r.stage (r.phys r.dist)).st != .empty && (r.stage (r.phys (r.dist + 1))).st == .empty then r.advance.moves n else r
    else if 0 < r.prime && (r.stage (r.phys r.dist)).st == .full then { r.advance with prime := r.prime - 1 }.moves n
    else r

/-- Start the spawned bundle of a FULL stage; the stage becomes HELD (R189). -/
def Crew.spawn (c : Crew) (a : Cast) (clock i k : Nat) : Crew :=
  match c.ring? i with
  | none => c
  | some r =>
    let index := c.launch + k
    let c := c.setRing i (r.setStage k { (r.stage k) with st := .held })
    { c with bundles := c.bundles.map fun b =>
        if b.index == index then
          { Bundle.fresh index b.slot c.base ((List.range W).map (W * index + ·)) (a.word 9) c.consts clock with
            seenAt := Vector.replicate 32 c.constLog.length, stage := some k, prim := b.prim, primTicket := b.primTicket, atEntry := true }
        else b }

/-- An arrival on physical stage k of ring i completes: at the parr-th the stage is FULL, a spawn ring starts its bundle, and the pointer
moves (R187 to R190). -/
def Crew.arrive (c : Crew) (a : Cast) (clock i k : Nat) : Crew :=
  match c.ring? i with
  | none => c
  | some r =>
    let x := r.stage k
    let n := x.completed + 1
    let full := n == r.parr
    let c := c.setRing i (r.setStage k { x with completed := n, st := if full then .full else x.st })
    let c := if full && r.spawn then c.spawn a clock i k else c
    match c.ring? i with
    | none => c
    | some r => c.setRing i (r.moves r.stages)

/-- A consumer arrival on logical stage 0: at the carr-th the stage is EMPTY again and hp advances (R188). -/
def Crew.consume (c : Crew) (i : Nat) : Crew :=
  match c.ring? i with
  | none => c
  | some r =>
    let k := r.phys 0
    let x := r.stage k
    if x.consumed + 1 = r.carr then c.setRing i ((r.setStage k Stage.empty).advance.moves r.stages)
    else c.setRing i (r.setStage k { x with consumed := x.consumed + 1 })

/-- The stage a spawned bundle held becomes EMPTY (R189). -/
def Crew.stageDone (c : Crew) (k : Nat) : Crew :=
  match c.spawnRing with
  | none => c
  | some i =>
    match c.ring? i with
    | none => c
    | some r => let r := r.setStage k Stage.empty; c.setRing i (r.moves r.stages)

/-! ## Slots that empty -/

/-- STRANDs of lanes. -/
def Bundle.strandsOf (b : Bundle) (m : LaneMask) : List Nat := m.lanes.map fun L => b.strands.getD L 0

/-- The replay queue of the crew's core holds stores of a bundle. -/
def State.hasParked (s : State) (c : Crew) (bi : Nat) : Bool :=
  (s.core c.core).replay.any fun r => r.crew == c.cid && r.bun == bi

/-- A slot with no non-exited strand left: its FLAGS and FMASK go to the crew's accumulators, its extended names are released, it holds no
strands (R68, R69, R185), and a spawned bundle's stage becomes EMPTY (R189). A slot whose strands were switched off in a stretch first has its
pending results written, their FLAGS bits among them (R60, R127). A bundle with strands is left as it is. -/
def State.slotEmptied (s : State) (cid bi : Nat) : State :=
  match s.bundle? cid bi with
  | none => s
  | some (c, b) =>
    if b.live != 0 || !b.drained then s
    else
      let s := s.freeArea b
      let b := b.completeMarker s.step s.coreClock false
      -- reports of NaN-marked tasks that the bundle did not receive go to the accumulator (R285)
      let nan : BitVec 5 := if c.nan.any fun m => m.bun == bi then flagMNAN else 0
      let k := s.core c.core
      let s := s.setCore c.core { k with tasks := k.tasks.map fun t => if t.crew == cid && t.bun == bi then { t with left := true } else t }
      let c := { c with flagAcc := c.flagAcc ||| b.flags ||| nan, faultAcc := c.faultAcc ||| b.fmask
                        nan := c.nan.filter fun m => m.bun != bi }
      let b' := { (b.release c.base) with
        present := 0, exited := 0, flags := 0, fmask := 0, helper := 0, subs := [], pend := [], trap := none, area := none }
      let c := c.setBundle b'
      s.setCrew (match b.stage with
        | some k => c.stageDone k
        | none => c)

/-- A slot whose strands have all exited empties; one that holds no strands already is left as it is. -/
def State.emptySlot (s : State) (cid bi : Nat) : State :=
  match s.bundle? cid bi with
  | none => s
  | some (_, b) => if b.present == 0 then s else s.slotEmptied cid bi

/-- Helpers of a quad exit when every non-helper strand of the quad has exited (R322). -/
def Bundle.helpersExit (b : Bundle) : Bundle :=
  let gone := maskOf fun L =>
    let quad : LaneMask := 0xF#32 <<< (L / 4 * 4)
    b.helper.getLsbD L && b.live &&& ~~~b.helper &&& quad == 0
  if b.helper = 0 then b else { b with exited := b.exited ||| (gone &&& b.present) }

/-- Strands of a bundle exit (R66, R81, R322): sub-bundles without strands leave the rotation. -/
def Bundle.exitLanes (b : Bundle) (m : LaneMask) : Bundle := ({ b with exited := b.exited ||| (m &&& b.present) }.helpersExit).dropExited

/-! ## Reform bins (R67 to R70) -/

/-- A record filed under a key: into its bin, else into the free bin with the lowest number (R67). -/
def fileRecord (bins : List (Option Bin)) (crew : Nat) (target : DWord) (r : BinRecord) : Option (List (Option Bin)) :=
  let mine := fun b : Option Bin => match b with
    | some x => x.crew == crew && x.target == target
    | none => false
  if bins.any mine then
    some (bins.map fun b => match b with
      | some x => if mine b then some { x with records := x.records ++ [r], aged := false } else b
      | none => none)
  else
    match (List.range bins.length).find? fun i => (bins.getD i none).isNone with
    | some i => some (bins.set i (some { crew := crew, target := target, records := [r], aged := false, spilled := 0 }))
    | none => none

/-- The record of a lane (R68). -/
def Bundle.binRecord (b : Bundle) (n clock L : Nat) : BinRecord :=
  { strand := b.strands.getD L 0
    carried := (List.range n).map fun k => ((b.vreg k).shape.lane L, (b.vreg k).shape.isU)
    preds := BitVec.ofNat 15 (((List.range 15).map fun i => if (b.predOf i).getLsbD L then 2 ^ i else 0).sum)
    clock := clock }

/-- The filing of the strands of sub-bundles parked at one `reform`: `none` while a bin is wanting for any of them (R67, log entry 71). -/
def fileGroup (bins : List (Option Bin)) (crew : Nat) (b : Bundle) (clock : Nat) (group : List SubB) : Option (List (Option Bin)) :=
  (group.flatMap fun x => match x.park with
    | .reform n targets => (x.mask &&& b.live).lanes.map fun L => (n, targets.getD L 0, L)
    | _ => []).foldlM (fun bins e => fileRecord bins crew e.2.1 (b.binRecord e.1 clock e.2.2)) bins

/-- A sub-bundle parked at `join` or `reform`. -/
def SubB.atJoin (x : SubB) : Bool :=
  match x.park with
  | .join => true
  | .reform _ _ => true
  | _ => false

/-- The union of the masks of sub-bundles. -/
def unionMask (l : List SubB) : LaneMask := l.foldl (fun m x => m ||| x.mask) 0

/-- Release the strands of a bundle parked at `join` and `reform`, those at the lowest PC first (R68, R79): joined strands go on as one
sub-bundle; strands at a `reform` are filed and leave, and the rest are released by the same rules. -/
def State.releaseJoins (s : State) (cid bi : Nat) : Nat → State
  | 0 => s
  | n + 1 =>
    match s.bundle? cid bi with
    | none => s
    | some (c, b) =>
      if b.trap.isSome || b.subs.isEmpty || !b.subs.all (·.atJoin) then s
      else
        let low := b.subs.foldl (fun m x => min m x.pc.toNat) (2 ^ 64)
        let group := b.subs.filter fun x => x.pc.toNat == low
        let rest := b.subs.filter fun x => x.pc.toNat != low
        let mask := unionMask group &&& b.live
        if group.any fun x => x.park == .join then
          let pc := nextPc (BitVec.ofNat 64 low)
          let b := { b with subs := SubB.start mask pc s.coreClock :: rest }
          s.setBundle c b
        else if rest.isEmpty && s.hasParked c bi then s
        else
          match fileGroup (s.core c.core).bins cid b s.coreClock group with
          | none => s
          | some bins =>
            let whole := s
            let b := { b with present := b.present &&& ~~~mask, subs := rest }
            let s := (s.setCore c.core { (s.core c.core) with bins := bins }).setBundle c b
            let t := s.slotEmptied cid bi
            -- rows to be spilled wait for the column of the reserve's bank (R355)
            if t.rowsMayFit cid then (t.fitRows cid 512).releaseJoins cid bi n else whole

/-! ## The crew barrier (R82) -/

/-- Scopes gang, device and system wait for parked stores. -/
def wideScope (scope : Nat) : Bool := scope == 2 || scope == 4 || scope == 5

/-- A store of the strands has performed and its acknowledgement is still under way, or an atomic of the crew and its data are (R298, R301). -/
def MemSys.unacked (m : MemSys) (crew : Nat) (strands : List Nat) : Bool :=
  m.replies.any fun r => match r.kind with
    | .ack _ _ c l => c == crew && l.any strands.contains
    | .data c _ _ acks => c == crew && acks.isSome && !strands.isEmpty
    | _ => false

/-- Stores of a crew that a bundle parked before it synchronised, still parked or drained and not performed: a release of any bundle of the crew may
be ordered after them (R215, log entry 78). -/
def State.lateStores (s : State) (crew : Nat) : Bool :=
  s.cores.any (fun k => k.replay.any fun r => r.out && r.crew == crew) || s.mem.requests.any fun q => q.late && q.crew == crew

/-- A bundle has stores that are parked, or drained and not yet performed or acknowledged (R209, R301). -/
def State.storesOpen (s : State) (c : Crew) (bi : Nat) : Bool :=
  s.hasParked c bi || (s.mem.requests.any fun q => q.crew == c.cid && q.bun == bi) ||
  (match c.bundle? bi with
   | some b => s.mem.unacked c.cid b.strands
   | none => false)

/-- A sub-bundle has arrived at `bar`, its parked stores drained where its scope asks for it. -/
def State.arrived (s : State) (c : Crew) (bi : Nat) (x : SubB) : Bool :=
  match x.park with
  | .bar scope => !wideScope scope || !(s.storesOpen c bi || s.lateStores c.cid)
  | _ => false

/-- A bin of the core holds records of the crew. -/
def State.binned (s : State) (c : Crew) : Bool :=
  (s.core c.core).bins.any fun b => match b with
    | some x => x.crew == c.cid
    | none => false

/-- Every non-exited strand of the crew has arrived at the barrier, and there is one. -/
def State.barDone (s : State) (c : Crew) : Bool :=
  !s.binned c && c.bundles.any (fun b => b.live != 0) &&
  c.bundles.all fun b => b.live == 0 || (b.trap.isNone && b.subs.all (s.arrived c b.index))

/-- The barrier completes: every strand resumes at the next slot, and crew constants settle (R82, R107). -/
def State.completeBar (s : State) (cid : Nat) : State :=
  match s.crew? cid with
  | none => s
  | some c =>
    if !s.barDone c then s
    else
      let t := s.coreClock
      let c := { c.settleConsts with bundles := c.settleConsts.bundles.map fun b =>
        ({ b with subs := b.subs.map fun x => x.goto (nextPc x.pc) t }) }
      s.setCrew c

/-- Number of a crew in its grid. -/
def Crew.gridIndex (c : Crew) (a : Cast) : Nat := c.x + a.grid.1 * (c.y + a.grid.2.1 * c.z)

/-- Each of a crew's strands has triggered or exited (R236). -/
def State.hasTriggered (s : State) (c : Crew) : Bool :=
  c.bundles.all (fun b => (b.strandsOf b.live).all c.triggered.contains) &&
  (s.core c.core).bins.all fun b => match b with
    | some x => x.crew != c.cid || x.records.all fun r => c.triggered.contains r.strand
    | none => true

/-- A crew that has triggered is noted in its cast, with the logical time its release carries (R219, R236). -/
def State.noteTrig (s : State) (cid : Nat) : State :=
  match s.crew? cid with
  | none => s
  | some c =>
    match s.cast? c.castId with
    | none => s
    | some a =>
      let i := c.gridIndex a
      if !s.hasTriggered c || a.trigged.contains i then s
      else s.setCast { a with trigged := a.trigged ++ [i], trigLT := max a.trigLT (s.ltOf c.core) }

/-- What becomes possible in a crew after strands parked, exited or left: joins, then the barrier. In a crew halted for pre-emption parked
bundles stay parked (R358). -/
def State.progress (s : State) (cid : Nat) : State :=
  match s.crew? cid with
  | none => s
  | some c => if c.st == .halted then s else ((c.bundles.foldl (fun s b => (s.emptySlot cid b.index).releaseJoins cid b.index 33) s).completeBar cid).noteTrig cid

/-! ## Draws (R69, R70) -/

/-- A bundle is runnable (R69, R367). -/
def Bundle.runnable (b : Bundle) : Bool :=
  b.live != 0 && (b.trap.isSome || b.subs.any fun x => match x.park with
    | .run => true
    | .marker => true
    | .drain => true
    | .fetch _ _ => true
    | _ => false)

/-- The bin's time limits are met: its oldest record has waited 4,096 clocks, or 512 clocks have passed since its last arrival (R69). -/
def Bin.late (x : Bin) (clock : Nat) : Bool :=
  let cs := x.records.map (·.clock)
  decide (cs.foldl min clock + 4096 ≤ clock) || decide (cs.foldl max 0 + 512 ≤ clock)

/-- A bin qualifies for a draw (R69). -/
def Bin.qualifies (x : Bin) (c : Crew) (clock : Nat) : Bool :=
  decide (W ≤ x.records.length) || x.aged || x.late clock || !(c.bundles.any (·.runnable))

/-- The free slots of a crew, lowest first: launch-bundle slots, not the producer's, without non-exited strands and parked stores (R69). -/
def State.freeBundles (s : State) (c : Crew) (producer : Nat) : List Bundle :=
  let l := c.bundles.filter fun b => b.stage.isNone && b.index != producer && b.live == 0 && b.present == 0 && !s.hasParked c b.index
  sortBy (fun a b => decide (a.slot ≤ b.slot)) l

/-- The qualifying bin drawn first: oldest record, then the lower target PC; its number. -/
def State.binToDraw (s : State) (c : Crew) : Option (Nat × Bin) :=
  let bins := (s.core c.core).bins
  let l := (List.range bins.length).filterMap fun i => match bins.getD i none with
    | some x => if x.crew == c.cid && x.qualifies c s.coreClock then some (i, x) else none
    | none => none
  let key := fun x : Bin => (x.records.map (·.clock)).foldl min (s.coreClock + 1)
  l.foldl (fun best e => match best with
    | none => some e
    | some a => if key e.2 < key a.2 || (key e.2 == key a.2 && decide (e.2.target.toNat < a.2.target.toNat)) then some e else some a) none

/-- A carried register of a drawn bundle (R70): U where every lane brings an equal value from a register that was U or, whatever its tag,
where all are equal; else G. -/
def drawnReg (rs : List BinRecord) (k : Nat) : VReg :=
  let vals := rs.map fun r => (r.carried.getD k (0, true)).1
  let sh : Shape := if vals.all (· == vals.headD 0) then .u (vals.headD 0) else .g (lanesOf fun L => vals.getD L 0)
  { shape := sh, fmt := 0, last := 0 }

/-- A bundle drawn from records in ascending STRAND order (R70). -/
def Bundle.drawnFrom (b : Bundle) (base : Nat) (rs : List BinRecord) (pc : DWord) (consts : Vector DWord 32) (clock : Nat) : Bundle :=
  let n := (rs.map fun r => r.carried.length).foldl max 0
  let f := Bundle.fresh b.index b.slot base (rs.map (·.strand)) pc consts clock
  { f with
    v := (List.range base).map fun k => if k < n then drawnReg rs k else VReg.zero
    p := Vector.ofFn fun i => maskOf fun L => (rs.getD L { strand := 0, carried := [], preds := 0, clock := 0 }).preds.getLsbD i.val
    strands := lanesOf fun L => (rs.map (·.strand)).getD L 0
    seen := b.seen
    seenAt := b.seenAt
    -- a primitive-buffer slot stays its bundle's (R304)
    prim := b.prim
    primTicket := b.primTicket
    drawn := true }

/-- DRAW: the first qualifying bin of a crew into its lowest free slot (R69): the W oldest records, ties by STRAND. -/
def State.drawBin (s : State) (cid : Nat) : State :=
  match s.crew? cid with
  | none => s
  | some c =>
    match (if c.st == .halted then none else s.binToDraw c), s.freeBundles c (s.castOf c).producer with
    | some (i, x), b :: _ =>
      let sorted := sortBy (fun a b : BinRecord => decide (a.clock < b.clock) || (a.clock == b.clock && decide (a.strand ≤ b.strand))) x.records
      let rs := sortBy (fun a b : BinRecord => decide (a.strand ≤ b.strand)) (sorted.take W)
      let left := sorted.drop W
      let k := s.core c.core
      let y := { x with records := left, aged := false }
      let bin := if left.isEmpty then none else some { y with spilled := min x.spilled y.rows }
      let t := (s.setCore c.core { k with bins := k.bins.set i bin }).setBundle c (b.drawnFrom c.base rs x.target c.consts s.coreClock)
      -- spilled records, and rows to be spilled, wait for the column of the reserve's bank (R355)
      if (x.spilled = 0 || s.bankAwake c.spillBank) && t.rowsMayFit cid then t.fitRows cid 512 else s
    | _, _ => s

end Sys2Proof.Machine
end

