-- ==== Sys2Proof/Machine/Control.lean ====
section
/-! DEFINITION. The control instructions (0x001 to 0x00F but for `gbar` and `wait`, R75 to R84) and `rep` (0x013, R36 to R40, R85). -/

namespace Sys2Proof.Machine

/-- nop -/
def effNop (_f : FmtA) (x : Ctx) : Eff := .short x RegResult.empty
/-- nop (R75) -/
def execNop (f : FmtA) (s : State) : Host.Outcome State Fault Refusal := run (.nop f) (effNop f) s

/-! ## Branches (R63, R76 to R78) -/

/-- The target of a relative branch (R20). -/
def relTarget (pc : DWord) (offset : BitVec 32) : DWord := pcOfLinear ((pcLinear pc : Int) + offset.toInt)

/-- The distinct values of a list with their lanes, in order of first occurrence. -/
def groupLanes (l : List (Nat × DWord)) : List (DWord × LaneMask) :=
  (l.map (·.2)).eraseDups.map fun pc => (pc, maskOf fun L => l.any fun e => e.1 == L && e.2 == pc)

/-- BADTARGET's TRAPINFO: the failing target and its lane (R369). -/
def badTargetInfo (pc : DWord) (L : Nat) : BitVec 128 := BitVec.ofNat 128 (pc.toNat + L * 2 ^ 64)

/-- The lowest lane of a list of (lane, target) whose target fails R21. -/
def Ctx.badTarget (x : Ctx) (l : List (Nat × DWord)) : Option (Nat × DWord) :=
  l.find? fun e => x.s.targetBad x.c.core x.c.region e.2

/-- The lines of targets are read (R17, R21): a line that fails its PARITY twice kills the cast; a target that fails the check traps BADTARGET;
else the transfer goes on. -/
def Ctx.toTargets (x : Ctx) (l : List (Nat × DWord)) (go : Ctx → Eff) : Eff :=
  match l.findSome? fun e => x.s.targetBroken x.c.core x.c.region e.2 with
  | some phys => .moved (x.commit.parityKill x.c phys)
  | none =>
    match x.badTarget l with
    | some (L, pc) => .trap { x with s := x.s.dropBadCopies x.c.core x.c.region (l.map (·.2)) } 3 (badTargetInfo pc L)
    | none => go { x with s := x.s.dropBadCopies x.c.core x.c.region (l.map (·.2)) }

/-- DIVIDE: the strands of the sub-bundle go to their next PCs, those of ACTIVE to `target`, the others to the next slot (R63). The sub-bundle
with the lowest lane goes on; the others follow it in the rotation. A link result is written first (R78). -/
def Ctx.branch (x : Ctx) (m : Bool) (target : Nat → DWord) (link : RegResult) : Eff :=
  x.toTargets (x.act.lanes.map fun L => (L, target L)) fun x =>
    let t := x.s.coreClock
    let next := nextPc x.sub.pc
    let groups := groupLanes ((x.sub.mask &&& x.b.live).lanes.map fun L => (L, if x.act.getLsbD L then target L else next))
    let b := x.b.writeShort t link
    match groups with
    | [] => .moved ({ x with sub := x.advance none, b := b }.mark m)
    | (pc, mask) :: rest =>
      -- strands that branch enter their line anew, those that fall through go on out of the copy held (R18)
      let held := fun m : LaneMask => if x.act &&& m = 0 then x.sub.line else none
      let first := { (x.sub.goto pc t) with mask := mask, issued := x.sub.issued + 1, line := held mask }
      let others := rest.map fun g => { (SubB.start g.2 g.1 t) with line := held g.2 }
      .moved ({ x with sub := first, b := { b with subs := first :: others ++ b.subs.tail } }.mark m)

/-- bra -/
def effBra (f : FmtB) (x : Ctx) : Eff := x.branch (f.m == 1) (fun _ => relTarget x.sub.pc f.offset) RegResult.empty
/-- bra (R76) -/
def execBra (f : FmtB) (s : State) : Host.Outcome State Fault Refusal := run (.bra f) (effBra f) s

/-- A register target in a lane (R77). -/
def Ctx.regTarget (x : Ctx) (code : BitVec 10) (L : Nat) : DWord := BitVec.ofNat 64 (x.raw64 4 code.toNat L)

/-- brx -/
def effBrx (f : FmtB) (x : Ctx) : Eff := x.branch (f.m == 1) (x.regTarget f.reg) RegResult.empty
/-- brx (R77) -/
def execBrx (f : FmtB) (s : State) : Host.Outcome State Fault Refusal := run (.brx f) (effBrx f) s
/-- ret: as `brx` -/
def effRet (f : FmtB) (x : Ctx) : Eff := x.branch (f.m == 1) (x.regTarget f.reg) RegResult.empty
/-- ret (R77) -/
def execRet (f : FmtB) (s : State) : Host.Outcome State Fault Refusal := run (.ret f) (effRet f) s

/-- The link: the next slot's PC in every ACTIVE lane of the pair (R78). -/
def Ctx.linkWrite (x : Ctx) (code : BitVec 10) : RegResult := x.result64 code.toNat true fun _ => (nextPc x.sub.pc, 0)

/-- call -/
def effCall (f : FmtB) (x : Ctx) : Eff := x.branch (f.m == 1) (fun _ => relTarget x.sub.pc f.offset) (x.linkWrite f.reg)
/-- call (R78) -/
def execCall (f : FmtB) (s : State) : Host.Outcome State Fault Refusal := run (.call f) (effCall f) s
/-- callx -/
def effCallx (f : FmtB) (x : Ctx) : Eff := x.branch (f.m == 1) (x.regTarget f.aux) (x.linkWrite f.reg)
/-- callx (R78) -/
def execCallx (f : FmtB) (s : State) : Host.Outcome State Fault Refusal := run (.callx f) (effCallx f) s

/-! ## Sync spans (R222) -/

/-- Strands that an open span with unperformed accesses holds back: a span ends only after its accesses have performed (R222). -/
def Ctx.spanBusy (x : Ctx) (strands : List Nat) : Bool :=
  x.b.spans.any fun e => strands.contains e.strand &&
    x.s.mem.requests.any fun q => q.crew == x.c.cid && q.bun == x.b.index && q.strands.contains e.strand

/-- A release of the strands waits: for their unperformed accesses and the acknowledgements of those performed, at any scope for their `red`s,
parked ones too, and at gang, device and system scope for the bundle's parked stores and those it may be ordered after (R209, R214, R215, R242,
R301). -/
def Ctx.releaseWaits (x : Ctx) (strands : List Nat) (scope : Nat) : Bool :=
  x.s.mem.requests.any (fun q => q.crew == x.c.cid && q.strands.any strands.contains) || x.s.mem.unacked x.c.cid strands ||
  x.s.cores.any (fun k => k.upd.any fun u => u.users.any fun e => e.1 == x.c.cid && strands.contains e.2.2) ||
  x.s.cores.any (fun k => k.replay.any fun r => r.red && r.crew == x.c.cid && r.strands.any strands.contains) ||
  (wideScope scope && (x.s.hasParked x.c x.b.index || x.s.lateStores x.c.cid))

/-- An ORDER code releases. -/
def releases (order : Nat) : Bool := order == 2 || order == 3 || order == 4
/-- An ORDER code acquires. -/
def acquires (order : Nat) : Bool := order == 1 || order == 3 || order == 4

/-- Strands of ACTIVE lanes. -/
def Ctx.actStrands (x : Ctx) : List Nat := x.b.strandsOf x.act

/-- An acquire of one of the strands is not bound yet, or under the NaN trap option not past its report (R285), or a store in the sc order has not performed: later accesses wait (R214). -/
def Ctx.acqPending (x : Ctx) (strands : List Nat) : Bool :=
  x.s.mem.requests.any (fun q => q.crew == x.c.cid && q.pend.isNone && acquires q.order && q.strands.any strands.contains) ||
  x.b.pend.any fun p => (p.result.isNone || (x.cast.nantrap && !p.written)) && (match p.gather with
    | some g => g.acquire && (x.b.strandsOf g.mask).any strands.contains
    | none => false)

/-- An access cannot go yet: an earlier acquire is not bound; an ordered one also waits for the unperformed accesses of its sync span and for
its release part (R214, R222). -/
def Ctx.memWaits (x : Ctx) (order scope : Nat) : Bool :=
  x.acqPending x.actStrands ||
  (order != 0 && (x.spanBusy x.actStrands || (releases order && x.releaseWaits x.actStrands scope)))

/-- The bundle has synchronised: accesses of others may be ordered after the stores it has parked (R215, log entry 78). -/
def Ctx.markParked (x : Ctx) : Ctx :=
  let k := x.s.core x.c.core
  let mine := fun r : Replay => r.crew == x.c.cid && r.bun == x.b.index && !r.out
  if k.replay.any mine then
    { x with s := x.s.setCore x.c.core { k with replay := k.replay.map fun r => if mine r then { r with out := true } else r } }
  else x

/-- The sync spans of strands end. -/
def Ctx.endSpans (x : Ctx) (strands : List Nat) : Ctx :=
  let x := if strands.isEmpty then x else x.markParked
  { x with b := { x.b with spans := x.b.spans.filter fun e => !strands.contains e.strand } }

/-- An ordered access ends the sync spans of its strands. -/
def Ctx.ordered (x : Ctx) (order : Nat) : Ctx := if order = 0 then x else x.endSpans x.actStrands

/-- STRANDs of the sub-bundle. -/
def Ctx.subStrands (x : Ctx) : List Nat := x.b.strandsOf (x.sub.mask &&& x.b.live)

/-! ## Parking (R64) -/

/-- The sub-bundle parks and the turn moves on. -/
def Ctx.parked (x : Ctx) (p : Park) : State :=
  let b := x.b.setCurrent { x.sub with park := p, stall := none, issued := 0 }
  x.s.setCrew (x.c.setBundle (b.rotate x.s.coreClock))

/-- Park as a synchronising operation: the strands' earlier accesses have performed and their spans end first, then what has become possible
happens (R222, R301). -/
def Ctx.syncPark (x : Ctx) (p : Park) : Eff :=
  if x.releaseWaits x.subStrands 1 then .stall x
  else .moved (((x.endSpans x.subStrands).parked p).progress x.c.cid)

/-- join -/
def effJoin (_f : FmtA) (x : Ctx) : Eff := x.syncPark .join
/-- join (R79) -/
def execJoin (f : FmtA) (s : State) : Host.Outcome State Fault Refusal := run (.join f) (effJoin f) s

/-- The target of a lane of `reform` (R80). -/
def reformTarget (f : FmtB) (x : Ctx) (L : Nat) : DWord :=
  let code := f.reg.toNat
  if 864 ≤ code ∧ code < 880 then (if x.pred code L then relTarget x.sub.pc f.offset else nextPc x.sub.pc) else x.regTarget f.reg L

/-- `reform` acts as `join` in the producer bundle, in a spawned bundle and in one that holds a helper (R71, R189). -/
def Ctx.filesNothing (x : Ctx) : Bool := x.b.index == x.cast.producer || x.b.stage.isSome || x.b.helper &&& x.b.live != 0

/-- reform -/
def effReform (f : FmtB) (x : Ctx) : Eff :=
  if x.filesNothing then x.syncPark .join
  else
    x.toTargets ((x.sub.mask &&& x.b.live).lanes.map fun L => (L, reformTarget f x L)) fun x =>
      x.syncPark (.reform f.aux.toNat (lanesOf (reformTarget f x)))
/-- reform (R80) -/
def execReform (f : FmtB) (s : State) : Host.Outcome State Fault Refusal := run (.reform f) (effReform f) s

/-- bar -/
def effBar (f : FmtA) (x : Ctx) : Eff := x.syncPark (.bar f.func.toNat)
/-- bar (R82) -/
def execBar (f : FmtA) (s : State) : Host.Outcome State Fault Refusal := run (.bar f) (effBar f) s

/-- exit: an `exit` that leaves its slot without strands waits for the slot's parked stores (R211) -/
def effExit (_f : FmtA) (x : Ctx) : Eff :=
  let moved := { x with sub := x.advance none }
  let b := (moved.b.setCurrent moved.sub).exitLanes x.act
  if b.live = 0 && x.s.hasParked x.c x.b.index then .stall x
  else
    let t := x.s.coreClock
    -- with strands left in the sub-bundle its turn ends; without, it has left the rotation already
    let b := if x.sub.mask &&& b.live = 0 then b.takeOver t else b.rotate t
    .moved ((x.s.setBundle x.c b).progress x.c.cid)
/-- exit (R81) -/
def execExit (f : FmtA) (s : State) : Host.Outcome State Fault Refusal := run (.exit f) (effExit f) s

/-- yield -/
def effYield (_f : FmtA) (x : Ctx) : Eff :=
  if x.act = 0 then .short x RegResult.empty
  else .moved (x.s.setCrew (x.c.setBundle ((x.b.setCurrent (x.advance none)).rotate x.s.coreClock)))
/-- yield (R83) -/
def execYield (f : FmtA) (s : State) : Host.Outcome State Fault Refusal := run (.yield f) (effYield f) s

/-- sleep: it resumes at the next slot -/
def effSleep (f : FmtI) (x : Ctx) : Eff :=
  let y := { x with sub := x.advance none }
  if x.act = 0 then .short x RegResult.empty
  else if f.imm = 0 then .moved (x.s.setCrew (x.c.setBundle ((x.b.setCurrent y.sub).rotate x.s.coreClock)))
  else .moved (y.parked (.sleep (x.s.coreClock + f.imm.toNat)))
/-- sleep (R84) -/
def execSleep (f : FmtI) (s : State) : Host.Outcome State Fault Refusal := run (.sleep f) (effSleep f) s

/-! ## rep (R36 to R40) -/

/-- The effects of the instructions a `rep` may be bound to (R38). -/
def boundEff (i : Instr) : Option (Ctx → Eff) :=
  match i with
  | .add f => some (effAdd f)
  | .sub f => some (effSub f)
  | .addc f => some (effAddc f)
  | .subb f => some (effSubb f)
  | .mul f => some (effMul f)
  | .mulh f => some (effMulh f)
  | .mad f => some (effMad f)
  | .madw f => some (effMadw f)
  | .min f => some (effMin f)
  | .max f => some (effMax f)
  | .and f => some (effAnd f)
  | .or f => some (effOr f)
  | .xor f => some (effXor f)
  | .andn f => some (effAndn f)
  | .shl f => some (effShl f)
  | .shr f => some (effShr f)
  | .sar f => some (effSar f)
  | .rot f => some (effRot f)
  | .bfe f => some (effBfe f)
  | .bfi f => some (effBfi f)
  | .popc f => some (effPopc f)
  | .clz f => some (effClz f)
  | .ctz f => some (effCtz f)
  | .brev f => some (effBrev f)
  | .cmp f => some (effCmp f)
  | .lea f => some (effLea f)
  | .dp4 f => some (effDp4 f)
  | .dp2 f => some (effDp2 f)
  | .sadd f => some (effSadd f)
  | .ssub f => some (effSsub f)
  | .prmt f => some (effPrmt f)
  | .fadd f => some (effFadd f)
  | .fmul f => some (effFmul f)
  | .ffma f => some (effFfma f)
  | .fmin f => some (effFmin f)
  | .fmax f => some (effFmax f)
  | .fcmp f => some (effFcmp f)
  | .fclass f => some (effFclass f)
  | .frnd f => some (effFrnd f)
  | .fdot2 f => some (effFdot2 f)
  | .fscale f => some (effFscale f)
  | .fexp f => some (effFexp f)
  | .cvt f => some (effCvt f)
  | .cvtp f => some (effCvtp f)
  | .quant f => some (effQuant f)
  | .rcp f => some (effRcp f)
  | .rsq f => some (effRsq f)
  | .sqrt f => some (effSqrt f)
  | .lg2 f => some (effLg2 f)
  | .ex2 f => some (effEx2 f)
  | .sinp f => some (effSinp f)
  | .cosp f => some (effCosp f)
  | .tanh f => some (effTanh f)
  | .mov f => some (effMov f)
  | .sel f => some (effSel f)
  | _ => none

/-- The fields of a format A instruction, when it is one. -/
def fmtA? (i : Instr) : Option FmtA :=
  match fmtOf i with
  | .a f => some f
  | _ => none

/-- The instruction with other fields: the one its words decode to. -/
def withFmt (i : Instr) (f : FmtA) : Instr :=
  match i with
  | .add _ => .add f
  | .sub _ => .sub f
  | .addc _ => .addc f
  | .subb _ => .subb f
  | .mul _ => .mul f
  | .mulh _ => .mulh f
  | .mad _ => .mad f
  | .madw _ => .madw f
  | .min _ => .min f
  | .max _ => .max f
  | .and _ => .and f
  | .or _ => .or f
  | .xor _ => .xor f
  | .andn _ => .andn f
  | .shl _ => .shl f
  | .shr _ => .shr f
  | .sar _ => .sar f
  | .rot _ => .rot f
  | .bfe _ => .bfe f
  | .bfi _ => .bfi f
  | .popc _ => .popc f
  | .clz _ => .clz f
  | .ctz _ => .ctz f
  | .brev _ => .brev f
  | .cmp _ => .cmp f
  | .lea _ => .lea f
  | .dp4 _ => .dp4 f
  | .dp2 _ => .dp2 f
  | .sadd _ => .sadd f
  | .ssub _ => .ssub f
  | .prmt _ => .prmt f
  | .fadd _ => .fadd f
  | .fmul _ => .fmul f
  | .ffma _ => .ffma f
  | .fmin _ => .fmin f
  | .fmax _ => .fmax f
  | .fcmp _ => .fcmp f
  | .fclass _ => .fclass f
  | .frnd _ => .frnd f
  | .fdot2 _ => .fdot2 f
  | .fscale _ => .fscale f
  | .fexp _ => .fexp f
  | .cvt _ => .cvt f
  | .cvtp _ => .cvtp f
  | .quant _ => .quant f
  | .rcp _ => .rcp f
  | .rsq _ => .rsq f
  | .sqrt _ => .sqrt f
  | .lg2 _ => .lg2 f
  | .ex2 _ => .ex2 f
  | .sinp _ => .sinp f
  | .cosp _ => .cosp f
  | .tanh _ => .tanh f
  | .mov _ => .mov f
  | .sel _ => .sel f
  | j => j

/-- A 4-bit step. -/
def stepOf (x : BitVec 4) : Int := x.toInt

/-- A code moved by i steps (R39). -/
def movedCode (code : BitVec 10) (d : BitVec 4) (i : Nat) : Int := (code.toNat : Int) + i * stepOf d

/-- The bound instruction's fields in repeat i. -/
def movedFmt (r : FmtP) (f : FmtA) (i : Nat) : FmtA :=
  let mv := fun (c : BitVec 10) (d : BitVec 4) => BitVec.ofInt 10 (movedCode c d i)
  { f with dst := mv f.dst r.dstep, opa := mv f.opa r.astep, opb := mv f.opb r.bstep, opc := mv f.opc r.cstep }

/-- The step checks of the `rep` (R39): only a used field that holds a v or s code may be stepped, by an even step for a 64-bit operand. -/
def stepChecks (r : FmtP) (i : Instr) (f : FmtA) : List Failure :=
  let x := specA i f
  let one := fun (bit : Nat) (p : Pos) (code : BitVec 10) (d : BitVec 4) =>
    illOp bit (d != 0 && (!p.used || decide (800 ≤ code.toNat) || (p.names == 2 && stepOf d % 2 != 0)))
  one 76 x.dst f.dst r.dstep ++ one 72 x.a f.opa r.astep ++ one 68 x.b f.opb r.bstep ++ one 64 x.c f.opc r.cstep

/-- The moved-operand checks of every repeat (R39): codes that leave their kind, then the entry's own checks. Of several repeats whose fields fail,
the highest field is named, and in it the lowest repeat's name (log entry 69). DESIGN CHOICE (log entry 84): the check of a `mov` to s, whose moved
destination must stay below s128 (R86), is made with them, for every repeat before repeat 0; like the entry's other checks it names its field only
where no moved code leaves its kind. -/
def movedChecks (env : CheckEnv) (r : FmtP) (i : Instr) (f : FmtA) : List Failure :=
  let out := fun (bit : Nat) (code : BitVec 10) (d : BitVec 4) n =>
    let c := movedCode code d n
    illOperand bit (d != 0 && (if code.toNat < 640 then decide (c < 0) || decide (640 ≤ c) else decide (c < 640) || decide (800 ≤ c)))
  let outs := (List.range (r.count.toNat + 1)).flatMap fun n =>
    out 76 f.dst r.dstep n ++ out 66 f.opa r.astep n ++ out 56 f.opb r.bstep n ++ out 46 f.opc r.cstep n
  if outs.isEmpty then (List.range (r.count.toNat + 1)).flatMap fun n => checks env (withFmt i (movedFmt r f n)) else outs

/-- The trap of a failing check of a pair's bound instruction (R43, R369). -/
def Ctx.pairTrap (x : Ctx) (f : Failure) : State :=
  x.commit.takeTrap x.c.cid x.b.index f.cause.code (f.info true) x.sub.pc true x.sub.rep 0

/-- The slot after the `rep`, when the line's PAIRS bit binds it (R38). -/
def Ctx.boundInstr (x : Ctx) : Option Instr :=
  match x.sub.lineData with
  | none => none
  | some d =>
    let j := pcSlot x.sub.pc
    if j < 4 && pairBit d j then
      match decode (slotBits d (j + 1)) with
      | .ok i => some i
      | .error _ => none
    else none

/-- The PAIRS bit of the `rep` is set: it and the slot after it are one unit, which `tret.next` skips whole (R38, R377). -/
def Ctx.isBound (x : Ctx) : Bool :=
  match x.sub.lineData with
  | none => false
  | some d => decide (pcSlot x.sub.pc < 4) && pairBit d (pcSlot x.sub.pc)

/-- The bound instruction with its fields, when it is one that a `rep` may repeat (R38). -/
def Ctx.bound (x : Ctx) : Option (Instr × FmtA) :=
  match x.boundInstr with
  | none => none
  | some i => match boundEff i, fmtA? i with
    | some _, some f => some (i, f)
    | _, _ => none

/-- The checks of a `rep` (R36, R38, R39): its own fields and steps; an unbound one, and one bound to an instruction it may not repeat, fail at
OPCODE (log entry 69). -/
def repChecks (r : FmtP) (x : Ctx) : List Failure :=
  checks x.env (.rep r) ++ match x.bound with
    | none => illOp 86 true
    | some (i, f) => stepChecks r i f

/-- Carry out one repeat of a bound pair: the checks of the `rep`, of the bound instruction and of the moved operands, then repeat number
REPCOUNT; past the last repeat the bundle goes on after the pair (R38 to R40, R43). -/
def repeatPair (r : FmtP) (x : Ctx) : State :=
  match firstFailure (repChecks r x) with
  | some e => x.commit.takeTrap x.c.cid x.b.index e.cause.code (e.info false) x.sub.pc x.isBound x.sub.rep 0
  | none =>
    match x.bound with
    | none => x.commit
    | some (i, f) =>
      match firstFailure (checks x.env i), firstFailure (movedChecks x.env r i f) with
      | some e, _ => x.pairTrap e
      | none, some e => x.pairTrap e
      | none, none =>
        if r.count.toNat < x.sub.rep then
          { x with sub := { (x.sub.goto (skipPc x.sub.pc 2) x.s.coreClock) with issued := x.sub.issued } }.commit
        else
          let j := withFmt i (movedFmt r f x.sub.rep)
          match boundEff j with
          | none => x.commit
          | some eff => perform j (some { i := x.sub.rep, count := r.count.toNat }) eff x

/-- The guard of the bound instruction, read afresh each repeat (R39). -/
def Ctx.repGuard (x : Ctx) : BitVec 5 :=
  match x.boundInstr with
  | some i => guardOf i
  | none => 0b11110

/-- The issue of a `rep` is counted once per repeat: not where none is left (R344). -/
def Ctx.countedRep (x : Ctx) (r : FmtP) : Ctx :=
  if r.count.toNat < x.sub.rep then { x with c := { x.c with stuck := none, gangStuck := none } } else x.counted

/-- rep (R39): one repeat of the bound pair; the pair issues again until its last repeat is done (R85) -/
def execRep (f : FmtP) (s : State) : Host.Outcome State Fault Refusal :=
  match s.cur with
  | none => .fault .noBundle
  | some (cid, bi) =>
    match s.ctx? cid bi 0b11110 with
    | none => .fault .noBundle
    | some x =>
      match s.ctx? cid bi x.repGuard with
      | none => .fault .noBundle
      | some y => .next (repeatPair f (y.countedRep f))

end Sys2Proof.Machine
end

