-- ==== Sys2Proof/Machine/Scratch.lean ====
section
/-! DEFINITION. Scratch: addresses and areas (R182, R183), faults (R185), ring windows (R191), the range scoreboard's waits (R259), and the
scratch instructions (0x180 to 0x184 and `gbar`, R196 to R202). A scratch access performs when it issues (log entry 7). -/

namespace Sys2Proof.Machine

/-! ## Where an access goes -/

/-- The kind of a scratch access. -/
inductive Reach where
  | load
  | store
  | atom
  deriving DecidableEq, Repr

/-- What an address comes to for a lane. -/
inductive Spot where
  /-- a byte offset in an area of a crew -/
  | at (cid : Nat) (area : Area) (off : Nat)
  | fault
  /-- it waits for a ring stage -/
  | wait
  deriving DecidableEq, Repr

/-- The bytes of an area. -/
def Crew.areaMem (c : Crew) (a : Area) : Mem :=
  match a with
  | .plain => c.plain
  | .ring => c.ringMem
  | .live => c.live
  | .shadow => c.shadow

/-- Replace the bytes of an area. -/
def Crew.setAreaMem (c : Crew) (a : Area) (m : Mem) : Crew :=
  match a with
  | .plain => { c with plain := m }
  | .ring => { c with ringMem := m }
  | .live => { c with live := m }
  | .shadow => { c with shadow := m }

/-- The bank of an exchange area an access reaches (R193). -/
def exchBank (k : Reach) : Area := if k == .load then .live else .shadow

/-- The bundle is bound to a stage of the spawn ring i. -/
def Bundle.boundStage (b : Bundle) (r : Ring) : Option Nat := if r.spawn then b.stage else none

/-- An arrival of the slot on a stage has issued and not yet completed: what it stores next into the ring is meant for a later stage (R190,
R400). -/
def Crew.arriving (c : Crew) (b : Bundle) (ring stage : Nat) : Bool :=
  c.arrivals.any fun a => a.bun == b.index && a.ring == ring && a.stage == stage

/-- A ring window access (R189, R191): offset in the window, by the bundle. -/
def Crew.ringSpot (c : Crew) (b : Bundle) (k : Reach) (i off n : Nat) : Spot :=
  match c.ring? i with
  | none => .fault
  | some r =>
    if r.stages * r.size < off + n then .fault
    else
      let j := off / r.size
      let place := fun k => Spot.at c.cid .ring (r.base + k * r.size + off % r.size)
      match b.boundStage r with
      | some st => place ((st + j) % r.stages)
      | none =>
        let ph := r.phys j
        let st := (r.stage ph).st
        if j = 0 && k != .store then (if r.spawn then .fault else if st == .full then place ph else .wait)
        else if j = r.dist && k != .load && (st != .empty || c.arriving b i ph) then .wait
        else place ph

/-- The crew of a gang window's CREW field: one of the same gang (R183). -/
def Ctx.gangCrew (x : Ctx) (idx : Nat) : Option Crew :=
  if idx == x.c.gangIdx then some x.c
  else if x.c.gangW * x.c.gangH ≤ idx then none
  else x.s.crews.find? fun d => d.castId == x.c.castId && d.gangId == x.c.gangId && d.gangIdx == idx

/-- Where a lane's access of n bytes goes (R182, R183, R185). -/
def Ctx.spot (x : Ctx) (k : Reach) (a n : Nat) : Spot :=
  if a % n != 0 then .fault
  else
    match a / 2 ^ 29 with
    | 0 | 1 => if a + n ≤ x.c.plainSize then .at x.c.cid .plain a else .fault
    | 2 => x.c.ringSpot x.b k 0 (a % 2 ^ 29) n
    | 3 => x.c.ringSpot x.b k 1 (a % 2 ^ 29) n
    | 4 | 5 => if a % 2 ^ 30 + n ≤ x.c.exchSize then .at x.c.cid (exchBank k) (a % 2 ^ 30) else .fault
    | _ =>
      let off := a % 2 ^ 24
      match x.gangCrew (a / 2 ^ 25 % 32) with
      | none => .fault
      | some d =>
        if a / 2 ^ 24 % 2 = 1 then (if off + n ≤ d.exchSize then .at d.cid (exchBank k) off else .fault)
        else if k != .load && d.cid != x.c.cid then .fault
        else if off + n ≤ d.plainSize then .at d.cid .plain off
        else .fault

/-- Two ranges share a 256-byte ordering granule (R258). -/
def granulesMeet (a n b m : Nat) : Bool := decide (a / 256 ≤ (b + m - 1) / 256) && decide (b / 256 ≤ (a + n - 1) / 256)

/-- A crew of the context: its own, or another resident one. -/
def Ctx.crewOf (x : Ctx) (cid : Nat) : Option Crew := if cid = x.c.cid then some x.c else x.s.crew? cid

/-- An access of n bytes at a spot waits on the scoreboard of the crew it reaches (R259). -/
def Ctx.held (x : Ctx) (k : Reach) (sp : Spot) (n : Nat) : Bool :=
  match sp with
  | .wait => true
  | .fault => false
  | .at cid area off =>
    match x.crewOf cid with
    | none => false
    | some d => (x.s.core d.core).sboard.any fun e =>
        e.crew == cid && e.range.area == area && (e.write || k != .load) && granulesMeet e.range.off e.range.len off n

/-- Bytes read at a spot. -/
def Ctx.scratchRead (x : Ctx) (sp : Spot) (n : Nat) : List Byte :=
  match sp with
  | .at cid area off =>
    match x.crewOf cid with
    | some d => (d.areaMem area).read off n
    | none => []
  | _ => []

/-- Bytes written at a spot. -/
def Ctx.scratchWrite (x : Ctx) (sp : Spot) (bs : List Byte) : Ctx :=
  match sp with
  | .at cid area off =>
    match x.crewOf cid with
    | none => x
    | some d =>
      let d := d.setAreaMem area ((d.areaMem area).write off bs)
      if cid = x.c.cid then { x with c := d } else { x with s := x.s.setCrew d }
  | _ => x

/-- Poisoned scratch meets an access of n bytes at a spot. -/
def Ctx.scratchPoison (x : Ctx) (sp : Spot) (n : Nat) : Bool :=
  match sp with
  | .at cid area off =>
    match x.crewOf cid with
    | some d => d.poison.any fun e => e.1 == area && decide (e.2 < off + n) && decide (off < e.2 + 64)
    | none => false
  | _ => false

/-- The first lane of an access that would read poisoned scratch. -/
def Ctx.poisonLane (x : Ctx) (l : List (Nat × Spot)) (n : Nat) : Option Nat := (l.find? fun e => x.scratchPoison e.2 n).map (·.1)

/-- Whole 64-byte units that the stores of one instruction overwrite lose their poison (R212). -/
def Crew.clearWhole (c : Crew) (l : List (Nat × Spot)) (n : Nat) : Crew :=
  if c.poison.isEmpty then c
  else
    let here := fun area => unitsCovered (l.filterMap fun e => match e.2 with
      | .at cid a off => if cid == c.cid && a == area then some (off, n) else none
      | _ => none)
    { c with poison := c.poison.filter fun e => !(here e.1).contains e.2 }

/-- The poison that a store's lanes clear, in every crew. -/
def Ctx.clearWhole (x : Ctx) (l : List (Nat × Spot)) (n : Nat) : Ctx :=
  { x with c := x.c.clearWhole l n, s := { x.s with crews := x.s.crews.map fun c => c.clearWhole l n } }

/-! ## Faults (R185) -/

/-- Strands of lanes are switched off: their FMASK bits are set and they count as exited (R185). -/
def Ctx.switchOff (x : Ctx) (m : LaneMask) : Ctx :=
  if m = 0 then x
  else
    { x with
      b := { x.b with fmask := x.b.fmask ||| m, exited := x.b.exited ||| m }
      c := { x.c with off := min 1024 (x.c.off + popMask m), faults := bump x.c.faults 7 (popMask m) }
      act := x.act &&& ~~~m }

/-- After an instruction that has switched strands off: the helpers of quads left without others exit, sub-bundles without strands leave, the crew
may have triggered, and what has become possible happens (R66, R236, R322). -/
def sweep (s0 : State) (o : Host.Outcome State Fault Refusal) : Host.Outcome State Fault Refusal :=
  match o with
  | .next s =>
    match s.cur with
    | none => .next s
    | some (cid, bi) =>
      match s.bundle? cid bi with
      | none => .next s
      | some (c, b) =>
        if (s0.bundle? cid bi).map (·.2.exited) == some b.exited then .next s
        else
          let e := b.exitLanes 0
          let stays := match b.subs with
            | y :: _ => y.mask &&& e.live != 0
            | [] => true
          .next (((s.setBundle c (if stays then e else e.takeOver s.coreClock)).progress cid).noteTrig cid)
  | o => o

/-! ## Loaded values -/

/-- The register words of loaded bytes (R33, R197): n and s widths extended to 32 bits, wider ones as they lie. -/
def loadedWords (width : Nat) (bs : List Byte) : List Word :=
  let w := fun i => BitVec.ofNat 32 (leNat ((bs.drop (4 * i)).take 4))
  match width with
  | 0 | 2 => [BitVec.ofNat 32 (leNat bs)]
  | 1 => [(BitVec.ofNat 8 (leNat bs)).signExtend 32]
  | 3 => [(BitVec.ofNat 16 (leNat bs)).signExtend 32]
  | 4 => [w 0]
  | 5 => [w 0, w 1]
  | _ => [w 0, w 1, w 2, w 3]

/-- The writes of a load into v names: each lane's bytes. -/
def Ctx.loadWrites (x : Ctx) (dst width : Nat) (uni : Bool) (bytes : Nat → List Byte) : List VWrite :=
  let per := lanesOf fun L => if x.act.getLsbD L then loadedWords width (bytes L) else []
  (List.range (widthNames width)).map fun i => x.vwrite (dst + i) 0 (per.map fun l => l.getD i 0) none uni

/-- The spots of the lanes of a mask. -/
def Ctx.spots (x : Ctx) (k : Reach) (f : FmtM) (mask : LaneMask) : List (Nat × Spot) :=
  mask.lanes.map fun L => (L, x.spot k (x.scratchAddr f L) (widthBytes f.width.toNat))

/-- The lanes whose access faults. -/
def faultLanes (l : List (Nat × Spot)) : LaneMask := maskOf fun L => l.any fun e => e.1 == L && e.2 == .fault

/-- The spot of a lane. -/
def spotOf (l : List (Nat × Spot)) (L : Nat) : Spot :=
  match l.find? fun e => e.1 == L with
  | some e => e.2
  | none => .fault

/-! ## lds, sts, atoms (R197 to R199) -/

/-- The resident crews of a crew's gang, those that have retired among them. -/
def State.gangOf (s : State) (c : Crew) : List Crew := s.crews.filter fun d => d.castId == c.castId && d.gangId == c.gangId

/-- An acquire of scratch at gang scope or wider: what another crew of the gang released carries its core's logical time (R215, R219). -/
def Ctx.gangTime (x : Ctx) (order scope : Nat) : Ctx :=
  if x.act != 0 && acquires order && wideScope scope then
    { x with s := x.s.raiseLT x.c.core ((x.s.gangOf x.c).foldl (fun m d => max m (x.s.ltOf d.core)) 0) }
  else x

/-- lds -/
def effLds (f : FmtM) (x : Ctx) : Eff :=
  let n := widthBytes f.width.toNat
  let l := x.spots .load f x.act
  if x.memWaits f.order.toNat f.scope.toNat || l.any (fun e => x.held .load e.2 n) then .stall x
  else
    match x.poisonLane l n with
    | some L => .trap x 9 (poisonInfo 0 L 1)
    | none =>
    let y := ((x.ordered f.order.toNat).gangTime f.order.toNat f.scope.toNat).switchOff (faultLanes l)
    .long y { RegResult.empty with
      v := y.loadWrites f.data.toNat f.width.toNat (x.addrU f false) fun L => y.scratchRead (spotOf l L) n }
/-- lds (R197) -/
def execLds (f : FmtM) (s : State) : Host.Outcome State Fault Refusal := sweep s (run (.lds f) (effLds f) s)

/-- sts: lanes in ascending order, so that the highest of those that name a byte leaves its value -/
def effSts (f : FmtM) (x : Ctx) : Eff :=
  let n := widthBytes f.width.toNat
  let l := x.spots .store f x.actNH
  if x.memWaits f.order.toNat f.scope.toNat || l.any (fun e => x.held .store e.2 n) then .stall x
  else
    let data := lanesOf fun L => x.storeBytes f.data.toNat n L
    let y := (x.ordered f.order.toNat).switchOff (faultLanes l)
    .short ((l.foldl (fun y e => y.scratchWrite e.2 (data.getD e.1 [])) y).clearWhole l n) RegResult.empty
/-- sts (R198) -/
def execSts (f : FmtM) (s : State) : Host.Outcome State Fault Refusal := sweep s (run (.sts f) (effSts f) s)

/-- A source of 4 or 8 bytes in a lane, a constant under its integer reading. -/
def Ctx.srcBytes (x : Ctx) (code n L : Nat) : Nat := if n = 8 then x.raw64 4 code L else x.raw32 0 code L

/-- One lane of `atoms`: the context after it, the old word and its flags. -/
def Ctx.atomLane (x : Ctx) (f : FmtM) (sp : Spot) (v cmp : Nat) : Ctx × Nat × Flags :=
  let n := widthBytes f.width.toNat
  let old := leNat (x.scratchRead sp n)
  let (new, fl) := atomOp f.func.toNat n old v cmp x.ftz
  (x.scratchWrite sp (leBytes n new), old, fl)

/-- atoms: lanes in ascending order on one word; `fadd`'s flags are pending in both forms -/
def effAtoms (f : FmtM) (x : Ctx) : Eff :=
  let n := widthBytes f.width.toNat
  let l := x.spots .atom f x.actNH
  if x.memWaits f.order.toNat f.scope.toNat || l.any (fun e => x.held .atom e.2 n) then .stall x
  else
    match x.poisonLane l n with
    | some L => .trap x 9 (poisonInfo 0 L 1)
    | none =>
    let off := faultLanes l
    let y := ((x.ordered f.order.toNat).gangTime f.order.toNat f.scope.toNat).switchOff off
    let go := l.filter fun e => !off.getLsbD e.1
    let (z, olds, fl, iv) := go.foldl (fun acc e =>
      let (z, old, fl) := acc.1.atomLane f e.2 (x.srcBytes f.aux.toNat n e.1) (x.srcBytes f.data.toNat n e.1)
      (z, acc.2.1 ++ [(e.1, old)], acc.2.2.1 ||| fl, if fl.getLsbD 0 then acc.2.2.2 ||| (1#32 <<< e.1) else acc.2.2.2)) (y, [], 0, 0)
    let old := fun L => (match olds.find? fun e => e.1 == L with
      | some e => e.2
      | none => 0)
    let r := { RegResult.empty with flags := fl, iv := iv }
    let w := { z with act := z.actNH }
    -- without a result the instruction is short, its flags pending (R58); an IV that raises FP_INVALID does so at once (R129)
    if f.data = 800 then (if f.func = 10 && !(x.cast.fpinv && !x.inTrap && iv != 0) then .long w r else .short w r)
    else .long w { r with v := w.loadWrites f.data.toNat f.width.toNat false fun L => leBytes n (old L) }
/-- atoms (R199) -/
def execAtoms (f : FmtM) (s : State) : Host.Outcome State Fault Refusal := sweep s (run (.atoms f) (effAtoms f) s)

/-! ## Rings (R200, R201) -/

/-- stbar.p: an arrival is issued on logical stage D, unless that stage has all its arrivals (R190) -/
def Ctx.produce (x : Ctx) (i : Nat) (r : Ring) : Eff :=
  let k := r.phys r.dist
  let st := r.stage k
  if r.parr ≤ st.issued then .stall x
  else
    let c := x.c.setRing i (r.setStage k { st with issued := st.issued + 1 })
    .short { x with c := { c with
      arrivals := c.arrivals ++ [{ id := c.nextArrival, bun := x.b.index, ring := i, stage := k }], nextArrival := c.nextArrival + 1 } }
      RegResult.empty

/-- stbar -/
def effStbar (f : FmtA) (x : Ctx) : Eff :=
  let i := f.func.toNat / 2
  let consumer := f.func.getLsbD 0
  match x.c.ring? i with
  | none => .trap x 1 0
  | some r =>
    if x.b.stage.isSome || (consumer && r.spawn) then .trap x 1 0
    else if x.actNH = 0 then .short x RegResult.empty
    else if !consumer then x.produce i r
    else if (r.stage (r.phys 0)).st == .full then .short { x with c := x.c.consume i } RegResult.empty
    else .stall x
/-- stbar (R200) -/
def execStbar (f : FmtA) (s : State) : Host.Outcome State Fault Refusal := run (.stbar f) (effStbar f) s

/-- The word of `ringq` (R201). -/
def Ring.query (r : Ring) (mask : Bool) : Nat :=
  let ks := List.range r.stages
  let bits := fun st : StageSt => (ks.map fun k => if (r.stage k).st == st then 2 ^ k else 0).sum
  let count := fun st : StageSt => (ks.filter fun k => (r.stage k).st == st).length
  if mask then bits .held * 2 ^ 16 + bits .full
  else (r.stage (r.phys r.dist)).issued * 2 ^ 18 + count .held * 2 ^ 13 + count .full * 2 ^ 8 + r.prime * 2 ^ 4 + r.hp

/-- ringq: the snapshot of R201 is taken at the issue (log entry 7) -/
def effRingq (f : FmtA) (x : Ctx) : Eff :=
  match x.c.ring? (f.func.toNat % 2) with
  | none => .trap x 1 0
  | some r => .long x (x.result32 f.dst.toNat 0 none true fun _ _ => (BitVec.ofNat 32 (r.query (f.func.getLsbD 1)), 0))
/-- ringq (R201) -/
def execRingq (f : FmtA) (s : State) : Host.Outcome State Fault Refusal := run (.ringq f) (effRingq f) s

/-! ## The gang barrier (R194, R202) -/

/-- gbar -/
def effGbar (_f : FmtA) (x : Ctx) : Eff := x.syncPark .gbar
/-- gbar (R202) -/
def execGbar (f : FmtA) (s : State) : Host.Outcome State Fault Refusal := run (.gbar f) (effGbar f) s

/-- The whole gang is resident, and none of it halted for pre-emption: its barrier can complete (R195, R362). -/
def State.gangWhole (s : State) (c : Crew) : Bool :=
  decide ((s.gangOf c).length = c.gangW * c.gangH) && (s.gangOf c).all fun d => d.st != .halted

/-- A range in an exchange bank. -/
def PRange.isExch (r : PRange) : Bool := r.area == .live || r.area == .shadow

/-- Work into or out of exchange areas that a `gbar` waits for: copies into one, tasks reading or writing one (R194). DESIGN CHOICE (log entry 84): an
`lput` that reads one is not waited for, and one that has not performed reads the bank it was enqueued on after the swap has zeroed it. -/
def State.exchBusy (s : State) (c : Crew) : Bool :=
  let k := s.core c.core
  k.entries.any (fun e => e.crew == c.cid && e.kind == .lcopy && (match e.range with
    | some r => r.isExch
    | none => false)) ||
  k.tasks.any fun t => t.crew == c.cid && (match t.range with
    | some r => r.isExch
    | none => false)

/-- Every non-exited strand of a crew is parked at `gbar`, with no parked stores and its accesses performed. -/
def State.gbarReady (s : State) (c : Crew) : Bool :=
  !s.binned c && !s.exchBusy c && !(s.mem.requests.any fun q => q.crew == c.cid) && !(c.bundles.any fun b => s.mem.unacked c.cid b.strands) &&
  !(s.cores.any fun k => k.upd.any fun u => u.users.any fun e => e.1 == c.cid) &&
  c.bundles.all fun b => b.live == 0 || (b.trap.isNone && !s.hasParked c b.index && b.subs.all fun y => y.park == .gbar)

/-- The banks exchange roles; scoreboard entries and queued work keep the bank they reach. -/
def flipArea (a : Area) : Area :=
  match a with
  | .live => .shadow
  | .shadow => .live
  | a => a

/-- A range after the swap. -/
def PRange.flip (r : PRange) : PRange := { r with area := flipArea r.area }

/-- The swap of one crew's banks, its strands resuming at the next slot (R194); without a gang shape it acts as `bar.gang`, and crew constants settle
(R107, R202). -/
def State.swapBanks (s : State) (c : Crew) (lt : Nat) : State :=
  let t := s.coreClock
  let c := if c.gangW * c.gangH = 1 then c.settleConsts else c
  let k := s.core c.core
  let mine := fun cid => cid == c.cid
  let k := { k with
    lt := lt
    ltClock := t
    sboard := k.sboard.map fun e => if mine e.crew then { e with range := e.range.flip } else e
    entries := k.entries.map fun e => if mine e.crew then { e with range := e.range.map PRange.flip } else e
    tasks := k.tasks.map fun e => if mine e.crew then { e with range := e.range.map PRange.flip } else e }
  (s.setCore c.core k).setCrew { c with
    live := c.shadow
    shadow := []
    poison := c.poison.filterMap fun e => match e.1 with
      | .live => none
      | .shadow => some (.live, e.2)
      | _ => some e
    bundles := c.bundles.map fun b =>
      { b with subs := b.subs.map fun y => if y.park == .gbar then y.goto (nextPc y.pc) t else y } }

/-- GBAR_COMPLETE: when every strand of every crew of the gang has arrived, all crews swap and their strands resume (R194); not while a crew
of it is halted or saved (R195). -/
def execGbarComplete (crew : Nat) (s : State) : Host.Outcome State Fault Refusal :=
  match s.crew? crew with
  | none => .next s
  | some c =>
    let gang := s.gangOf c
    let parked := gang.any fun d => d.bundles.any fun b => b.live != 0
    if parked && s.gangWhole c && gang.all s.gbarReady then
      let lt := (gang.map fun d => s.ltOf d.core).foldl max 0
      .next (gang.foldl (fun s d => s.swapBanks d lt) s)
    else .next s

/-- PRODUCER_ARRIVAL_COMPLETE: an arrival of `stbar.p` completes; the scratch accesses before it have performed (R190). -/
def execProducerArrivalComplete (crew arrival : Nat) (s : State) : Host.Outcome State Fault Refusal :=
  match s.crew? crew with
  | none => .next s
  | some c =>
    match c.arrivals.find? fun a => a.id == arrival with
    | none => .next s
    | some a =>
      let c := { c with arrivals := c.arrivals.filter fun e => e.id != arrival }
      .next (s.setCrew (c.arrive (s.castOf c) s.coreClock a.ring a.stage))

end Sys2Proof.Machine
end

