-- ==== Sys2Proof/Machine/Memory.lean ====
section
/-! DEFINITION. The memory system's side of global accesses: logical time (R219), update-only lines (R240, R241), exact-sum cells (R134,
R135, R246), what a request does when its home slice serves it, and the slices' queues, waiting lists, refusals and reservations (R295 to
R297). -/

namespace Sys2Proof.Machine

/-! ## Update-only lines (R240) -/

/-- Two words of update-only lines overlap. -/
def UpdWord.meets (w : UpdWord) (idx bytes : Nat) : Bool := decide (w.idx * 4 < idx * 4 + bytes) && decide (idx * 4 < w.idx * 4 + w.bytes)

/-- A `red` of a word meets one of another operation or width in an update-only line: the line must merge before a fresh one is started. -/
def CoreSt.redClash (k : CoreSt) (a func n : Nat) : Bool :=
  let idx := a % 128 / 4
  k.upd.any fun u => u.line == lineOf a && u.words.any fun w => w.meets idx n && !(w.idx == idx && w.func == func && w.bytes == n)

/-- A `red` lane placed in the core's update-only line of its line (R240), one with which it does not clash, or a fresh one, which holds L1
capacity. -/
def State.redLocal (s : State) (core : Nat) (user : Nat × Nat × Nat) (a func n v : Nat) : State :=
  let line := lineOf a
  let idx := a % 128 / 4
  let mine := fun u : UpdLine => u.line == line
  let s := if (s.core core).upd.any mine then s else s.l1Room core line
  let k := s.core core
  let fresh : UpdWord := { idx := idx, func := func, bytes := n, val := v }
  let join := fun w : UpdWord => if w.idx == idx then { w with val := (atomOp func n w.val v 0 false).1 } else w
  let add := fun u : UpdLine =>
    { u with
      words := if u.words.any (fun w => w.idx == idx) then u.words.map join else u.words ++ [fresh]
      users := if u.users.contains user then u.users else u.users ++ [user] }
  if k.upd.any mine then s.setCore core { k with upd := k.upd.map fun u => if mine u then add u else u }
  else s.setCore core { k with upd := k.upd ++ [{ line := line, words := [fresh], users := [user] }] }

/-! ## Exact-sum cells (R134, R135, R246) -/

/-- O, E and V of a cell's 16 bytes. -/
def cellO (bs : List Byte) : Bool := (bs.getD 0 0).getLsbD 0
/-- E -/
def cellE (bs : List Byte) : Int := (bs.getD 1 0).toInt
/-- V -/
def cellV (bs : List Byte) : Int := readInt true 112 (leNat (bs.drop 2))
/-- A cell's bytes. -/
def cellBytes (o : Bool) (e : Byte) (v : Int) : List Byte :=
  (if o then 1 else 0) :: e :: leBytes 14 (wrapInt 112 v)

/-- A cell after `xsadd` of an f32 encoding. -/
def cellAdd (bs : List Byte) (x : Nat) : List Byte :=
  let e := bs.getD 1 0
  match f32.read false x with
  | .fin neg m ex =>
    let q := roundInt .rne neg m (ex - (cellE bs - 64)) false
    cellBytes (cellO bs || decide (2 ^ 96 ≤ q.natAbs)) e (cellV bs + q)
  | _ => cellBytes true e (cellV bs)

/-- The f32 value of a cell under a rounding mode (ROUND code 0 to 4), with its flags. DESIGN CHOICE (log entry 84): V = 0 reads as +0 in every
mode, `rdn` too; R120 gives the sign of a zero sum alone, and R246 that of none. -/
def cellRead (bs : List Byte) (mode : Nat) : Nat × Flags :=
  let v := cellV bs
  roundTo f32 mode false (FVal.res (.fin (decide (v < 0)) v.natAbs (cellE bs - 64)))

/-! ## What an access does at the home -/

/-- The bytes an access touches. -/
def LaneOp.width (o : LaneOp) : Nat :=
  match o with
  | .load n => n
  | .store bs => bs.length
  | .atom _ n _ _ => n
  | _ => 16

/-- It writes. -/
def LaneOp.writes (o : LaneOp) : Bool :=
  match o with
  | .load _ => false
  | .xsrd c => c
  | _ => true

/-- A request writes its line. -/
def Request.writes (q : Request) : Bool := q.wr || q.lanes.any fun e => e.op.writes

/-- It reads, and merges update-only lines first. -/
def LaneOp.reads (o : LaneOp) : Bool :=
  match o with
  | .store _ => false
  | _ => true

/-- The bytes an access leaves, of those it found. -/
def LaneOp.result (o : LaneOp) (old : List Byte) : List Byte :=
  match o with
  | .load _ => old
  | .store bs => bs
  | .atom func n v cmp => leBytes n (atomOp func n (leNat old) v cmp false).1
  | .xsadd x => cellAdd old x.toNat
  | .xsclr e => cellBytes false e 0
  | .xsrd clear => if clear then cellBytes false (old.getD 1 0) 0 else old

/-- Perform lanes in order: memory, and per lane the bytes found. -/
def MemSys.doLanes (m : MemSys) (host : Nat) (l : List LaneReq) : MemSys × List (Nat × List Byte) :=
  l.foldl (fun acc e =>
    let old := acc.1.read host e.pa e.op.width
    (if e.op.writes then acc.1.write host e.pa (e.op.result old) else acc.1, acc.2 ++ [(e.lane, old)])) (m, [])

/-- Poison that stores of one instruction overwrite whole units of is cleared (R212). -/
def MemSys.clearWhole (m : MemSys) (l : List LaneReq) : MemSys :=
  let units := unitsCovered (l.filterMap fun e => match e.op with
    | .store bs => some (e.pa, bs.length)
    | _ => none)
  if m.poison.isEmpty then m else { m with poison := m.poison.filter fun u => !units.contains u }

/-! ## Bound loads -/

/-- Every lane has its bytes. -/
def Gather.complete (g : Gather) : Bool := g.mask.lanes.all fun L => g.got.any fun e => e.1 == L

/-- The bytes of a lane. -/
def Gather.lane (g : Gather) (L : Nat) : List Byte :=
  match g.got.find? fun e => e.1 == L with
  | some e => e.2
  | none => []

/-- WIDTH code of a gather (R33). -/
def Gather.width (g : Gather) : Nat :=
  match g.bytes with
  | 1 => if g.signed then 1 else 0
  | 2 => if g.signed then 3 else 2
  | 4 => 4
  | 8 => 5
  | _ => 6

/-- The register writes of a complete gather: v names (R228), s registers, or a cell's value and O (R246). -/
def Gather.result (g : Gather) (helper : LaneMask) : RegResult :=
  let low := lowLane g.mask
  let r : RegResult := match g.cell with
    | some (mode, p) =>
      let rs := lanesOf fun L => if g.mask.getLsbD L then cellRead (g.lane L) mode else (0, 0)
      { RegResult.empty with
        v := [{ name := g.dst, mask := g.mask, vals := rs.map fun r => BitVec.ofNat 32 r.1, full := if g.full then some shapeG else none }]
        p := if p = 1023 then [] else [{ name := p - 864, mask := g.mask, vals := maskOf fun L => cellO (g.lane L) }]
        flags := (lanesOf fun L => if g.mask.getLsbD L && !helper.getLsbD L then (rs.getD L (0, 0)).2 else 0).foldl (· ||| ·) 0 }
    | none =>
      let per := lanesOf fun L => if g.mask.getLsbD L then loadedWords g.width (g.lane L) else []
      if g.dst < 640 then
        { RegResult.empty with
          v := (List.range (widthNames g.width)).map fun i =>
            let vals := per.map fun l => l.getD i 0
            { name := g.dst + i, mask := g.mask, vals := vals
              full := if g.full then some (if g.uniform then .u (vals.getD low 0) else shapeG) else none } }
      else
        let ws := per.getD low []
        let d := fun i => BitVec.ofNat 64 ((ws.getD i 0).toNat + 2 ^ 32 * (ws.getD (i + 1) 0).toNat)
        { RegResult.empty with
          s := if g.width = 6 then [(g.dst - 640, d 0), (g.dst - 639, d 2)] else [(g.dst - 640, d 0)] }
  (r.append g.also).below g.limit

/-- More bytes for a pending load; with the last of them its result is bound. -/
def Pending.take (p : Pending) (helper : LaneMask) (l : List (Nat × List Byte)) : Pending :=
  match p.gather with
  | none => p
  | some g =>
    let g := { g with got := g.got ++ l }
    { p with gather := some g, result := if g.complete then some (g.result helper) else none }

/-- The data of a request reach its pending load, with a packet of its home (R298). -/
def State.deliver (s : State) (q : Request) (l : List (Nat × List Byte)) : State :=
  match q.pend with
  | none => s
  | some id =>
    match s.bundle? q.crew q.bun with
    | none => s
    | some (c, b) =>
      (s.setBundle c { b with pend := b.pend.map fun p => if p.id == id then p.take b.helper l else p }).reply (replyRouter s.step q.line)
        (.data q.crew q.bun id (if q.writes then some (q.core, q.line) else none))

/-- A trap entry that still waits for the slot's pending results is undone: the interrupted sub-bundles stand as before the trap. An
FP_INVALID, whose instruction has performed, stays due (R129). -/
def Bundle.undoEntry (b : Bundle) (clock : Nat) : Bundle :=
  match b.trap with
  | some t =>
    if t.entering then
      let done := t.cause == 16
      { b with trap := none, repCount := 0, cstDone := 0
               fpDue := if done && b.fpDue.isNone then
                   some { pc := t.pc, lanes := t.info.setWidth 32, rep := if t.pair then some (b.repCount - 1) else none } else b.fpDue
               subs := { (SubB.start t.mask (if done && !t.pair then nextPc t.pc else t.pc) clock) with
                 rep := b.repCount, cst := b.cstDone, redo := t.redo } :: t.others }
    else b
  | none => b

/-- The sub-bundle with a lane comes to the head of the rotation, at a PC. -/
def Bundle.bringTo (b : Bundle) (L : Nat) (pc : DWord) (clock : Nat) : Bundle :=
  match b.subs.find? fun y => y.mask.getLsbD L with
  | none => b
  | some y => { b with subs := { (y.goto pc clock) with rep := 0, cst := 0 } :: b.subs.filter fun z => z.mask != y.mask }

/-- Where the sub-bundle with a lane stands, for a load that it will perform again. -/
def Bundle.redoOf (b : Bundle) (L : Nat) (p : Pending) : Option Redo :=
  (b.subs.find? fun y => y.mask.getLsbD L).map fun y =>
    match y.redo with
    | some r => { r with load := p }
    | none => { load := p, pc := y.pc, marker := y.park == .marker, rep := y.rep, cst := y.cst }

/-- Requests of a pending load are withdrawn; their replies are sunk (R301), and their entries of waiting lists stand for nothing (R296). -/
def MemSys.withdraw (m : MemSys) (crew bun pend : Nat) : MemSys :=
  { m with
    requests := m.requests.filter fun q => !(q.crew == crew && q.bun == bun && q.pend == some pend)
    replies := m.replies.filter fun r => match r.kind with
      | .data c b p _ => !(c == crew && b == bun && p == pend)
      | _ => true }

/-- A pending load traps, precise on it: it writes no lane, its PC is the load's; restarted it is performed again from its start, and the
instructions that issued after it are not (R212, R237, log entry 10). `L` is one of its lanes. -/
def State.loadTrap (s : State) (cid bi id L cause : Nat) (info : BitVec 128) : State :=
  match s.bundle? cid bi with
  | none => s
  | some (c, b) =>
    match b.pend.find? fun p => p.id == id with
    | none => s
    | some p =>
      let s := { s with mem := s.mem.withdraw cid bi id }
      let again := { p with gather := p.gather.map fun g => { g with got := [] }, result := none }
      let b := { (b.undoEntry s.coreClock) with pend := b.pend.filter fun p => p.id != id }
      let redo := b.redoOf L again
      let b := b.bringTo L p.pc s.coreClock
      let b := { b with subs := match b.subs with
        | y :: t => { y with redo := redo } :: t
        | [] => [] }
      (s.setBundle c b).takeTrap cid bi cause info p.pc p.rep.isSome (p.rep.getD 0) 0

/-- Poisoned data have arrived at a lane of a load (R212). -/
def State.poisonBack (s : State) (q : Request) (id : Nat) (e : LaneReq) : State :=
  s.loadTrap q.crew q.bun id e.lane 9 (poisonInfo e.va e.lane 0)

/-- A request reaches its home: update-only lines are merged first, of every core where it reads, else of its own (R241). -/
def State.reach (s : State) (q : Request) : State :=
  if q.lanes.any fun e => e.op.reads then s.recall q.line else s.mergeLine q.core q.line

/-- A REQUEST PERFORMS at its home (R214, R238): the lanes perform in ascending order, logical times move, L1 takes its copy (R219), and the
reply is sent (R298). -/
def State.performAt (s : State) (q : Request) : State :=
  let s := { s with mem := { s.mem with requests := s.mem.requests.filter fun r => r.id != q.id } }
  let rd := q.lanes.any fun e => e.op.reads
  let wr := q.lanes.any fun e => e.op.writes
  let (m, got) := s.mem.doLanes q.host q.lanes
  let m := m.clearWhole q.lanes
  let m := if isPeer q.line && !m.window.contains q.line then { m with window := m.window ++ [q.line] } else m
  let s := { s with mem := m }
  let s := if rd then s.readTime q.core q.line else s
  let s := if wr then s.writeTime q.core q.line else s
  let t := s.mem.timeOf q.line
  let copy : L1Copy := { line := q.line, data := s.mem.read q.host q.line 128, wt := t.wt, lease := s.ltOf q.core + 8
                         bad := s.mem.poison.filter fun u => lineOf u == q.line }
  let s := if q.cacheL1 && rd && !wr then s.l1Take q.core copy else s
  if q.pend.isNone then (if wr then s.reply (replyRouter s.step q.line) (.ack q.core q.line q.crew q.strands) else s) else s.deliver q got

/-- The first poisoned lane of requests that read, with its request (R212). -/
def MemSys.firstPoisoned (m : MemSys) (l : List Request) : Option (Request × LaneReq) :=
  l.findSome? fun q => (q.lanes.find? fun e => m.poisoned e.pa e.op.width).map fun e => (q, e)

/-- Replace a request. -/
def MemSys.setRequest (m : MemSys) (q : Request) : MemSys := { m with requests := m.requests.map fun r => if r.id == q.id then q else r }

/-- An agent's request is served: an update-only line merges and its core is acknowledged (R241, R301); of the others the agent acts once all it
needs have been served (log entry 86). -/
def State.serveAgent (s : State) (q : Request) (a : Agent) : State :=
  match a with
  | .merge core line =>
    ({ s with mem := s.mem.leave a }.mergeLine core line).reply (replyRouter s.step line) (.ack core line 0 [])
  | _ => { s with mem := s.mem.setRequest { q with st := .ready } }

/-- The peers that share a line homed here when a write reaches it, of those a working link leads to: which of them have read it since it was last
written is not this device's to know, so it is free (R388, log entry 83). -/
def State.sharersNow (s : State) (line : Nat) : List Nat :=
  (List.range 32).filter fun p => p != s.mem.device && !s.host.linksDown.contains (s.host.blob.peerLinks.getD p 0) &&
    Config.freeBit s.step 24 (32 * line + p)

/-- A write at the home of a COHERENT_SHARED line invalidates its sharers, and waits until each has acknowledged or is lost (R388, R389); `none`: it
waits for none. -/
def State.invalidate (s : State) (q : Request) : Option State :=
  if !(q.writes && q.shared) then none
  else
    let wait := fun m : MemSys => some { s with mem := m.setRequest { q with st := .inval } }
    match s.mem.sharers.find? fun e => e.1 == q.line with
    | some e => if e.2.isEmpty then none else wait s.mem
    | none => match s.sharersNow q.line with
      | [] => none
      | l => wait { s.mem with sharers := s.mem.sharers ++ [(q.line, l)] }

/-- A REQUEST IS SERVED: a write first invalidates its line's sharers; an agent's is noted; a load performs, or meets poison; the lines of an atomic that returns data perform together once
all are at their homes, and none is written when one meets poison (R212, R245, log entry 79); a store performs. -/
def State.serve (s : State) (q : Request) : State :=
  match s.invalidate q with
  | some t => t
  | none =>
  let s := if q.writes then { s with mem := { s.mem with sharers := s.mem.sharers.filter fun e => e.1 != q.line } } else s
  match q.agent with
  | some a => s.serveAgent q a
  | none =>
  let s := s.reach q
  match q.pend with
  | none => s.performAt q
  | some id =>
    if q.lanes.any fun e => e.op.writes then
      let q := { q with st := ReqSt.ready }
      let s := { s with mem := s.mem.setRequest q }
      let l := s.mem.requests.filter fun r => r.crew == q.crew && r.bun == q.bun && r.pend == q.pend
      if !l.all fun r => r.st == .ready then s
      else
        let s := l.foldl State.reach s
        match s.mem.firstPoisoned l with
        | some (r, e) => s.poisonBack r id e
        | none => l.foldl State.performAt s
    else
      match s.mem.firstPoisoned [q] with
      | some (r, e) => s.poisonBack r id e
      | none => s.performAt q

/-! ## Slices (R295 to R297) -/

/-- The back-off after the n-th refusal, in network clocks (R297). -/
def backOff (n : Nat) : Nat := Nat.min 4096 (64 * 2 ^ (n - 1))

/-- A request has left the request mesh. -/
def Request.landed (q : Request) : Request := { q with golden := none, sent := none }

/-- A request is refused: no effect but its count, carried by the refusal, and the clock of its retry (R297). -/
def State.refuse (s : State) (q : Request) : State :=
  { s with mem := s.mem.setRequest { q.landed with refusals := q.refusals + 1, st := .refused (s.netClock + backOff (q.refusals + 1)) } }.reply
    (replyRouter s.step q.line) (.refusal q.id (q.refusals + 1))

/-- The oldest request for a line that has been refused 8 times and is not served. -/
def MemSys.oldest (m : MemSys) (line : Nat) : Option Request :=
  (m.requests.filter fun q => q.line == line && decide (8 ≤ q.refusals) && (match q.st with
    | .flight => true
    | .refused _ => true
    | _ => false)).foldl (fun best q => match best with
      | none => some q
      | some b => if q.time < b.time || (q.time == b.time && decide (q.id < b.id)) then some q else some b) none

/-- A line is reserved for the oldest qualifying request, unless it is reserved already (R297). -/
def MemSys.reserve (m : MemSys) (line clock : Nat) : MemSys :=
  if m.reserved line then m
  else
    match m.oldest line with
    | none => m
    | some q => { m with reserves := m.reserves ++ [{ line := line, req := q.id, since := clock }] }

/-- Two lanes of requests touch a common byte. -/
def LaneReq.meets (a b : LaneReq) : Bool := decide (a.pa < b.pa + b.op.width) && decide (b.pa < a.pa + a.op.width)

/-- A request is not sent yet: an earlier store or atomic of its core to its line is unacknowledged (R301), or an earlier access of one of
its strands to one of its bytes has not performed (R214). Lines of the two host apertures are different lines. -/
def MemSys.blocked (m : MemSys) (q : Request) : Bool :=
  (m.requests.any fun r => decide (r.id < q.id) && r.core == q.core && r.line == q.line && (!isHost q.line || r.host == q.host) &&
    (r.writes || (r.strands.any q.strands.contains && r.crew == q.crew &&
      r.lanes.any fun a => q.lanes.any a.meets))) ||
  m.replies.any fun r => match r.kind with
    | .ack core line _ _ => core == q.core && line == q.line
    | .data _ _ _ acks => acks == some (q.core, q.line)
    | _ => false

/-- A router's injection queue of the request mesh: the requests of its agents that are on their way, not held back, 32 at most (R298,
R300). -/
def MemSys.injecting (m : MemSys) (router : Nat) : List Request :=
  (m.requests.filter fun q => q.router == router && q.st == .flight && !m.blocked q).take 32

/-- A request passes its home slice's cache: the host aperture, a peer's line, or an uncached page (R204, R206, R294). -/
def Request.direct (q : Request) : Bool := q.uncached || isHost q.line || isPeer q.line

/-- A request arrives at its home slice: refused while another holds the line's reservation, a coherence transaction of the line is under way (R388)
or the queue is full, else it takes a queue
entry, which ends a reservation of its own (R295, R297). The home of a peer's line may refuse it for a conflict of its own (R297, R388, log entry 83). -/
def State.arrive (s : State) (q : Request) : State :=
  if isHost q.line then s.serve q
  else if isPeer q.line then (if Config.freeBit s.step 22 q.id then s.refuse q else s.serve q)
  else
    let m := if 8 ≤ q.refusals then s.mem.reserve q.line s.netClock else s.mem
    let s := { s with mem := m }
    let other := m.reserves.any (fun r => r.line == q.line && r.req != q.id) ||
      m.requests.any fun r => r.line == q.line && r.st == .inval
    if other || decide (16 ≤ (m.queueOf q.line).length) then s.refuse q
    else
      { s with mem := { (m.setRequest { q.landed with st := .queued }) with reserves := m.reserves.filter fun r => r.req != q.id } }

/-- A request's entry in a waiting list: its operation kind (0 load, 1 store, 2 atomic; log entry 80), its tag and its core (R296). -/
def Request.entry (q : Request) : WaitEntry :=
  { kind := if !q.writes then 0 else if q.lanes.any (fun e => e.op.reads) then 2 else 1
    tag := q.id % 256, agent := q.core, req := q.id }

/-- The 128 bytes of a waiting list: HEADER with COUNT, then the entries (R296). -/
def WaitList.bytes (l : WaitList) : List Byte :=
  let word := fun e : WaitEntry => leBytes 4 (e.kind % 16 * 2 ^ 16 + e.tag % 256 * 2 ^ 8 + e.agent % 256)
  leBytes 4 (l.entries.length % 32) ++ ((List.range 31).map fun i => match l.entries[i]? with
    | some e => word e
    | none => leBytes 4 0).flatten

/-- A queued request is looked at: a hit, on a line present or of a pinned tile, is served; a miss joins or starts the line's waiting list, or
finds no way and is refused (R295, R296). -/
def State.lookUp (s : State) (q : Request) : State :=
  if q.direct || (s.mem.l2At q.line).isSome || s.pinnedLines.contains q.line then s.serve q
  else
    match s.mem.lists.find? fun l => l.line == q.line with
    | some l =>
      if 31 ≤ l.entries.length then s.refuse q
      else
        let m := s.mem.setRequest { q with st := .listed }
        { s with mem := { m with lists := m.lists.map fun x => if x.line == q.line then { x with entries := x.entries ++ [q.entry] } else x } }
    | none =>
      if s.noWay q.line then s.refuse q
      else
        let s := s.freeWay q.line
        let m := s.mem.setRequest { q with st := .listed }
        { s with mem := { m with lists := m.lists ++ [{ line := q.line, entries := [q.entry] }] } }

/-- SLICE_REQUEST: a request in its router's injection queue arrives, one in its slice's queue is looked at, or one that waits for sharers is served
(R295, R300, R388). -/
def execSliceRequest (req : Nat) (s : State) : Host.Outcome State Fault Refusal :=
  match s.mem.requests.find? fun q => q.id == req with
  | none => .next s
  | some q =>
    match q.st with
    | .flight => .next (if (s.mem.injecting q.router).any (fun r => r.id == q.id) then s.arrive q else s)
    | .queued => .next (s.lookUp q)
    | .inval => .next (s.serve q)
    | _ => .next s

/-- MEMORY_FILL: the line a waiting list asked for arrives, units marked by `bad` poisoned; the list's requests are served in order and the
line takes the list's way (R296). -/
def execMemoryFill (line : Nat) (bad : BitVec 2) (s : State) : Host.Outcome State Fault Refusal :=
  match s.mem.lists.find? fun l => l.line == line with
  | none => .next s
  | some l =>
    let reqs := l.entries.filterMap fun e => s.mem.requests.find? fun q => q.id == e.req
    let units := (List.range 2).filterMap fun i => if bad.getLsbD i then some (line + 64 * i) else none
    let m := s.mem
    let m := { m with
      lists := m.lists.filter fun x => x.line != line
      l2 := m.l2 ++ [{ line := line, data := m.gddr.read line 128, dirty := false, first := reqs.all (·.first) }]
      poison := m.poison ++ units.filter fun u => !m.poison.contains u }
    .next (reqs.foldl (fun s q => match s.mem.requests.find? fun r => r.id == q.id with
      | some q => s.serve q
      | none => s) { s with mem := m })

/-- REQUEST_RETRY: the back-off has run out and the request is sent again (R297). -/
def execRequestRetry (req : Nat) (s : State) : Host.Outcome State Fault Refusal :=
  match s.mem.requests.find? fun q => q.id == req with
  | none => .next s
  | some q =>
    match q.st with
    | .refused at_ =>
      let m := s.mem.setRequest { q with st := .flight }
      .next (if at_ ≤ s.netClock then { s with mem := { m with
        reserves := m.reserves.map fun r => if r.req == req then { r with since := s.netClock } else r } } else s)
    | _ => .next s

/-- RESERVATION_LAPSE: a reservation whose requester has not retried within 8,192 network clocks goes to the next-oldest (R297). -/
def execReservationLapse (line : Nat) (s : State) : Host.Outcome State Fault Refusal :=
  match s.mem.reserves.find? fun r => r.line == line with
  | none => .next s
  | some r =>
    if s.netClock < r.since + 8192 then .next s
    else
      let m := { s.mem with reserves := s.mem.reserves.filter fun x => x.line != line }
      let others := { m with requests := m.requests.filter fun q => q.id != r.req }
      .next { s with mem := match others.oldest line with
        | none => m
        | some q => { m with reserves := m.reserves ++ [{ line := line, req := q.id, since := s.netClock }] } }

/-- UPDATE_LINE_MERGE: L1 gives up an update-only line: it is sent to its home to merge (R241, R301). -/
def execUpdateLineMerge (core line : Nat) (s : State) : Host.Outcome State Fault Refusal :=
  .next (if (s.core core).upd.any (fun u => u.line == line) then s.askMerge core line else s)

/-- LT_IDLE_TICK: 4,096 core clocks have passed without a rise; the time has risen by 1 for each, and may rise by more (R219, log entry
74). -/
def execLtIdleTick (core : Nat) (s : State) : Host.Outcome State Fault Refusal :=
  let k := s.core core
  .next (if k.ltClock + 4096 ≤ s.coreClock then
    s.setCore core { k with lt := s.ltOf core + Config.freeNat s.step 16 core, ltClock := s.coreClock } else s)

/-- The noon source of a mesh (R300). -/
def State.noonSource (s : State) : Nat := s.netClock / 16 % 128

/-- The first packet that `mine` selects becomes golden. -/
def markFirst {α : Type} (mine : α → Bool) (gild : α → α) : List α → List α
  | [] => []
  | r :: t => if mine r then gild r :: t else r :: markFirst mine gild t

/-- NOON_MARK: in a turn of the noon source, 16 network clocks, its oldest packet becomes golden, if it is not golden yet: at most one a turn
(R300). -/
def execNoonMark (replyMesh : Bool) (s : State) : Host.Outcome State Fault Refusal :=
  let n := s.noonSource
  let turn := some (s.netClock / 16)
  let m := s.mem
  .next { s with mem :=
    if replyMesh then
      match m.replies.find? fun r => r.router == n with
      | some r => if m.noon.2 == turn || r.golden.isSome then m else { m with
          noon := (m.noon.1, turn)
          replies := markFirst (fun r => r.router == n) (fun r => { r with golden := some s.netClock }) m.replies }
      | none => m
    else
      match m.injecting n with
      | q :: _ => if m.noon.1 == turn || q.golden.isSome then m else
          { (m.setRequest { q with golden := some s.netClock }) with noon := (turn, m.noon.2) }
      | [] => m }

/-- A packet is due at its destination: 64 network clocks after it was marked golden, or 32 · 2,112 after it joined its injection queue
(R300). -/
def packetDue (clock : Nat) (golden sent : Option Nat) : Bool :=
  (match golden with
   | some g => decide (g + 64 ≤ clock)
   | none => false) ||
  match sent with
  | some t => decide (t + 32 * 2112 ≤ clock)
  | none => false

/-- A packet on the reply mesh has been ejected: at some clock after it joined its injection queue, at the latest when it is due (R300, log
entry 83). -/
def Reply.ejected (s : State) (i : Nat) (r : Reply) : Bool :=
  packetDue s.netClock r.golden r.sent || (r.sent.isSome && Config.freeBit s.step 23 i)

/-- The first 32 packets of each router's injection queue on the reply mesh have joined it (R300). -/
def joinReplies (clock : Nat) (l : List Reply) : List Reply :=
  (l.foldl (fun (acc : List Nat × List Reply) r =>
    let n := (acc.1.filter (· == r.router)).length
    (acc.1 ++ [r.router], acc.2 ++ [if n < 32 && r.sent.isNone then { r with sent := some clock } else r])) ([], [])).2

/-- The requests that have joined their injection queue on the request mesh. -/
def MemSys.joinRequests (m : MemSys) (clock : Nat) : MemSys :=
  { m with requests := m.requests.map fun q =>
      if q.sent.isNone && (m.injecting q.router).any (fun r => r.id == q.id) then { q with sent := some clock } else q }

/-- TIME PASSES, in sixths of a nanosecond: packets join their injection queues and reach their destinations (R300), and sharers acknowledge
(R388). -/
def State.pass (s : State) (n : Nat) : State :=
  let s := { s with time := s.time + n }
  let l := joinReplies s.netClock s.mem.replies
  let keep := (List.range l.length).filterMap fun i => match l[i]? with
    | some r => if r.ejected s i then none else some r
    | none => none
  let acked := fun (line p : Nat) => Config.freeBit s.step 25 (32 * line + p)
  let sharers := s.mem.sharers.map fun e => (e.1, e.2.filter fun p => !acked e.1 p)
  let s := { s with mem := { (s.mem.joinRequests s.netClock) with replies := keep, sharers := sharers } }
  (s.mem.requests.filter fun q => q.st == .flight && packetDue s.netClock q.golden q.sent).foldl (fun s q => s.arrive q) s

/-- PAGE_WALK_COMPLETE (R206, R207). -/
def execPageWalkComplete (walk : Nat) (s : State) : Host.Outcome State Fault Refusal := .next (s.endWalk walk)

end Sys2Proof.Machine
end

