-- ==== Sys2Proof/Machine/Global.lean ====
section
/-! DEFINITION. Global accesses of a core (0x1A0 to 0x1A7, `wait` and `trig`, R208 to R212, R222 to R237): race records, requests, parked
stores, and the instructions `ld st cst xld pref fence mwait cctl wait trig`. -/

namespace Sys2Proof.Machine

/-! ## Races (R222 to R224, R239) -/

/-- How an access touches a CHECKED page. -/
inductive Touch where
  | load
  | store
  /-- an atomic, recorded as a store; two of them never conflict -/
  | atom
  deriving DecidableEq, Repr

/-- Whose span a record is in. -/
inductive Party where
  | strand (crew bun strand core slot : Nat)
  | copy (core entry queue : Nat)
  /-- the firmware Ladle's queue of a port (R384) -/
  | firmware (port : Nat)
  deriving DecidableEq, Repr

/-- Bytes of a sector that n bytes at a place touch. -/
def sectorBytes (a n : Nat) : BitVec 32 := BitVec.ofNat 32 ((2 ^ n - 1) * 2 ^ (a % 32))

/-- A record conflicts with a new access. -/
def Sector.conflicts (z : Sector) (t : Touch) (m : BitVec 32) : Bool :=
  let held := match t with
    | .load => z.writes ||| z.atoms
    | .store => z.reads ||| z.writes ||| z.atoms
    | .atom => z.reads ||| z.writes
  held &&& m != 0

/-- The open spans of the device: of strands and copies, saved ones included, and of the firmware Ladle. -/
def State.openSpans (s : State) : List (Party × List Sector) :=
  let ofCrew := fun c : Crew => (c.bundles.map fun b => b.spans.map fun e =>
    (Party.strand c.cid b.index e.strand c.core b.slot, e.sectors)).flatten
  (s.crews.map ofCrew).flatten ++ (s.disp.contexts.map fun x => ofCrew x.crew).flatten ++
  ((List.range s.cores.length).map fun n => (s.core n).entries.map fun e => (Party.copy n e.id e.queue, e.sectors)).flatten ++
  (s.disp.contexts.map fun x => x.entries.map fun e => (Party.copy x.crew.core e.id e.queue, e.sectors)).flatten ++
  (List.range s.host.ports.length).map fun n => (Party.firmware n, (s.host.ports.getD n Port.init).fwSectors)

/-- The party an access of n bytes at a place races with (R223). -/
def State.raceWith (s : State) (own : Party) (t : Touch) (a n : Nat) : Option Party :=
  (s.openSpans.find? fun p => p.1 != own && p.2.any fun z => z.sector == a / 32 && z.conflicts t (sectorBytes a n)).map (·.1)

/-- A record of a touch. -/
def touchSectors (l : List Sector) (t : Touch) (a n : Nat) : List Sector :=
  let m := sectorBytes a n
  let put := fun z : Sector => match t with
    | .load => { z with reads := z.reads ||| m }
    | .store => { z with writes := z.writes ||| m }
    | .atom => { z with atoms := z.atoms ||| m }
  if l.any fun z => z.sector == a / 32 then l.map fun z => if z.sector == a / 32 then put z else z
  else l ++ [put { sector := a / 32, reads := 0, writes := 0, atoms := 0 }]

/-- Sectors that count towards SPANFULL. -/
def countedSectors (l : List Sector) : Nat := (l.filter fun z => z.reads ||| z.writes != 0).length

/-- The records of a strand's open span. -/
def Bundle.spanOf (b : Bundle) (strand : Nat) : List Sector :=
  match b.spans.find? fun e => e.strand == strand with
  | some e => e.sectors
  | none => []

/-- Record a touch of a strand. -/
def Bundle.record (b : Bundle) (strand : Nat) (t : Touch) (a n : Nat) : Bundle :=
  let sec := touchSectors (b.spanOf strand) t a n
  if b.spans.any fun e => e.strand == strand then
    { b with spans := b.spans.map fun e => if e.strand == strand then { e with sectors := sec } else e }
  else { b with spans := b.spans ++ [{ strand := strand, sectors := sec }] }

/-- A translated element: what was asked, its leaf entry, its place. -/
abbrev Elem := LaneVA × DWord × Nat

/-- TRAPINFO of MEMRACE (R369). -/
def raceInfo (va lane : Nat) (p : Party) (store : Bool) : BitVec 128 :=
  let other := match p with
    | .strand _ _ _ core slot => core % 128 * 2 ^ 8 + slot % 256 * 2 ^ 16
    | .copy core _ q => core % 128 * 2 ^ 8 + q % 4 * 2 ^ 24 + 2 ^ 26
    | .firmware _ => 2 ^ 26
  BitVec.ofNat 128 (va % 2 ^ 64 + (lane + other + if store then 2 ^ 27 else 0) * 2 ^ 64)

/-- The check of a checked access in one lane: MEMRACE, or SPANFULL at a 257th sector. -/
def Ctx.checkLane (x : Ctx) (t : Touch) (e : Elem) : Option (Nat × BitVec 128) :=
  if !pteChecked e.2.1 then none
  else
    let strand := x.b.strands.getD e.1.lane 0
    match x.s.raceWith (.strand x.c.cid x.b.index strand x.c.core x.b.slot) t e.2.2 e.1.bytes with
    | some p => some (10, raceInfo e.1.va e.1.lane p (t != .load))
    | none =>
      if t != .atom && decide (256 < countedSectors (touchSectors (x.b.spanOf strand) t e.2.2 e.1.bytes)) then
        some (11, BitVec.ofNat 128 (e.1.va % 2 ^ 64 + e.1.lane * 2 ^ 64))
      else none

/-- Record the checked accesses of an instruction. -/
def Ctx.recordLanes (x : Ctx) (t : Touch) (l : List Elem) : Ctx :=
  { x with b := l.foldl (fun b e => if pteChecked e.2.1 then b.record (b.strands.getD e.1.lane 0) t e.2.2 e.1.bytes else b) x.b }

/-- An atomic is recorded in the span that is open when it performs: an ordered one ends the span before it (R222, R239). -/
def Ctx.atomRecord (x : Ctx) (order : Nat) (l : List Elem) : Ctx := (x.ordered order).recordLanes .atom l

/-- What an access meets after translation: PEERLOST (R389), poison in the elements whose data it would find so (R212), the checks of CHECKED
pages for a plain access or an atomic. -/
def Ctx.meets (x : Ctx) (t : Touch) (bad : Elem → Bool) (checked : Bool) (l : List Elem) : Option (Nat × BitVec 128) :=
  match l.find? fun e => pteShared e.2.1 && x.s.host.windowLost with
  | some e => some (21, BitVec.ofNat 128 (e.1.va % 2 ^ 64 + (e.1.lane + x.s.host.linksDown.headD 0 % 8 * 2 ^ 8) * 2 ^ 64))
  | none =>
    match l.find? bad with
    | some e => some (9, poisonInfo e.1.va e.1.lane 0)
    | none => if checked then l.findSome? (x.checkLane t) else none

/-! ## Requests -/

/-- L1 may hold the line (R205, R206, R228). -/
def l1Holds (pte : DWord) (pa hint : Nat) : Bool :=
  pteCache pte == 0 && !pteChecked pte && !pteShared pte && !isHost pa && hint != 1

/-- The home of an element holds it poisoned, and no store of the core that may overwrite it is on its way there before the access (R212,
R301). -/
def Ctx.poisonHome (x : Ctx) (e : Elem) : Bool :=
  x.s.mem.poisoned e.2.2 e.1.bytes &&
  !(x.s.mem.requests.any fun q => q.core == x.c.core && q.line == lineOf e.2.2 && q.writes)

/-- Send the accesses of an instruction, one request per line. -/
def Ctx.send (x : Ctx) (pend : Option Nat) (k : Keep) (l : List (DWord × LaneReq)) : Ctx :=
  let lines := (l.map fun e => lineOf e.2.pa).eraseDups
  lines.foldl (fun x line =>
    let mine := l.filter fun e => lineOf e.2.pa == line
    let pte := match mine with
      | e :: _ => e.1
      | [] => 0
    let q : Request :=
      { id := x.s.mem.nextReq, core := x.c.core, crew := x.c.cid, bun := x.b.index, pend := pend, pc := x.sub.pc
        host := (x.s.rootHost x.c.region).2, root := (x.s.rootHost x.c.region).1, line := line, lanes := mine.map (·.2), order := k.order, scope := k.scope
        strands := (mine.map fun e => x.b.strands.getD e.2.lane 0).dedup, cacheL1 := l1Holds pte line k.hint
        first := pteCache pte == 2 || k.hint == 2, uncached := pteCache pte == 3, time := x.s.netClock, refusals := 0, st := .flight
        golden := none, router := x.c.core, page := pageBits pte, shared := pteShared pte && !isPeer line }
    { x with s := { x.s with mem := { x.s.mem with requests := x.s.mem.requests ++ [q], nextReq := x.s.mem.nextReq + 1 } } }) x

/-- The L1 copy an access hits: the line may be held, its lease has not lapsed (R219), nothing of the core is under way to it, no update-only
line of the core waits for it, and the copy has not been given up (a free choice). -/
def Ctx.l1Hit (x : Ctx) (k : Keep) (pte : DWord) (line : Nat) : Option L1Copy :=
  let core := x.s.core x.c.core
  if !l1Holds pte line k.hint || k.order == 4 then none
  else
    match core.l1.find? fun c => c.line == line with
    | none => none
    | some c =>
      if x.s.ltOf x.c.core ≤ c.lease && !(x.s.mem.requests.any fun q => q.core == x.c.core && q.line == line) &&
          !(core.upd.any fun u => u.line == line) && Config.freeBit x.s.step 8 line then some c
      else none

/-- A load would find an element poisoned: in the L1 copy it hits, else at the home (R212). -/
def Ctx.poisonLoad (x : Ctx) (k : Keep) (e : Elem) : Bool :=
  match x.l1Hit k e.2.1 (lineOf e.2.2) with
  | some c => c.bad.any fun u => decide (u < e.2.2 + e.1.bytes) && decide (e.2.2 < u + 64)
  | none => x.poisonHome e

/-- A load gathers its lanes: from L1 copies at once, else through requests (R228). -/
def Ctx.gather (x : Ctx) (i : Instr) (k : Keep) (g : Gather) (l : List (DWord × LaneReq)) : Eff :=
  let hit : DWord × LaneReq → Option (List Byte) := fun e =>
    match e.2.op with
    | .load n => (x.l1Hit k e.1 (lineOf e.2.pa)).map fun c => (c.data.drop (e.2.pa % 128)).take n
    | _ => none
  let got := l.filterMap fun e => (hit e).map fun bs => (e.2.lane, bs)
  let p : Pending :=
    { id := x.b.nextPend, pc := x.sub.pc, names := writeNames i, setsFlags := pendsFlags i
      gather := some { g with lanes := l.map (·.2), keep := k }, result := none
      written := false, prev := [], rivals := [] }
  .load (x.send (some x.b.nextPend) k (l.filter fun e => (hit e).isNone)) (p.take x.b.helper got)

/-- A store waits for those its own bundle has parked: to its page (of `cst`, which does not park), or to its bytes (R209, R214). -/
def Ctx.ownParked (x : Ctx) (page : Bool) (l : List LaneVA) : Bool :=
  let root := (x.s.rootHost x.c.region).1
  (x.s.core x.c.core).replay.any fun r => r.crew == x.c.cid && r.bun == x.b.index && r.root == root && l.any fun e => r.vpage == vpageOf e.va &&
    (page || r.lanes.any fun a => decide (a.va < e.va + e.bytes) && decide (e.va < a.va + a.op.width))

/-- A store waits for one that another bundle of the core parked to its bytes before it synchronised: happens-before may order it after that
one (R209, R215, log entry 78). -/
def Ctx.otherParked (x : Ctx) (l : List LaneVA) : Bool :=
  let root := (x.s.rootHost x.c.region).1
  (x.s.core x.c.core).replay.any fun r => r.out && !(r.crew == x.c.cid && r.bun == x.b.index) && r.root == root &&
    l.any fun e => r.lanes.any fun a => decide (a.va < e.va + e.bytes) && decide (e.va < a.va + a.op.width)

/-- An earlier load of the bundle whose result is not written yet reads some of the bytes `hit` selects: what follows it waits, so that the load can
trap and be performed again from its start in its place of program order (R212, R214, R237, log entry 10). -/
def Ctx.loadsOut (x : Ctx) (hit : LaneReq → Bool) : Bool :=
  x.b.pend.any fun p => !p.written && (match p.gather with
    | some g => g.lanes.any hit
    | none => false)

/-- It reads bytes of the elements. -/
def Ctx.behindLoads (x : Ctx) (l : List Elem) : Bool :=
  x.loadsOut fun a => l.any fun e => decide (a.pa < e.2.2 + e.1.bytes) && decide (e.2.2 < a.pa + a.op.width)

/-- It reads bytes of lanes that are to park. -/
def Ctx.parkBehindLoads (x : Ctx) (l : List LaneVA) : Bool :=
  x.loadsOut fun a => l.any fun e => decide (a.va < e.va + e.bytes) && decide (e.va < a.va + a.op.width)

/-- A load of the core waits for stores parked to one of its pages (R209). -/
def Ctx.behindParked (x : Ctx) (l : List Elem) : Bool :=
  let root := (x.s.rootHost x.c.region).1
  l.any fun e => (x.s.core x.c.core).replay.any fun r => r.root == root && r.vpage == vpageOf e.1.va

/-- The elements of a per-lane access. -/
def Ctx.laneElems (x : Ctx) (f : FmtM) (n : Nat) (m : LaneMask) : List LaneVA :=
  m.lanes.map fun L => { lane := L, elem := 0, va := x.globalAddr f L, bytes := n }

/-- A lane's request. -/
def reqOf (e : Elem) (op : LaneOp) : DWord × LaneReq := (e.2.1, { lane := e.1.lane, va := e.1.va, pa := e.2.2, op := op })

/-! ## The NaN report (R285) -/

/-- TRAPINFO of MATRIX_NAN (R369). -/
def nanInfo (m : NanMark) : BitVec 128 :=
  BitVec.ofNat 128 (m.pc.toNat % 2 ^ 48 + (m.tile + m.row * 2 ^ 8 + m.col * 2 ^ 16) * 2 ^ 64)

/-- Report the marks of the bundle's tasks that `which` selects: MNAN is set, and under the NaN trap option the first of them traps and
the others stay for later. In trap mode nothing is reported (R367). -/
def Ctx.nanReport (x : Ctx) (which : NanMark → Bool) : Ctx × Option (BitVec 128) :=
  let mine := fun m : NanMark => m.bun == x.b.index && which m
  match x.c.nan.filter mine with
  | [] => (x, none)
  | m :: _ =>
    if x.inTrap then (x, none)
    else
      let b := { x.b with flags := x.b.flags ||| flagMNAN }
      if x.cast.nantrap then ({ x with b := b, c := { x.c with nan := x.c.nan.erase m } }, some (nanInfo m))
      else ({ x with b := b, c := { x.c with nan := x.c.nan.filter fun e => !mine e } }, none)

/-- A mark whose task named one of the addresses as its stamp. -/
def stampIn (l : List LaneVA) (m : NanMark) : Bool :=
  match m.stamp with
  | some a => l.any fun e => e.va == a.toNat
  | none => false

/-! ## ld and xld (R228, R231) -/

/-- A load of elements that have translated. -/
def Ctx.loadElems (x : Ctx) (i : Instr) (k : Keep) (g : Gather) (l : List Elem) : Eff :=
  if x.behindParked l || x.behindLoads l then .stall x
  else
    match x.meets .load (x.poisonLoad k) (k.order == 0) l with
    | some (cause, info) => .trap x cause info
    | none =>
      let y := if k.order = 0 then x.recordLanes .load l else x.ordered k.order
      y.gather i k g (l.map fun e => reqOf e (.load e.1.bytes))

/-- An atomic's elements that have translated: host aperture, races, and the gather (R238, R239, R245, R246). -/
def Ctx.atomElems (x : Ctx) (i : Instr) (k : Keep) (write hostOk : Bool) (g : Gather) (l : List Elem) (op : Nat → LaneOp) : Eff :=
  if x.behindParked l || x.ownParked false (l.map (·.1)) || x.behindLoads l then .stall x
  else
    -- a PCIe AtomicOp may come back as unsupported (R238): a free choice
    match l.find? fun e => isHost e.2.2 && (!hostOk || Config.freeBit x.s.step 9 e.1.lane) with
    | some e => .trap x 7 (faultInfo e.1.va e.1.lane 0 false write false)
    | none =>
      match x.meets .atom x.poisonHome true l with
      | some (cause, info) => .trap x cause info
      | none => (x.atomRecord k.order l).gather i k g (l.map fun e => reqOf e (op e.1.lane))

/-- A PCIe port has the operation of an atomic: `add`, `xchg`, `cas` (R238). -/
def LaneOp.hostAtomic (o : LaneOp) : Bool :=
  match o with
  | .atom func _ _ _ => func == 0 || func == 8 || func == 9
  | _ => false

/-- A load or atomic that is performed again after a trap on it, with the lanes, addresses and operands of its first issue (R212, R237, log entry
10): from translation on it is as any other. -/
def Ctx.redoLoad (x : Ctx) (i : Instr) (p : Pending) : Eff :=
  match p.gather with
  | none => .long x RegResult.empty
  | some g =>
    let writes := g.lanes.any fun e => e.op.writes
    if x.memWaits g.keep.order g.keep.scope then .stall x
    else
      match x.loadAccess (fun p => pteR p && (!writes || pteW p)) writes false
          (g.lanes.map fun e => { lane := e.lane, elem := 0, va := e.va, bytes := e.op.width }) with
      | .wait y => .stall y
      | .fault y cause info => .trap y cause info
      | .ok l =>
        if writes || g.cell.isSome then
          x.atomElems i g.keep writes (g.lanes.any fun e => e.op.hostAtomic) g l fun L => match g.lanes.find? fun e => e.lane == L with
            | some e => e.op
            | none => .load 0
        else x.loadElems i g.keep g l

/-- The effect of a load: at its pc again after a POISON trap, that of its first issue. -/
def Ctx.orRedo (x : Ctx) (i : Instr) (e : Eff) : Eff :=
  match x.sub.redo with
  | some r => x.redoLoad i r.load
  | none => e

/-- The lanes a load acts in: those of ACTIVE, or one for an s destination (R23). -/
def Ctx.loadMask (x : Ctx) (dst : Nat) : LaneMask :=
  if dst < 640 then x.act else if x.actNH = 0 then 0 else 1#32 <<< lowLane x.actNH

/-- ld -/
def effLd (f : FmtM) (x : Ctx) : Eff :=
  let n := widthBytes f.width.toNat
  let m := x.loadMask f.data.toNat
  let k : Keep := { hint := f.func.toNat % 4, order := f.order.toNat, scope := f.scope.toNat }
  if m = 0 then .short x RegResult.empty
  else if x.memWaits k.order k.scope then .stall x
  else
    let lanes := x.laneElems f n m
    match x.loadAccess pteR false false lanes with
    | .wait y => .stall y
    | .fault y cause info => .trap y cause info
    | .ok l =>
      let g : Gather :=
        { mask := m, bytes := n, signed := f.width == 1 || f.width == 3, dst := f.data.toNat, full := x.full, uniform := x.addrU f true
          got := [], also := RegResult.empty, cell := none, acquire := k.order != 0 }
      x.loadElems (.ld f) k g l
/-- ld (R228) -/
def execLd (f : FmtM) (s : State) : Host.Outcome State Fault Refusal := run (.ld f) (fun x => x.orRedo (.ld f) (effLd f x)) s

/-- The elements of `cst` and `xld`: the lanes of a mask in ascending order, at consecutive addresses from that of R34. -/
def Ctx.listElems (x : Ctx) (f : FmtM) (n : Nat) (m : LaneMask) : List LaneVA :=
  let a0 := x.globalAddr f (lowLane m)
  (List.range m.lanes.length).map fun j => { lane := m.lanes.getD j 0, elem := j, va := (a0 + j * n) % 2 ^ 64, bytes := n }

/-- The count of `xld.ff` in every ACTIVE lane of vC. -/
def Ctx.countWrite (x : Ctx) (code : BitVec 10) (k : Nat) : RegResult :=
  { RegResult.empty with v := [x.vwrite code.toNat 0 (List.replicate W (BitVec.ofNat 32 k)) none true] }

/-- The gather of `xld` over its first elements. -/
def Ctx.xldGather (x : Ctx) (f : FmtM) (n : Nat) (l : List LaneVA) (also : RegResult) : Gather :=
  let m := maskOf fun L => l.any fun e => e.lane == L
  { mask := m, bytes := n, signed := false, dst := f.data.toNat, full := x.b.live &&& ~~~m == 0, uniform := false, got := []
    also := also, cell := none, acquire := false }

/-- xld -/
def effXld (f : FmtM) (x : Ctx) : Eff :=
  let n := widthBytes f.width.toNat
  let k : Keep := { hint := 0, order := 0, scope := 0 }
  let lanes := x.listElems f n x.act
  if x.act = 0 then .short x RegResult.empty
  else if x.memWaits 0 0 then .stall x
  else if f.func = 0 then
    match x.loadAccess pteR false false lanes with
    | .wait y => .stall y
    | .fault y cause info => .trap y cause info
    | .ok l => x.loadElems (.xld f) k (x.xldGather f n lanes RegResult.empty) l
  else
    match x.loadAccess pteR false false (lanes.take 1) with
    | .wait y => .stall y
    | .fault y cause info => .trap y cause info
    | .ok _ =>
      let ts := lanes.map fun e => (e, x.s.translate x.c.core x.c.region e.va)
      match ts.filter fun t => t.2 == .walk with
      | w :: ws => .stall { x with s := (w :: ws).foldl (fun s t => s.startWalk x.c.core x.c.region t.1.va) x.s }
      | [] =>
        let good := ts.takeWhile fun t => match t.2 with
          | .leaf p => pteR p
          | _ => false
        let l : List Elem := good.filterMap fun t => match t.2 with
          | .leaf p => some (t.1, p, x.s.mem.place (physOf p t.1.va))
          | _ => none
        x.loadElems (.xld f) k (x.xldGather f n (good.map (·.1)) (x.countWrite f.aux good.length)) l
/-- xld (R231) -/
def execXld (f : FmtM) (s : State) : Host.Outcome State Fault Refusal := run (.xld f) (fun x => x.orRedo (.xld f) (effXld f x)) s

/-! ## Stores (R209, R210, R229, R240) -/

/-- A plain `red` lane goes to an update-only line of the core: an ordinary page (R240, log entry 11). -/
def redGoesLocal (e : Elem) : Bool := l1Holds e.2.1 e.2.2 0

/-- A request of the core that has not performed meets bytes of an element: what follows it in program order may not pass it (R214). -/
def Ctx.inFlight (x : Ctx) (e : Elem) : Bool :=
  x.s.mem.requests.any fun q => q.core == x.c.core && q.lanes.any fun r => decide (r.pa < e.2.2 + e.1.bytes) && decide (e.2.2 < r.pa + r.op.width)

/-- Perform the translated lanes of a store: sent to their homes, or for a plain `red` on an ordinary page into update-only lines; a `red`
behind a request to its own bytes follows that request to the home. -/
def Ctx.sendStores (x : Ctx) (k : Keep) (red : Bool) (l : List (Elem × LaneOp)) : Ctx :=
  let isLocal := fun e : Elem × LaneOp => red && redGoesLocal e.1 && !x.inFlight e.1
  let s := (l.filter isLocal).foldl (fun s e => match e.2 with
    | .atom func n v _ => s.redLocal x.c.core (x.c.cid, x.b.index, x.b.strands.getD e.1.1.lane 0) e.1.2.2 func n v
    | _ => s) x.s
  { x with s := s }.send none k ((l.filter fun (e : Elem × LaneOp) => !isLocal e).map fun (e : Elem × LaneOp) => reqOf e.1 e.2)

/-- A DEFERRED_STORE_FAULT is owed to a bundle, in the order of parking (R210). -/
def Bundle.owe (b : Bundle) (l : List LaneReq) (pc : DWord) (lackedW : Bool) (seq : Nat) : Bundle :=
  let first := l.foldl (fun best e => match best with
    | none => some e
    | some a => if e.lane < a.lane then some e else some a) none
  let va : Nat := match first with
    | some e => e.va
    | none => 0
  let o : Owed := { va := BitVec.ofNat 64 va, pc := pc, lackedW := lackedW, seq := seq }
  { b with owed := (b.owed.filter fun p => decide (p.seq ≤ seq)) ++ [o] ++ b.owed.filter fun p => decide (seq < p.seq) }

/-- Park the lanes of one page (R209): a page request is sent, behind an earlier entry of the bundle for the page the entry waits with it; a
request rejected at once discards the lanes (R210). -/
def Ctx.parkPage (x : Ctx) (red : Bool) (vpage : Nat) (l : List LaneReq) : Ctx :=
  let root := (x.s.rootHost x.c.region).1
  let core := x.s.core x.c.core
  let seq := x.s.mem.nextPark
  let x := { x with s := { x.s with mem := { x.s.mem with nextPark := seq + 1 } } }
  let entry := fun r : Option Nat =>
    ({ crew := x.c.cid, bun := x.b.index, pc := x.sub.pc, root := root, vpage := vpage, lanes := l, red := red, request := r, seq := seq
       strands := l.map fun e => x.b.strands.getD e.lane 0 } : Replay)
  match core.replay.find? fun r => r.crew == x.c.cid && r.bun == x.b.index && r.root == root && r.vpage == vpage with
  | some r => { x with s := x.s.setCore x.c.core { core with replay := core.replay ++ [entry r.request] } }
  | none =>
    let s := x.s.askAgain x.c.core x.c.region (vpage * 8192)
    match (if vpage / 2 ^ 35 = 0 then s.pageRequest x.c.demand x.c.region (vpage * 8192) true false else (s, none)) with
    | (s, some id) => { x with s := s.setCore x.c.core { core with replay := core.replay ++ [entry (some id)] } }
    | (s, none) => { x with s := s, b := x.b.owe l x.sub.pc false seq }

/-- The lanes of a plain `red` that find their core's update-only lines with words of another operation or width, or no room in L1: the merges
that this takes are asked for, and the `red` waits for them (R240, R241). -/
def Ctx.redHeld (x : Ctx) (l : List (Elem × LaneOp)) : Option Ctx :=
  let k := x.s.core x.c.core
  let here := l.filter fun e => redGoesLocal e.1
  let clash := (here.filter fun e => match e.2 with
    | .atom func n _ _ => k.redClash e.1.2.2 func n
    | _ => false).map fun e => lineOf e.1.2.2
  let full := if k.upd.length + here.length ≤ l1Lines then [] else (k.upd.take 1).map (·.line)
  match clash ++ full with
  | [] => none
  | ls => some { x with s := ls.foldl (fun s a => s.askMerge x.c.core a) x.s }

/-- Translation of the lanes of a plain store (R209): those that perform, and those that park. -/
inductive StoreAccess where
  | ok (l : List Elem) (parked : List LaneVA)
  | wait (x : Ctx)
  | fault (x : Ctx) (cause : Nat) (info : BitVec 128)

/-- TRANSLATE AS A PLAIN STORE (R209): walks; protection, precise; a CHECKED page not present is waited for, and so are stores of the bundle parked
to one that has become present; the lanes of other absent pages, and those behind a parked store of the bundle, park. -/
def Ctx.storeAccess (x : Ctx) (l : List LaneVA) : StoreAccess :=
  let ts := l.map fun e => (e, x.s.translate x.c.core x.c.region e.va)
  match ts.filter fun t => t.2 == .walk with
  | w :: ws => .wait { x with s := (w :: ws).foldl (fun s t => s.startWalk x.c.core x.c.region t.1.va) x.s }
  | [] =>
    match ts.find? fun t => t.1.va % t.1.bytes != 0 || (match t.2 with
        | .leaf p => !pteW p
        | _ => false) with
    | some t => .fault x 7 (faultInfo t.1.va t.1.lane t.1.elem false true false)
    | none =>
      let checked := ts.filter fun t => match t.2 with
        | .absent _ c => c
        | _ => false
      match (if checked.isEmpty then Access.ok [] else x.loadAccess pteW true false (checked.map (·.1))) with
      | .wait y => .wait y
      | .fault y cause info => .fault y cause info
      | .ok _ =>
        let root := (x.s.rootHost x.c.region).1
        let behind := fun e : LaneVA => (x.s.core x.c.core).replay.any fun r =>
          r.crew == x.c.cid && r.bun == x.b.index && r.root == root && r.vpage == vpageOf e.va
        if ts.any fun t => match t.2 with
            | .leaf p => pteChecked p && behind t.1
            | _ => false then .wait x
        else
        .ok (ts.filterMap fun t => match t.2 with
              | .leaf p => if behind t.1 then none else some (t.1, p, x.s.mem.place (physOf p t.1.va))
              | _ => none)
            ((ts.filter fun t => match t.2 with
              | .leaf _ => behind t.1
              | _ => true).map (·.1))

/-- A STORE of lanes, each with what it does at its home: ordered ones wait for translation as loads do, plain ones may park. `hostOk` says
that the host aperture takes it (R238); `red` that plain lanes may go to update-only lines. -/
def Ctx.storeLanes (x : Ctx) (k : Keep) (t : Touch) (hostOk red : Bool) (l : List LaneVA) (op : Nat → LaneOp) : Eff :=
  if l.isEmpty then .short x RegResult.empty
  else if x.memWaits k.order k.scope then .stall x
  else
    let acc : StoreAccess := if k.order = 0 then x.storeAccess l
      else match x.loadAccess pteW true false l with
        | .wait y => .wait y
        | .fault y cause info => .fault y cause info
        | .ok l => .ok l []
    match acc with
    | .wait y => .stall y
    | .fault y cause info => .trap y cause info
    | .ok good parked =>
      let pages := (parked.map fun e => vpageOf e.va).eraseDups
      if 32 < (x.s.core x.c.core).replay.length + pages.length || x.otherParked (good.map (·.1)) ||
          (k.order != 0 && x.ownParked false (good.map (·.1))) || x.behindLoads good || x.parkBehindLoads parked then .stall x
      else
      match (if red && k.order == 0 then x.redHeld (good.map fun e => (e, op e.1.lane)) else none) with
      | some y => .stall y
      | none =>
        match good.find? fun e => isHost e.2.2 && !hostOk with
        | some e => .trap x 7 (faultInfo e.1.va e.1.lane 0 false true false)
        | none =>
          match x.meets t (fun _ => false) (k.order == 0 || t == .atom) good with
          | some (cause, info) => .trap x cause info
          | none =>
            let y := if t == .atom then x.atomRecord k.order good else if k.order = 0 then x.recordLanes t good else x.ordered k.order
            let y := y.sendStores k (red && k.order == 0) (good.map fun (e : Elem) => (e, op e.1.lane))
            .short (pages.foldl (fun y p => y.parkPage red p ((parked.filter fun e => vpageOf e.va == p).map fun e =>
              { lane := e.lane, va := e.va, pa := 0, op := op e.lane })) y) RegResult.empty

/-- st -/
def effSt (f : FmtM) (x : Ctx) : Eff :=
  let n := widthBytes f.width.toNat
  x.storeLanes { hint := f.func.toNat % 4, order := f.order.toNat, scope := f.scope.toNat } .store true false (x.laneElems f n x.actNH)
    fun L => .store (x.storeBytes f.data.toNat n L)
/-- st (R229) -/
def execSt (f : FmtM) (s : State) : Host.Outcome State Fault Refusal := run (.st f) (effSt f) s

/-- The elements of a `cst` from CSTDONE on, one after another (R230). -/
def Ctx.cstFrom (x : Ctx) (f : FmtM) (n : Nat) : List LaneVA → Eff
  | [] => .short { x with sub := { x.sub with cst := 0 } } RegResult.empty
  | e :: rest =>
    let x := { x with sub := { x.sub with cst := e.elem } }
    -- it is translated before its alignment is looked at
    match x.loadAccess pteW true false [{ e with bytes := 1 }] with
    | .wait y => .stall y
    | .fault y cause info => .trap y cause info
    | .ok l =>
      let l := l.map fun t => (e, t.2)
      if e.va % n != 0 then .trap x 7 (faultInfo e.va e.lane e.elem false true false)
      else if x.ownParked true [e] || x.otherParked [e] || x.behindLoads l then .stall x
      else
        match x.meets .store (fun _ => false) true l with
        | some (cause, info) => .trap x cause info
        | none =>
          let y := (x.recordLanes .store l).sendStores { hint := 0, order := 0, scope := 0 } false
            (l.map fun t => (t, .store (x.storeBytes f.data.toNat n e.lane)))
          { y with sub := { y.sub with stall := none } }.cstFrom f n rest

/-- cst -/
def effCst (f : FmtM) (x : Ctx) : Eff :=
  let n := widthBytes f.width.toNat
  if x.actNH = 0 then .short x RegResult.empty
  else if x.memWaits 0 0 then .stall x
  else x.cstFrom f n ((x.listElems f n x.actNH).drop x.sub.cst)
/-- cst (R230) -/
def execCst (f : FmtM) (s : State) : Host.Outcome State Fault Refusal := run (.cst f) (effCst f) s

/-! ## pref and cctl (R232, R235) -/

/-- HINTDROP rises by n, saturating. -/
def Ctx.dropHints (x : Ctx) (n : Nat) : Ctx :=
  { x with b := { x.b with hintDrop := satAdd32 x.b.hintDrop n } }

/-- Lanes of a hint translated: those that need a walk send it and wait. -/
def Ctx.hintAccess (x : Ctx) (f : FmtM) : Option Ctx × List (LaneVA × Trans) :=
  let ts := (x.laneElems f 1 x.act).map fun e => (e, x.s.translate x.c.core x.c.region e.va)
  match ts.filter fun t => t.2 == .walk with
  | [] => (none, ts)
  | ws => (some { x with s := ws.foldl (fun s t => s.startWalk x.c.core x.c.region t.1.va) x.s }, ts)

/-- A lane of `pref.res`: a page not present is requested (R232). -/
def Ctx.prefetchPage (x : Ctx) (e : LaneVA) (t : Trans) : Ctx :=
  match t with
  | .absent _ _ =>
    if !x.c.demand then x.dropHints 1
    else
      match (x.s.askAgain x.c.core x.c.region e.va).pageRequest x.c.demand x.c.region e.va false false with
      | (s, some _) => { x with s := s }
      | (s, none) => { x with s := s }.dropHints 1
  | .leaf p => if x.c.demand && pteR p then x else x.dropHints 1
  | _ => x.dropHints 1

/-- pref -/
def effPref (f : FmtM) (x : Ctx) : Eff :=
  match x.hintAccess f with
  | (some y, _) => .stall y
  | (none, ts) =>
    if f.func = 2 then .short (ts.foldl (fun x t => x.prefetchPage t.1 t.2) x) RegResult.empty
    else
      let good : List Elem := ts.filterMap fun t => match t.2 with
        | .leaf p => if pteR p && !(pteShared p && x.s.host.windowLost) then some (t.1, p, x.s.mem.place (physOf p t.1.va)) else none
        | _ => none
      let k : Keep := { hint := if f.func = 1 then 1 else 0, order := 0, scope := 0 }
      let y := x.send none k (good.map fun e => reqOf e (.load 1))
      -- a hint is no access of its strand (R232)
      let free := fun q : Request => if x.s.mem.nextReq ≤ q.id then { q with strands := [] } else q
      .short ({ y with s := { y.s with mem := { y.s.mem with requests := y.s.mem.requests.map free } } }.dropHints (ts.length - good.length))
        RegResult.empty
/-- pref (R232) -/
def execPref (f : FmtM) (s : State) : Host.Outcome State Fault Refusal := run (.pref f) (effPref f) s

/-- A cached translation is of the page of an address. -/
def TlbEntry.covers (e : TlbEntry) (root va : Nat) : Bool :=
  let b := pageBits e.pte
  e.root == root && e.vpage * 8192 / 2 ^ b == va / 2 ^ b

/-- Two addresses lie in one page of 2^bits bytes, or in one of 8 KiB. -/
def samePage (bits a b : Nat) : Bool := vpageOf a == vpageOf b || a / 2 ^ bits == b / 2 ^ bits

/-- Address bits of the page the tables give an address now. -/
def MemSys.pageNow (m : MemSys) (h root va : Nat) : Nat :=
  match walk m h root va with
  | .leaf p => pageBits p
  | _ => 13

/-- Translations of a page for a root leave every TLB, and no part of the page the tables now give counts as missing (R207). -/
def MemSys.tlbInv (m : MemSys) (h root va : Nat) : MemSys :=
  { m with tlb := m.tlb.filter (fun e => !e.covers root va)
           tlb2 := m.tlb2.filter (fun e => !(TlbEntry.mk 0 e.root e.vpage e.pte).covers root va)
           missing := m.missing.filter fun e => !(e.root == root && samePage (m.pageNow h root va) (e.vpage * 8192) va) }

/-- Every translation of a root leaves; the regions that use it take their ROOT (R341). -/
def State.tlbInvAll (s : State) (region : Nat) : State :=
  let root := (s.rootHost region).1
  { s with
    mem := { s.mem with tlb := s.mem.tlb.filter (fun e => e.root != root), tlb2 := s.mem.tlb2.filter (fun e => e.root != root), missing := s.mem.missing.filter fun e => e.root != root }
    regions := s.regions.map fun r => if r.rootUsed == root then { r with rootUsed := r.root } else r }

/-- A line's L2 copy is written back when dirty. -/
def MemSys.writeBack (m : MemSys) (line : Nat) : MemSys :=
  match m.l2.find? fun l => l.line == line with
  | none => m
  | some l =>
    if l.dirty then
      { m with gddr := m.gddr.write line l.data, l2 := m.l2.map fun x => if x.line == line then { x with dirty := false } else x }
    else m

/-- A `cctl` operation on the line at a place. -/
def State.cacheOp (s : State) (core func pa : Nat) : State :=
  let line := lineOf pa
  match func with
  | 0 => s.setCore core { (s.core core) with l1 := (s.core core).l1.filter fun c => c.line != line }
  | 1 => { s with mem := s.mem.writeBack line }
  | 2 => { s with mem := s.mem.evict line }
  | 3 => { s with cores := s.cores.map fun k => { k with icache := k.icache.filter fun i => lineOf i.phys != line } }
  | _ => { s with mem := { s.mem with l2 := s.mem.l2.filter fun l => l.line != line } }

/-- A task, in a pool or saved with a context, holds the translation of a stamp address `hit` selects by its page's bits and the address, under
a root (R274). -/
def State.stampHeld (s : State) (root : Nat) (hit : Nat → Nat → Bool) : Bool :=
  let holds := fun (c : Crew) (t : Task) => (s.rootHost c.region).1 == root && (match t.stamp with
    | some (va, _, _) => hit (pageBits t.pte) va.toNat
    | none => false)
  s.cores.any (fun k => k.tasks.any fun t => match s.crew? t.crew with
    | some c => holds c t
    | none => false) ||
  s.disp.contexts.any fun x => x.tasks.any (holds x.crew)

/-- Stores of the ACTIVE strands that are parked or in flight. -/
def Ctx.storesOut (x : Ctx) : Bool :=
  x.act != 0 && (x.s.hasParked x.c x.b.index ||
    x.s.mem.requests.any fun q => q.crew == x.c.cid && q.pend.isNone && q.strands.any x.actStrands.contains)

/-- A request of any core still holds the translation, under a root, of an address `hit` selects. -/
def State.accessHeld (s : State) (root : Nat) (hit : Nat → Nat → Bool) : Bool :=
  s.mem.requests.any fun q => q.root == root && q.lanes.any fun e => hit q.page e.va

/-- cctl: `tlbinv` and `tlbinvall` act on translations, once no task holds one for its stamp (R274), no access of any core one for its
request, and the strands' earlier stores have performed, so that an entry stored before holds once it completes (R207, log entry 18); the
others act on lines, FUNC 0 once the core's update-only lines of them have merged; FUNC 0 to 3 count lanes they drop -/
def effCctl (f : FmtM) (x : Ctx) : Eff :=
  let fn := f.func.toNat
  let root := (x.s.rootHost x.c.region).1
  if fn = 8 then
    let va := x.globalAddr f
    let hit := fun bits a => x.act.lanes.any fun L => samePage bits a (va L)
    if x.storesOut || x.s.accessHeld root hit || x.s.stampHeld root hit then .stall x
    else .short { x with s := { x.s with mem := x.act.lanes.foldl (fun m L => m.tlbInv (x.s.rootHost x.c.region).2 root (va L)) x.s.mem } } RegResult.empty
  else if fn = 10 then
    if x.act = 0 then .short x RegResult.empty
    else if x.storesOut || x.s.accessHeld root (fun _ _ => true) || x.s.stampHeld root (fun _ _ => true) then .stall x
    else .short { x with s := x.s.tlbInvAll x.c.region } RegResult.empty
  else
    match x.hintAccess f with
    | (some y, _) => .stall y
    | (none, ts) =>
      let good := ts.filterMap fun t => match t.2 with
        | .leaf p => some (x.s.mem.place (physOf p t.1.va))
        | _ => none
      let upd := good.filter fun a => (x.s.core x.c.core).upd.any fun u => u.line == lineOf a
      if fn = 0 && !upd.isEmpty then .stall { x with s := upd.foldl (fun s a => s.askMerge x.c.core (lineOf a)) x.s }
      else
      let y := { x with s := good.foldl (fun s a => s.cacheOp x.c.core fn a) x.s }
      .short (if fn < 4 then y.dropHints (ts.length - good.length) else y) RegResult.empty
/-- cctl (R235) -/
def execCctl (f : FmtM) (s : State) : Host.Outcome State Fault Refusal := run (.cctl f) (effCctl f) s

/-! ## fence, mwait, wait, trig (R233, R234, R236) -/

/-- Earlier loads of strands that are not bound. -/
def Ctx.loadsOpen (x : Ctx) (strands : List Nat) : Bool :=
  x.s.mem.requests.any fun q => q.crew == x.c.cid && q.pend.isSome && q.strands.any strands.contains

/-- fence -/
def effFence (f : FmtA) (x : Ctx) : Eff :=
  let order := f.func.toNat % 8
  let scope := f.func.toNat / 8
  if x.act = 0 then .short x RegResult.empty
  else if x.memWaits order scope || (acquires order && x.loadsOpen x.actStrands) then .stall x
  else .short (x.endSpans x.actStrands) RegResult.empty
/-- fence (R233) -/
def execFence (f : FmtA) (s : State) : Host.Outcome State Fault Refusal := run (.fence f) (effFence f) s

/-- TRAPINFO of QUEUE_FAULT for a stopped copy (R369). -/
def stoppedInfo (e : QEntry) (detail : Nat) (va : DWord) : BitVec 128 :=
  BitVec.ofNat 128 (e.queue % 4 + detail % 16 * 2 ^ 8 + e.unit % 2 ^ 16 * 2 ^ 32 + va.toNat * 2 ^ 64)

/-- A stopped copy of the crew whose stamp address a lane waits on (R234, R263). -/
def Ctx.stoppedAt (x : Ctx) (l : List LaneVA) : Option (BitVec 128) :=
  (x.s.core x.c.core).entries.findSome? fun e =>
    match e.st, e.stamp with
    | .stopped d va, some (a, _) => if e.crew == x.c.cid && l.any (fun v => v.va == a.toNat) then some (stoppedInfo e d va) else none
    | _, _ => none

/-- mwait: every lane reads its location in the same step, as an acquire, once the homes of all have been reached (R295) -/
def effMwait (f : FmtM) (x : Ctx) : Eff :=
  let lanes := x.laneElems f 8 x.act
  if x.act = 0 then .short x RegResult.empty
  else if x.memWaits 1 f.scope.toNat then .stall x
  else
    match x.stoppedAt lanes with
    | some info => .trap x 13 info
    | none =>
      match x.loadAccess pteR false false lanes with
      | .wait y => .stall y
      | .fault y cause info => .trap y cause info
      | .ok l =>
        let lines := l.map fun e => (lineOf e.2.2, e.2.1)
        let me := Agent.mwait x.c.cid x.b.index
        if x.behindParked l || x.behindLoads l then .stall x
        else if !x.s.mem.allReady me false lines then .stall { x with s := x.s.askHome me false lines }
        else
          match x.meets .load x.poisonHome false l with
          | some (cause, info) => .trap x cause info
          | none =>
            let host := (x.s.rootHost x.c.region).2
            let (s, vals) := l.foldl (fun acc e =>
              let (s, bs) := acc.1.homeRead host (pteCache e.2.1) e.2.2 8
              (s.readTime x.c.core (lineOf e.2.2), acc.2 ++ [(e.1.lane, leNat bs)])) ({ x.s with mem := x.s.mem.leave me }, ([] : List (Nat × Nat)))
            let y := { x with s := s }
            let ok := vals.all fun e =>
              let want := x.raw64 4 f.aux.toNat e.1
              if f.func = 1 then e.2 == want else decide (want ≤ e.2)
            if !ok then .stall y
            else
              match y.nanReport (stampIn lanes) with
              | (y, some info) => .trap y 15 info
              | (y, none) =>
                let y := y.ordered 1
                let val := fun L => (match vals.find? fun e => e.1 == L with
                  | some e => BitVec.ofNat 64 e.2
                  | none => (0 : DWord))
                if f.data = 800 then .short y RegResult.empty else .long y (y.result64 f.data.toNat false fun L => (val L, 0))
/-- mwait (R234) -/
def execMwait (f : FmtM) (s : State) : Host.Outcome State Fault Refusal := run (.mwait f) (effMwait f) s

/-- Every crew of a producer cast has triggered or retired (R236); a cast no longer known has completed, and a material cast launches no
crew of its own (R346). -/
def State.depDone (s : State) (castId : Nat) : Bool :=
  match s.cast? castId with
  | none => true
  | some a => a.done || a.kind == 2 || decide (a.gridCrews ≤ a.trigged.length)

/-- wait: without producer casts only a marker -/
def effWait (_f : FmtA) (x : Ctx) : Eff :=
  if x.spanBusy x.subStrands then .stall x
  else
    let y := x.endSpans x.subStrands
    if x.cast.deps.isEmpty then .moved (y.s.setCrew (y.c.setBundle ((y.b.setCurrent (y.advance none)).rotate y.s.coreClock)))
    else .moved (y.parked .wait)
/-- wait (R236) -/
def execWait (f : FmtA) (s : State) : Host.Outcome State Fault Refusal := run (.wait f) (effWait f) s

/-- WAIT_RELEASE: when every producer cast's crews have triggered or retired, the bundle's parked strands go on, as an acquire (R219, R236). -/
def execWaitRelease (crew bun : Nat) (s : State) : Host.Outcome State Fault Refusal :=
  match s.bundle? crew bun with
  | none => .next s
  | some (c, b) =>
    let deps := (s.castOf c).deps
    if !deps.all s.depDone || b.trap.isSome || b.halted || c.st == .halted then .next s
    else
      let lt := (deps.filterMap s.cast?).foldl (fun m a => max m a.trigLT) 0
      let t := s.coreClock
      let go := fun y : SubB => if y.park == .wait then y.goto (nextPc y.pc) t else y
      let b := { b with subs := b.subs.map go }
      .next ((s.setBundle c (b.turn t)).raiseLT c.core lt)

/-- trig -/
def effTrig (_f : FmtA) (x : Ctx) : Eff :=
  if x.act = 0 then .short x RegResult.empty
  else if x.memWaits 2 4 then .stall x
  else .short { (x.endSpans x.actStrands) with c := { x.c with triggered := (x.c.triggered ++ x.actStrands).dedup } } RegResult.empty
/-- After `trig` the crew may have triggered. -/
def noteTrigs (o : Host.Outcome State Fault Refusal) : Host.Outcome State Fault Refusal :=
  match o with
  | .next s => .next (match s.cur with
    | some (cid, _) => s.noteTrig cid
    | none => s)
  | o => o
/-- trig (R236) -/
def execTrig (f : FmtA) (s : State) : Host.Outcome State Fault Refusal := noteTrigs (run (.trig f) (effTrig f) s)

/-! ## Parked stores after their request's answer (R209 to R211) -/

/-- A parked sub-bundle takes a fault that its bundle is owed: it leaves its park and the instruction it is parked at traps (R211). -/
def State.dueFault (s : State) (cid bi : Nat) : State :=
  match s.bundle? cid bi with
  | none => s
  | some (c, b) =>
    let atSync := fun y : SubB => match y.park with
      | .join | .reform _ _ | .bar _ | .gbar | .wait => true
      | _ => false
    if b.trap.isSome then s
    else
      match b.owed, b.subs.find? atSync with
      | o :: t, some y =>
        let b := { (b.bringTo (lowLane y.mask) y.pc s.coreClock) with owed := t }
        let info := BitVec.ofNat 128 (o.va.toNat + (o.pc.toNat % 2 ^ 48 + if o.lackedW then 2 ^ 48 else 0) * 2 ^ 64)
        (s.setBundle c b).takeTrap cid bi 8 info y.pc false 0 0
      | _, _ => s

/-- Discard parked stores of a page: per bundle one fault is owed, for its first store (R210). -/
def State.discardParked (s : State) (core : Nat) (which : Replay → Bool) (lackedW : Bool) : State :=
  let k := s.core core
  let gone := k.replay.filter which
  let s := s.setCore core { k with replay := k.replay.filter fun r => !which r }
  let firsts := gone.foldl (fun l r => if l.any fun q : Replay => q.crew == r.crew && q.bun == r.bun && q.vpage == r.vpage then l else l ++ [r]) []
  firsts.foldl (fun s r => match s.bundle? r.crew r.bun with
    | none => s
    | some (c, b) => (s.setBundle c (b.owe r.lanes r.pc lackedW r.seq)).dueFault r.crew r.bun) s

/-- A parked store that drains to a CHECKED page is recorded in the open spans of its strands that are left, as it is: a store or an atomic; DESIGN CHOICE
(log entry 84): it is compared with no other span, there being no instruction left to trap. -/
def Bundle.recordDrained (b : Bundle) (m : MemSys) (p : DWord) (r : Replay) : Bundle :=
  if !pteChecked p then b
  else (r.lanes.zip r.strands).foldl (fun b e =>
    let t := match e.1.op with
      | .store _ => Touch.store
      | _ => Touch.atom
    if (b.strandsOf b.live).contains e.2 then b.record e.2 t (m.place (physOf p e.1.va)) e.1.op.width else b) b

/-- PARKED_STORE_DRAIN: the parked stores of a page whose request was resolved translate afresh and perform in the order they parked; a page
still absent is requested again; one present without W discards them (R209). Those of `red`s wait for what R240 has merge first; those that their
bundle had parked before it synchronised go to their homes (R215). -/
def execParkedStoreDrain (core root vpage : Nat) (s : State) : Host.Outcome State Fault Refusal :=
  let mine := fun r : Replay => r.root == root && r.vpage == vpage && r.request.isNone
  match (s.core core).replay.filter mine with
  | [] => .next s
  | r0 :: _ =>
    let region := match s.crew? r0.crew with
      | some c => c.region
      | none => 0
    match s.translate core region (vpage * 8192) with
    | .walk => .next (s.startWalk core region (vpage * 8192))
    | .leaf p =>
      -- an atomic access that the host aperture does not take, and any to a lost window, does not perform (R238, R389, log entry 81)
      let atomic := fun r : Replay => r.lanes.any fun e => match e.op with
        | .store _ => false
        | _ => true
      let barred := fun r : Replay => mine r && ((isHost (physOf p r.vpage) && atomic r) || (pteShared p && s.host.windowLost))
      if !pteW p then .next (s.discardParked core mine true)
      else if (s.core core).replay.any barred then .next (s.discardParked core barred false)
      else
        let k := s.core core
        let entries := k.replay.filter mine
        let elems := fun r : Replay => r.lanes.map fun e =>
          ((({ lane := e.lane, elem := 0, va := e.va, bytes := e.op.width } : LaneVA), p, s.mem.place (physOf p e.va)), e.op)
        let ctx := fun (s : State) (r : Replay) => (s.bundle? r.crew r.bun).map fun e =>
          ({ s := s, c := e.1, b := e.2, sub := SubB.start 0 r.pc 0, act := 0, cast := s.castOf e.1 } : Ctx)
        let isLocal := fun r : Replay => r.red && !r.out
        match entries.findSome? fun r => if isLocal r then (ctx s r).bind fun x => x.redHeld (elems r) else none with
        | some y => .next y.s
        | none =>
        let s := s.setCore core { k with replay := k.replay.filter fun r => !mine r }
        .next (entries.foldl (fun s r =>
          match ctx s r with
          | none => s
          | some x =>
            let y := x.sendStores { hint := 0, order := 0, scope := 0 } (isLocal r) (elems r)
            let mark := fun q : Request => if s.mem.nextReq ≤ q.id then { q with late := r.out } else q
            { y.s with mem := { y.s.mem with requests := y.s.mem.requests.map mark } }.setBundle y.c (y.b.recordDrained s.mem p r)) s)
    | _ =>
      let s := s.askAgain core region (vpage * 8192)
      let demand := match s.crew? r0.crew with
        | some c => c.demand
        | none => false
      match s.pageRequest demand region (vpage * 8192) true false with
      | (s, some id) =>
        let k := s.core core
        .next (s.setCore core { k with replay := k.replay.map fun r => if mine r then { r with request := some id } else r })
      | (s, none) => .next (s.discardParked core mine false)

end Sys2Proof.Machine
end

