-- ==== Sys2Proof/Machine/Atomics.lean ====
section
/-! DEFINITION. Atomics, reductions and exact-sum cells (0x1C0 to 0x1C4, R238 to R246). -/

namespace Sys2Proof.Machine

/-- The access of `atom` and `xsrd` after the gate: translated as a load, then as `atomElems` (R245, R246). -/
def Ctx.atomLanes (x : Ctx) (i : Instr) (k : Keep) (right : DWord → Bool) (write : Bool) (hostOk : Bool) (g : Gather) (l : List LaneVA)
    (op : Nat → LaneOp) : Eff :=
  match x.loadAccess right write false l with
  | .wait y => .stall y
  | .fault y cause info => .trap y cause info
  | .ok l => x.atomElems i k write hostOk g l op

/-- atom -/
def effAtom (f : FmtM) (x : Ctx) : Eff :=
  let n := widthBytes f.width.toNat
  let k : Keep := { hint := 0, order := f.order.toNat, scope := f.scope.toNat }
  if x.actNH = 0 then .short x RegResult.empty
  else if x.memWaits k.order k.scope then .stall x
  else
    let fn := f.func.toNat
    let g : Gather :=
      { mask := x.actNH, bytes := n, signed := false, dst := f.data.toNat, full := x.b.live &&& ~~~x.actNH == 0, uniform := false, got := []
        also := RegResult.empty, cell := none, acquire := acquires k.order }
    x.atomLanes (.atom f) k (fun p => pteR p && pteW p) true (fn == 0 || fn == 8 || fn == 9) g (x.laneElems f n x.actNH)
      fun L => .atom fn n (x.srcBytes f.aux.toNat n L) (x.srcBytes f.data.toNat n L)
/-- atom (R245) -/
def execAtom (f : FmtM) (s : State) : Host.Outcome State Fault Refusal := run (.atom f) (fun x => x.orRedo (.atom f) (effAtom f x)) s

/-- red -/
def effRed (f : FmtM) (x : Ctx) : Eff :=
  let n := widthBytes f.width.toNat
  x.storeLanes { hint := 0, order := f.order.toNat, scope := f.scope.toNat } .atom false true (x.laneElems f n x.actNH)
    fun L => .atom f.func.toNat n (x.srcBytes f.data.toNat n L) 0
/-- red (R245) -/
def execRed (f : FmtM) (s : State) : Host.Outcome State Fault Refusal := run (.red f) (effRed f) s

/-- xsadd -/
def effXsadd (f : FmtM) (x : Ctx) : Eff :=
  x.storeLanes { hint := 0, order := f.order.toNat, scope := f.scope.toNat } .atom false false (x.laneElems f 16 x.actNH)
    fun L => .xsadd (BitVec.ofNat 32 (x.raw32 3 f.data.toNat L))
/-- xsadd (R246) -/
def execXsadd (f : FmtM) (s : State) : Host.Outcome State Fault Refusal := run (.xsadd f) (effXsadd f) s

/-- xsclr -/
def effXsclr (f : FmtM) (x : Ctx) : Eff :=
  x.storeLanes { hint := 0, order := f.order.toNat, scope := f.scope.toNat } .atom false false (x.laneElems f 16 x.actNH)
    fun L => .xsclr (BitVec.ofNat 8 (x.raw32 0 f.data.toNat L))
/-- xsclr (R246) -/
def execXsclr (f : FmtM) (s : State) : Host.Outcome State Fault Refusal := run (.xsclr f) (effXsclr f) s

/-- xsrd: helper lanes read without clearing -/
def effXsrd (f : FmtM) (x : Ctx) : Eff :=
  let clear := f.func.getLsbD 3
  let k : Keep := { hint := 0, order := f.order.toNat, scope := f.scope.toNat }
  if x.act = 0 then .short x RegResult.empty
  else if x.memWaits k.order k.scope then .stall x
  else
    let g : Gather :=
      { mask := x.act, bytes := 16, signed := false, dst := f.data.toNat, full := x.full, uniform := false, got := []
        also := RegResult.empty, cell := some (f.func.toNat % 8, f.aux.toNat), acquire := acquires k.order }
    x.atomLanes (.xsrd f) k (fun p => pteR p && (!clear || pteW p)) clear false g (x.laneElems f 16 x.act)
      fun L => .xsrd (clear && !x.b.helper.getLsbD L)
/-- xsrd (R246) -/
def execXsrd (f : FmtM) (s : State) : Host.Outcome State Fault Refusal := run (.xsrd f) (fun x => x.orRedo (.xsrd f) (effXsrd f x)) s

end Sys2Proof.Machine
end

