-- ==== Sys2Proof/Machine/Copy.lean ====
section
/-! DEFINITION. Copy queues and the Ladle (0x1D0 to 0x1D4, R247 to R272). -/

namespace Sys2Proof.Machine

/-! ## The copy record (R250, R251) -/

/-- The fields of a copy record. -/
structure CopyRec where
  role : Bool
  narrow : Bool
  tbl : Nat
  vl : Nat
  param : Nat
  fmt : Nat
  scl : Nat
  dpitch : Nat
  boxc : Nat
  saddr : Nat
  arrive : Bool
  aring : Nat
  sscope : Nat
  lsel : Nat
  rstride : Nat
  e0 : Nat
  boxr : Nat
  gaddr : Nat
  deriving DecidableEq, Repr

/-- A record from S[n] to S[n+3]. -/
def CopyRec.read (l : List DWord) : CopyRec :=
  let w := fun i => l.getD i 0
  { role := bitOf (w 3) 63, narrow := bitOf (w 3) 62, tbl := bitsOf (w 3) 61 59, vl := bitsOf (w 3) 58 57, param := bitsOf (w 3) 56 53
    fmt := bitsOf (w 3) 52 50, scl := bitsOf (w 3) 47 0, dpitch := bitsOf (w 2) 59 48, boxc := bitsOf (w 2) 47 32
    saddr := bitsOf (w 2) 31 0, arrive := bitOf (w 1) 63, aring := bitsOf (w 1) 62 62, sscope := bitsOf (w 1) 61 59
    lsel := bitsOf (w 1) 58 56, rstride := bitsOf (w 1) 55 32, e0 := bitsOf (w 1) 31 0, boxr := bitsOf (w 0) 63 48
    gaddr := bitsOf (w 0) 47 0 }

/-- The fields of a copy record that can fail a check of R252, reserved ones included. -/
inductive RecField where
  | role | narrow | tbl | vl | param | fmt | rsv3 | rsv2 | dpitch | boxc | saddr | arrive | sscope | lsel | rstride | e0 | boxr | gaddr
  deriving DecidableEq, Repr

/-- The low bit of a field in the 256-bit record, S[n] lowest (R250, R369). -/
def RecField.bit (f : RecField) : Nat :=
  match f with
  | .role => 255
  | .narrow => 254
  | .tbl => 251
  | .vl => 249
  | .param => 245
  | .fmt => 242
  | .rsv3 => 240
  | .rsv2 => 188
  | .dpitch => 176
  | .boxc => 160
  | .saddr => 128
  | .arrive => 127
  | .sscope => 123
  | .lsel => 120
  | .rstride => 96
  | .e0 => 64
  | .boxr => 48
  | .gaddr => 0

/-- Scale block length L. -/
def CopyRec.blockLen (r : CopyRec) : Nat := 8 * 2 ^ r.lsel
/-- Bytes of an element in scratch (R251); NARROW halves it. -/
def CopyRec.d (r : CopyRec) (put : Bool) : Nat :=
  match r.fmt with
  | 0 => 2 ^ r.param
  | 1 => if put then 4 else 2
  | 2 | 3 => 1
  | _ => 8
/-- Scratch row pitch P. -/
def CopyRec.pitch (r : CopyRec) : Nat := 16 * r.dpitch
/-- Scratch rows Rd. -/
def CopyRec.rows (r : CopyRec) : Nat := if r.role then r.boxc else r.boxr
/-- Bytes of one scratch row. -/
def CopyRec.rowBytes (r : CopyRec) (put : Bool) : Nat :=
  if r.narrow then r.boxc / 2 else (if r.role then r.boxr else r.boxc) * r.d put
/-- Scale blocks per box row. -/
def CopyRec.blocks (r : CopyRec) : Nat := max 1 (r.boxc / r.blockLen)
/-- The footprint in bytes: to the end of the strip, or of the last row (R251, log entry 12). -/
def CopyRec.footprint (r : CopyRec) (put : Bool) : Nat :=
  if r.lsel = 0 then (r.rows - 1) * r.pitch + r.rowBytes put
  else r.rows * r.pitch + (if r.role then 64 * (r.blocks - 1) + r.boxr else r.blocks * r.boxr)
/-- Tensor element number of a box element. -/
def CopyRec.elem (r : CopyRec) (row col : Nat) : Nat := r.e0 + row * r.rstride + col

/-- The record's failing fields under the RECORD rules of R252 and R254. -/
def CopyRec.bad (r : CopyRec) (l : List DWord) (put : Bool) : List RecField :=
  let f := fun (name : RecField) (b : Bool) => if b then [name] else []
  let k := r.param
  let planes := r.fmt == 2 || r.fmt == 3
  let starts := (List.range r.boxr).map fun i => r.e0 + i * r.rstride
  let L := r.blockLen
  let covers := starts.all fun s => (s % L == 0 && r.boxc % L == 0) || s / L == (s + r.boxc - 1) / L
  f .rsv3 (bitsOf (l.getD 3 0) 49 48 != 0) ++ f .rsv2 (bitsOf (l.getD 2 0) 63 60 != 0) ++ f .fmt (decide (5 < r.fmt)) ++
  f .lsel (decide (4 < r.lsel)) ++ f .sscope (decide (5 < r.sscope)) ++ f .boxr (r.boxr == 0 || decide (1024 < r.boxr)) ++
  f .boxc (r.boxc == 0) ++ f .dpitch (r.dpitch == 0) ++
  (match r.fmt with
   | 0 => f .vl (r.vl != 0) ++ f .tbl (r.tbl != 0) ++ f .narrow r.narrow ++ f .lsel (r.lsel != 0) ++ f .param (decide (3 < k)) ++
          f .gaddr (r.gaddr % 2 ^ k != 0)
   | 1 => f .param (k != 0) ++ f .vl (r.vl != 0) ++ f .tbl (r.tbl != 0) ++ f .narrow r.narrow ++ f .lsel (r.lsel != 0) ++
          f .gaddr (r.gaddr % 4 != 0)
   | 2 | 3 =>
     f .vl (r.vl != 0) ++ f .tbl (r.tbl != 0) ++ f .param (decide (k < 2) || decide (8 < k)) ++ f .gaddr (r.gaddr % 128 != 0) ++
     f .e0 (r.e0 % 64 != 0) ++ f .rstride (r.rstride % 64 != 0) ++ f .boxc (r.boxc % 64 != 0) ++
     f .lsel (r.lsel != 0 && decide (r.lsel ≤ 4) && !covers) ++
     (if r.narrow then f .role r.role ++ f .lsel (r.lsel == 0) ++ f .boxc (r.boxc % 128 != 0) ++
        f .param (decide ((if r.fmt == 2 then 4 else 3) < k)) else []) ++
     f .boxr (r.role && r.lsel != 0 && decide (64 < r.boxr))
   | 4 | 5 => f .vl (r.vl == 0) ++ f .role r.role ++ f .narrow r.narrow ++ f .lsel (r.lsel != 0) ++ f .param (k != 0)
   | _ => []) ++
  (if put then f .fmt (decide (2 < r.fmt)) ++ f .role r.role ++ f .narrow r.narrow ++ f .lsel (r.lsel != 0) ++
      (if r.fmt == 2 then f .e0 (r.e0 % 128 != 0) ++ f .rstride (r.rstride % 128 != 0) ++ f .boxc (r.boxc % 128 != 0) else [])
    else []) ++
  (if planes && r.narrow && put then [] else f .dpitch (decide (r.pitch < r.rowBytes put) || decide (65536 < r.footprint put)))

/-! ## Checks at issue (R247, R252, R263) -/

/-- TRAPINFO of NOTPRODUCER (R369). -/
def Ctx.notProducer (x : Ctx) (table : Option Nat) : Eff :=
  .trap x 12 (BitVec.ofNat 128 (x.cast.producer + x.b.index % 32 * 2 ^ 8 + (match table with
    | some t => 2 ^ 16 + t * 2 ^ 17
    | none => 0)))

/-- TRAPINFO of QUEUE_FAULT raised at issue (R369). -/
def queueInfo (q detail bit : Nat) : BitVec 128 := BitVec.ofNat 128 (q % 4 + detail * 2 ^ 8 + bit % 256 * 2 ^ 16 + 2 ^ 63)

/-- A stopped copy of the crew: any queue's (R263). -/
def Ctx.anyStopped (x : Ctx) : Option (BitVec 128) :=
  (x.s.core x.c.core).entries.findSome? fun e => match e.st with
    | .stopped d va => if e.crew == x.c.cid then some (stoppedInfo e d va) else none
    | _ => none

/-- What every enqueue checks first: it acts once per bundle (R23), only the producer bundle may issue it (R247), and a stopped copy is
reported (R263). `none`: it goes on. -/
def Ctx.enqueueGate (x : Ctx) (drop : Bool) : Option Eff :=
  if x.actNH = 0 then some (.short x RegResult.empty)
  else if x.b.stage.isSome || x.b.index != x.cast.producer then some (x.notProducer none)
  else if drop then none
  else match x.anyStopped with
    | some info => some (.trap x 13 info)
    | none => none

/-- The stamp operands of an enqueue: address and value. -/
def Ctx.stampOf (x : Ctx) (f : FmtE) : Option (DWord × DWord) :=
  if f.stamp = 1023 then none
  else some (BitVec.ofNat 64 (x.raw64 4 f.stamp.toNat 0), BitVec.ofNat 64 (x.raw64 4 f.aux.toNat 0))

/-- A stamp value that does not rise, or a scope without a stamp (R252). -/
def Ctx.stampBad (x : Ctx) (q scope : Nat) (st : Option (DWord × DWord)) : Bool :=
  match st with
  | none => scope != 0
  | some (_, v) => decide (v.toNat ≤ (x.c.stampEnq.getD q 0).toNat)

/-- The footprint of a record lies in one area or one logical ring stage: its spot as a whole (R252). -/
def Ctx.rangeSpot (x : Ctx) (k : Reach) (a n : Nat) : Spot :=
  match a / 2 ^ 29 with
  | 0 | 1 => if a + n ≤ x.c.plainSize then .at x.c.cid .plain a else .fault
  | 4 | 5 => if a % 2 ^ 30 + n ≤ x.c.exchSize then .at x.c.cid (exchBank k) (a % 2 ^ 30) else .fault
  | 2 | 3 =>
    let i := a / 2 ^ 29 - 2
    match x.c.ring? i with
    | none => .fault
    | some r =>
      if r.size < a % 2 ^ 29 % r.size + n || r.size = 0 then .fault
      -- an enqueue that names logical stage 0 of a ring without spawn waits for FULL, whether it reads or writes (R191)
      else if !r.spawn && a % 2 ^ 29 < r.size && (r.stage (r.phys 0)).st != .full then .wait
      else x.c.ringSpot x.b k i (a % 2 ^ 29) n
  | _ => .fault

/-- The ring a footprint lies in, when in its logical stage D. -/
def Ctx.inStageD (x : Ctx) (ring a : Nat) : Bool :=
  match x.c.ring? ring with
  | none => false
  | some r => !r.spawn && a / 2 ^ 29 == ring + 2 && a % 2 ^ 29 / r.size == r.dist

/-- An entry at the tail of its core queue. -/
def newEntry (x : Ctx) (kind : QKind) (q : Nat) (recd : List DWord) (stamp : Option (DWord × DWord)) (scope : Nat) (range : Option PRange)
    (arrive : Option (Nat × Nat)) (mask : BitVec 5) : QEntry :=
  let k := x.s.core x.c.core
  { id := k.enq, seq := k.enqPlace x.s.coreClock (x.c.ageOf x.b), clock := x.s.coreClock, age := x.c.ageOf x.b, crew := x.c.cid, queue := q, kind := kind, recd := recd, stamp := stamp, scope := scope, range := range
    arrive := arrive, unit := 0, st := .waiting, mask := mask, sectors := [], requests := [] }

/-- Step 4 of R249: the entry takes its queue position, its scoreboard entry and its place in the core's enqueue order. DESIGN CHOICE (log entry 84): an
enqueue is none of R222's synchronising operations, and ends no sync span of its bundle's strands. -/
def Ctx.enqueue (x : Ctx) (e : QEntry) : Ctx :=
  let k := (x.s.core x.c.core).openPlace e.seq
  let sb := match e.range with
    | some r => [({ seq := e.seq, crew := e.crew, write := e.kind == .lcopy, range := r } : SbEntry)]
    | none => []
  let c := match e.stamp with
    | some (_, v) => { x.c with stampEnq := x.c.stampEnq.set e.queue v }
    | none => x.c
  { x with s := x.s.setCore x.c.core { k with entries := insertSeq QEntry.seq e k.entries, sboard := k.sboard ++ sb }, c := c }

/-- Step 3 and the stalls of step 4 (R248, R249, R258): accesses of the bundle not performed, a full queue, a full scoreboard. DESIGN CHOICE (log entry
84): a parked `red` is waited for, as by any release (R242), though parked stores are excluded. -/
def Ctx.enqueueWaits (x : Ctx) (q : Nat) (board : Bool) : Bool :=
  let k := x.s.core x.c.core
  let mine := x.b.strandsOf x.b.present
  x.acqPending mine || x.releaseWaits mine 1 || decide (32 ≤ (k.entries.filter fun e => e.queue == q).length) ||
  (board && decide (64 ≤ k.sboard.length))

/-- The ring arrival of a copy, issued on logical stage D (R190, R257): `none` while it stalls. -/
def Ctx.copyArrival (x : Ctx) (ring : Nat) : Option (Ctx × (Nat × Nat)) :=
  match x.c.ring? ring with
  | none => none
  | some r =>
    let k := r.phys r.dist
    let st := r.stage k
    if r.parr ≤ st.issued then none
    else some ({ x with c := x.c.setRing ring (r.setStage k { st with issued := st.issued + 1 }) }, (ring, k))

/-- `lcopy` and `lput` (R249 to R252, R257). DESIGN CHOICE (log entry 84): a stamp value that does not rise, which is no field of the record, is
reported at SSCOPE; a codebook of another crew traps NOTPRODUCER after the RECORD rules and before the other QUEUE_FAULT details. -/
def effCopy (put : Bool) (f : FmtE) (x : Ctx) : Eff :=
  match x.enqueueGate false with
  | some e => e
  | none =>
    let q := f.queue.toNat
    let words := (List.range 4).map fun i => x.sreg (f.recd.toNat - 640 + i) 0
    let r := CopyRec.read words
    let stamp := x.stampOf f
    let fail := fun detail bit => Eff.trap x 13 (queueInfo q detail bit)
    match (r.bad words put).map RecField.bit with
    | b :: bs => fail 1 (bs.foldl max b)
    | [] =>
      if 4 ≤ r.fmt && ((x.s.core x.c.core).tables.getD r.tbl Codebook.init).owner != some x.c.cid then x.notProducer (some r.tbl)
      else
        let kind : Reach := if put then .load else .store
        let n := r.footprint put
        match x.rangeSpot kind r.saddr n with
        | .fault => fail 2 (RecField.saddr.bit)
        | spot =>
          if r.arrive && (put || !x.inStageD r.aring r.saddr) then fail 2 (RecField.arrive.bit)
          else if x.stampBad q r.sscope stamp then fail 3 (RecField.sscope.bit)
          else
            match spot with
            | .at _ area off =>
              if x.enqueueWaits q true then .stall x
              else
                match (if r.arrive then (x.copyArrival r.aring).map fun y => (y.1, some y.2) else some (x, none)) with
                | none => .stall x
                | some (y, arr) =>
                  .short (y.enqueue (newEntry y (if put then .lput else .lcopy) q words stamp r.sscope
                    (some { area := area, off := off, len := n }) arr 0)) RegResult.empty
            | _ => .stall x
/-- lcopy -/
def effLcopy (f : FmtE) (x : Ctx) : Eff := effCopy false f x
/-- lcopy (R269) -/
def execLcopy (f : FmtE) (s : State) : Host.Outcome State Fault Refusal := run (.lcopy f) (effLcopy f) s
/-- lput -/
def effLput (f : FmtE) (x : Ctx) : Eff := effCopy true f x
/-- lput (R269) -/
def execLput (f : FmtE) (s : State) : Host.Outcome State Fault Refusal := run (.lput f) (effLput f) s

/-- lcode. DESIGN CHOICE (log entry 84): a stamp value that does not rise is reported at SSCOPE, bit 51; a table of another crew traps NOTPRODUCER
after every QUEUE_FAULT detail. -/
def effLcode (f : FmtE) (x : Ctx) : Eff :=
  match x.enqueueGate false with
  | some e => e
  | none =>
    let q := f.queue.toNat
    let w := x.sreg (f.recd.toNat - 640) 0
    let tbl := bitsOf w 50 48
    let scope := bitsOf w 53 51
    let stamp := x.stampOf f
    let fail := fun detail bit => Eff.trap x 13 (queueInfo q detail bit)
    let k := x.s.core x.c.core
    let t := k.tables.getD tbl Codebook.init
    if bitsOf w 63 54 != 0 then fail 1 54
    else if 5 < scope then fail 1 51
    else if bitsOf w 47 0 % 128 != 0 then fail 1 0
    else if x.stampBad q scope stamp then fail 3 51
    else if t.owner != none && t.owner != some x.c.cid then x.notProducer (some tbl)
    else if x.enqueueWaits q false then .stall x
    else
      let y := x.enqueue (newEntry x .lcode q [w] stamp scope none none 0)
      let k := y.s.core x.c.core
      .short { y with s := y.s.setCore x.c.core { k with tables := k.tables.set tbl { t with owner := some x.c.cid } } } RegResult.empty
/-- lcode (R270) -/
def execLcode (f : FmtE) (s : State) : Host.Outcome State Fault Refusal := run (.lcode f) (effLcode f) s

/-- An abandoned entry's ring arrival completes (R271). -/
def Crew.arriveFor (c : Crew) (a : Cast) (clock : Nat) (e : QEntry) : Crew :=
  match e.arrive with
  | some (ring, stage) => c.arrive a clock ring stage
  | none => c

/-- `qfence.drop`: the crew's entries in the named queues are abandoned (R271). -/
def Ctx.dropQueues (x : Ctx) (mask : Nat) : Ctx :=
  let k := x.s.core x.c.core
  let gone := fun e : QEntry => e.crew == x.c.cid && mask.testBit e.queue
  let dead := k.entries.filter gone
  let tables := k.tables.map fun t => if t.owner == some x.c.cid && dead.any (fun e => e.kind == .lcode) then { t with old := none } else t
  { x with
    s := x.s.setCore x.c.core { k with
      entries := k.entries.filter fun e => !gone e
      tables := tables
      sboard := k.sboard.filter fun b => !dead.any fun e => e.seq == b.seq }
    c := dead.foldl (fun c e => c.arriveFor x.cast x.s.coreClock e) x.c }

/-- qfence. DESIGN CHOICE (log entry 84): it has no record, and a stamp value that does not rise is reported at bit 0. -/
def effQfence (f : FmtE) (x : Ctx) : Eff :=
  let fn := f.func.toNat
  let drop := fn / 4 % 2 == 1
  match x.enqueueGate drop with
  | some e => e
  | none =>
    if drop then .short (x.dropQueues f.queue.toNat) RegResult.empty
    else
      let q := fn % 4
      let stamp := x.stampOf f
      if x.stampBad q (fn / 8) stamp then .trap x 13 (queueInfo q 3 0)
      else if x.enqueueWaits q false then .stall x
      else .short (x.enqueue (newEntry x .qfence q [] stamp (fn / 8) none none f.queue)) RegResult.empty
/-- qfence (R271) -/
def execQfence (f : FmtE) (s : State) : Host.Outcome State Fault Refusal := run (.qfence f) (effQfence f) s

/-- The word of `qstat` (R272). -/
def Ctx.queueWord (x : Ctx) (q : Nat) (stamp : Bool) : Nat :=
  let k := x.s.core x.c.core
  if stamp then (x.c.stampDone.getD q 0).toNat % 2 ^ 32
  else
    let mine := k.entries.filter fun e => e.crew == x.c.cid && e.queue == q
    let detail := mine.findSome? fun e => match e.st with
      | .stopped d _ => some d
      | _ => none
    min 64 k.sboard.length * 2 ^ 17 + detail.getD 0 * 2 ^ 13 + (if detail.isSome then 2 ^ 12 else 0) +
      min 32 (k.entries.filter fun e => e.queue == q).length * 2 ^ 6 + min 63 mine.length

/-- qstat -/
def effQstat (f : FmtA) (x : Ctx) : Eff :=
  .long x (x.result32 f.dst.toNat 0 none true fun _ _ => (BitVec.ofNat 32 (x.queueWord (f.func.toNat % 4) (f.func.getLsbD 2)), 0))
/-- qstat (R272) -/
def execQstat (f : FmtA) (s : State) : Host.Outcome State Fault Refusal := run (.qstat f) (effQstat f) s

/-! ## Global side of an engine (R261) -/

/-- What an engine's access comes to. -/
inductive EngineAccess where
  /-- (address, bytes, leaf entry, place) of each range; its requests stand until it has acted -/
  | ok (s : State) (l : List (Nat × Nat × DWord × Nat))
  /-- it waits: for the page requests given, or with none for something else -/
  | wait (s : State) (ids : List Nat)
  /-- a detail code of R262 and the address -/
  | stop (s : State) (detail va : Nat)

/-- The lines of translated ranges, each with the leaf entry of its page. -/
def rangeLines (l : List (Nat × Nat × DWord × Nat)) : List (Nat × DWord) :=
  (l.map fun t => (linesOf t.2.2.2 t.2.1).map fun a => (a, t.2.2.1)).flatten

/-- TRANSLATE AS AN ENGINE (R261): missing rights, absent pages (requested, one request per page, when the crew's region pages on demand), the
core's parked stores, the window, and the homes, which are asked and must have served every line (R295 to R301). -/
def State.engineAccess (s : State) (a : Agent) (demand : Bool) (region : Nat) (write : Bool) (l : List (Nat × Nat)) : EngineAccess :=
  let rh := s.rootHost region
  let core := (a.core? s).getD Config.nCores
  let s := s.recallTables rh.2 rh.1 (l.map (·.1))
  let right := if write then pteW else pteR
  let ts := l.map fun e => (e.1, e.2, anyTranslate s.mem s.step rh.2 rh.1 e.1)
  match ts.find? fun t => match t.2.2 with
      | .leaf p => !right p
      | _ => false with
  | some t => .stop (s.acted a) 9 t.1
  | none =>
    let absent := ts.filter fun t => match t.2.2 with
      | .leaf _ => false
      | _ => true
    match absent with
    | [] =>
      let good := ts.filterMap fun t => match t.2.2 with
        | .leaf p => some (t.1, t.2.1, p, s.mem.place (physOf p t.1))
        | _ => none
      let parked := good.any fun t => (s.core core).replay.any fun r => r.root == rh.1 && r.vpage == vpageOf t.1
      let lost := s.host.windowLost && good.any fun t => pteShared t.2.2.1
      if parked || lost then .wait (s.acted a) []
      else if s.mem.allReady a write (rangeLines good) then .ok s good
      else .wait (s.askHome a write (rangeLines good)) []
    | _ =>
      let r := absent.foldl (fun (acc : State × List Nat × Option Nat) t =>
        match acc.2.2 with
        | some _ => acc
        | none =>
          if t.1 / 2 ^ 48 != 0 then (acc.1, acc.2.1, some t.1)
          else
            match acc.1.pageRequest demand region t.1 write false with
            | (s, some id) => (s, acc.2.1 ++ [id], none)
            | (s, none) => (s, acc.2.1, some t.1)) (s.acted a, [], none)
      match r with
      | (s, _, some va) => .stop s 8 va
      | (s, ids, none) => .wait s ids.dedup

/-- A range cut at 32-byte sectors. -/
def sectorCuts (a n : Nat) : List (Nat × Nat) :=
  (List.range (if n = 0 then 0 else (a % 32 + n + 31) / 32)).map fun i =>
    let lo := max a (a / 32 * 32 + 32 * i)
    let hi := min (a + n) (a / 32 * 32 + 32 * i + 32)
    (lo, hi - lo)

/-- The checks of R261 on translated ranges: poison for reads, then races; the detail and address that stop the copy. -/
def State.engineMeets (s : State) (own : Party) (write : Bool) (l : List (Nat × Nat × DWord × Nat)) : Option (Nat × Nat) :=
  match (if write then none else l.find? fun t => s.mem.poisoned t.2.2.2 t.2.1) with
  | some t => some (10, t.1)
  | none => (l.find? fun t => pteChecked t.2.2.1 && (sectorCuts t.2.2.2 t.2.1).any fun c =>
      (s.raceWith own (if write then .store else .load) c.1 c.2).isSome).map fun t => (11, t.1)

/-- The records of an engine's accesses. -/
def engineRecords (z : List Sector) (write : Bool) (l : List (Nat × Nat × DWord × Nat)) : List Sector :=
  l.foldl (fun z t => if pteChecked t.2.2.1 then
    (sectorCuts t.2.2.2 t.2.1).foldl (fun z c => touchSectors z (if write then .store else .load) c.1 c.2) z else z) z

/-! ## Expansion (R253 to R255) -/

/-- Bytes the engine has read: address by address. -/
abbrev Bytes := List (Nat × Byte)

/-- A byte of those read. -/
def Bytes.get (l : Bytes) (a : Nat) : Byte :=
  match l.find? fun e => e.1 == a with
  | some e => e.2
  | none => 0

/-- n bytes from an address. -/
def Bytes.from (l : Bytes) (a n : Nat) : List Byte := (List.range n).map fun i => l.get (a + i)

/-- The range of global memory that holds an element for `lcopy` (R251, R253). -/
def CopyRec.elemRange (r : CopyRec) (e : Nat) : Nat × Nat :=
  match r.fmt with
  | 0 => (r.gaddr + e * 2 ^ r.param, 2 ^ r.param)
  | 1 => (r.gaddr + 4 * e, 4)
  | 2 | 3 => (r.gaddr + 128 * (e / 128), 16 * r.param)
  | 4 => (r.gaddr + e / 2, 1)
  | _ => (r.gaddr + e, 1)

/-- v_k of an element of a plane block (R131). -/
def planeValue (bs : List Byte) (k i : Nat) : Int :=
  readInt true k (((List.range k).map fun j => if (bs.getD (16 * j + i / 8) 0).getLsbD (i % 8) then 2 ^ (k - 1 - j) else 0).sum)

/-- The integer of a plane element: k planes widened to `n` bits by truncation or midpoint. -/
def widenPlane (v : Int) (k n : Nat) (mid : Bool) : Int :=
  v * 2 ^ (n - k) + (if mid && decide (k < n) then 2 ^ (n - k - 1) else 0)

/-- A bf16 of an f32 encoding, RNE, subnormals kept (R253). -/
def toBf16 (x : Nat) : Nat := (roundTo bf16 0 false (f32.read false x).res).1

/-- The bytes of an element in scratch; a narrow plane element gives its nibble. -/
def CopyRec.expand (r : CopyRec) (data : Bytes) (table : Nat → List Byte) (e : Nat) : List Byte :=
  let (a, n) := r.elemRange e
  let bs := data.from a n
  match r.fmt with
  | 0 => bs
  | 1 => leBytes 2 (toBf16 (leNat bs))
  | 2 | 3 =>
    let v := planeValue bs r.param (e % 128)
    if r.narrow then [BitVec.ofNat 8 (wrapInt 4 (widenPlane v r.param 4 (r.fmt == 3)))]
    else [BitVec.ofInt 8 (widenPlane v r.param 8 (r.fmt == 3))]
  | 4 => table (leNat bs / 16 ^ (e % 2) % 16)
  | _ => table (leNat bs)

/-- The elements of scratch row u, in order. -/
def CopyRec.rowElems (r : CopyRec) (u : Nat) : List Nat :=
  if r.role then (List.range r.boxr).map fun i => r.elem i u else (List.range r.boxc).map (r.elem u)

/-- Nibbles in pairs, low first. -/
def packNibbles : List Byte → List Byte
  | a :: b :: t => (a &&& 0xF ||| (b &&& 0xF) <<< 4) :: packNibbles t
  | [a] => [a &&& 0xF]
  | [] => []

/-- The scale bytes of the strip: (place in the strip, address of the scale byte) (R254). -/
def CopyRec.stripElems (r : CopyRec) : List (Nat × Nat) :=
  if r.lsel = 0 then []
  else ((List.range r.boxr).map fun i => (List.range r.blocks).map fun j =>
    (if r.role then 64 * j + i else r.blocks * i + j, r.scl + (r.e0 + i * r.rstride + j * r.blockLen) / r.blockLen)).flatten

/-- The ranges unit u of an `lcopy` reads: its row, and with the last row the strip (R262). -/
def CopyRec.unitReads (r : CopyRec) (u : Nat) : List (Nat × Nat) :=
  ((r.rowElems u).map r.elemRange).eraseDups ++ (if u + 1 = r.rows then (r.stripElems.map fun e => (e.2, 1)).eraseDups else [])

/-- What unit u of an `lcopy` writes, as (offset from SADDR, bytes); `none` where a narrow exponent exceeds 127 (R254). -/
def CopyRec.unitWrites (r : CopyRec) (u : Nat) (data : Bytes) (table : Nat → List Byte) : Option (List (Nat × List Byte)) :=
  let elems := (r.rowElems u).map (r.expand data table)
  let row := if r.narrow then packNibbles elems.flatten else elems.flatten
  let strip := if u + 1 = r.rows then r.stripElems else []
  let exps := strip.map fun e => (e.1, (data.get e.2).toInt + (if r.narrow then 4 else 0))
  if exps.any fun e => decide (127 < e.2) then none
  else some ((u * r.pitch, row) :: exps.map fun e => (r.rows * r.pitch + e.1, [BitVec.ofInt 8 e.2]))

/-- The first narrow exponent that exceeds 127: its scale byte's address. -/
def CopyRec.badScale (r : CopyRec) (data : Bytes) : Nat :=
  match r.stripElems.find? fun e => decide (127 < (data.get e.2).toInt + 4) with
  | some e => e.2
  | none => 0

/-- A global byte that an `lput` writes: its address, the offsets of the scratch bytes it is made from, and which part of them it takes. -/
structure PutCell where
  addr : Nat
  src : List Nat
  part : Nat
  deriving DecidableEq, Repr

/-- Every global byte an `lput` writes, in row order (R255). A plane byte j of a block holds bit 7 - j / 16 of eight elements; the planes beyond
k are zero and read nothing. -/
def CopyRec.putCells (r : CopyRec) : List PutCell :=
  ((List.range r.boxr).map fun i =>
    match r.fmt with
    | 2 => ((List.range (r.boxc / 128)).map fun b =>
        (List.range 128).map fun j =>
          ({ addr := r.gaddr + 128 * (r.elem i (128 * b) / 128) + j, part := 7 - j / 16
             src := if 8 - r.param ≤ 7 - j / 16 then (List.range 8).map fun t => i * r.pitch + 128 * b + 8 * (j % 16) + t else [] } : PutCell)).flatten
    | _ => ((List.range r.boxc).map fun c =>
        let d := if r.fmt = 0 then 2 ^ r.param else 4
        let n := if r.fmt = 0 then d else 2
        (List.range n).map fun t =>
          ({ addr := r.gaddr + r.elem i c * n + t, part := t, src := (List.range d).map fun b => i * r.pitch + c * d + b } : PutCell)).flatten).flatten

/-- The value of a cell from the scratch bytes of the footprint. -/
def PutCell.value (p : PutCell) (fmt : Nat) (src : Nat → Byte) : Byte :=
  let bs := p.src.map src
  match fmt with
  | 0 => bs.getD p.part 0
  | 1 => (leBytes 2 (toBf16 (leNat bs))).getD p.part 0
  | _ => BitVec.ofNat 8 (((List.range 8).map fun t => if (bs.getD t 0).getLsbD p.part then 2 ^ t else 0).sum)

/-- The 128-byte lines an `lput` writes, ascending. -/
def CopyRec.putLines (r : CopyRec) : List Nat :=
  sortBy (fun a b => decide (a ≤ b)) (r.putCells.map fun e => lineOf e.addr).eraseDups

/-- Units of an entry (R262). -/
def QEntry.units (e : QEntry) : Nat :=
  let r := CopyRec.read e.recd
  match e.kind with
  | .lcopy => r.rows
  | .lput => r.putLines.length
  | .lcode => 1
  | .qfence => 0

/-- The global bytes an entry reads or writes, each once, with 8 for its stamp (R267). -/
def QEntry.globalBytes (e : QEntry) : Nat :=
  let r := CopyRec.read e.recd
  let payload := match e.kind with
    | .lcopy => ((((List.range r.rows).map r.unitReads).flatten.eraseDups.map fun a => (List.range a.2).map (a.1 + ·)).flatten.dedup).length
    | .lput => (r.putCells.map (·.addr)).dedup.length
    | .lcode => 2048
    | .qfence => 0
  payload + (if e.stamp.isSome then 8 else 0)

/-! ## Performing (R248, R259, R262) -/

/-- The entry with an id. -/
def CoreSt.entry? (k : CoreSt) (id : Nat) : Option QEntry := k.entries.find? fun e => e.id == id
/-- Replace an entry. -/
def CoreSt.setEntry (k : CoreSt) (e : QEntry) : CoreSt := { k with entries := k.entries.map fun d => if d.id == e.id then e else d }
/-- Replace an entry of a core. -/
def State.setEntry (s : State) (core : Nat) (e : QEntry) : State := s.setCore core ((s.core core).setEntry e)

/-- The entry is the first of its crew in its queue. -/
def CoreSt.isHead (k : CoreSt) (e : QEntry) : Bool :=
  match k.entries.find? fun d => d.crew == e.crew && d.queue == e.queue with
  | some d => d.id == e.id
  | none => false

/-- An earlier scoreboard entry of the crew holds the copy back (R259): a write entry always, a read entry for a copy that writes. -/
def CoreSt.boardHolds (k : CoreSt) (e : QEntry) : Bool :=
  match e.range with
  | none => false
  | some r => k.sboard.any fun b => b.crew == e.crew && decide (b.seq < e.seq) && b.range.area == r.area &&
      (b.write || e.kind == .lcopy) && granulesMeet b.range.off b.range.len r.off r.len

/-- The entry may perform: head of its queue, not stopped, its requests answered, the scoreboard free for it; one that has not begun stays so while
its crew is halted for pre-emption (R264). -/
def State.entryReady (s : State) (core : Nat) (e : QEntry) : Bool :=
  let k := s.core core
  let stopped := match e.st with
    | .stopped _ _ => true
    | _ => false
  let unbegun := e.st == .waiting && (match s.crew? e.crew with
    | some c => c.st == .halted
    | none => true)
  k.isHead e && !stopped && !unbegun && !(e.requests.any s.outstanding) && !k.boardHolds e

/-- Stop an entry with a detail code (R262). -/
def State.stopEntry (s : State) (core : Nat) (e : QEntry) (detail va : Nat) : State :=
  s.setEntry core { e with st := .stopped detail (BitVec.ofNat 64 va), requests := [] }

/-- Scoreboard entries of an enqueue retire. -/
def State.retireBoard (s : State) (core seq : Nat) : State :=
  let k := s.core core
  s.setCore core { k with sboard := k.sboard.filter fun b => b.seq != seq }

/-- Write a list of (offset, bytes) into a crew's scratch from a range's start; units covered whole lose their poison. -/
def Crew.rangeWrite (c : Crew) (r : PRange) (l : List (Nat × List Byte)) : Crew :=
  let c := c.setAreaMem r.area (l.foldl (fun m e => m.write (r.off + e.1) e.2) (c.areaMem r.area))
  let whole := if c.poison.isEmpty then [] else unitsCovered (l.map fun e => (r.off + e.1, e.2.length))
  { c with poison := c.poison.filter fun p => !(p.1 == r.area && whole.contains p.2) }

/-- The ranges read at their homes. -/
def State.engineRead (s : State) (host : Nat) (l : List (Nat × Nat × DWord × Nat)) : State × Bytes :=
  l.foldl (fun acc t =>
    let (s, bs) := acc.1.homeRead host (pteCache t.2.2.1) t.2.2.2 t.2.1
    (s, acc.2 ++ (List.range t.2.1).map fun i => (t.1 + i, bs.getD i 0))) (s, [])

/-- Entry i of a table as a copy of queue q reads it: while the `lcode` of another queue that filled it has not completed, either the old or
the new bytes (R266). -/
def CoreSt.tableEntry (k : CoreSt) (step tbl q i : Nat) : List Byte :=
  let t := k.tables.getD tbl Codebook.init
  match t.old with
  | none => t.data.read (8 * i) 8
  | some old =>
    let other := k.entries.any fun e => e.kind == .lcode && some e.crew == t.owner && bitsOf (e.recd.getD 0 0) 50 48 == tbl && e.queue != q
    if other && Config.freeBit step 10 (256 * tbl + i) then old.read (8 * i) 8 else t.data.read (8 * i) 8

/-- The ranges a unit still reads: a plane block the copy has read is not read again (R253). -/
def QEntry.reads (e : QEntry) (r : CopyRec) : List (Nat × Nat) :=
  (r.unitReads e.unit).filter fun a => !((r.fmt == 2 || r.fmt == 3) && a.2 == 16 * r.param && e.held.any fun b => b.1 == a.1)

/-- What a copy keeps of what it has read: of plane formats everything but the scale bytes. -/
def QEntry.keep (e : QEntry) (r : CopyRec) (data : Bytes) : QEntry :=
  let block := fun b : Nat × Byte => (e.reads r).any fun a => a.2 == 16 * r.param && decide (a.1 ≤ b.1) && decide (b.1 < a.1 + a.2)
  if r.fmt == 2 || r.fmt == 3 then { e with held := e.held ++ data.filter block } else e

/-- The next unit of an `lcopy`. -/
def State.copyUnit (s : State) (core : Nat) (c : Crew) (e : QEntry) : State :=
  let r := CopyRec.read e.recd
  let host := (s.rootHost c.region).2
  let me := Agent.copy core c.cid e.id
  match s.engineAccess me c.demand c.region false (e.reads r) with
  | .wait s ids => s.setEntry core { e with requests := ids, st := .begun }
  | .stop s d va => s.stopEntry core e d va
  | .ok s l =>
    let s := s.acted me
    match s.engineMeets (.copy core e.id e.queue) false l, e.range with
    | some (d, va), _ => s.stopEntry core e d va
    | none, none => s
    | none, some rng =>
      let (s, data) := s.engineRead host l
      let e := e.keep r data
      let data := e.held ++ data
      match r.unitWrites e.unit data ((s.core core).tableEntry s.step r.tbl e.queue) with
      | none => s.stopEntry core e 12 (r.badScale data)
      | some w =>
        let e := { e with unit := e.unit + 1, st := .begun, requests := [], sectors := engineRecords e.sectors false l }
        let s := (s.setCrew (c.rangeWrite rng w)).setEntry core e
        if e.unit = r.rows then s.retireBoard core e.seq else s

/-- The next unit of an `lput`. -/
def State.putUnit (s : State) (core : Nat) (c : Crew) (e : QEntry) : State :=
  let r := CopyRec.read e.recd
  let host := (s.rootHost c.region).2
  match e.range with
  | none => s
  | some rng =>
    let src := fun i => (c.areaMem rng.area).get (rng.off + i)
    let lines := r.putLines
    let cells := r.putCells.filter fun p => lineOf p.addr == lines.getD e.unit 0
    let bytes := cells.map fun p => (p.addr, p.value r.fmt src)
    let bad := fun o : Nat => c.poison.any fun p => p.1 == rng.area && decide (p.2 ≤ rng.off + o) && decide (rng.off + o < p.2 + 64)
    let me := Agent.copy core c.cid e.id
    match s.engineAccess me c.demand c.region true (bytes.map fun b => (b.1, 1)) with
    | .wait s ids => s.setEntry core { e with requests := ids, st := .begun }
    | .stop s d va => s.stopEntry core e d va
    | .ok s l =>
      let s := s.acted me
      if cells.any fun p => p.src.any bad then s.stopEntry core e 10 0
      else
        match s.engineMeets (.copy core e.id e.queue) true l with
        | some (d, va) => s.stopEntry core e d va
        | none =>
          let s := (l.zip bytes).foldl (fun s t => s.homeWrite core host (pteCache t.1.2.2.1) t.1.2.2.2 [t.2.2]) s
          let whole := unitsCovered (l.map fun t => (t.2.2.2, 1))
          let s := { s with mem := { s.mem with poison := s.mem.poison.filter fun u => !whole.contains u } }
          let e := { e with unit := e.unit + 1, st := .begun, requests := [], sectors := engineRecords e.sectors true l }
          let s := s.setEntry core e
          if e.unit = lines.length then s.retireBoard core e.seq else s

/-- COPY_UNIT_PERFORM: the next unit of a copy that may perform (R262). -/
def execCopyUnitPerform (core entry : Nat) (s : State) : Host.Outcome State Fault Refusal :=
  match (s.core core).entry? entry with
  | none => .next s
  | some e =>
    match s.crew? e.crew with
    | none => .next s
    | some c =>
      if !s.entryReady core e || decide (e.units ≤ e.unit) then .next s
      else
        match e.kind with
        | .lcopy => .next (s.copyUnit core c e)
        | .lput => .next (s.putUnit core c e)
        | _ => .next s

/-- CODEBOOK_FILL: an `lcode` performs and fills its table (R266). -/
def execCodebookFill (core entry : Nat) (s : State) : Host.Outcome State Fault Refusal :=
  match (s.core core).entry? entry with
  | none => .next s
  | some e =>
    match s.crew? e.crew with
    | none => .next s
    | some c =>
      if e.kind != .lcode || !s.entryReady core e || e.unit != 0 then .next s
      else
        let w := e.recd.getD 0 0
        let ranges := (List.range 16).map fun i => (bitsOf w 47 0 + 128 * i, 128)
        let me := Agent.copy core c.cid e.id
        match s.engineAccess me c.demand c.region false ranges with
        | .wait s ids => .next (s.setEntry core { e with requests := ids, st := .begun })
        | .stop s d va => .next (s.stopEntry core e d va)
        | .ok s l =>
          let s := s.acted me
          match s.engineMeets (.copy core e.id e.queue) false l with
          | some (d, va) => .next (s.stopEntry core e d va)
          | none =>
            let (s, data) := s.engineRead (s.rootHost c.region).2 l
            let k := (s.core core).setEntry { e with unit := 1, st := .begun, requests := [], sectors := engineRecords e.sectors false l }
            let t := k.tables.getD (bitsOf w 50 48) Codebook.init
            let t := { t with data := Mem.write [] 0 (data.map (·.2)), old := some t.data }
            .next (s.setCore core { k with tables := k.tables.set (bitsOf w 50 48) t })

/-- The end of an entry: its stamp is written as a release of its bytes (R256), its span ends, its bytes are counted (R267), its place is
free. -/
def State.endEntry (s : State) (core : Nat) (c : Crew) (e : QEntry) : State :=
  let finish := fun (s : State) (c : Crew) =>
    let s := s.setCrew c
    let k := s.core core
    let tables := if e.kind == .lcode then
        k.tables.set (bitsOf (e.recd.getD 0 0) 50 48) { (k.tables.getD (bitsOf (e.recd.getD 0 0) 50 48) Codebook.init) with old := none }
      else k.tables
    let s := s.setCore core { k with entries := k.entries.filter (fun d => d.id != e.id), tables := tables }
    match s.region? c.region with
    | none => s
    | some r => s.setRegion { r with ldcnt := r.ldcnt + BitVec.ofNat 64 e.globalBytes }
  match e.stamp with
  | none => finish s c
  | some (a, v) =>
    if a.toNat % 8 != 0 then s.stopEntry core e 13 a.toNat
    else
      let me := Agent.copy core c.cid e.id
      match s.engineAccess me c.demand c.region true [(a.toNat, 8)] with
      | .wait s ids => s.setEntry core { e with requests := ids }
      | .stop s _ va => s.stopEntry core e 13 va
      | .ok s l =>
        let s := s.acted me
        match l with
        | t :: _ =>
          let s := s.homeWrite core (s.rootHost c.region).2 (pteCache t.2.2.1) t.2.2.2 (leBytes 8 v.toNat)
          finish s { c with stampDone := c.stampDone.set e.queue v }
        | [] => s

/-- COPY_COMPLETE: the last byte has landed, the arrival completes, then the stamp is written (R256, R257). -/
def execCopyComplete (core entry : Nat) (s : State) : Host.Outcome State Fault Refusal :=
  match (s.core core).entry? entry with
  | none => .next s
  | some e =>
    match s.crew? e.crew with
    | none => .next s
    | some c =>
      if e.kind == .qfence || !s.entryReady core e || decide (e.unit < e.units) then .next s
      else
        let c := c.arriveFor (s.castOf c) s.coreClock e
        let e := { e with arrive := none }
        .next (((s.setCrew c).setEntry core e).endEntry core c e)

/-- Everything a fence names that was enqueued before it has completed (R271); in the clock of its enqueue an older bundle's enqueue may still
take a place before it (R249). -/
def CoreSt.fenceMet (k : CoreSt) (e : QEntry) : Bool :=
  !(k.entries.any fun d => d.crew == e.crew && decide (d.seq < e.seq) && e.mask.getLsbD d.queue) &&
  !(e.mask.getLsbD 4 && k.tasks.any fun t => t.crew == e.crew && decide (t.seq < e.seq))

/-- QFENCE_COMPLETE (R271). -/
def execQfenceComplete (core entry : Nat) (s : State) : Host.Outcome State Fault Refusal :=
  match (s.core core).entry? entry with
  | none => .next s
  | some e =>
    match s.crew? e.crew with
    | none => .next s
    | some c => .next (if e.kind == .qfence && decide (e.clock < s.coreClock) && s.entryReady core e && (s.core core).fenceMet e then
        s.endEntry core c e else s)

end Sys2Proof.Machine
end

