-- ==== Sys2Proof/Machine/Matrix.lean ====
section
/-! DEFINITION. Matrix engines, the weight buffer and accumulator tiles (0x1E0 to 0x1E5, R273 to R293). -/

namespace Sys2Proof.Machine

/-! ## The task record (R275, R277, R278) -/

/-- The fields of a task record. -/
structure TaskRec where
  kind : TKind
  zero : Bool
  sscope : Nat
  ks : Nat
  wg : Nat
  nt : Nat
  ct : Nat
  trans : Bool
  slb : Nat
  sla : Nat
  fmt : Nat
  spitch : Nat
  saddr : Nat
  deriving DecidableEq, Repr

/-- A record from S[n] and S[n+1]. -/
def TaskRec.read (kind : TKind) (w0 w1 : DWord) : TaskRec :=
  { kind := kind, zero := bitOf w1 29, sscope := bitsOf w1 28 26, ks := bitsOf w1 25 22, wg := bitsOf w1 21 16, nt := bitsOf w1 15 8
    ct := bitsOf w1 7 0, trans := bitOf w0 57, slb := bitsOf w0 56 54, sla := bitsOf w0 53 51, fmt := bitsOf w0 50 48
    spitch := bitsOf w0 43 32, saddr := bitsOf w0 31 0 }

/-- The fields of a task record that can fail a check of R279, reserved ones included. -/
inductive TaskField where
  | rsv3 | rsv2 | rsv1 | zero | sscope | ks | wg | nt | ct | rsv0 | trans | slb | sla | fmt | rsvp | spitch | saddr
  deriving DecidableEq, Repr

/-- The low bit of a field in the 256-bit record, S[n] lowest (R278, R369). -/
def TaskField.bit (f : TaskField) : Nat :=
  match f with
  | .rsv3 => 192
  | .rsv2 => 128
  | .rsv1 => 94
  | .zero => 93
  | .sscope => 90
  | .ks => 86
  | .wg => 80
  | .nt => 72
  | .ct => 64
  | .rsv0 => 58
  | .trans => 57
  | .slb => 54
  | .sla => 51
  | .fmt => 48
  | .rsvp => 44
  | .spitch => 32
  | .saddr => 0

/-- How B (or A) elements are held. -/
inductive EType where
  | int8
  | int4
  | bf16
  deriving DecidableEq, Repr

/-- Element type of a task's operands. -/
def TaskRec.etype (r : TaskRec) : EType :=
  match r.kind with
  | .mwld => if r.fmt = 0 then .int8 else if r.fmt = 1 then .int4 else .bf16
  | _ => if r.fmt ≤ 2 then .int8 else if r.fmt ≤ 5 then .int4 else .bf16

/-- Rows of B in a weight-buffer granule, and bytes of one of them (R275). -/
def EType.rows (e : EType) : Nat :=
  match e with
  | .int8 => 64
  | .int4 => 128
  | .bf16 => 32
/-- Bytes of a row of 64 columns in a granule. -/
def EType.rowBytes (e : EType) : Nat := 4096 / e.rows
/-- Bytes of n elements in scratch. -/
def EType.bytes (e : EType) (n : Nat) : Nat :=
  match e with
  | .int8 => n
  | .int4 => n / 2
  | .bf16 => 2 * n

/-- K -/
def TaskRec.k (r : TaskRec) : Nat := 64 * (r.ks + 1)
/-- M -/
def TaskRec.m (r : TaskRec) : Nat := 64 * (r.nt + 1)
/-- Row pitch P. -/
def TaskRec.pitch (r : TaskRec) : Nat := 16 * r.spitch
/-- The block length of a scale code; 0 for none. -/
def scaleLen (code : Nat) : Nat := if code = 0 then 0 else 8 * 2 ^ code
/-- Weight-buffer granules of a task. -/
def TaskRec.granules (r : TaskRec) : Nat :=
  match r.kind with
  | .mma | .mwld => r.k / r.etype.rows
  | _ => 0

/-- Rows of the scratch operand (R277). -/
def TaskRec.rows (r : TaskRec) : Nat :=
  match r.kind with
  | .mwld => if r.trans then 64 else r.k
  | .mzero => 0
  | _ => r.m
/-- Bytes of one row of the scratch operand. -/
def TaskRec.rowBytes (r : TaskRec) : Nat :=
  match r.kind with
  | .mma => r.etype.bytes r.k
  | .mwld => if r.trans then r.etype.bytes r.k else r.etype.bytes 64
  | .mst => if r.fmt = 0 then 256 else if r.fmt = 1 then 128 else 64
  | .mzero => 0
/-- Scale blocks per row of the operand. -/
def TaskRec.blocks (r : TaskRec) : Nat := if r.sla = 0 then 0 else max 1 ((if r.kind == .mst then 64 else r.k) / scaleLen r.sla)
/-- Bytes of the scale strip. -/
def TaskRec.stripBytes (r : TaskRec) : Nat :=
  match r.kind with
  | .mwld => 64 * r.blocks
  | .mzero => 0
  | _ => r.m * r.blocks
/-- Offset of a strip byte: of row i (or column c) and block j. -/
def TaskRec.stripAt (r : TaskRec) (i j : Nat) : Nat :=
  r.rows * r.pitch + (if r.kind == .mwld && !r.trans then 64 * j + i else r.blocks * i + j)
/-- Bytes of the scratch range. -/
def TaskRec.size (r : TaskRec) : Nat :=
  match r.kind with
  | .mzero => 0
  | _ => if r.sla = 0 then (r.rows - 1) * r.pitch + r.rowBytes else r.rows * r.pitch + r.stripBytes

/-- Failing fields under the RECORD rules. -/
def TaskRec.bad (r : TaskRec) (l : List DWord) (stamp : Bool) : List TaskField :=
  let f := fun (name : TaskField) (b : Bool) => if b then [name] else []
  let w := fun i => l.getD i 0
  f .rsv3 (w 3 != 0) ++ f .rsv2 (w 2 != 0) ++ f .rsv1 (bitsOf (w 1) 63 30 != 0) ++ f .rsv0 (bitsOf (w 0) 63 58 != 0) ++
  f .rsvp (bitsOf (w 0) 47 44 != 0) ++ f .sscope (decide (5 < r.sscope) || (r.sscope != 0 && !stamp)) ++
  (match r.kind with
   | .mma =>
     let plain := r.fmt == 1 || r.fmt == 2 || r.fmt == 4 || r.fmt == 5 || r.fmt == 6
     f .trans r.trans ++ f .fmt (decide (6 < r.fmt)) ++ f .sla (decide (4 < r.sla) || (plain && r.sla != 0)) ++
     f .slb (decide (4 < r.slb) || (plain && r.slb != 0)) ++ f .nt (decide (3 < r.nt))
   | .mwld =>
     f .zero r.zero ++ f .nt (r.nt != 0) ++ f .ct (r.ct != 0) ++ f .slb (r.slb != 0) ++ f .fmt (decide (2 < r.fmt)) ++
     f .sla (decide (4 < r.sla) || (r.fmt == 2 && r.sla != 0)) ++ f .trans (r.fmt == 1 && !r.trans)
   | .mst =>
     f .ks (r.ks != 0) ++ f .wg (r.wg != 0) ++ f .fmt (decide (2 < r.fmt)) ++ f .nt (decide (3 < r.nt)) ++
     f .sla (match r.fmt with
       | 0 | 1 => r.sla != 0
       | 2 => r.sla == 0 || decide (3 < r.sla)
       | _ => r.sla != 0) ++
     f .slb (match r.fmt with
       | 0 => r.slb != 0
       | 1 => false
       | _ => decide (4 < r.slb))
   | .mzero =>
     f .zero r.zero ++ f .ks (r.ks != 0) ++ f .wg (r.wg != 0) ++ f .trans r.trans ++ f .slb (r.slb != 0) ++ f .sla (r.sla != 0) ++
     f .fmt (r.fmt != 0) ++ f .spitch (r.spitch != 0) ++ f .saddr (r.saddr != 0) ++ f .nt (decide (191 < r.nt)))

/-- Failing fields under the SHAPE rules. -/
def TaskRec.badShape (r : TaskRec) : List TaskField :=
  let f := fun (name : TaskField) (b : Bool) => if b then [name] else []
  if r.kind == .mzero then []
  else f .saddr (r.saddr % 256 != 0) ++ f .spitch (decide (r.pitch < r.rowBytes)) ++
    f .ks (r.kind != .mst && r.etype == .int4 && r.k % 128 != 0)

/-- The task reads or writes accumulator tiles; it uses the weight buffer. -/
def TaskRec.usesTiles (r : TaskRec) : Bool := r.kind != .mwld
/-- It uses the weight buffer. -/
def TaskRec.usesWeights (r : TaskRec) : Bool := r.kind == .mma || r.kind == .mwld

/-! ## Enqueue (R274, R279) -/

/-- TRAPINFO of TASK_FAULT (R369). -/
def taskInfo (detail bit : Nat) : BitVec 128 := BitVec.ofNat 128 (detail + bit % 256 * 2 ^ 8)

/-- The highest failing field, as TRAPINFO names it. -/
def firstField (l : List TaskField) : Option Nat :=
  match l.map TaskField.bit with
  | [] => none
  | b :: t => some (t.foldl max b)

/-- Translation of the stamp address as a store (step 3): its physical place and leaf entry, or what it comes to. -/
def Ctx.stampAccess (x : Ctx) (st : Option (DWord × DWord)) : Sum Eff (Option (DWord × Nat × DWord) × DWord) :=
  match st with
  | none => .inr (none, 0)
  | some (a, v) =>
    match x.loadAccess pteW true false [{ lane := lowLane x.actNH, elem := 0, va := a.toNat, bytes := 8 }] with
    | .wait y => .inl (.stall y)
    | .fault y cause info => .inl (.trap y cause (info ||| 1#128 <<< 76))
    | .ok l =>
      match x.meets .store (fun _ => false) false l with
      | some (cause, info) => .inl (.trap x cause info)
      | none =>
        match l with
        | e :: _ => .inr (some (a, e.2.2, v), e.2.1)
        | [] => .inr (none, 0)

/-- Steps 5 to 7 of R274: the ring stage, the pool, the scoreboard; then the task takes its places. -/
def Ctx.poolTask (x : Ctx) (r : TaskRec) (words : List DWord) (spot : Option Spot) (stamp : Option (DWord × Nat × DWord)) (pte : DWord) : Eff :=
  let k := x.s.core x.c.core
  let mine := x.b.strandsOf x.b.present
  let range := match spot with
    | some (.at _ area off) => some ({ area := area, off := off, len := r.size } : PRange)
    | _ => none
  if spot == some .wait || x.acqPending mine || decide (64 ≤ k.tasks.length) || decide (64 ≤ k.sboard.length) then .stall x
  else
    let n := k.enqPlace x.s.coreClock (x.c.ageOf x.b)
    let t : Task :=
      { id := k.enq, seq := n, clock := x.s.coreClock, age := x.c.ageOf x.b, crew := x.c.cid, bun := x.b.index, pc := x.sub.pc, kind := r.kind, w0 := words.getD 0 0, w1 := words.getD 1 0
        range := range, stamp := stamp, engine := none, left := false, pte := pte }
    let sb := match range with
      | some p => [({ seq := n, crew := x.c.cid, write := r.kind == .mst, range := p } : SbEntry)]
      | none => []
    let k := k.openPlace n
    .short { x with s := x.s.setCore x.c.core { k with tasks := insertSeq Task.seq t k.tasks, sboard := k.sboard ++ sb } } RegResult.empty

/-- AN ENQUEUE of a matrix task (R274): once per bundle, its record checked in the order of R279, its stamp translated. DESIGN CHOICE (log entry 84):
where a range rule spans several fields TRAPINFO names the one the range begins at, SADDR, WG or CT. -/
def effTask (kind : TKind) (f : FmtE) (x : Ctx) : Eff :=
  if x.actNH = 0 then .short x RegResult.empty
  else
    let words := (List.range 4).map fun i => x.sreg (f.recd.toNat - 640 + i) 0
    let r := TaskRec.read kind (words.getD 0 0) (words.getD 1 0)
    let st := x.stampOf f
    let fail := fun detail bit => Eff.trap x 14 (taskInfo detail bit)
    match firstField (r.bad words st.isSome) with
    | some b => fail 1 b
    | none =>
      match firstField r.badShape with
      | some b => fail 2 b
      | none =>
        let reach : Reach := if kind == .mst then .store else .load
        let spot := if kind == .mzero then none else some (x.rangeSpot reach r.saddr r.size)
        if spot == some .fault then fail 3 TaskField.saddr.bit
        else if r.usesWeights && decide (x.c.wbg < r.wg + r.granules) then fail 4 TaskField.wg.bit
        else if r.usesTiles && decide (x.c.tiles.length ≤ r.ct + r.nt) then fail 5 TaskField.ct.bit
        else
          match x.stampAccess st with
          | .inl e => e
          | .inr (stamp, pte) => x.poolTask r words spot stamp pte

/-- mma -/
def effMma (f : FmtE) (x : Ctx) : Eff := effTask .mma f x
/-- mma (R288) -/
def execMma (f : FmtE) (s : State) : Host.Outcome State Fault Refusal := run (.mma f) (effMma f) s
/-- mwld -/
def effMwld (f : FmtE) (x : Ctx) : Eff := effTask .mwld f x
/-- mwld (R289) -/
def execMwld (f : FmtE) (s : State) : Host.Outcome State Fault Refusal := run (.mwld f) (effMwld f) s
/-- mst -/
def effMst (f : FmtE) (x : Ctx) : Eff := effTask .mst f x
/-- mst (R290) -/
def execMst (f : FmtE) (s : State) : Host.Outcome State Fault Refusal := run (.mst f) (effMst f) s
/-- mzero -/
def effMzero (f : FmtE) (x : Ctx) : Eff := effTask .mzero f x
/-- mzero (R291) -/
def execMzero (f : FmtE) (s : State) : Host.Outcome State Fault Refusal := run (.mzero f) (effMzero f) s

/-! ## Ordering among tasks (R280, R281, R292) -/

/-- The record of a task in the pool. -/
def Task.record (t : Task) : TaskRec := TaskRec.read t.kind t.w0 t.w1

/-- Tiles a task reads. -/
def TaskRec.readsTile (r : TaskRec) (n : Nat) : Bool :=
  decide (r.ct ≤ n) && decide (n ≤ r.ct + r.nt) && (match r.kind with
    | .mma => !r.zero
    | .mst => true
    | _ => false)
/-- Tiles a task writes. -/
def TaskRec.writesTile (r : TaskRec) (n : Nat) : Bool :=
  decide (r.ct ≤ n) && decide (n ≤ r.ct + r.nt) && (match r.kind with
    | .mma => true
    | .mst => r.zero
    | .mzero => true
    | .mwld => false)
/-- Two tasks touch a common tile that one of them writes. -/
def TaskRec.tilesClash (a b : TaskRec) : Bool :=
  (List.range (a.nt + 1)).any fun i =>
    let n := a.ct + i
    (a.writesTile n && (b.readsTile n || b.writesTile n)) || (b.writesTile n && a.readsTile n)
/-- Two tasks touch a common weight-buffer granule that one of them writes. -/
def TaskRec.weightsClash (a b : TaskRec) : Bool :=
  a.usesWeights && b.usesWeights && (a.kind == .mwld || b.kind == .mwld) &&
  decide (a.wg < b.wg + b.granules) && decide (b.wg < a.wg + a.granules)
/-- Two tasks touch a common ordering granule of scratch that one of them writes. -/
def Task.scratchClash (a b : Task) : Bool :=
  match a.range, b.range with
  | some p, some q => (a.kind == .mst || b.kind == .mst) && p.area == q.area && granulesMeet p.off p.len q.off q.len
  | _, _ => false
/-- A range that either task writes overlaps a range of the other (R280). -/
def Task.clash (a b : Task) : Bool := a.record.tilesClash b.record || a.record.weightsClash b.record || a.scratchClash b

/-- An earlier scoreboard entry of the crew holds the task back (R281). -/
def CoreSt.taskHeld (k : CoreSt) (t : Task) : Bool :=
  match t.range with
  | none => false
  | some r => k.sboard.any fun b => b.crew == t.crew && decide (b.seq < t.seq) && b.range.area == r.area && (b.write || t.kind == .mst) &&
      granulesMeet b.range.off b.range.len r.off r.len

/-- A sample of `astat` or `ard` that a task enqueued later and writing its tile waits for (R292). -/
def State.sampleHolds (s : State) (t : Task) : Bool :=
  match s.crew? t.crew with
  | none => false
  | some c => c.bundles.any fun b => b.subs.any fun y => match y.stall with
    | some st => !st.withdrawn && (match st.sample with
      | some (tile, n) => decide (n ≤ t.seq) && t.record.writesTile tile
      | none => false)
    | none => false

/-- The task waits on nothing, and its crew is not halted for pre-emption, with which it would be saved as a record (R286). -/
def State.taskReady (s : State) (core : Nat) (t : Task) : Bool :=
  let k := s.core core
  t.engine.isNone && (match s.crew? t.crew with
    | some c => c.st != .halted
    | none => false) && !(k.tasks.any fun e => e.crew == t.crew && decide (e.seq < t.seq) && e.clash t) && !k.taskHeld t && !s.sampleHolds t

/-- TASK_START: an idle engine takes the oldest ready task of its core (R273). -/
def execTaskStart (core engine : Nat) (s : State) : Host.Outcome State Fault Refusal :=
  let k := s.core core
  if 4 ≤ engine || k.tasks.any (fun t => t.engine == some engine) then .next s
  else
    let ready := sortBy (fun a b : Task => decide (a.seq ≤ b.seq)) (k.tasks.filter (s.taskReady core))
    match ready with
    | [] => .next s
    | t :: _ => .next (s.setCore core { k with tasks := k.tasks.map fun e => if e.id == t.id then { e with engine := some engine } else e })

/-! ## Arithmetic (R282, R283) -/

/-- The elements of a row of n of them as they lie in bytes, as integers. -/
def intElems (e : EType) (bs : List Byte) (n : Nat) : List Int :=
  match e with
  | .int4 => (List.range n).map fun i => readInt true 4 ((bs.getD (i / 2) 0).toNat / 16 ^ (i % 2) % 16)
  | _ => (List.range n).map fun i => (bs.getD i 0).toInt

/-- The elements of a row as bf16 values. -/
def floatElems (bs : List Byte) (n : Nat) : List FVal :=
  (List.range n).map fun i => bf16.read false (leNat [bs.getD (2 * i) 0, bs.getD (2 * i + 1) 0])

/-- The exact sum of products. -/
def dot (a b : List Int) : Int := (List.zipWith (· * ·) a b).sum

/-- One rounding per block (R282): acc, and per block its sum and exponent. -/
def scaledSum (acc : Nat) (blocks : List (Int × Int)) : Nat :=
  blocks.foldl (fun acc b =>
    (roundTo f32 0 false (addVal false (f32.read false acc) (.fin (decide (b.1 < 0)) b.1.natAbs b.2))).1) acc

/-- The exact sum of the products of a group of 16, rounded once (R283). -/
def groupSum (a b : List FVal) : Nat :=
  let ps := List.zipWith mulVal a b
  match ps with
  | [] => 0
  | p :: t => (roundTo f32 0 false (t.foldl (fun s q => addVal false s.val q.val) p)).1

/-- acc plus the groups of 16, in order. -/
def bf16Sum (acc : Nat) (a b : List FVal) : Nat :=
  (List.range (a.length / 16)).foldl (fun acc g => f32Add acc (groupSum ((a.drop (16 * g)).take 16) ((b.drop (16 * g)).take 16))) acc

/-- The columns of a matrix given by rows of 64. -/
def columns {α : Type} (rows : List (List α)) (d : α) : List (List α) := (List.range 64).map fun c => rows.map fun r => r.getD c d

/-! ## Scratch and weight-buffer data of a task -/

/-- Bytes of a task's scratch range. -/
def Task.bytes (t : Task) (c : Crew) (off n : Nat) : List Byte :=
  match t.range with
  | some p => (c.areaMem p.area).read (p.off + off) n
  | none => []

/-- Poisoned scratch meets n bytes of the range. -/
def Task.poisoned (t : Task) (c : Crew) (off n : Nat) : Bool :=
  match t.range with
  | some p => c.poison.any fun e => e.1 == p.area && decide (e.2 < p.off + off + n) && decide (p.off + off < e.2 + 64)
  | none => false

/-- Poisoned data (`side` false) or sides of the weight buffer meet n bytes. -/
def Crew.weightPoison (c : Crew) (side : Bool) (a n : Nat) : Bool :=
  c.wpoison.any fun e => e.1 == side && decide (e.2 < a + n) && decide (a < e.2 + 64)

/-- A count that saturates at 65,535 (R284). -/
def satCount (n d : Nat) : Nat := min 65535 (n + d)

/-- NaN and infinity of an f32 encoding. -/
def isNan32 (x : Nat) : Bool := (f32.read false x).isNan
/-- An infinity. -/
def isInf32 (x : Nat) : Bool := x % 2 ^ 31 == 0x7F800000

/-! ## Performing -/

/-- Length of a block of R282. -/
def TaskRec.blockLen (r : TaskRec) : Nat :=
  let a := scaleLen r.sla
  let b := scaleLen r.slb
  min r.k (if a = 0 then (if b = 0 then 64 else b) else if b = 0 then a else min a b)

/-- One row of results of an `mma`: from C's row the new row, and per element whether it was clamped. -/
def mmaRow (t : Task) (c : Crew) (r : TaskRec) (bi : List (List Int)) (bf : List (List FVal)) (side : Nat → Nat → Int) (i : Nat)
    (old : List Nat) : List (Nat × Bool) :=
  let row := t.bytes c (i * r.pitch) r.rowBytes
  let start := fun o : Nat => if r.zero then 0 else o
  match r.fmt with
  | 6 =>
    let a := floatElems row r.k
    List.zipWith (fun o b => (bf16Sum (start o) a b, false)) old bf
  | 0 | 3 =>
    let a := intElems r.etype row r.k
    let L := r.blockLen
    let sa := fun b => if r.sla = 0 then (0 : Int) else match t.bytes c (r.stripAt i (b * L / scaleLen r.sla)) 1 with
      | x :: _ => x.toInt
      | [] => 0
    let blocks := List.range (r.k / L)
    (List.range 64).map fun col =>
      let b := bi.getD col []
      (scaledSum (start (old.getD col 0)) (blocks.map fun n => (dot ((a.drop (n * L)).take L) ((b.drop (n * L)).take L), sa n + side n col)), false)
  | _ =>
    let a := intElems r.etype row r.k
    let sat := r.fmt == 2 || r.fmt == 5
    List.zipWith (fun o b =>
      let x := readInt true 32 (start o) + dot a b
      if sat then ((wrapInt 32 (clampInt (-(2 ^ 31)) (2 ^ 31 - 1) x).1), (clampInt (-(2 ^ 31)) (2 ^ 31 - 1) x).2 != 0)
      else (wrapInt 32 x, false)) old bi

/-- A tile with a row of new elements, their counts and the poison that reached them (R282 to R286). -/
def AccTile.mmaRow (z : AccTile) (r : TaskRec) (row : Nat) (old : List Nat) (new : List (Nat × Bool)) (bad : Nat → Bool) : AccTile :=
  let pairs := List.zip old new
  let float := r.fmt == 0 || r.fmt == 3 || r.fmt == 6
  let count := fun p : Nat × Nat × Bool → Bool => (pairs.filter p).length
  let nan := if float then count fun p => isNan32 p.2.1 && !isNan32 p.1 else 0
  let inf := if float then count fun p => isInf32 p.2.1 && !isInf32 p.1 && !isNan32 p.1 else 0
  let base := 64 * row
  { elems := (List.range 64).foldl (fun m col => m.set (base + col) (BitVec.ofNat 32 (new.getD col (0, false)).1)) z.elems
    satc := satCount z.satc (count fun p => p.2.2), nanc := satCount z.nanc nan, infc := satCount z.infc inf
    poison := z.poison.filter (fun e => e / 64 != row) ++
      ((List.range 64).filter fun col => bad col || (!r.zero && z.poison.contains (base + col))).map (base + ·) }

/-- The elements of a tile's row. -/
def AccTile.row (z : AccTile) (i : Nat) : List Nat := (List.range 64).map fun col => (z.elems.get (64 * i + col)).toNat

/-- The tile a number names. -/
def Crew.tile (c : Crew) (n : Nat) : AccTile := c.tiles.getD n AccTile.zero

/-- PERFORM an `mma` (R282, R283, R288): the tiles, and the first new NaN element as (tile, row, column). -/
def Task.mma (t : Task) (c : Crew) : Crew × Option (Nat × Nat × Nat) :=
  let r := t.record
  let e := r.etype
  let R := e.rows
  let base := 4096 * r.wg
  let rowOf := fun k => c.wdata.read (base + e.rowBytes * k) e.rowBytes
  let bi := if e == .bf16 then [] else columns ((List.range r.k).map fun k => intElems e (rowOf k) 64) 0
  let bf := if e == .bf16 then columns ((List.range r.k).map fun k => floatElems (rowOf k) 64) (.fin false 0 0) else []
  let L := r.blockLen
  let sideAt := fun (n col : Nat) => 512 * (r.wg + n * L / R) + 64 * (n * L % R / scaleLen r.slb) + col
  let side := fun (n col : Nat) => if r.slb = 0 then (0 : Int) else (c.wside.get (sideAt n col)).toInt
  let dataBad := fun col => if e == .bf16
    then (List.range r.k).any fun k => c.weightPoison false (base + 128 * k + 2 * col) 2
    else c.weightPoison false base (4096 * r.granules)
  let colBad := (List.range 64).map fun col => dataBad col || (r.slb != 0 && (List.range (r.k / L)).any fun n => c.weightPoison true (sideAt n col) 1)
  let rowBad := fun i => t.poisoned c (i * r.pitch) r.rowBytes ||
    (r.sla != 0 && (List.range r.blocks).any fun j => t.poisoned c (r.stripAt i j) 1)
  (List.range r.m).foldl (fun acc i =>
    let n := r.ct + i / 64
    let z := acc.1.tile n
    let old := z.row (i % 64)
    let new := mmaRow t c r bi bf side i old
    let bad := rowBad i
    let z' := z.mmaRow r (i % 64) old new fun col => bad || colBad.getD col false
    let nanCol := (List.range 64).find? fun col => isNan32 (new.getD col (0, false)).1 && !isNan32 (old.getD col 0)
    let mark := match acc.2 with
      | some m => some m
      | none => if z.nanc < z'.nanc then nanCol.map fun col => (n, i % 64, col) else none
    ({ acc.1 with tiles := acc.1.tiles.set n z' }, mark)) (c, none)

/-- Byte b of row k of B in a granule comes from these bytes of the scratch source (R275, R277): offset, and for int4 which nibble of each
source byte gives the low and the high nibble. -/
def TaskRec.sourceOf (r : TaskRec) (k b : Nat) : List (Nat × Nat) :=
  if !r.trans then [(k * r.pitch + b, 0)]
  else match r.etype with
    | .int8 => [(b * r.pitch + k, 0)]
    | .bf16 => [(b / 2 * r.pitch + 2 * k + b % 2, 0)]
    | .int4 => [(2 * b * r.pitch + k / 2, k % 2), ((2 * b + 1) * r.pitch + k / 2, k % 2)]

/-- PERFORM an `mwld` (R289). -/
def Task.mwld (t : Task) (c : Crew) : Crew :=
  let r := t.record
  let e := r.etype
  let R := e.rows
  let L := scaleLen r.sla
  let byteAt := fun off => match t.bytes c off 1 with
    | x :: _ => x
    | [] => (0 : Byte)
  let dataCells := ((List.range r.k).map fun k => (List.range e.rowBytes).map fun b => (4096 * r.wg + e.rowBytes * k + b, r.sourceOf k b)).flatten
  let value := fun l : List (Nat × Nat) => match l with
    | [(a, p), (d, q)] => ((byteAt a >>> (4 * p)) &&& 0xF) ||| (((byteAt d >>> (4 * q)) &&& 0xF) <<< 4)
    | (a, _) :: _ => byteAt a
    | [] => 0
  let sideOf := fun (g s : Nat) =>
    let j := s / 64
    -- rows beyond the strip's last whole block have no scale
    if r.sla = 0 || max 1 (R / L) ≤ j || r.blocks ≤ (R * g + j * L) / L then none else some (r.stripAt (s % 64) ((R * g + j * L) / L))
  let sideCells := ((List.range r.granules).map fun g => (List.range 512).map fun s => (512 * (r.wg + g) + s, sideOf g s)).flatten
  let units := fun (l : List Nat) => (l.map fun a => a / 64 * 64).dedup
  let here := fun (p : Bool × Nat) =>
    let n := if p.1 then 512 else 4096
    decide (n * r.wg ≤ p.2) && decide (p.2 < n * (r.wg + r.granules))
  { c with
    wdata := dataCells.foldl (fun m d => m.set d.1 (value d.2)) c.wdata
    wside := sideCells.foldl (fun m d => m.set d.1 (match d.2 with
      | some a => byteAt a
      | none => 0)) c.wside
    wpoison := c.wpoison.filter (fun p => !here p) ++
      (units ((dataCells.filter fun d => d.2.any fun q => t.poisoned c q.1 1).map (·.1))).map (fun a => (false, a)) ++
      (units ((sideCells.filter fun d => match d.2 with
        | some a => t.poisoned c a 1
        | none => false).map (·.1))).map fun a => (true, a) }

/-- An element of a tile as `mst` reads it. -/
def TaskRec.value (r : TaskRec) (x : Nat) : FVal := if r.trans then FVal.ofInt (readInt true 32 x) else f32.read false x

/-- floor(log2 |x|) of a nonzero finite value. -/
def floorLog2 (v : FVal) : Option Int :=
  match v with
  | .fin _ m e => if m = 0 then none else some (e + bitLen m - 1)
  | _ => none

/-- The exponent of a block (R290). -/
def blockExp (vs : List FVal) : Int :=
  match vs.filterMap floorLog2 with
  | [] => 0
  | a :: l => (clampInt (-128) 127 (l.foldl max a - 6)).1

/-- An element narrowed to s8 under an exponent: the byte, and the flags of its rounding. -/
def narrowElem (rnd : Nat) (s : Int) (v : FVal) : Byte × Flags :=
  match v with
  | .nan _ => (0, flagIV)
  | .inf neg => (if neg then BitVec.ofInt 8 (-128) else 127, 0)
  | .fin n m e =>
    let (x, fl) := clampInt (-128) 127 (roundInt (roundMode rnd).1 n m (e - s) false)
    (BitVec.ofInt 8 x, fl)

/-- Which count an element raises: (SATC, NANC, INFC). -/
def narrowCount (v : FVal) (fl : Flags) : Nat × Nat × Nat :=
  match v with
  | .nan _ => (0, 1, 0)
  | .inf _ => (0, 0, 1)
  | .fin _ _ _ => if fl &&& flagSAT != 0 then (1, 0, 0) else (0, 0, 0)

/-- What row i of the tiles writes: (offset, bytes) of the row and of its strip, and the counts it raises (R284, R290). -/
def TaskRec.storeRow (r : TaskRec) (i : Nat) (row : List Nat) : List (Nat × List Byte) × List (Nat × Nat × Nat) :=
  match r.fmt with
  | 0 => ([(i * r.pitch, (row.map fun x => leBytes 4 x).flatten)], [])
  | 1 =>
    let rs := row.map fun x => (r.value x, roundTo bf16 r.slb false (r.value x).res)
    ([(i * r.pitch, (rs.map fun p => leBytes 2 p.2.1).flatten)], rs.map fun p => narrowCount p.1 p.2.2)
  | _ =>
    let vs := row.map r.value
    let L := scaleLen r.sla
    let parts := (List.range r.blocks).map fun j =>
      let blk := (vs.drop (j * L)).take L
      let s := blockExp blk
      (s, blk.map fun v => (v, narrowElem r.slb s v))
    let elems := (parts.map (·.2)).flatten
    ((i * r.pitch, elems.map fun p => p.2.1) ::
      (List.range r.blocks).map fun j => (r.stripAt i j, [BitVec.ofInt 8 (parts.getD j (0, [])).1]),
     elems.map fun p => narrowCount p.1 p.2.2)

/-- Bytes of row i that poisoned elements reach: ranges in the destination. -/
def TaskRec.poisonRow (r : TaskRec) (i : Nat) (bad : List Nat) : List (Nat × Nat) :=
  let w := r.rowBytes / 64
  let block := fun col => if r.fmt = 2 then col / scaleLen r.sla else 0
  if r.fmt = 2 then
    -- the exponent of a block takes every element of it in
    (bad.map fun col =>
      let j := block col
      [(i * r.pitch + j * scaleLen r.sla, scaleLen r.sla), (r.stripAt i j, 1)]).flatten
  else bad.map fun col => (i * r.pitch + w * col, w)

/-- Units of a range of an area. -/
def poisonUnits (p : PRange) (l : List (Nat × Nat)) : List (Area × Nat) :=
  ((l.map fun e => (List.range ((e.1 + p.off) % 64 + e.2 + 63)).filterMap fun i =>
    if i % 64 = 0 && decide (i < (e.1 + p.off) % 64 + e.2) then some (p.area, (e.1 + p.off) / 64 * 64 + i) else none).flatten).dedup

/-- A tile with all elements 0 (R291); `counts`: its counts cleared as well. -/
def AccTile.zeroed (z : AccTile) (counts : Bool) : AccTile :=
  if counts then AccTile.zero else { z with elems := [], poison := [] }

/-- PERFORM an `mst` (R290). -/
def Task.mst (t : Task) (c : Crew) : Crew :=
  let r := t.record
  match t.range with
  | none => c
  | some p =>
    let rows := (List.range r.m).map fun i => r.storeRow i ((c.tile (r.ct + i / 64)).row (i % 64))
    let bad := ((List.range r.m).map fun i =>
      r.poisonRow i (((c.tile (r.ct + i / 64)).poison.filter fun e => e / 64 == i % 64).map (· % 64))).flatten
    let c := c.rangeWrite p (rows.map (·.1)).flatten
    let c := { c with poison := (c.poison ++ poisonUnits p bad).dedup }
    { c with tiles := (List.range (r.nt + 1)).foldl (fun ts n =>
        let z := ts.getD (r.ct + n) AccTile.zero
        let cs := (((rows.drop (64 * n)).take 64).map (·.2)).flatten
        let z := { z with satc := satCount z.satc (cs.map (·.1)).sum, nanc := satCount z.nanc (cs.map fun q => q.2.1).sum
                          infc := satCount z.infc (cs.map fun q => q.2.2).sum }
        ts.set (r.ct + n) (if r.zero then z.zeroed false else z)) c.tiles }

/-- PERFORM an `mzero` (R291). -/
def Task.mzero (t : Task) (c : Crew) : Crew :=
  let r := t.record
  { c with tiles := (List.range (r.nt + 1)).foldl (fun ts n => ts.set (r.ct + n) AccTile.zero) c.tiles }

/-- PERFORM a task on its crew. -/
def Task.performed (t : Task) (c : Crew) : Crew × Option (Nat × Nat × Nat) :=
  match t.kind with
  | .mma => t.mma c
  | .mwld => (t.mwld c, none)
  | .mst => (t.mst c, none)
  | .mzero => (t.mzero c, none)

/-- Engine clocks of a task (R273). -/
def TaskRec.clocks (r : TaskRec) : Nat :=
  match r.kind with
  | .mma => match r.etype with
    | .int8 => r.m * r.k / 64
    | .int4 => r.m * r.k / 128
    | .bf16 => r.m * r.k / 16
  | .mwld => (r.size + 127) / 128
  | .mst => 64 * (r.nt + 1)
  | .mzero => 16 * (r.nt + 1)

/-- A NaN-marked task's mark: kept for its bundle, or to the flag accumulator when that has left (R285). -/
def Crew.markNan (c : Crew) (t : Task) (m : Option (Nat × Nat × Nat)) : Crew :=
  match m with
  | none => c
  | some (tile, row, col) =>
    if t.left then { c with flagAcc := c.flagAcc ||| flagMNAN }
    else
      let r := t.record
      { c with nan := c.nan ++ [{ bun := t.bun, pc := t.pc, tile := tile, row := row, col := col, firstTile := r.ct, lastTile := r.ct + r.nt
                                  stamp := t.stamp.map (·.1) }] }

/-- TASK_COMPLETE: the engine's task performs, its scoreboard entry retires, its clocks are counted, its stamp is written as a release, and
its pool entry is free (R273, R281). A stamp waits for those of earlier tasks to its address, and for its line's home (R295). -/
def execTaskComplete (core engine : Nat) (s : State) : Host.Outcome State Fault Refusal :=
  let k := s.core core
  match k.tasks.find? fun t => t.engine == some engine with
  | none => .next s
  | some t =>
    let same := fun e : Task => match e.stamp, t.stamp with
      | some (a, _, _), some (b, _, _) => a == b
      | _, _ => false
    match s.crew? t.crew with
    | none => .next s
    | some c =>
      let me := Agent.task core t.crew t.id
      let lines := match t.stamp with
        | some (_, pa, _) => [(lineOf pa, t.pte)]
        | none => []
      if !s.mem.allReady me true lines then .next (s.askHome me true lines)
      else if k.tasks.any (fun e => e.crew == t.crew && decide (e.seq < t.seq) && same e) then .next s
      else
        let (c, mark) := t.performed c
        let c := c.markNan t mark
        let k := { k with tasks := k.tasks.filter (fun e => e.id != t.id), sboard := k.sboard.filter fun b => b.seq != t.seq }
        let s := (s.setCrew c).setCore core k
        let s := match s.region? c.region with
          | none => s
          | some r => s.setRegion { r with mxcnt := r.mxcnt + BitVec.ofNat 64 t.record.clocks }
        .next (match t.stamp with
          | none => s
          | some (_, pa, v) => (s.acted me).homeWrite core (s.rootHost c.region).2 (pteCache t.pte) pa (leBytes 8 v.toNat))

/-! ## astat and ard (R292, R293) -/

/-- The tile number of an operand: of a v register, in the lowest lane of ACTIVE. -/
def Ctx.tileNum (x : Ctx) (f : FmtA) : Nat := x.raw32 f.ty.toNat f.opa.toNat (lowLane x.act)

/-- The place in the enqueue order the instruction samples a tile at: that of its issue. -/
def Ctx.sampleSeq (x : Ctx) (tile : Nat) : Nat :=
  match x.sub.stall with
  | some st => match st.sample with
    | some (n, q) => if st.withdrawn || n != tile then (x.s.core x.c.core).enq else q
    | none => (x.s.core x.c.core).enq
  | none => (x.s.core x.c.core).enq

/-- A task that writes a tile, or narrows from it. -/
def TaskRec.samples (r : TaskRec) (tile : Nat) : Bool :=
  r.writesTile tile || (r.kind == .mst && r.readsTile tile && r.fmt != 0)

/-- WAIT FOR A TILE (R292): `some` while the instruction waits for tasks enqueued before it issued, with its place kept. -/
def Ctx.tileWait (x : Ctx) (tile : Nat) : Option Ctx :=
  let n := x.sampleSeq tile
  if (x.s.core x.c.core).tasks.any fun t => t.crew == x.c.cid && decide (t.seq < n) && t.record.samples tile then
    let st : Stall := match x.sub.stall with
      | some st => if st.withdrawn then { st with withdrawn := false, since := x.s.coreClock, sample := some (tile, n) }
                   else { st with sample := some (tile, n) }
      | none => { (Stall.start x.s.coreClock) with sample := some (tile, n) }
    some { x with sub := { x.sub with stall := some st } }
  else none

/-- astat -/
def effAstat (f : FmtA) (x : Ctx) : Eff :=
  let tile := x.tileNum f
  if x.act = 0 then .short x RegResult.empty
  else if x.c.tiles.length ≤ tile then .trap x 14 (taskInfo 5 0)
  else
    match x.tileWait tile with
    | some y => .stall y
    | none =>
      let z := x.c.tile tile
      let word := if f.func.getLsbD 1 then z.infc else z.nanc * 2 ^ 16 + z.satc
      let y := if f.func.getLsbD 0 then { x with c := { x.c with tiles := x.c.tiles.set tile { z with satc := 0, nanc := 0, infc := 0 } } } else x
      .long y (y.result32 f.dst.toNat 0 none true fun _ _ => (BitVec.ofNat 32 word, 0))
/-- astat (R292) -/
def execAstat (f : FmtA) (s : State) : Host.Outcome State Fault Refusal := run (.astat f) (effAstat f) s

/-- ard -/
def effArd (f : FmtA) (x : Ctx) : Eff :=
  let tile := x.tileNum f
  if x.act = 0 then .short x RegResult.empty
  else if x.c.tiles.length ≤ tile then .trap x 14 (taskInfo 5 0)
  else
    match x.tileWait tile with
    | some y => .stall y
    | none =>
      match x.nanReport fun m => decide (m.firstTile ≤ tile) && decide (tile ≤ m.lastTile) with
      | (y, some info) => .trap y 15 info
      | (y, none) =>
        let z := y.c.tile tile
        let at_ := fun L => 64 * (x.raw32 f.ty.toNat f.opb.toNat L % 64) + x.raw32 f.ty.toNat f.opc.toNat L % 64
        match x.act.lanes.find? fun L => z.poison.contains (at_ L) with
        | some L => .trap y 9 (poisonInfo 0 L 2)
        | none => .long y (y.result32 f.dst.toNat 0 (some shapeG) false fun L _ => (z.elems.get (at_ L), 0))
/-- ard (R293) -/
def execArd (f : FmtA) (s : State) : Host.Outcome State Fault Refusal := run (.ard f) (effArd f) s

end Sys2Proof.Machine
end

