-- ==== Sys2Proof/Machine/Visib.lean ====
section
/-! DEFINITION. The mesh stage (`vemit pemit mcommit`, R304, R305, R330 to R332) and the ray tests (`ixbox ixtri`, R333, R334). -/

namespace Sys2Proof.Machine

/-! ## Primitive-buffer slots (R304) -/

/-- Blocks of 256 bytes a slot of attribute count NA takes. -/
def slotBlocks (na : Nat) : Nat := (96 * (16 + 4 * na) + 640 + 255) / 256

/-- Blocks of a core's primitive buffer that slots of bundles and meshlets not yet rasterised hold. -/
def State.blocksUsed (s : State) (core : Nat) : Nat :=
  ((s.crews.filter fun c => c.core == core).map fun c => (c.bundles.map fun b => match b.prim with
    | some p => slotBlocks p.na
    | none => 0).sum).sum +
  ((s.vis.meshlets.filter fun m => m.core == core).map fun m => match s.cast? m.castId with
    | some a => slotBlocks a.na
    | none => 0).sum

/-- A bundle's slot, taken now when it has none and its turn has come: the context, and whether it has the slot. -/
def Ctx.withSlot (x : Ctx) : Ctx × Bool :=
  match x.b.prim with
  | some _ => (x, true)
  | none =>
    let k := x.s.core x.c.core
    let (k, ticket) := match x.b.primTicket with
      | some t => (k, t)
      | none => ({ k with primOrder := k.primOrder ++ [k.nextTicket], nextTicket := k.nextTicket + 1 }, k.nextTicket)
    -- the issuing bundle holds no slot, so the blocks in use are those of the device's crews
    if k.primOrder.head? == some ticket && decide (x.s.blocksUsed x.c.core + slotBlocks x.cast.na ≤ 256) then
      ({ x with
        s := x.s.setCore x.c.core { k with primOrder := k.primOrder.filter (· != ticket) }
        b := { x.b with prim := some { na := x.cast.na, verts := [], tris := [] }, primTicket := none } }, true)
    else ({ x with s := x.s.setCore x.c.core k, b := { x.b with primTicket := some ticket } }, false)

/-- Put an entry into a table by index. -/
def putEntry {α : Type} (l : List (Nat × α)) (i : Nat) (v : α) : List (Nat × α) :=
  if l.any fun e => e.1 == i then l.map fun e => if e.1 == i then (i, v) else e else l ++ [(i, v)]

/-- The bundle's slot with what `put` writes for each lane, ascending; lanes `bad` selects are switched off. -/
def Ctx.emit (x : Ctx) (bad : Nat → Bool) (put : PrimSlot → Nat → PrimSlot) : Eff :=
  if x.act = 0 then .short x RegResult.empty
  else
    match x.withSlot with
    | (y, false) => .stall y
    | (y, true) =>
      let off := maskOf fun L => x.act.getLsbD L && bad L
      let b := { y.b with prim := y.b.prim.map fun p => (x.act &&& ~~~off).lanes.foldl put p }
      .short ({ y with b := b }.switchOff off) RegResult.empty

/-- vemit -/
def effVemit (f : FmtA) (x : Ctx) : Eff :=
  let idx := fun L => x.raw32 f.ty.toNat f.opa.toNat L
  let words := fun L => (List.range (4 + x.cast.na)).map fun i => BitVec.ofNat 32 (x.raw32 0 (x.cast.vpos + i) L)
  x.emit (fun L => decide (96 ≤ idx L)) fun p L => { p with verts := putEntry p.verts (idx L) (words L) }
/-- vemit (R330) -/
def execVemit (f : FmtA) (s : State) : Host.Outcome State Fault Refusal := sweep s (run (.vemit f) (effVemit f) s)

/-- pemit -/
def effPemit (f : FmtA) (x : Ctx) : Eff :=
  let tri := fun L => x.raw32 f.ty.toNat f.opa.toNat L
  let ind := fun L => x.raw32 f.ty.toNat f.opb.toNat L % 2 ^ 24
  let bad := fun L => decide (160 ≤ tri L) || (List.range 3).any fun i => decide (96 ≤ ind L / 256 ^ i % 256)
  x.emit bad fun p L => { p with tris := putEntry p.tris (tri L) (BitVec.ofNat 32 (ind L)) }
/-- pemit (R331) -/
def execPemit (f : FmtA) (s : State) : Host.Outcome State Fault Refusal := sweep s (run (.pemit f) (effPemit f) s)

/-! ## mcommit (R305, R332) -/

/-- 1 + the highest index written. -/
def highIndex {α : Type} (l : List (Nat × α)) : Nat := l.foldl (fun m e => max m (e.1 + 1)) 0

/-- The entry at an index, or d. -/
def entryAt {α : Type} (l : List (Nat × α)) (i : Nat) (d : α) : α :=
  match l.find? fun e => e.1 == i with
  | some e => e.2
  | none => d

/-- The vertex block of a slot (R305). -/
def PrimSlot.block (p : PrimSlot) : List Byte :=
  let nv := highIndex p.verts
  let nt := highIndex p.tris
  let zero := List.replicate (4 + p.na) (0 : Word)
  (leBytes 16 (nv + 256 * nt + 65536 * p.na)) ++
  ((List.range nv).map fun j => ((entryAt p.verts j zero).map fun w => leBytes 4 w.toNat).flatten).flatten ++
  ((List.range nt).map fun t => leBytes 4 (entryAt p.tris t 0).toNat).flatten

/-- Pieces of at most 16 bytes of a block at an address: (offset, bytes). -/
def pieces (n : Nat) : List (Nat × Nat) :=
  (List.range (n / 16)).map (fun i => (16 * i, 16)) ++ (List.range (n % 16 / 4)).map fun i => (n / 16 * 16 + 4 * i, 4)

/-- The meshlet of a slot. -/
def Ctx.meshlet (x : Ctx) (p : PrimSlot) (inst clus : Nat) : Meshlet :=
  { id := x.s.vis.nextMeshlet, castId := x.c.castId, surf := x.cast.surf.getD 0, core := x.c.core, inst := BitVec.ofNat 24 inst
    clus := BitVec.ofNat 24 clus, nv := highIndex p.verts, nt := highIndex p.tris, verts := p.verts, tris := p.tris }

/-- mcommit: once per bundle -/
def effMcommit (f : FmtA) (x : Ctx) : Eff :=
  if x.actNH = 0 then .short x RegResult.empty
  else
    match x.b.prim with
    | none => .short x RegResult.empty
    | some p =>
      let L := lowLane x.act
      let vb := x.raw64 4 f.opc.toNat L
      let bytes := p.block
      if vb % 16 != 0 then .trap x 7 (faultInfo vb L 0 false true false)
      else if x.memWaits 0 0 then .stall x
      else
        match x.loadAccess pteW true false ((pieces bytes.length).map fun e => { lane := L, elem := 0, va := (vb + e.1) % 2 ^ 64, bytes := e.2 }) with
        | .wait y => .stall y
        | .fault y cause info => .trap y cause info
        | .ok l =>
          if x.ownParked true (l.map (·.1)) || x.otherParked (l.map (·.1)) || x.behindLoads l then .stall x
          else
            match x.meets .store (fun _ => false) true l with
            | some (cause, info) => .trap x cause info
            | none =>
              let data := fun e : Elem => (bytes.drop ((e.1.va + 2 ^ 64 - vb) % 2 ^ 64)).take e.1.bytes
              let y := (x.recordLanes .store l).sendStores { hint := 0, order := 0, scope := 0 } false (l.map fun e => (e, .store (data e)))
              let m := x.meshlet p (x.raw32 f.ty.toNat f.opa.toNat L) (x.raw32 f.ty.toNat f.opb.toNat L)
              .short { y with
                s := { y.s with vis := { y.s.vis with meshlets := y.s.vis.meshlets ++ [m], nextMeshlet := y.s.vis.nextMeshlet + 1 } }
                b := { y.b with prim := none } } RegResult.empty
/-- mcommit (R332) -/
def execMcommit (f : FmtA) (s : State) : Host.Outcome State Fault Refusal := run (.mcommit f) (effMcommit f) s

/-! ## Ray tests (R333, R334): f32 RNE steps without flags; those of `ixtri` flush to zero where the cast does (R121) -/

/-- fmin and fmax on f32 encodings (R155). -/
def f32Min (a b : Nat) : Nat := (roundTo f32 0 false (minMaxVal false (f32.read false a) (f32.read false b)).1.res).1
/-- f32 maximum -/
def f32Max (a b : Nat) : Nat := (roundTo f32 0 false (minMaxVal true (f32.read false a) (f32.read false b)).1.res).1
/-- Sign flip of an f32 encoding. -/
def f32Neg (a : Nat) : Nat := if a < 2 ^ 31 then a + 2 ^ 31 else a - 2 ^ 31
/-- a ≤ b; false with a NaN. -/
def f32Le (a b : Nat) : Bool :=
  let x := f32.read false a
  let y := f32.read false b
  !x.isNan && !y.isNan && decide (cmpVal x y ≤ 0)

/-- The box test of one lane: origin and tmin, reciprocal direction and tmax, box minimum and maximum. -/
def boxTest (o r box : Nat → Nat) : Nat :=
  let near := fun k => f32Min (f32Mul (f32Sub (box k) (o k)) (r k)) (f32Mul (f32Sub (box (3 + k)) (o k)) (r k))
  let far := fun k => f32Max (f32Mul (f32Sub (box k) (o k)) (r k)) (f32Mul (f32Sub (box (3 + k)) (o k)) (r k))
  let entry := f32Max (f32Max (f32Max (o 3) (near 0)) (near 1)) (near 2)
  let exit := f32Min (f32Min (f32Min (r 3) (far 0)) (far 1)) (far 2)
  if f32Le entry exit then entry else f32.inf false

/-- ixbox -/
def effIxbox (f : FmtA) (x : Ctx) : Eff :=
  let at_ := fun (code : BitVec 10) (L i : Nat) => x.raw32 3 (code.toNat + i) L
  .long x (x.result32 f.dst.toNat 0 (some shapeG) false fun L _ =>
    (BitVec.ofNat 32 (boxTest (at_ f.opa L) (at_ f.opb L) (at_ f.opc L)), 0))
/-- ixbox (R333) -/
def execIxbox (f : FmtA) (s : State) : Host.Outcome State Fault Refusal := run (.ixbox f) (effIxbox f) s

/-- round(a·b − c·d), exact before the one rounding. -/
def f32Cross (a b c d : Nat) : Nat :=
  let v := f32.read false
  (roundTo f32 0 false (addVal false (mulVal (v a) (v b)).val (mulVal (v c) (v d)).val.negate)).1

/-- round(a·x + b·y + c·z), exact before the one rounding. -/
def f32Dot3 (a x b y c z : Nat) : Nat :=
  let v := f32.read false
  (roundTo f32 0 false (addVal false (addVal false (mulVal (v a) (v x)).val (mulVal (v b) (v y)).val).val (mulVal (v c) (v z)).val)).1

/-- The encoding of 1. -/
def f32One : Nat := 0x3F800000

/-- Magnitude order of two encodings: |a| < |b|. -/
def absLess (a b : Nat) : Bool := decide (a % 2 ^ 31 < b % 2 ^ 31)

/-- An f32 encoding under flush to zero: a subnormal is zero of its sign (R121). -/
def f32Flush (ftz : Bool) (a : Nat) : Nat := if ftz && a / 2 ^ 23 % 2 ^ 8 == 0 then a / 2 ^ 31 * 2 ^ 31 else a

/-- The triangle test of one lane: `some (t, b1, b2)` for a hit. Origin and tmin, direction and tmax, vertices (i, component); sources and
results follow the cast's FTZ (R121). -/
def triTest (ftz : Bool) (o dir : Nat → Nat) (vert : Nat → Nat → Nat) : Option (Nat × Nat × Nat) :=
  let z := f32Flush ftz
  let o := fun k => z (o k)
  let dir := fun k => z (dir k)
  let kz := if absLess (dir 2) (dir 1) || absLess (dir 2) (dir 0) then (if absLess (dir 1) (dir 0) then 0 else 1) else 2
  let swap := f32.read false (dir kz) |>.neg
  let isNeg := swap && dir kz % 2 ^ 31 != 0
  let k1 := (kz + 1) % 3
  let k2 := (kz + 2) % 3
  let kx := if isNeg then k2 else k1
  let ky := if isNeg then k1 else k2
  let div := fun a b => z (f32Div a b)
  let sx := div (dir kx) (dir kz)
  let sy := div (dir ky) (dir kz)
  let sz := div f32One (dir kz)
  let A := fun (i k : Nat) => z (f32Sub (z (vert i k)) (o k))
  let ax := fun i => z (f32Fma (f32Neg sx) (A i kz) (A i kx))
  let ay := fun i => z (f32Fma (f32Neg sy) (A i kz) (A i ky))
  let az := fun i => z (f32Mul sz (A i kz))
  let u := z (f32Cross (ax 2) (ay 1) (ay 2) (ax 1))
  let v := z (f32Cross (ax 0) (ay 2) (ay 0) (ax 2))
  let w := z (f32Cross (ax 1) (ay 0) (ay 1) (ax 0))
  let det := z (f32Dot3 u f32One v f32One w f32One)
  let T := z (f32Dot3 u (az 0) v (az 1) w (az 2))
  let t := div T det
  let nan := ([u, v, w, det, T, t, sx, sy, sz] ++ [0, 1, 2].map ax ++ [0, 1, 2].map ay ++ [0, 1, 2].map az).any fun e => (f32.read false e).isNan
  let pos := [u, v, w].any fun e => decide (cmpVal (f32.read false e) (.fin false 0 0) = 1)
  let neg := [u, v, w].any fun e => decide (cmpVal (f32.read false e) (.fin false 0 0) = -1)
  if nan || det % 2 ^ 31 == 0 || (pos && neg) || !f32Le (o 3) t || !f32Le t (dir 3) then none
  else some (t, div v det, div w det)

/-- ixtri -/
def effIxtri (f : FmtA) (x : Ctx) : Eff :=
  let at_ := fun (code : BitVec 10) (L i : Nat) => x.raw32 3 (code.toNat + i) L
  let rs := lanesOf fun L =>
    if x.act.getLsbD L then triTest x.cast.ftz (at_ f.opa L) (at_ f.opb L) (fun i k => at_ f.opc L (4 * i + k)) else none
  let col := fun (hit : Nat × Nat × Nat → Nat) (miss : Nat) => rs.map fun r => BitVec.ofNat 32 (match r with
    | some h => hit h
    | none => miss)
  let v := fun (i : Nat) (vals : List Word) => x.vwrite (f.dst.toNat + i) 0 vals (some shapeG) false
  let p := f.func.toNat % 16
  .long x { RegResult.empty with
    v := [v 0 (col (fun h => h.1) (f32.inf false)), v 1 (col (fun h => h.2.1) 0), v 2 (col (fun h => h.2.2) 0)]
    p := if p < 15 then [x.pwrite (864 + p) fun L => (rs.getD L none).isSome] else [] }
/-- ixtri (R334) -/
def execIxtri (f : FmtA) (s : State) : Host.Outcome State Fault Refusal := run (.ixtri f) (effIxtri f) s

end Sys2Proof.Machine
end

