-- ==== Sys2Proof/Machine/Raster.lean ====
section
/-! DEFINITION. The raster units (R306 to R311), tiles in L2 and in surface memory (R312, R314, R316) and the end of a cast's geometry
(R317). -/

namespace Sys2Proof.Machine

/-! ## Surfaces and tiles -/

/-- Tiles per row of a surface. -/
def SurfDesc.tilesX (d : SurfDesc) : Nat := d.width / 8
/-- Tiles of a surface. -/
def SurfDesc.tileCount (d : SurfDesc) : Nat := d.width / 8 * (d.height / 8)

/-- The identifier of a clear pixel (R311). -/
def clearId : DWord := BitVec.allOnes 64
/-- The depth of a clear pixel. -/
def SurfDesc.clearDepth (d : SurfDesc) : Word := BitVec.ofNat 32 (f32.inf d.depth)
/-- A clear tile. -/
def SurfDesc.clearPix (d : SurfDesc) : List (Word × DWord) := List.replicate 64 (d.clearDepth, clearId)

/-- The home slice of a tile (R312). -/
def SurfDesc.tileSlice (d : SurfDesc) (tile : Nat) : Nat := 8 * (tile / d.tilesX % 8) + tile % d.tilesX % 8

/-! ## Pinning (R316) -/

/-- Lines of tiles a slice pins. -/
def State.pinnedIn (s : State) (slice : Nat) : Nat :=
  (s.vis.surfaces.map fun f => 6 * (f.tiles.filter fun r => r.pinned && f.d.tileSlice r.tile == slice).length).sum

/-- The pins of a slice or a set leave no room for a tile's lines. -/
def State.pinsFull (s : State) (f : Surface) (tile : Nat) : Bool :=
  let lines := (List.range 6).filterMap fun j => tileLine s f tile j
  decide (16380 < s.pinnedIn (f.d.tileSlice tile) + 6) ||
  lines.any fun a => decide (12 < (s.pinnedLines.filter (inSet (homeSlice a) (setOf a))).length +
    (lines.filter (inSet (homeSlice a) (setOf a))).length)

/-- The SEALED or HELD pinned tile of a slice that was sealed first: surface and tile. -/
def State.oldestPin (s : State) (slice : Nat) : Option (Nat × TileRec) :=
  let all := ((List.range s.vis.surfaces.length).map fun n => match s.surface? n with
    | some f => (f.tiles.filter fun r => r.pinned && (r.st == .sealed || r.st == .held) && f.d.tileSlice r.tile == slice).map fun r => (n, r)
    | none => []).flatten
  all.foldl (fun best e => match best with
    | none => some e
    | some b => if e.2.sealSeq < b.2.sealSeq then some e else some b) none

/-- TILE_UNPIN: SEALED and HELD tiles are written out and unpinned, oldest seal first, until a tile's lines fit; the Bool says that they
do. -/
def State.makeRoom (s : State) (f : Surface) (tile : Nat) : Nat → State × Bool
  | 0 => (s, !s.pinsFull f tile)
  | k + 1 =>
    if !s.pinsFull f tile then (s, true)
    else
      match s.oldestPin (f.d.tileSlice tile) with
      | none => (s, false)
      | some (n, r) =>
        match s.surface? n with
        | none => (s, false)
        | some g => (((s.writeTile g r.tile r.pix).setSurface n (g.putTile { r with pinned := false }))).makeRoom f tile k

/-- Each of a tile's lines finds a way that no miss may not take either: not pinned, holding a waiting list or held by a reservation, those of the
tile's earlier lines counted (R294, R295). -/
def State.tileWays (s : State) (f : Surface) (tile : Nat) : Bool :=
  ((List.range 6).filterMap fun j => tileLine s f tile j).foldl (fun (acc : Bool × List Nat) a =>
    (acc.1 && decide (s.heldWays a + (acc.2.filter (inSet (homeSlice a) (setOf a))).length < 16), acc.2 ++ [a])) (true, []) |>.1

/-- The lines a newly pinned tile displaces leave L2: its own, and a victim of every set whose 16 ways are in use, those of the tile's
earlier lines included (R294, R314). -/
def State.displace (s : State) (f : Surface) (tile : Nat) : State :=
  ((List.range 6).foldl (fun (acc : State × List Nat) j => match tileLine acc.1 f tile j with
    | none => acc
    | some a =>
      let s := { acc.1 with mem := acc.1.mem.evict a }
      let earlier := (acc.2.filter (inSet (homeSlice a) (setOf a))).length
      let full := decide (16 ≤ s.usedWays a + earlier)
      ({ s with mem := if full then (match s.mem.victimLine a with
          | some v => s.mem.evict v
          | none => s.mem) else s.mem }, acc.2 ++ [a])) (s, [])).1

/-! ## Triangles (R306 to R309) -/

/-- A vertex as the raster units see it. -/
structure RVert where
  x : Int
  y : Int
  z : Nat
  deriving DecidableEq, Repr

/-- A finite f32 encoding. -/
def finite32 (x : Nat) : Bool :=
  match f32.read false x with
  | .fin _ _ _ => true
  | _ => false

/-- round(v · scale + offset, f32) for exact small integers halved: xn · (WIDTH/2) + WIDTH/2, rounded once. -/
def windowCoord (n size : Nat) (neg : Bool) : Nat :=
  let half : FVal := .fin false size (-1)
  let v := f32.read false n
  (roundTo f32 0 false (fmaVal false (if neg then v.negate else v) half half)).1

/-- round(256 · w, integer); a value that is no number or infinite takes a free value (log entry 4). -/
def fixed8 (step i w : Nat) : Int :=
  match f32.read false w with
  | .fin n m e => roundInt .rne n m (e + 8) false
  | _ => Config.freeNat step 11 i

/-- Position and depth of a vertex's words x, y, z, w (R306). -/
def rvert (d : SurfDesc) (step i : Nat) (v : List Nat) : RVert :=
  let c := fun k => v.getD k 0
  { x := fixed8 step (2 * i) (windowCoord (f32Div (c 0) (c 3)) d.width false)
    y := fixed8 step (2 * i + 1) (windowCoord (f32Div (c 1) (c 3)) d.height true)
    z := f32Div (c 2) (c 3) }

/-- A triangle set up: σ, A, its vertices. -/
structure RTri where
  a : RVert
  b : RVert
  c : RVert
  sgn : Int
  area : Nat
  deriving DecidableEq, Repr

/-- Set a triangle up (R307). -/
def RTri.mk3 (a b c : RVert) : RTri :=
  let area := (b.x - a.x) * (c.y - a.y) - (b.y - a.y) * (c.x - a.x)
  { a := a, b := b, c := c, sgn := if area < 0 then -1 else 1, area := area.natAbs }

/-- The coefficients (px, py) of E0, E1, E2 (R308). -/
def RTri.coef (t : RTri) (i : Nat) : Int × Int :=
  match i with
  | 0 => (t.sgn * (t.b.y - t.c.y), t.sgn * (t.c.x - t.b.x))
  | 1 => (t.sgn * (t.c.y - t.a.y), -(t.sgn * (t.c.x - t.a.x)))
  | _ => (-(t.sgn * (t.b.y - t.a.y)), t.sgn * (t.b.x - t.a.x))

/-- E0, E1, E2 at a pixel's centre. -/
def RTri.edge (t : RTri) (px py : Nat) (i : Nat) : Int :=
  let x : Int := 256 * px + 128
  let y : Int := 256 * py + 128
  let e1 := t.sgn * ((x - t.a.x) * (t.c.y - t.a.y) - (y - t.a.y) * (t.c.x - t.a.x))
  let e2 := t.sgn * ((t.b.x - t.a.x) * (y - t.a.y) - (t.b.y - t.a.y) * (x - t.a.x))
  match i with
  | 0 => (t.area : Int) - e1 - e2
  | 1 => e1
  | _ => e2

/-- A pixel is covered: each edge function positive, or zero on a top or left edge. -/
def RTri.covers (t : RTri) (px py : Nat) : Bool :=
  (List.range 3).all fun i =>
    let e := t.edge px py i
    let (cx, cy) := t.coef i
    decide (0 < e) || (decide (e = 0) && (decide (0 < cx) || (decide (cx = 0) && decide (0 < cy))))

/-- round(n ÷ d, f32) of integers, exact before the rounding. -/
def ratio32 (n d : Int) : Nat := (roundTo f32 0 false (divVal (FVal.ofInt n) (FVal.ofInt d))).1

/-- The depth of a covered pixel, when it is written (R309). -/
def RTri.depth (t : RTri) (px py : Nat) : Option Nat :=
  let l1 := ratio32 (t.edge px py 1) t.area
  let l2 := ratio32 (t.edge px py 2) t.area
  let d := f32Fma l2 (f32Sub t.c.z t.a.z) (f32Fma l1 (f32Sub t.b.z t.a.z) t.a.z)
  if f32Le 0 d && f32Le d f32One then some (if d % 2 ^ 31 = 0 then 0 else d) else none

/-- The words of a vertex of a meshlet. -/
def Meshlet.vert (m : Meshlet) (i : Nat) : List Nat := (entryAt m.verts i []).map (·.toNat)

/-- All three vertices lie beyond one plane: `beyond k` of each. -/
def allBeyond (vs : List (List Nat)) : Bool :=
  let c := fun (v : List Nat) (k : Nat) => f32.read false (v.getD k 0)
  let past := fun (k : Nat) (neg : Bool) => vs.all fun v =>
    if neg then decide (cmpVal (c v k) (c v 3).negate = -1) else decide (cmpVal (c v k) (c v 3) = 1)
  past 0 false || past 0 true || past 1 false || past 1 true

/-- Triangle t of a meshlet set up, when it is not discarded (R307). -/
def Meshlet.tri (m : Meshlet) (d : SurfDesc) (step t : Nat) : Option RTri :=
  let ind := (entryAt m.tris t 0).toNat
  let idx := (List.range 3).map fun k => ind / 256 ^ k % 256
  if idx.any fun i => decide (m.nv ≤ i) then none
  else
    let vs := idx.map fun i => let v := m.vert i; if v.isEmpty then List.replicate 4 0 else v
    let ok := vs.all fun v => ((List.range 4).all fun k => finite32 (v.getD k 0)) &&
      decide (cmpVal (f32.read false (v.getD 3 0)) (.fin false 0 0) = 1)
    if !ok || allBeyond vs then none
    else
      let wins := vs.map fun v => (windowCoord (f32Div (v.getD 0 0) (v.getD 3 0)) d.width false,
        windowCoord (f32Div (v.getD 1 0) (v.getD 3 0)) d.height true)
      if wins.any fun w => !finite32 w.1 || !finite32 w.2 then none
      else
        match vs.map (rvert d step 0) with
        | [a, b, c] =>
          let r := RTri.mk3 a b c
          let out := [a, b, c].any fun v => decide (v.x < -(2 ^ 23)) || decide (2 ^ 23 - 1 < v.x) || decide (v.y < -(2 ^ 23)) || decide (2 ^ 23 - 1 < v.y)
          let front := (decide (r.sgn = 1)) != d.face
          if out || r.area = 0 || (d.cull == 1 && !front) || (d.cull == 2 && front) then none else some r
        | _ => none

/-- The pixels of the surface a triangle's bounding box holds. -/
def RTri.box (t : RTri) (d : SurfDesc) : List (Nat × Nat) :=
  let lo := fun (a b c : Int) => ((min a (min b c)) / 256).toNat
  let hi := fun (a b c : Int) (n : Nat) => min n ((max a (max b c)) / 256 + 1).toNat
  let x0 := lo t.a.x t.b.x t.c.x
  let x1 := hi t.a.x t.b.x t.c.x d.width
  let y0 := lo t.a.y t.b.y t.c.y
  let y1 := hi t.a.y t.b.y t.c.y d.height
  ((List.range (y1 - y0)).map fun j => (List.range (x1 - x0)).map fun i => (x0 + i, y0 + j)).flatten

/-- The samples of a meshlet: pixel, depth and identifier (R309, R311). -/
def Meshlet.samples (m : Meshlet) (d : SurfDesc) (step : Nat) : List (Nat × Nat × Word × DWord) :=
  ((List.range m.nt).map fun t => match m.tri d step t with
    | none => []
    | some r =>
      let id := BitVec.ofNat 64 (m.inst.toNat * 2 ^ 40 + m.clus.toNat * 2 ^ 16 + t * 2 ^ 8 + 1)
      (r.box d).filterMap fun p =>
        if r.covers p.1 p.2 then (r.depth p.1 p.2).map fun z => (p.1, p.2, BitVec.ofNat 32 z, id) else none).flatten

/-- A candidate replaces the stored pair (R310). -/
def SurfDesc.replaces (d : SurfDesc) (z : Word) (id : DWord) (old : Word × DWord) : Bool :=
  let c := cmpVal (f32.read false z.toNat) (f32.read false old.1.toNat)
  (if d.depth then decide (c = 1) else decide (c = -1)) || (decide (c = 0) && decide (id.toNat < old.2.toNat))

/-- One sample meets its tile's pixel. -/
def TileRec.sample (r : TileRec) (d : SurfDesc) (x y : Nat) (z : Word) (id : DWord) : TileRec :=
  let i := 8 * (y % 8) + x % 8
  if d.replaces z id (r.pix.getD i (d.clearDepth, clearId)) then { r with pix := r.pix.set i (z, id) } else r

/-- The tiles a list of samples falls in. -/
def sampleTiles (d : SurfDesc) (l : List (Nat × Nat × Word × DWord)) : List Nat := (l.map fun p => p.2.1 / 8 * d.tilesX + p.1 / 8).dedup

/-- OPEN a FREE tile of a cast: its lines clear and pinned (R314). `false` while the pin budget or
the ways of a set are exhausted. -/
def State.openTile (s : State) (n castId tile : Nat) : State × Bool :=
  match s.surface? n with
  | none => (s, false)
  | some f =>
    match f.tile? tile with
    | some _ => (s, true)
    | none =>
      let (s, ok) := s.makeRoom f tile ((s.vis.surfaces.map fun f => f.tiles.length).sum)
      if !ok || !s.tileWays f tile then (s, false)
      else
        let s := s.displace f tile
        let f := (s.surface? n).getD f
        (s.setSurface n (f.putTile { tile := tile, st := .open, pix := f.d.clearPix, castId := castId, sieved := 0, filed := false
                                     sealSeq := 0, pinned := true }), true)

/-- MESHLET_RASTER: a committed meshlet resolves into its tiles' pixels (R310); it waits while a tile it covers cannot be pinned. -/
def execMeshletRaster (meshlet : Nat) (s : State) : Host.Outcome State Fault Refusal :=
  match s.vis.meshlets.find? fun m => m.id == meshlet with
  | none => .next s
  | some m =>
    match s.surface? m.surf with
    | none => .next s
    | some f =>
      let l := m.samples f.d s.step
      let r := (sampleTiles f.d l).foldl (fun acc t => if acc.2 then acc.1.openTile m.surf m.castId t else acc) (s, true)
      if !r.2 then .next s
      else
        let s := r.1
        match s.surface? m.surf with
        | none => .next s
        | some f =>
          let f := l.foldl (fun (f : Surface) p => match f.tile? (p.2.1 / 8 * f.d.tilesX + p.1 / 8) with
            | some r => if r.st == .open then f.putTile (r.sample f.d p.1 p.2.1 p.2.2.1 p.2.2.2) else f
            | none => f) f
          let s := s.setSurface m.surf f
          .next { s with vis := { s.vis with meshlets := s.vis.meshlets.filter fun e => e.id != meshlet } }

/-! ## The end of geometry (R317) -/

/-- Every crew of a cast's grid has been admitted and has retired. -/
def Cast.crewsDone (a : Cast) : Bool := decide (a.gridCrews ≤ a.retired)

/-- A stalled `vtld` that met an OPEN tile receives its sealed pixels (R338). -/
def Stall.sealTiles (n : Nat) (l : List TileRec) (st : Stall) : Stall :=
  { st with tiles := st.tiles.map fun e => match e.2.2, l.find? fun r => r.tile == e.2.1 with
      | none, some r => if e.1 == n then (n, e.2.1, some r.pix) else e
      | _, _ => e }

/-- Every stalled `vtld` receives the sealed pixels of the tiles it waits for. -/
def State.tellSealed (s : State) (n : Nat) (l : List TileRec) : State :=
  let sub := fun x : SubB => { x with stall := x.stall.map (Stall.sealTiles n l) }
  let bun := fun b : Bundle => { b with subs := b.subs.map sub, trap := b.trap.map fun t => { t with others := t.others.map sub } }
  { s with crews := s.crews.map fun c => { c with bundles := c.bundles.map bun } }

/-- GEOMETRY_END: every OPEN tile becomes SEALED in one step; with KEEP the tiles never opened are written clear (R317). -/
def execGeometryEnd (castId : Nat) (s : State) : Host.Outcome State Fault Refusal :=
  match s.cast? castId with
  | none => .next s
  | some a =>
    if a.kind != 1 || a.done || a.geomEnded || !a.crewsDone || s.vis.meshlets.any (fun m => m.castId == castId) then .next s
    else
      let s := s.setCast { a with geomEnded := true }
      match a.surf with
      | none => .next s
      | some n =>
        match s.surface? n with
        | none => .next s
        | some f =>
          let free := (List.range f.d.tileCount).filter fun t => (f.tile? t).isNone
          let s := if f.d.keep then free.foldl (fun s t => s.writeTile f t f.d.clearPix) s else s
          let shut := f.tiles.map fun r => if r.st == .open then { r with st := .sealed, sealSeq := s.vis.sealCtr } else r
          let s := (s.setSurface n { f with tiles := shut }).tellSealed n (f.tiles.filter fun r => r.st == .open)
          .next { s with vis := { s.vis with sealCtr := s.vis.sealCtr + 1 } }

end Sys2Proof.Machine
end

