-- ==== Sys2Proof/Machine/Riddle.lean ====
section
/-! DEFINITION. The Riddle and the Runner (R318 to R328), and the instructions that reach the visibility path's records and tiles (`hitbin
vtrel vtld`, R335 to R337). -/

namespace Sys2Proof.Machine

/-! ## Surface descriptors (R303) -/

/-- The fields of a surface descriptor's eight words. -/
def SurfDesc.read (l : List DWord) : SurfDesc :=
  let w := fun i => l.getD i 0
  { surf := bitsOf (w 0) 47 0, keep := bitOf (w 1) 37, retain := bitOf (w 1) 36, face := bitOf (w 1) 35, cull := bitsOf (w 1) 34 33
    depth := bitOf (w 1) 32, height := bitsOf (w 1) 31 16, width := bitsOf (w 1) 15 0, map := bitsOf (w 2) 47 0
    maplen := bitsOf (w 3) 24 0, dir := bitsOf (w 4) 47 0, mattab := bitsOf (w 5) 47 0 }

/-- A surface descriptor breaks a field limit. -/
def surfBad (l : List DWord) : Bool :=
  let w := fun i => l.getD i 0
  let d := SurfDesc.read l
  let dim := fun n : Nat => n % 8 == 0 && decide (8 ≤ n) && decide (n ≤ 16384)
  bitsOf (w 0) 63 48 != 0 || bitsOf (w 1) 63 38 != 0 || bitsOf (w 2) 63 48 != 0 || bitsOf (w 3) 63 25 != 0 || bitsOf (w 4) 63 48 != 0 ||
  bitsOf (w 5) 63 48 != 0 || w 6 != 0 || w 7 != 0 || d.surf % 8192 != 0 || d.cull == 3 || !dim d.width || !dim d.height ||
  decide (2 ^ 24 < d.maplen)

/-- The surface of a descriptor address under a region: the one an accepted cast with the same translation root named. -/
def State.surfaceOf (s : State) (region desc : Nat) : Option Nat :=
  s.vis.surfaces.findIdx? fun f => f.desc == desc && s.rootHost f.region == s.rootHost region

/-! ## Identifiers and materials (R311, R318) -/

/-- INSTANCE of an identifier. -/
def idInst (id : DWord) : Nat := bitsOf id 63 40
/-- CLUSTER of an identifier. -/
def idClus (id : DWord) : Nat := bitsOf id 39 16
/-- TRI of an identifier. -/
def idTri (id : DWord) : Nat := bitsOf id 15 8
/-- An identifier R318 does not drop for its KIND or CLUSTER. -/
def SurfDesc.idKept (d : SurfDesc) (id : DWord) : Bool := bitsOf id 7 0 == 1 && decide (idClus id < d.maplen)

/-- Bytes that a unit of the cache die reads under a region, when they are readable, not poisoned and not in a lost window (R389); update-only lines of them are recalled
first. -/
def State.unitRead (s : State) (region va n : Nat) : State × Option (List Byte) :=
  let rh := s.rootHost region
  match spanPhys s.mem s.step rh.2 rh.1 pteR va n with
  | none => (s, none)
  | some l =>
    let s := ((l.map fun a => lineOf (s.mem.place a)).eraseDups).foldl State.recall s
    if l.any fun a => s.mem.poisoned a 1 || s.lostAt a then (s, none) else (s, some (l.map fun a => (s.mem.read rh.2 a 1).headD 0))

/-- The material of a cluster: the n16 at MAP + 2 · CLUSTER. -/
def State.materialAt (s : State) (region : Nat) (d : SurfDesc) (clus : Nat) : State × Option Nat :=
  let r := s.unitRead region (d.map + 2 * clus) 2
  (r.1, r.2.map leNat)

/-- The material cast of a material: the last accepted from the supplying cast's host whose descriptor address is MATTAB's entry. -/
def State.materialCast (s : State) (a : Cast) (d : SurfDesc) (m : Nat) : State × Option Cast :=
  match s.unitRead a.region (d.mattab + 8 * m) 8 with
  | (s, none) => (s, none)
  | (s, some bs) =>
    let e := leNat bs
    (s, if e = 0 then none else (s.casts.filter fun c => c.kind == 2 && c.descVa == e && c.host == a.host && !c.done).getLast?)

/-! ## Bins (R319, R320) -/

/-- Record entries a unit holds. -/
def State.unitLoad (s : State) (unit : Nat) : Nat := ((s.vis.riddle.getD unit []).map fun b => b.records.length).sum

/-- Records of a full bundle of a bin. -/
def RBin.bundle (b : RBin) : Nat := if b.hits.isSome then W else 8

/-- A bin qualifies for a launch; its place in the order is taken once. -/
def State.qualify (s : State) (unit i : Nat) : State :=
  let l := s.vis.riddle.getD unit []
  match l[i]? with
  | none => s
  | some b =>
    match b.qual with
    | some _ => s
    | none =>
      { s with vis := { s.vis with
          riddle := s.vis.riddle.set unit (l.set i { b with qual := some s.vis.qualCtr })
          qualCtr := s.vis.qualCtr + 1 } }

/-- The bin with the oldest record of a unit. -/
def oldestBin (l : List RBin) : Option Nat :=
  (List.range l.length).foldl (fun best i =>
    let age := fun j => match l[j]? with
      | some b => (b.records.map MatRecord.filed).headD 0
      | none => 0
    match best with
    | none => some i
    | some j => if age i < age j then some i else some j) none

/-- A record arrives while all 512 entries are full: the bin whose oldest record is the oldest launches (R320). -/
def State.unitFull (s : State) (unit : Nat) : State :=
  match oldestBin (s.vis.riddle.getD unit []) with
  | some i => s.qualify unit i
  | none => s

/-- File a record in its bin; the bin qualifies when it holds a full bundle. -/
def State.fileRiddle (s : State) (unit : Nat) (r : MatRecord) : State :=
  let l := s.vis.riddle.getD unit []
  let hits := if r.hit then some r.castId else none
  let mine := fun b : RBin => b.surf == r.surf && b.material == r.material && b.hits == hits
  let l := match l.findIdx? mine with
    | some i => l.set i (match l[i]? with
      | some b => { b with records := b.records ++ [r] }
      | none => { surf := r.surf, material := r.material, hits := hits, records := [r], qual := none })
    | none => l ++ [{ surf := r.surf, material := r.material, hits := hits, records := [r], qual := none }]
  let s := { s with vis := { s.vis with riddle := s.vis.riddle.set unit l } }
  match l.findIdx? mine with
  | none => s
  | some i =>
    match l[i]? with
    | some b => if b.bundle ≤ b.records.length then s.qualify unit i else s
    | none => s

/-- RIDDLE_BIN_TIMEOUT: the bin's oldest record has waited 2,048 network clocks (R320). -/
def execRiddleBinTimeout (unit bin : Nat) (s : State) : Host.Outcome State Fault Refusal :=
  match (s.vis.riddle.getD unit [])[bin]? with
  | none => .next s
  | some b =>
    match b.records with
    | [] => .next s
    | r :: _ => .next (if r.filed + 2048 ≤ s.netClock then s.qualify unit bin else s)

/-! ## Sieving (R318, R319) -/

/-- Pixel position p of quad k, as the pixel number within a tile (R168, R319). -/
def quadPixel (k p : Nat) : Nat := 8 * (2 * (k / 4) + p / 2) + 2 * (k % 4) + p % 2

/-- Materials of a tile's pixels: none for a clear or dropped pixel. A pixel whose map entry cannot be read has material `none` in the second
place: it is not shaded. -/
def State.tileMaterials (s : State) (region : Nat) (d : SurfDesc) (pix : List (Word × DWord)) : State × List (Option (Option Nat)) :=
  pix.foldl (fun acc p =>
    if d.idKept p.2 then
      let r := acc.1.materialAt region d (idClus p.2)
      (r.1, acc.2 ++ [some r.2])
    else (acc.1, acc.2 ++ [none])) (s, [])

/-- The quad records of a tile in filing order: quad, material, coverage. -/
def quadItems (ms : List (Option (Option Nat))) : List (Nat × Nat × BitVec 4) :=
  ((List.range 16).map fun k =>
    let at_ := fun p : Nat => match ms.getD (quadPixel k p) none with
      | some (some m) => some m
      | _ => none
    let mats := (sortBy (fun a b => decide (a ≤ b)) ((List.range 4).filterMap at_)).eraseDups
    mats.map fun m => (k, m, BitVec.ofNat 4 ((List.range 4).foldl (fun n p => if at_ p == some m then n + 2 ^ p else n) 0))).flatten

/-- Positions a coverage mask names. -/
def coverList (c : BitVec 4) : List Nat := (List.range 4).filter fun p => c.getLsbD p

/-- Pixels or hits of a cast are dropped (R318). -/
def State.dropCount (s : State) (castId n : Nat) : State :=
  match s.cast? castId with
  | none => s
  | some a => s.setCast { a with dropped := a.dropped + n }

/-- File the quad items of a tile from the first not yet sieved, until one finds every record entry of the unit full: the items done. -/
def State.fileItems (s : State) (unit n : Nat) (f : Surface) (r : TileRec) (a : Cast) : List (Nat × Nat × BitVec 4) → Nat → State × Nat × Bool
  | [], done => (s, done, true)
  | (k, m, cover) :: rest, done =>
    let (s, mc) := s.materialCast a f.d m
    match mc with
    | none => (s.dropCount a.castId (coverList cover).length).fileItems unit n f r a rest (done + 1)
    | some c =>
      if 512 ≤ s.unitLoad unit then (s.unitFull unit, done, false)
      else
        let pix := (List.range 4).map fun p => r.pix.getD (quadPixel k p) (0, 0)
        let q : MatRecord :=
          { surf := n, tile := r.tile, quad := k, cover := cover, material := m, ids := pix.map (·.2), depths := pix.map (·.1), hit := false
            ray := 0, t := 0, b1 := 0, b2 := 0, cone := 0, castId := a.castId, matCast := c.castId, filed := s.netClock, core := 0 }
        (s.fileRiddle unit q).fileItems unit n f r a rest (done + 1)

/-- RIDDLE_SIEVE: a unit takes a SEALED tile of its slices and files its quads by material, going on where full record entries stopped it
(R318 to R320). -/
def execRiddleSieve (unit surf tile : Nat) (s : State) : Host.Outcome State Fault Refusal :=
  match s.surface? surf with
  | none => .next s
  | some f =>
    match f.tile? tile with
    | none => .next s
    | some r =>
      match s.cast? r.castId with
      | none => .next s
      | some a =>
        if f.d.tileSlice tile / 4 != unit || r.filed || !(r.st == .sealed || r.st == .sorting) then .next s
        else
          let (s, ms) := s.tileMaterials a.region f.d r.pix
          let s := if r.st == .sealed then
              s.dropCount a.castId ((r.pix.filter fun p => p.2 != clearId && !f.d.idKept p.2).length +
                (ms.filter fun m => m == some none).length)
            else s
          let (s, done, all) := s.fileItems unit surf f r a ((quadItems ms).drop r.sieved) r.sieved
          match s.surface? surf with
          | none => .next s
          | some f => .next (s.setSurface surf (f.putTile { r with st := .sorting, sieved := done, filed := all })).settleTiles

/-! ## hitbin (R326, R335) -/

/-- The Riddle unit that serves the slice under a core. -/
def hitUnit (core : Nat) : Nat := (8 * (core / 16) + core % 16 / 2) / 4

/-- The records of a `hitbin` that are filed, and the number of hits dropped. -/
def Ctx.hitRecords (x : Ctx) (n : Nat) (d : SurfDesc) (f : FmtA) : State × List MatRecord × Nat :=
  x.actNH.lanes.foldl (fun acc L =>
    let id := BitVec.ofNat 64 (x.raw64 4 f.opb.toNat L)
    if d.maplen ≤ idClus id then (acc.1, acc.2.1, acc.2.2 + 1)
    else
      match acc.1.materialAt x.c.region d (idClus id) with
      | (s, none) => (s, acc.2.1, acc.2.2 + 1)
      | (s, some m) =>
        match s.materialCast x.cast d m with
        | (s, none) => (s, acc.2.1, acc.2.2 + 1)
        | (s, some c) =>
          let w := fun i => BitVec.ofNat 32 (x.raw32 0 (f.opc.toNat + i) L)
          let q : MatRecord :=
            { surf := n, tile := 0, quad := 0, cover := 0, material := m, ids := [id], depths := [], hit := true
              ray := BitVec.ofNat 32 (x.raw32 0 f.opa.toNat L), t := w 0, b1 := w 1, b2 := w 2, cone := w 3, castId := x.c.castId
              matCast := c.castId, filed := s.netClock, core := x.c.core }
          (s, acc.2.1 ++ [q], acc.2.2)) (x.s, [], 0)

/-- hitbin: a release at device scope of each lane's strand (R327), then the records in ascending lane order -/
def effHitbin (f : FmtA) (x : Ctx) : Eff :=
  match x.cast.surf with
  | none => .trap x 1 86
  | some n =>
    match x.s.surface? n with
    | none => .trap x 1 86
    | some g =>
      if x.actNH = 0 then .short x RegResult.empty
      else if x.memWaits 2 4 then .stall x
      else
        let unit := hitUnit x.c.core
        let (s, l, _) := x.hitRecords n g.d f
        if 512 < s.unitLoad unit + l.length then .stall { x with s := s.unitFull unit }
        else
          let y := x.ordered 2
          let (s, l, dropped) := y.hitRecords n g.d f
          .short { y with s := (l.foldl (fun s q => s.fileRiddle unit q) s).dropCount x.c.castId dropped } RegResult.empty
/-- hitbin (R335) -/
def execHitbin (f : FmtA) (s : State) : Host.Outcome State Fault Refusal := run (.hitbin f) (effHitbin f) s

/-! ## vtrel (R336) -/

/-- HELD to FREE, once per tile named. -/
def State.releaseTile (s : State) (region desc tile : Nat) : State :=
  match s.surfaceOf region desc with
  | none => s
  | some n =>
    match s.surface? n with
    | none => s
    | some f =>
      let tx := tile % 65536
      let ty := tile / 65536
      if f.d.tilesX ≤ tx || f.d.height / 8 ≤ ty then s
      else
        match f.tile? (ty * f.d.tilesX + tx) with
        | some r => if r.st == .held then s.freeTile n f r else s
        | none => s

/-- vtrel: values a `vtld` reads are bound at its issue, so every earlier one has bound its own -/
def effVtrel (f : FmtA) (x : Ctx) : Eff :=
  let go := fun (s : State) (L : Nat) => s.releaseTile x.c.region (x.raw64 4 f.opa.toNat L) (x.raw32 0 f.opb.toNat L)
  .short { x with s := x.actNH.lanes.foldl go x.s } RegResult.empty
/-- vtrel (R336) -/
def execVtrel (f : FmtA) (s : State) : Host.Outcome State Fault Refusal := run (.vtrel f) (effVtrel f) s

/-! ## vtld (R337) -/

/-- Where the value of a lane comes from. -/
inductive TileSrc where
  /-- an OPEN tile: the lane waits -/
  | wait
  /-- a value known now -/
  | value (v : DWord)
  /-- n bytes at an offset of the 8 KiB block at an address of surface memory -/
  | block (va : Nat) (tile line off n : Nat)
  deriving DecidableEq, Repr

/-- The pair of a pixel, kind `func`: 1 its depth, else its identifier. -/
def SurfDesc.pixelSrc (d : SurfDesc) (t : Option TileRec) (func x y : Nat) : TileSrc :=
  let i := 8 * (y % 8) + x % 8
  let pick := fun p : Word × DWord => if func = 1 then p.1.setWidth 64 else p.2
  match t with
  | some r => if r.st == .open then .wait else .value (pick (r.pix.getD i (d.clearDepth, clearId)))
  | none =>
    if !d.keep then .value (pick (d.clearDepth, clearId))
    else
      let tx := x / 8
      let ty := y / 8
      let g := ty / 8 * ((d.width + 63) / 64) + tx / 8
      let j := if func = 1 then 4 + i / 32 else i / 16
      .block (d.surf + 8192 * (6 * g + j)) (ty * d.tilesX + tx) j (if func = 1 then 4 * (i % 32) else 8 * (i % 16)) (if func = 1 then 4 else 8)

/-- A stage of reads of `vtld`: every element translated as a load (R208), poison met (R212), checked accesses recorded, update-only lines
recalled; the bytes of each element. -/
def Ctx.readStage (x : Ctx) (l : List LaneVA) : Ctx × Except Eff (List (LaneVA × List Byte)) :=
  match x.loadAccess pteR false false l with
  | .wait y => (x, .error (.stall y))
  | .fault y cause info => (x, .error (.trap y cause info))
  | .ok es =>
    if x.behindParked es then (x, .error (.stall x))
    else
      match x.meets .load x.poisonHome true es with
      | some (cause, info) => (x, .error (.trap x cause info))
      | none =>
        let y := x.recordLanes .load es
        let s := ((es.map fun e => lineOf e.2.2).eraseDups).foldl State.openLine y.s
        let h := (s.rootHost x.c.region).2
        ({ y with s := s }, .ok (es.map fun e => (e.1, s.mem.read h (physOf e.2.1 e.1.va) e.1.bytes)))

/-- The bytes read for a lane, its elements in order. -/
def laneBytes (l : List (LaneVA × List Byte)) (L : Nat) : List Byte := ((l.filter fun e => e.1.lane == L).map (·.2)).flatten

/-- The element a block source reads: the line lies at the slice hash of the block's physical address (R312). -/
def Ctx.blockElem (x : Ctx) (d : SurfDesc) (L : Nat) (src : TileSrc) : Option LaneVA :=
  match src with
  | .block va tile _ off n =>
    let at_ := match x.s.translate x.c.core x.c.region va with
      | .leaf p => 128 * (d.tileSlice tile ^^^ homeSlice (physOf p va)) + off
      | _ => 0
    some { lane := L, elem := 0, va := va + at_, bytes := n }
  | _ => none

/-- The stall notes the OPEN tiles met: surface and tile. -/
def Ctx.awaitTiles (x : Ctx) (l : List (Nat × Nat)) : Ctx :=
  let st : Stall := match x.sub.stall with
    | some st => st
    | none => Stall.start x.s.coreClock
  let known := st.tiles.map fun e => (e.1, e.2.1)
  { x with sub := { x.sub with stall := some { st with
      tiles := st.tiles ++ (l.filter fun e => !known.contains e).map fun e => (e.1, e.2, none) } } }

/-- The sealed pixels of a tile that the instruction met OPEN. -/
def Ctx.sealedPix (x : Ctx) (n tile : Nat) : Option (List (Word × DWord)) :=
  match x.sub.stall with
  | none => none
  | some st => match st.tiles.find? fun e => e.1 == n && e.2.1 == tile with
    | some e => e.2.2
    | none => none

/-- What `vtld` reads after its descriptors: `descs` per lane. -/
def effVtldPixels (f : FmtM) (x0 x : Ctx) (descs : Nat → List DWord) : Eff :=
  let func := f.func.toNat
  let lanes := x.act.lanes
  let addr := fun L => x.raw64 4 f.base.toNat L
  let pix := fun L => x.raw32 0 f.index.toNat L
  let d := fun L => SurfDesc.read (descs L)
  match lanes.find? fun L => surfBad (descs L) with
  | some L => .trap x0 7 (faultInfo (addr L) L 0 false false false)
  | none =>
    match lanes.find? fun L => decide ((d L).width ≤ pix L % 65536) || decide ((d L).height ≤ pix L / 65536) with
    | some L => .trap x0 7 (BitVec.ofNat 128 (addr L + (L + pix L * 2 ^ 32) * 2 ^ 64))
    | none =>
      let src := fun L =>
        let px := pix L % 65536
        let py := pix L / 65536
        let t := match s_tile x (addr L) (py / 8 * (d L).tilesX + px / 8) with
          | some r => some r
          | none => none
        (d L).pixelSrc t func px py
      if lanes.any fun L => src L == .wait then
        .stall (x0.awaitTiles ((lanes.filter fun L => src L == .wait).filterMap fun L =>
          (x.s.surfaceOf x.c.region (addr L)).map fun n => (n, pix L / 65536 / 8 * (d L).tilesX + pix L % 65536 / 8)).eraseDups)
      else
        match x.readStage (lanes.filterMap fun L => x.blockElem (d L) L (src L)) with
        | (_, .error e) => e
        | (y, .ok got) =>
          let value := fun L => match src L with
            | .value v => v
            | _ => BitVec.ofNat 64 (leNat (laneBytes got L))
          if func = 2 then
            let kept := lanes.filter fun L => (d L).idKept (value L)
            match y.readStage (kept.map fun L => { lane := L, elem := 0, va := (d L).map + 2 * idClus (value L), bytes := 2 }) with
            | (_, .error e) => e
            | (z, .ok ms) =>
              .long z (z.result32 f.data.toNat 0 none (x0.addrU f true) fun L _ =>
                (if kept.contains L then BitVec.ofNat 32 (leNat (laneBytes ms L)) else BitVec.allOnes 32, 0))
          else if func = 1 then
            .long y (y.result32 f.data.toNat 0 none (x0.addrU f true) fun L _ => ((value L).setWidth 32, 0))
          else .long y (y.result64 f.data.toNat (x0.addrU f true) fun L => (value L, 0))
where
  /-- The tile a lane's surface has listed; of a tile met OPEN, as it was sealed (R338). -/
  s_tile (x : Ctx) (desc tile : Nat) : Option TileRec :=
    match x.s.surfaceOf x.c.region desc with
    | none => none
    | some n =>
      match x.s.surface? n with
      | none => none
      | some f => match x.sealedPix n tile with
        | some pix => some { tile := tile, st := .sealed, pix := pix, castId := 0, sieved := 0, filed := false, sealSeq := 0, pinned := false }
        | none => f.tile? tile

/-- vtld -/
def effVtld (f : FmtM) (x : Ctx) : Eff :=
  let lanes := x.act.lanes
  let addr := fun L => x.raw64 4 f.base.toNat L
  if x.act = 0 then .short x RegResult.empty
  else if x.memWaits 0 0 then .stall x
  else
    match lanes.find? fun L => addr L % 64 != 0 with
    | some L => .trap x 7 (faultInfo (addr L) L 0 false false false)
    | none =>
      match x.readStage ((lanes.map fun L => (List.range 4).map fun i =>
          ({ lane := L, elem := 0, va := addr L + 16 * i, bytes := 16 } : LaneVA)).flatten) with
      | (_, .error e) => e
      | (y, .ok got) =>
        effVtldPixels f x y fun L =>
          let bs := laneBytes got L
          (List.range 8).map fun i => BitVec.ofNat 64 (leNat ((bs.drop (8 * i)).take 8))
/-- vtld (R337) -/
def execVtld (f : FmtM) (s : State) : Host.Outcome State Fault Refusal := run (.vtld f) (effVtld f) s

/-! ## The Runner (R323 to R328) -/

/-- What the Runner has of one lane: fields of its vertex block. -/
structure RunTri where
  na : Nat
  /-- words of the three vertices: x, y, z, w, attributes -/
  v : List (List Nat)
  deriving DecidableEq, Repr

/-- What the reads of a lane come to. -/
inductive RunRes where
  | got (t : RunTri)
  | wait
  | fault (cause : Nat) (info : BitVec 128)
  deriving DecidableEq, Repr

/-- One read of the Runner for a lane: the context, and the bytes, `none` while it waits, or a fault. -/
def Ctx.runnerRead (x : Ctx) (L va n : Nat) (align : Nat) : Ctx × Except (Option (Nat × BitVec 128)) (List Byte) :=
  match x.loadAccess pteR false false ((List.range (n / align)).map fun i =>
      ({ lane := L, elem := 0, va := (va + align * i) % 2 ^ 64, bytes := align } : LaneVA)) with
  | .wait y => ({ y with sub := { y.sub with stall := match y.sub.stall, x.sub.stall with
      | some a, some b => some { a with requests := (a.requests ++ b.requests).eraseDups }
      | a, _ => a } }, .error none)
  | .fault y cause info => (y, .error (some (cause, info)))
  | .ok es =>
    match x.meets .load x.poisonHome false es with
    | some e => (x, .error (some e))
    | none =>
      let s := ((es.map fun e => lineOf e.2.2).eraseDups).foldl State.openLine x.s
      let h := (s.rootHost x.c.region).2
      ({ x with s := s }, .ok ((es.map fun e => s.mem.read h (physOf e.2.1 e.1.va) e.1.bytes).flatten))

/-- The three reads of a lane (R323): CT, VB, then the vertex block's header, triangle and vertices. -/
def Ctx.runnerLane (x : Ctx) (L nam : Nat) (d : SurfDesc) (id : DWord) : Ctx × RunRes :=
  let stop := fun (y : Ctx) (e : Option (Nat × BitVec 128)) => match e with
    | none => (y, RunRes.wait)
    | some (cause, info) => (y, RunRes.fault cause info)
  match x.runnerRead L (d.dir + 8 * idInst id) 8 8 with
  | (y, .error e) => stop y e
  | (x, .ok ct) =>
    match x.runnerRead L ((leNat ct + 8 * idClus id) % 2 ^ 64) 8 8 with
    | (y, .error e) => stop y e
    | (x, .ok vbs) =>
      let vb := leNat vbs
      match x.runnerRead L vb 4 4 with
      | (y, .error e) => stop y e
      | (x, .ok hd) =>
        let nv := leNat hd % 256
        let na := leNat hd / 65536 % 256
        match x.runnerRead L ((vb + 16 + nv * (16 + 4 * na) + 4 * idTri id) % 2 ^ 64) 4 4 with
        | (y, .error e) => stop y e
        | (x, .ok tri) =>
          let k := 4 + min na nam
          let r := (List.range 3).foldl (fun acc i => match acc with
            | (x, .ok l) =>
              match x.runnerRead L ((vb + 16 + (tri.getD i 0).toNat * (16 + 4 * na)) % 2 ^ 64) (4 * k) 4 with
              | (y, .ok bs) => (y, .ok (l ++ [(List.range k).map fun j => leNat ((bs.drop (4 * j)).take 4)]))
              | (y, .error e) => (y, .error e)
            | e => e) ((x, .ok []) : Ctx × Except (Option (Nat × BitVec 128)) (List (List Nat)))
          match r with
          | (y, .error e) => stop y e
          | (x, .ok vs) => (x, .got { na := na, v := vs })

/-- round(√v, f32) of an exact value that is not negative. -/
def f32SqrtOf (v : FVal) : Nat :=
  match v with
  | .fin neg m e =>
    if m = 0 then f32.zero neg
    else
      let b := bitLen m
      let up := if b < 60 then 60 - b else 0
      let e' := e - up
      let (dn, e2) := if b ≤ 60 then ((0 : Nat), e') else (b - 60, e' + (b - 60 : Nat))
      let m' := m * 2 ^ up
      let more := m' % 2 ^ dn != 0
      let (q, e3) := evenExp (m' / 2 ^ dn) e2
      let r := isqrt q
      (roundTo f32 0 false (.num false r (e3 / 2) (more || r * r != q))).1
  | .inf neg => if neg then f32.nan else f32.inf false
  | .nan _ => f32.nan

/-- round(a + b + c). -/
def f32Sum3 (a b c : Nat) : Nat := f32Dot3 a f32One b f32One c f32One

/-- round((p·q − r·u) ÷ (q·q)), exact before the one rounding. -/
def f32Slope (p q r u : Nat) : Nat :=
  let v := f32.read false
  let num := (addVal false (mulVal (v p) (v q)).val (mulVal (v r) (v u)).val.negate).val
  (roundTo f32 0 false (divVal num (mulVal (v q) (v q)).val)).1

/-- The attributes from b1 and b2 (R324). -/
def RunTri.attrs (t : RunTri) (nam b1 b2 : Nat) : List Nat :=
  let a := fun i k => (t.v.getD i []).getD (4 + k) 0
  (List.range nam).map fun k =>
    if t.na ≤ k then 0
    else f32Fma b2 (f32Sub (a 2 k) (a 0 k)) (f32Fma b1 (f32Sub (a 1 k) (a 0 k)) (a 0 k))

/-- v0 to v(7 + NAM) of a pixel lane (R324). -/
def RunTri.pixelLane (t : RunTri) (d : SurfDesc) (step nam px py : Nat) (depth : Word) : List Nat :=
  let w := fun i => (t.v.getD i []).getD 3 0
  let vert := fun i => rvert d step i (t.v.getD i [])
  let r := RTri.mk3 (vert 0) (vert 1) (vert 2)
  let lam := fun i => ratio32 (r.edge px py i) r.area
  let iw := fun i => f32Div f32One (w i)
  let q := fun i => f32Mul (lam i) (iw i)
  let Q := f32Sum3 (q 0) (q 1) (q 2)
  let b1 := f32Div (q 1) Q
  let b2 := f32Div (q 2) Q
  let gx := fun i => ratio32 (256 * (r.coef i).1) r.area
  let gy := fun i => ratio32 (256 * (r.coef i).2) r.area
  let dqx := fun i => f32Mul (gx i) (iw i)
  let dqy := fun i => f32Mul (gy i) (iw i)
  let dQx := f32Sum3 (dqx 0) (dqx 1) (dqx 2)
  let dQy := f32Sum3 (dqy 0) (dqy 1) (dqy 2)
  [px + 65536 * py, b1, b2, f32Slope (dqx 1) Q (q 1) dQx, f32Slope (dqy 1) Q (q 1) dQy, f32Slope (dqx 2) Q (q 2) dQx,
   f32Slope (dqy 2) Q (q 2) dQy, depth.toNat] ++ t.attrs nam b1 b2

/-- v0 to v(7 + NAM) of a hit lane (R324, R328). -/
def RunTri.hitLane (t : RunTri) (nam : Nat) (q : MatRecord) : List Nat :=
  let r := f32Mul q.cone.toNat q.t.toNat
  let p := fun i k => f32.read false ((t.v.getD i []).getD k 0)
  let sq := fun i k => let e := (addVal false (p i k) (p 0 k).negate).val; (mulVal e e).val
  let len := fun i => f32SqrtOf (addVal false (addVal false (sq i 0) (sq i 1)).val (sq i 2)).val
  [q.ray.toNat, q.b1.toNat, q.b2.toNat, f32Div r (len 1), 0, 0, f32Div r (len 2), q.t.toNat] ++ t.attrs nam q.b1.toNat q.b2.toNat

/-- The record of a lane of a material bundle, with its quad position. -/
def Crew.laneRecord (c : Crew) (L : Nat) : Option (MatRecord × Nat) :=
  match c.records with
  | [] => none
  | q :: _ => if q.hit then (c.records[L]?).map fun r => (r, 0) else (c.records[L / 4]?).map fun r => (r, L % 4)

/-- The identifier whose triangle a lane uses: its own, or for a helper that of the lowest position covered (R324). -/
def MatRecord.idAt (q : MatRecord) (p : Nat) : DWord :=
  if q.hit then q.ids.headD 0 else if q.cover.getLsbD p then q.ids.getD p 0 else q.ids.getD ((coverList q.cover).headD 0) 0

/-- The pixel of a quad position. -/
def MatRecord.pixel (q : MatRecord) (d : SurfDesc) (p : Nat) : Nat × Nat :=
  (8 * (q.tile % d.tilesX) + 2 * (q.quad % 4) + p % 2, 8 * (q.tile / d.tilesX) + 2 * (q.quad / 4) + p / 2)

/-- The bundle after the Runner: v0 … v(7 + NAM) as `vals` gives them per lane, tag G; a lane that holds no strand keeps 0. -/
def Bundle.runnerFilled (b : Bundle) (nam clock : Nat) (vals : Nat → List Nat) : Bundle :=
  let put := fun n => ({ shape := .g (lanesOf fun L => if b.present.getLsbD L then BitVec.ofNat 32 ((vals L).getD n 0) else 0), fmt := 0
                         last := clock } : VReg)
  { b with v := (List.range b.v.length).map fun n => if n < 8 + nam then put n else b.vreg n }

/-- RUNNER_FILL: the reads of every lane; while one waits nothing is written; a fault of the lowest failing lane becomes the trap of the
bundle's first instruction, with v0 … v(7 + NAM) 0 (R323 to R325). -/
def execRunnerFill (crew : Nat) (s : State) : Host.Outcome State Fault Refusal :=
  match s.ctx? crew 0 0b11110 with
  | none => .next s
  | some x =>
    let q0 := x.c.records.headD { surf := 0, tile := 0, quad := 0, cover := 0, material := 0, ids := [], depths := [], hit := false, ray := 0,
                                  t := 0, b1 := 0, b2 := 0, cone := 0, castId := 0, matCast := 0, filed := 0, core := 0 }
    let waits := match x.sub.stall with
      | some st => st.requests.any s.outstanding
      | none => false
    match s.surface? q0.surf with
    | none => .next s
    | some f =>
      if x.c.records.isEmpty || x.c.runnerDone || waits || x.c.st == .halted then .next s
      else
        let nam := x.cast.nam
        let lanes := x.b.present.lanes
        let rs := lanes.foldl (fun (acc : Ctx × List (Nat × RunRes)) L => match x.c.laneRecord L with
          | none => acc
          | some (q, p) =>
            let r := acc.1.runnerLane L nam f.d (q.idAt p)
            (r.1, acc.2 ++ [(L, r.2)])) (x, [])
        let y := rs.1
        if rs.2.any fun r => r.2 == .wait then .next y.commit
        else
          let finish := fun (b : Bundle) => ({ y with
            b := b, c := { y.c with runnerDone := true }
            sub := { y.sub with stall := none, ready := s.coreClock } }.commit)
          match rs.2.findSome? fun r => match r.2 with
            | .fault cause info => some (cause, info)
            | _ => none with
          | some (cause, info) => .next (finish { y.b with runnerTrap := some (cause, if cause == 6 || cause == 7 then info ||| BitVec.ofNat 128 (2 ^ 75) else info) })
          | none =>
            let vals := fun L => match rs.2.find? (fun r => r.1 == L), x.c.laneRecord L with
              | some (_, .got t), some (q, p) =>
                if q.hit then t.hitLane nam q
                else
                  let xy := q.pixel f.d p
                  t.pixelLane f.d s.step nam xy.1 xy.2 (q.depths.getD p 0)
              | _, _ => []
            .next (finish (y.b.runnerFilled nam s.coreClock vals))

end Sys2Proof.Machine
end

