-- ==== Sys2Proof/Machine/Dispatcher.lean ====
section
/-! DEFINITION. The dispatcher (R313, R326, R349 to R352, R354 to R356): launch candidates and their order, admission to cores, placement,
the start ramp, sleeping columns; material launches (R320, R321) and the return of saved contexts (R361). -/

namespace Sys2Proof.Machine

/-! ## What a crew needs of a core (R349) -/

/-- What a crew needs of the core that admits it. -/
structure Need where
  castId : Nat
  region : Nat
  cost : Nat
  slots : Nat
  wbg : Nat
  regs : Nat
  claim : Nat
  ovc : Nat
  /-- codebook tables, blocks of primitive slots, reform bins and replay entries a saved crew brings back -/
  tables : List Nat
  prims : Nat
  bins : Nat
  replay : Nat
  /-- the queues of its copy queue entries, its tasks and its scoreboard entries -/
  queued : List Nat
  tasks : Nat
  board : Nat
  deriving DecidableEq, Repr

/-- PRIORITY of a region. -/
def State.priorityOf (s : State) (region : Nat) : Nat :=
  match s.region? region with
  | some r => r.priority
  | none => 0

/-- DEMAND of a region. -/
def State.demandOf (s : State) (region : Nat) : Bool :=
  match s.region? region with
  | some r => r.demand
  | none => false

/-- OVC of a region now (R341). -/
def State.ovcOf (s : State) (region : Nat) : Nat :=
  match s.region? region with
  | some r => r.ovc
  | none => 0

/-- What a new crew of a cast needs. -/
def Cast.need (a : Cast) (s : State) : Need :=
  let n := a.launch + a.spawnStages
  let w := a.word 3
  { castId := a.castId, region := a.region, cost := poolCost w, slots := n, wbg := a.wbg, regs := poolRegs w, claim := n * a.base
    ovc := s.ovcOf a.region, tables := [], prims := 0, bins := 0, replay := 0, queued := [], tasks := 0, board := 0 }

/-- What a saved crew needs. -/
def Context.need (x : Context) (s : State) : Need :=
  { castId := x.crew.castId, region := x.crew.region, cost := x.crew.cost, slots := x.crew.bundles.length, wbg := x.crew.wbg
    regs := x.crew.regGranules, claim := x.crew.claim, ovc := s.ovcOf x.crew.region, tables := x.tables.map (·.1)
    prims := (x.crew.bundles.map fun b => match b.prim with
      | some p => slotBlocks p.na
      | none => 0).sum
    bins := x.bins.length, replay := x.replay.length, queued := x.entries.map (·.queue), tasks := x.tasks.length, board := x.sboard.length }

/-- Context slots of the spill reserve (R90). -/
def Need.reserve (n : Need) : Nat := reserveSlots n.claim n.regs n.ovc

/-- Units of a crew's start or stop (R354). -/
def startUnits (slots : Nat) : Nat := (slots + 7) / 8

/-- A core's compute column is awake (R355). -/
def State.columnAwake (s : State) (core : Nat) : Bool :=
  !s.disp.asleep.contains (core % 16) && !s.disp.waking.any fun w => w.1 == core % 16

/-- A core has the queue, pool and scoreboard entries that a saved crew takes again (R258, R264, R273, R286). -/
def CoreSt.takesBack (k : CoreSt) (n : Need) : Bool :=
  (List.range 4).all (fun q => decide ((k.entries.filter fun e => e.queue == q).length + (n.queued.filter (· == q)).length ≤ 32)) &&
  decide (k.tasks.length + n.tasks ≤ 64) && decide (k.sboard.length + n.board ≤ 64)

/-- A core can admit the crew, the region budgets and the start ramp apart (R349); the cache die and the column of the spill reserve's bank are
awake (R355). -/
def State.coreFits (s : State) (n : Need) (core : Nat) : Bool :=
  let crews := s.crews.filter fun c => c.core == core
  let k := s.core core
  let casts := (crews.map (·.castId)).dedup
  decide ((crews.map (·.cost)).sum + n.cost ≤ Config.nGranules) && decide ((s.usedSlots core).length + n.slots ≤ Config.nSlots) &&
  decide ((crews.map (·.wbg)).sum + n.wbg ≤ 64) && decide (n.claim ≤ 384 * n.regs * (16 + n.ovc) / 16) &&
  decide (n.reserve ≤ (s.freeSlots (s.liveBank core)).length) && (casts.contains n.castId || decide (casts.length < 16)) &&
  s.columnAwake core && n.tables.all (fun t => (k.tables.getD t Codebook.init).owner.isNone) &&
  decide (n.prims = 0 ∨ s.blocksUsed core + n.prims ≤ 256) && decide (n.bins ≤ (k.bins.filter Option.isNone).length) &&
  decide (k.replay.length + n.replay ≤ 32) && k.takesBack n && s.cacheAwake &&
  (n.reserve == 0 || !s.disp.asleep.contains (s.liveBank core % 16))

/-- The region budgets hold for crews admitted together (R342). -/
def State.budgetFits (s : State) (region : Nat) (l : List Need) : Bool :=
  s.granFits region (l.map (·.cost)).sum && s.ctxFits region (l.map (·.reserve)).sum

/-- The number of the present 100 ns window (R354). -/
def State.winNo (s : State) : Nat := s.ns / 100
/-- Starts of the present window. -/
def State.winStarts (s : State) : Nat := if s.disp.window = s.winNo then s.disp.starts else 0
/-- Units of starts and stops of the present window. -/
def State.winUnits (s : State) : Nat := if s.disp.window = s.winNo then s.disp.units else 0

/-- The present window has room for a start of n slots (R354). -/
def State.rampFits (s : State) (slots : Nat) : Bool :=
  decide (s.winStarts < s.host.blob.rampStarts) && decide (s.winUnits + startUnits slots ≤ s.host.blob.rampUnits)

/-- A start is taken. -/
def State.takeStart (s : State) (slots : Nat) : State :=
  { s with disp := { s.disp with window := s.winNo, starts := s.winStarts + 1, units := s.winUnits + startUnits slots } }

/-- The present window has room for a stop. -/
def State.stopFits (s : State) (slots : Nat) : Bool := decide (s.winUnits + startUnits slots ≤ s.host.blob.rampUnits)

/-- A stop is taken. -/
def State.takeStop (s : State) (slots : Nat) : State :=
  { s with disp := { s.disp with window := s.winNo, starts := s.winStarts, units := s.winUnits + startUnits slots } }

/-! ## Candidates (R350) -/

/-- Every crew of a producer cast has been admitted (R356). -/
def State.depAdmitted (s : State) (id : Nat) : Bool :=
  match s.cast? id with
  | none => true
  | some a => a.done || a.kind == 2 || decide (a.gridCrews ≤ a.admitted)

/-- A pipeline cast may launch: no earlier pipeline cast of its surface is incomplete, and its tiles are FREE when its first crew starts and
none is HELD later (R303, R315, R410). -/
def State.surfaceClear (s : State) (a : Cast) : Bool :=
  if a.kind != 1 then true
  else
    let rivals := s.casts.any fun b => b.kind == 1 && b.surf == a.surf && !b.done && decide (b.castId < a.castId)
    let tiles := match a.surf with
      | none => []
      | some n => match s.surface? n with
        | none => []
        | some f => f.tiles
    !rivals && (if a.admitted = 0 then tiles.isEmpty else tiles.all fun t => t.st != .held)

/-- A cast has a next crew or gang that may be launched. -/
def State.launchable (s : State) (a : Cast) : Bool :=
  a.kind != 2 && !a.done && decide (a.nextCrew < a.gridCrews) && a.deps.all s.depAdmitted && s.surfaceClear a

/-- The contexts of a saved gang, or of a single crew, in GANG order. -/
def State.gangContexts (s : State) (x : Context) : List Context :=
  if x.crew.gangW * x.crew.gangH = 1 then [x]
  else sortBy (fun a b => decide (a.crew.gangIdx ≤ b.crew.gangIdx))
    (s.disp.contexts.filter fun y => y.crew.castId == x.crew.castId && y.crew.gangId == x.crew.gangId)

/-- A saved context stands for its gang when it is the first of it and the whole gang has been saved. -/
def State.leads (s : State) (x : Context) : Bool :=
  let l := s.gangContexts x
  decide (l.length = x.crew.gangW * x.crew.gangH) && (l.map (·.id)).head? == some x.id

/-- Insert by descending priority, behind its equals. -/
def byPriority (l : List (Nat × CandKind)) : List (Nat × CandKind) := sortBy (fun a b => decide (b.1 ≤ a.1)) l

/-- The qualified bins of the Riddle, as (place in the order of qualifying, unit, bin). -/
def State.qualified (s : State) : List (Nat × Nat × RBin) :=
  let l := ((List.range s.vis.riddle.length).map fun u =>
    (s.vis.riddle.getD u []).filterMap fun b => b.qual.map fun q => (q, u, b)).flatten
  sortBy (fun a b => decide (a.1 ≤ b.1)) l

/-- The region of a bin's next launch: its material cast's. -/
def State.binRegion (s : State) (b : RBin) : Nat :=
  match b.records with
  | [] => 0
  | r :: _ => match s.cast? r.matCast with
    | some a => a.region
    | none => 0

/-- The launch candidates in order, each with its priority. -/
def State.candidateList (s : State) : List (Nat × CandKind) :=
  let saved := (sortBy (fun a b => decide (a.order ≤ b.order)) (s.disp.contexts.filter s.leads)).map fun x =>
    (s.priorityOf x.crew.region, CandKind.saved x.id)
  let bins := s.qualified.map fun e => (s.priorityOf (s.binRegion e.2.2), CandKind.riddle e.2.1 e.1)
  let fresh := (s.casts.filter s.launchable).map fun a => (s.priorityOf a.region, CandKind.fresh a.castId)
  byPriority (saved ++ bins ++ fresh)

/-! ## Placement (R313, R351, R352) -/

/-- The origins of a search along one side: from 0 up, or from the far end down. -/
def originsFrom (far : Bool) (n : Nat) : List Nat := if far then (List.range n).reverse else List.range n

/-- The rectangles of w · h cores searched from a corner, each in GANG order. -/
def rectangles (corner w h : Nat) : List (List Nat) :=
  let xs := originsFrom (corner % 16 != 0) (17 - w)
  let ys := originsFrom (corner / 16 != 0) (9 - h)
  (ys.map fun y => xs.map fun x => ((List.range h).map fun j => (List.range w).map fun i => x + i + 16 * (y + j)).flatten).flatten

/-- The fitting core nearest to another, ties to the lower number. -/
def State.nearestFit (s : State) (n : Need) (core : Nat) : Option Nat :=
  ((List.range Config.nCores).filter (s.coreFits n)).foldl (fun best b => match best with
    | none => some b
    | some a => if coreDist core b < coreDist core a then some b else some a) none

/-- The core above the home slice of a tile (R313). -/
def SurfDesc.tileCore (d : SurfDesc) (tile : Nat) : Nat :=
  let h := d.tileSlice tile
  2 * (h % 8) + tile % d.tilesX / 8 % 2 + 16 * (h / 8)

/-! ## Admission -/

/-- Take a crew's spill reserve: its bank and slots (R90). -/
def State.takeReserve (s : State) (core : Nat) (n : Need) : Option (State × Nat × List Nat) :=
  let bank := s.liveBank core
  (s.takeSlots bank n.reserve).map fun e => (e.1, bank, e.2)

/-- Admit one crew of a cast: grid crew i, at a place of a gang. -/
def State.admitCrew (s : State) (a : Cast) (core i gangId gangIdx : Nat) (st : CrewSt) : Option State :=
  match s.takeReserve core (a.need s) with
  | none => none
  | some (s, bank, slots) =>
    let g := a.grid
    let cid := s.disp.nextCrewId
    let c := a.newCrew s cid core (i % g.1) (i / g.1 % g.2.1) (i / (g.1 * g.2.1)) gangId gangIdx
    let c := { c with st := st, spillSlots := slots, spillBank := bank }
    let s := s.seated core c.bundles.length
    some { s with crews := s.crews ++ [c], disp := { s.disp with nextCrewId := cid + 1 } }

/-- Start the crews of an admission: a single crew at once; of a gang the first, the others in the next windows (R354). -/
def State.startAll (s : State) (cids : List Nat) (slots : Nat) : State :=
  let s := s.takeStart slots
  { s with disp := { s.disp with waitStart := s.disp.waitStart ++ cids.tail } }

/-- A cast whose journal entry waited at ACCEPTED starts with its first crew (R315). -/
def State.noteStart (s : State) (a : Cast) : State :=
  if a.admitted = 0 && s.host.journal.any (fun e => e.seq == a.seq && e.st == .accepted) then s.journalTo a.seq .started 0 none else s

/-- The cores from the round-robin pointer (R351). -/
def State.roundRobin (s : State) : List Nat := (List.range Config.nCores).map fun i => (s.disp.rr + i) % Config.nCores

/-- The round-robin pointer moves past a core. -/
def State.pointTo (s : State) (core : Nat) : State := { s with disp := { s.disp with rr := (core + 1) % Config.nCores } }

/-- Admit the next crew or gang of a cast to cores, in GANG order, in one step: every crew on its own core, none in part, the reserves counted
together (R90, R181, R352). -/
def State.admitGang (s : State) (a : Cast) (cores : List Nat) : Option State :=
  if !cores.all (s.coreFits (a.need s)) then none
  else
    let gid := s.disp.nextGangId
    let st := if cores.length = 1 then CrewSt.running else CrewSt.starting
    (List.range cores.length).foldl (fun (acc : Option State) i => match acc with
      | none => none
      | some s => s.admitCrew a (cores.getD i 0) (a.nextCrew + i) gid i st)
      (some { s with disp := { s.disp with nextGangId := gid + 1 } })

/-- Place the next crew or gang of a cast (R351, R352). -/
def State.placeFresh (s : State) (castId : Nat) : Option State :=
  match s.cast? castId with
  | none => none
  | some a =>
    let n := a.need s
    let (w, h) := a.gang
    let gang := w * h
    if !s.rampFits n.slots || !s.budgetFits a.region (List.replicate gang n) then none
    else
      let found : Option State :=
        if a.place = 1 then
          match s.disp.corners with
          | [] => none
          | c :: l => ((rectangles c w h).findSome? (s.admitGang a)).map fun t => { t with disp := { t.disp with corners := l ++ [c] } }
        else
          s.roundRobin.findSome? fun c => (s.admitGang a [c]).map (·.pointTo c)
      found.map fun t => ((t.noteStart a).setCast { a with nextCrew := a.nextCrew + gang, admitted := a.admitted + gang }).startAll
        ((List.range gang).map (s.disp.nextCrewId + ·)) n.slots

/-! ## Material launches (R320, R321) -/

/-- The records a bin launches next: its oldest, up to a full bundle, of one material cast. -/
def RBin.next (b : RBin) : List MatRecord :=
  let m := match b.records with
    | r :: _ => r.matCast
    | [] => 0
  (b.records.takeWhile fun r => r.matCast == m).take b.bundle

/-- The bundle of a material crew seated with records (R321, R322). -/
def Bundle.seatRecords (b : Bundle) (d : SurfDesc) (l : List MatRecord) (pc : DWord) (clock : Nat) : Bundle :=
  let hit := l.any (·.hit)
  let n := if hit then l.length else 4 * l.length
  let mask := maskOf fun L => decide (L < n)
  let rec_ := fun L => if hit then l[L]? else l[L / 4]?
  { b with
    present := mask, strands := List.range W
    helper := if hit then 0 else maskOf fun L => match rec_ L with
      | some r => !r.cover.getLsbD (L % 4)
      | none => false
    material := BitVec.ofNat 32 ((l.map (·.material)).headD 0)
    pixel := lanesOf fun L => match rec_ L with
      | some r => if hit then 0 else let p := r.pixel d (L % 4); BitVec.ofNat 32 (p.1 + 65536 * p.2)
      | none => 0
    hitid := lanesOf fun L => match rec_ L with
      | some r => if hit then r.ray else 0
      | none => 0
    subs := [SubB.start mask pc clock] }

/-- The core a bin's launch goes to, or would be nearest to (R313, R326). -/
def MatRecord.homeCore (r : MatRecord) (d : SurfDesc) : Nat := if r.hit then r.core else d.tileCore r.tile

/-- The bin after its launch; it qualifies anew when it still holds a full bundle. -/
def State.afterLaunch (s : State) (unit i : Nat) (b : RBin) (taken : Nat) : State :=
  let l := s.vis.riddle.getD unit []
  let rest := b.records.drop taken
  if rest.isEmpty then { s with vis := { s.vis with riddle := s.vis.riddle.set unit (l.eraseIdx i) } }
  else
    let b := { b with records := rest, qual := none }
    let s := { s with vis := { s.vis with riddle := s.vis.riddle.set unit (l.set i b) } }
    if b.bundle ≤ rest.length then s.qualify unit i else s

/-- The logical time a launch acquires: of the supplying cast's crews for pixels, of the issuing cores for hits (R317, R327). -/
def State.launchTime (s : State) (l : List MatRecord) : Nat :=
  l.foldl (fun m r => max m (if r.hit then s.ltOf r.core else match s.cast? r.castId with
    | some a => a.trigLT
    | none => 0)) 0

/-- Place the launch of the bin with a place in the order of qualifying: as the material cast's PLACE says, hits by R326 (R351). -/
def State.placeRiddle (s : State) (unit qual : Nat) : Option State :=
  let bins := s.vis.riddle.getD unit []
  match bins.findIdx? fun b => b.qual == some qual with
  | none => none
  | some i =>
    match bins[i]? with
    | none => none
    | some b =>
      match b.next with
      | [] => none
      | r :: l =>
        match s.cast? r.matCast, s.surface? r.surf with
        | some a, some f =>
          let n := a.need s
          if !s.rampFits n.slots || !s.budgetFits a.region [n] then none
          else
            match (if a.place = 2 || r.hit then s.nearestFit n (r.homeCore f.d)
                else if a.place = 1 then (s.disp.corners.head?.bind fun c => (rectangles c 1 1).flatten.find? (s.coreFits n))
                else s.roundRobin.find? (s.coreFits n)) with
            | none => none
            | some core =>
              let s := if a.place = 2 || r.hit then s
                else if a.place = 1 then { s with disp := { s.disp with corners := s.disp.corners.tail ++ s.disp.corners.take 1 } }
                else s.pointTo core
              let gid := s.disp.nextGangId
              let s := { s with disp := { s.disp with nextGangId := gid + 1 } }
              let cid := s.disp.nextCrewId
              match s.admitCrew a core 0 gid 0 .running with
              | none => none
              | some s =>
                match s.crew? cid with
                | none => none
                | some c =>
                  let c := { c with
                    records := r :: l
                    bundles := c.bundles.map fun d => if d.index = 0 then d.seatRecords f.d (r :: l) (a.word 0) s.coreClock else d }
                  some ((((s.setCrew c).takeStart n.slots).afterLaunch unit i b (l.length + 1)).raiseLT core (s.launchTime (r :: l)))
        | _, _ => none

/-! ## Resuming saved contexts (R361) -/

/-- A saved bundle seated anew, every G name resident (R99). -/
def Bundle.reseated (b : Bundle) (slot clock : Nat) : Bundle :=
  { b with slot := slot, v := b.v.map (fun r => { r with fmt := 0 }), subs := b.subs.map fun x => { x with ready := clock } }

/-- New places in a core's enqueue order for queue entries and tasks, in their old order: old place, new place. -/
def renumber (old : List Nat) (first : Nat) : List (Nat × Nat) :=
  let l := (sortBy (fun a b => decide (a ≤ b)) old).eraseDups
  (List.range l.length).map fun i => (l.getD i 0, first + i)

/-- The new place of an old one. -/
def newPlace (m : List (Nat × Nat)) (n : Nat) : Nat :=
  match m.find? fun e => e.1 == n with
  | some e => e.2
  | none => n

/-- Put reform bins back into free ones of a core. -/
def putBins (bins : List (Option Bin)) : List Bin → List (Option Bin)
  | [] => bins
  | x :: l => match bins.findIdx? (·.isNone) with
    | some i => putBins (bins.set i (some x)) l
    | none => putBins bins l

/-- Restore a saved context on a core. -/
def State.resumeOn (s : State) (x : Context) (core : Nat) (st : CrewSt) : Option State :=
  match s.takeReserve core (x.need s) with
  | none => none
  | some (s, bank, slots) =>
    let k := s.core core
    let n := x.crew.bundles.length
    let seat := seats (s.usedSlots core) k.startPtr 0 n
    let m := renumber (x.entries.map (·.seq) ++ x.tasks.map (·.seq)) k.enq
    let c := { x.crew with
      core := core, adm := k.admSeq, st := if n = 0 then .retired else st, spillSlots := slots, spillBank := bank, ovc := s.ovcOf x.crew.region
      priority := s.priorityOf x.crew.region, demand := s.demandOf x.crew.region, startWin := s.ns / 100, poolFrom := s.ns
      bundles := (List.range n).filterMap fun i => x.crew.bundles[i]? |>.map fun b => b.reseated (seat.getD i 0) s.coreClock }
    let k := { k with
      startPtr := (k.startPtr + n) % 32
      admSeq := k.admSeq + 1
      entries := k.entries ++ x.entries.map fun e => { e with id := newPlace m e.seq, seq := newPlace m e.seq }
      tasks := k.tasks ++ x.tasks.map fun t => { t with id := newPlace m t.seq, seq := newPlace m t.seq, engine := none }
      sboard := k.sboard ++ x.sboard.map fun e => { e with seq := newPlace m e.seq }
      enq := k.enq + m.length
      replay := k.replay ++ x.replay
      tables := x.tables.foldl (fun l t => l.set t.1 { owner := some x.crew.cid, data := t.2, old := none }) k.tables
      bins := putBins k.bins x.bins }
    let gone := x.slots.map fun n => (x.bank, n)
    let s := s.setCore core k
    let s := { s with
      crews := s.crews ++ [c]
      disp := { s.disp with
        contexts := s.disp.contexts.filter fun y => y.id != x.id
        ctxUsed := s.disp.ctxUsed.filter fun e => !gone.contains e
        idleFrom := s.disp.idleFrom.set (x.bank % 16) s.ns } }
    -- the new core's time is not before the old one's (R219, R221)
    let s := s.raiseLT core x.lt
    -- rows beyond the section are spilled afresh (R99), when the reserve's column is ready (R355); what the halt held back happens now (R358)
    if s.rowsMayFit c.cid then some ((s.fitRows c.cid (s.rowsUsed c)).progress c.cid) else none

/-- Restore saved contexts on cores, in order. -/
def State.resumeAll (s : State) (l : List (Context × Nat)) (st : CrewSt) : Option State :=
  l.foldl (fun (acc : Option State) e => acc.bind fun s => s.resumeOn e.1 e.2 st) (some s)

/-- Place a saved context, a gang whole: on any core or rectangle that admits it (R361), taken by a free value. -/
def State.placeSaved (s : State) (id : Nat) : Option State :=
  match s.disp.contexts.find? fun x => x.id == id with
  | none => none
  | some x =>
    let l := s.gangContexts x
    let ns := l.map fun y => y.need s
    -- the first start is of the first crew that has bundles (R354)
    let slots := ((ns.map (·.slots)).find? (· != 0)).getD 0
    let st := if l.length = 1 then CrewSt.running else CrewSt.starting
    if !s.leads x || !s.rampFits slots || !s.budgetFits x.crew.region ns || !l.all (fun y => s.bankAwake y.bank) then none
    else
      let places := if l.length = 1 then ((List.range Config.nCores).filter (s.coreFits (x.need s))).map fun c => [c]
        else (rectangles 0 x.crew.gangW x.crew.gangH).filter fun r =>
          (r.zip ns).all (fun e => s.coreFits e.2 e.1) && (s.resumeAll (l.zip r) st).isSome
      match places with
      | [] => none
      | _ =>
        let cores := choose s.step 12 id places []
        -- a fault owed since a rejection during the save takes a parked bundle out of its park (R211)
        let owed := fun (s : State) (y : Context) => y.crew.bundles.foldl (fun s b => if b.owed.isEmpty then s else s.dueFault y.crew.cid b.index) s
        (s.resumeAll (l.zip cores) st).map fun s => (l.foldl owed s).startAll ((l.filter fun y => !y.crew.bundles.isEmpty).map fun y => y.crew.cid) slots

/-! ## Decisions (R350, R355) -/

/-- Place a candidate, when it fits. -/
def State.tryPlace (s : State) (k : CandKind) : Option State :=
  match k with
  | .saved id => s.placeSaved id
  | .riddle unit qual => s.placeRiddle unit qual
  | .fresh id => s.placeFresh id

/-- The blocking candidate that comes first. -/
def State.blocker (s : State) (l : List (Nat × CandKind)) : Option (Nat × CandKind) :=
  l.find? fun e => s.disp.passed.any fun p => p.kind == e.2 && p.blocking

/-- A candidate may be admitted: none that blocks has its priority or a higher one, itself apart. -/
def mayPlace (b : Option (Nat × CandKind)) (e : Nat × CandKind) : Bool :=
  match b with
  | none => true
  | some b => b.2 == e.2 || decide (b.1 < e.1)

/-- The first candidate of a list that may be placed and fits, with the state it leads to, and those passed over before it. -/
def State.decideFrom (s : State) (b : Option (Nat × CandKind)) :
    List (Nat × CandKind) → List CandKind → Option (CandKind × State) × List CandKind
  | [], over_ => (none, over_)
  | e :: l, over_ =>
    if !mayPlace b e then s.decideFrom b l (over_ ++ [e.2])
    else
      match s.tryPlace e.2 with
      | some t => (some (e.2, t), over_)
      | none => s.decideFrom b l (over_ ++ [e.2])

/-- Note the candidates passed over; candidates no longer there are forgotten. -/
def State.notePassed (s : State) (all over_ : List CandKind) : State :=
  let old := s.disp.passed.filter fun p => all.contains p.kind
  let fresh := (over_.filter fun k => !old.any fun p => p.kind == k).map fun k => ({ kind := k, since := s.ns, blocking := false } : Passed)
  { s with disp := { s.disp with passed := old ++ fresh } }

/-- A candidate has been placed and no longer blocks. The next crew of its cast is a candidate as long passed over as it was (R350). -/
def State.unblock (s : State) (k : CandKind) : State :=
  { s with disp := { s.disp with passed := s.disp.passed.map fun p => if p.kind == k then { p with blocking := false } else p } }

/-- The sleeping columns that a candidate no awake core can place would be given, were they awake, with those of its saved contexts and of its
spill reserves; `none` when nothing that sleeps keeps it from being placed. -/
def State.wakeFor (s : State) (k : CandKind) : Option (List Nat) :=
  if s.disp.asleep.isEmpty && s.disp.cacheAsleep.isEmpty then none
  else
    let up : State := { s with disp := { s.disp with asleep := [], cacheAsleep := [], cacheWake := [] } }
    match up.tryPlace k with
    | none => none
    | some t =>
      let banks : List Nat := match k with
        | .saved _ => ((s.disp.contexts.filter fun x : Context => !(t.disp.contexts.any fun y : Context => y.id == x.id)).map fun x : Context => x.bank % 16)
        | _ => []
      let fresh : List Crew := t.crews.drop s.crews.length
      let cols := ((fresh.map fun c : Crew => c.core % 16) ++
        ((fresh.filter fun c : Crew => !c.spillSlots.isEmpty).map fun c : Crew => c.spillBank % 16) ++ banks).dedup.filter s.disp.asleep.contains
      if cols.isEmpty && s.disp.cacheAsleep.isEmpty then none else some cols

/-- One decision of the dispatcher: the first candidate that fits is placed; with none, columns are woken for the first that would fit. -/
def State.dispatch (s : State) : Option CandKind × State :=
  let l := s.candidateList
  let b := s.blocker l
  let (r, over_) := s.decideFrom b l []
  let all := l.map (·.2)
  match r with
  | some (k, t) => (some k, (t.unblock k).notePassed (match k with
      | .fresh _ => all
      | _ => all.filter (· != k)) over_)
  | none =>
    let s := s.notePassed all over_
    (none, match (l.filter (mayPlace b)).findSome? fun e => s.wakeFor e.2 with
      | some cols => s.wake cols
      | none => s)

/-- DISPATCH_PLACE (R350) -/
def execDispatchPlace (s : State) : Host.Outcome State Fault Refusal := .next s.dispatch.2

/-- The decision, when it places a candidate `ok` selects. -/
def State.dispatchIf (s : State) (ok : CandKind → Bool) : State :=
  match s.dispatch with
  | (some k, t) => if ok k then t else s
  | (none, _) => s

/-- RIDDLE_BIN_LAUNCH: the bin's launch, when it is the first candidate that fits (R320, R350). -/
def execRiddleBinLaunch (unit bin : Nat) (s : State) : Host.Outcome State Fault Refusal :=
  match (s.vis.riddle.getD unit [])[bin]? with
  | none => .next s
  | some b =>
    match b.qual with
    | none => .next s
    | some q => .next (s.dispatchIf (· == .riddle unit q))

/-- CONTEXT_RESUME: a saved context, with its gang, when it is the first candidate that fits (R361). -/
def execContextResume (ctx : Nat) (s : State) : Host.Outcome State Fault Refusal :=
  match s.disp.contexts.find? fun x => x.id == ctx with
  | none => .next s
  | some x => .next (s.dispatchIf fun k => (s.gangContexts x).any fun y => k == .saved y.id)

/-- CANDIDATE_BLOCK: a candidate passed over for 50 µs blocks (R350). -/
def execCandidateBlock (cand : Nat) (s : State) : Host.Outcome State Fault Refusal :=
  match s.disp.passed[cand]? with
  | none => .next s
  | some p =>
    if s.ns < p.since + 50000 || !(s.candidateList.any fun e => e.2 == p.kind) then .next s
    else .next { s with disp := { s.disp with passed := s.disp.passed.set cand { p with blocking := true } } }

/-! ## The start ramp (R354) -/

/-- Crews of a gang that is still starting. -/
def State.sameGang (s : State) (c : Crew) : List Crew := s.crews.filter fun d => d.castId == c.castId && d.gangId == c.gangId

/-- Gangs all of whose crews have started in earlier windows may issue from this one on. -/
def State.releaseGangs (s : State) : State :=
  let held := fun c : Crew => (s.sameGang c).any fun d => s.disp.waitStart.contains d.cid || decide (s.winNo ≤ d.startWin)
  { s with crews := s.crews.map fun c => if c.st == .starting && !held c then { c with st := .running } else c }

/-- The next crew of each waiting gang starts, one in a window, where the window has room. -/
def State.startNext (s : State) : State :=
  let gangs := (s.disp.waitStart.filterMap s.crew?).map fun c => (c.castId, c.gangId)
  gangs.dedup.foldl (fun s g =>
    match s.disp.waitStart.find? fun cid => match s.crew? cid with
      | some c => (c.castId, c.gangId) == g
      | none => false with
    | none => s
    | some cid =>
      match s.crew? cid with
      | none => s
      | some c =>
        let before := (s.sameGang c).any fun d => !s.disp.waitStart.contains d.cid && decide (s.winNo ≤ d.startWin)
        if !before && s.rampFits c.bundles.length then
          let s := (s.takeStart c.bundles.length).setCrew { c with startWin := s.winNo }
          { s with disp := { s.disp with waitStart := s.disp.waitStart.filter (· != cid) } }
        else s) s

/-- START_RAMP_WINDOW: a 100 ns window has opened: gangs whose last start lay in an earlier one may issue, and the next crew of each waiting
gang starts. -/
def execStartRampWindow (s : State) : Host.Outcome State Fault Refusal := .next s.releaseGangs.startNext

/-! ## Columns (R355) -/

/-- A resident crew runs on a column or has a spill reserve or a trap area in its banks. -/
def Crew.usesColumn (c : Crew) (column : Nat) : Bool :=
  c.core % 16 == column || (!c.spillSlots.isEmpty && c.spillBank % 16 == column) || c.bundles.any fun b => match b.area with
    | some a => a.bank % 16 == column
    | none => false

/-- Both hosts' queues are empty, their firmware Ladles idle, no cast is resident, read as no crew of one, and nothing is under way
to or from a slice (R355, log entry 51). -/
def State.cacheIdle (s : State) : Bool :=
  s.crews.isEmpty && s.host.ports.all (fun p => p.fw.isEmpty && p.queues.all fun q => q.head == q.tail) && s.host.journal.all (fun e => e.st != .accepted) &&
  s.mem.requests.isEmpty && s.mem.replies.isEmpty && s.mem.lists.isEmpty && s.mem.walks.isEmpty && s.cores.all fun k => k.upd.isEmpty

/-- The lines a cache-die column's slices hold leave L2, written back (R9). -/
def MemSys.flushColumn (m : MemSys) (column : Nat) : MemSys :=
  (m.l2.filter fun l => homeSlice l.line % 8 == column / 2).foldl (fun m l => m.evict l.line) m

/-- COLUMN_SLEEP: compute column 0 to 15, without admitted crews and context traffic, sleeps after the idle time, its context-layer column with
it; cache-die column x, under number 16 + x, sleeps while the device is idle, L2 written back first. -/
def execColumnSleep (column : Nat) (s : State) : Host.Outcome State Fault Refusal :=
  if s.host.blob.idleNs = 0 ∨ 32 ≤ column then .next s
  else if column < 16 then
    if (s.crews.any fun c => c.usesColumn column) || !s.columnAwake column || s.ns < s.disp.idleFrom.getD column 0 + s.host.blob.idleNs then .next s
    else .next { s with disp := { s.disp with asleep := s.disp.asleep ++ [column] } }
  else if !s.cacheIdle || s.disp.cacheAsleep.contains (column - 16) || s.disp.cacheWake.any fun w => w.1 == column - 16 then .next s
  else .next { s with mem := s.mem.flushColumn (column - 16), disp := { s.disp with cacheAsleep := s.disp.cacheAsleep ++ [column - 16] } }

/-- COLUMN_WAKE: a column's wake slot has ended and it is ready; cache-die columns are numbered from 16. -/
def execColumnWake (column : Nat) (s : State) : Host.Outcome State Fault Refusal :=
  if 16 ≤ column then
    .next { s with disp := { s.disp with cacheWake := s.disp.cacheWake.filter fun w => w.1 + 16 != column || decide (s.ns < w.2) } }
  else
    match s.disp.waking.find? fun w => w.1 == column with
    | none => .next s
    | some w =>
      if s.ns < w.2 then .next s
      else .next { s with disp := { s.disp with
        waking := s.disp.waking.filter fun w => w.1 != column
        ctxWake := s.disp.ctxWake.filter fun w => decide (s.ns < w.2)
        idleFrom := s.disp.idleFrom.set column s.ns } }

end Sys2Proof.Machine
end

