-- ==== Sys2Proof/Machine/Contexts.lean ====
section
/-! DEFINITION. The end of crews and casts (R347, R348, R353) and pre-emption (R357 to R360, R362). -/

namespace Sys2Proof.Machine

/-! ## Retirement (R353) -/

/-- What a crew's launch and its strands left undone is over: it may retire. -/
def State.mayRetire (s : State) (c : Crew) : Bool :=
  let k := s.core c.core
  (c.st == .running || c.st == .halted) && !c.bundles.isEmpty && (c.records.isEmpty || c.runnerDone) && c.bundles.all (fun b => b.live == 0 && b.pend.isEmpty) && c.arrivals.isEmpty && !s.binned c &&
  c.rings.all (fun r => match r with
    | some r => !r.spawn || r.st.all fun x => x.st == .empty
    | none => true) &&
  !(k.entries.any fun e => e.crew == c.cid) && !(k.tasks.any fun t => t.crew == c.cid) && !(k.replay.any fun r => r.crew == c.cid) &&
  !(s.cores.any fun k => k.upd.any fun u => u.users.any fun e => e.1 == c.cid) && !(s.mem.requests.any fun q => q.crew == c.cid)

/-- FLAGS of a crew (R128). -/
def Crew.allFlags (c : Crew) : BitVec 5 := c.bundles.foldl (fun f b => f ||| b.flags) c.flagAcc
/-- FMASK of a crew (R185). -/
def Crew.allFaults (c : Crew) : LaneMask := c.bundles.foldl (fun f b => f ||| b.fmask) c.faultAcc

/-- A retiring crew reports to its cast, a material crew to the cast that supplied its records (R347, R348). -/
def State.report (s : State) (c : Crew) : State :=
  let own := c.records.isEmpty
  let id := match c.records with
    | r :: _ => r.castId
    | [] => c.castId
  match s.cast? id with
  | none => s
  | some a =>
    if a.done then s
    else
      let i := c.gridIndex a
      s.setCast { a with
        flags := a.flags ||| c.allFlags
        fmask := a.fmask ||| c.allFaults
        off := a.off + c.off
        retired := if own then a.retired + 1 else a.retired
        mcrews := if own then a.mcrews else a.mcrews + 1
        trigged := if own && !a.trigged.contains i then a.trigged ++ [i] else a.trigged
        trigLT := max a.trigLT (s.ltOf c.core) }

/-- A crew of a gang that has retired keeps its granules until the gang's last crew retires, its saved crews counted (R181); the rest returns
now. One halted for pre-emption with its gang is saved with it (R195). -/
def State.retireInGang (s : State) (c : Crew) : State :=
  let c' := ((s.flushCrew c).crew? c.cid).getD c
  let s := (s.flushCrew c).releaseCore c
  let s := s.setCrew { c' with st := if c.st == .halted then .halted else .retired, bundles := [], wbg := 0, spillSlots := [] }
  let gang := s.sameGang c
  let mine := fun d : Crew => d.castId == c.castId && d.gangId == c.gangId
  if gang.all (fun d => d.bundles.isEmpty) && s.disp.contexts.all fun x => !mine x.crew || x.crew.bundles.isEmpty then
    (gang.foldl (fun s d => s.removeCrew d.cid) s).dropContexts mine
  else s

/-- CREW_RETIRE: counters, flags and masks are reported, resources return when the stop ramp takes the stop. A Riddle-launched crew's tiles may
move on (R314). -/
def execCrewRetire (crew : Nat) (s : State) : Host.Outcome State Fault Refusal :=
  match s.crew? crew with
  | none => .next s
  | some c =>
    if !s.mayRetire c || !s.stopFits c.bundles.length then .next s
    else
      let s := (s.takeStop c.bundles.length).report c
      let s := if c.gangW * c.gangH = 1 then s.removeCrew c.cid else s.retireInGang c
      .next s.settleTiles

/-! ## Completion (R317, R347) -/

/-- Records a cast supplied wait in bins or are held by a material crew. -/
def State.recordsOut (s : State) (castId : Nat) : Bool :=
  s.vis.riddle.any (fun u => u.any fun b => b.records.any fun r => r.castId == castId) || s.crews.any fun c => c.records.any fun r => r.castId == castId

/-- A cast's work is over. -/
def State.castOver (s : State) (a : Cast) : Bool :=
  a.crewsDone && !s.recordsOut a.castId &&
  (a.kind != 1 || (a.geomEnded && s.vis.surfaces.all fun f => f.tiles.all fun t =>
    t.castId != a.castId || (t.st != .sealed && t.st != .sorting)))

/-- CAST_COMPLETE: the completion record, then the journal entry DONE (R347). -/
def execCastComplete (castId : Nat) (s : State) : Host.Outcome State Fault Refusal :=
  match s.cast? castId with
  | none => .next s
  | some a =>
    if a.kind == 2 || a.done || !s.castOver a then .next s
    else
      let (s, ok) := s.writeRecord a 1 0
      let s := s.setCast { a with done := true }
      let s := { s with host := { s.host with debuggers := s.host.debuggers.filter fun d => d.castId != castId } }
      .next (s.journalTo a.seq .done (if ok then 0 else 8) none)

/-! ## The size of a saved context (R100, R359) -/

/-- Bytes of a bundle's register context (R100). -/
def Bundle.regBytes (b : Bundle) : Nat :=
  (b.v.map fun r => match r.shape with
    | .g _ => 128
    | .u _ => 4
    | .a _ _ => 8).sum + 160 + 1280 + 64

/-- Bytes of a crew's context but for what its core holds for it. -/
def Crew.ctxBytes (c : Crew) (bins : List Bin) : Nat :=
  let held := c.bundles.filter fun b => b.live != 0
  let records := (bins.map fun x => (x.records.map fun r => 4 * r.carried.length).sum).sum
  256 + 1024 + 320 * held.length + (held.map (·.regBytes)).sum + records +
  (c.plainSize + 2 * c.exchSize) + 49152 * ((c.cost - c.regGranules - c.plainSize / 49152 - 2 * (c.exchSize / 49152)) - c.tiles.length / 3) +
  16392 * c.tiles.length + 4608 * c.wbg +
  (c.bundles.map fun b => match b.prim with
    | some p => 256 * slotBlocks p.na
    | none => 0).sum

/-- The reform bins of a crew. -/
def State.crewBins (s : State) (c : Crew) : List Bin := (s.core c.core).bins.filterMap fun b => match b with
  | some x => if x.crew == c.cid then some x else none
  | none => none

/-- Bytes of a crew's context with its tasks, entries, replay entries and tables. -/
def State.saveBytes (s : State) (c : Crew) : Nat :=
  let k := s.core c.core
  c.ctxBytes (s.crewBins c) + 64 * ((k.tasks.filter fun t => t.crew == c.cid).length + (k.entries.filter fun e => e.crew == c.cid).length) +
  640 * (k.replay.filter fun r => r.crew == c.cid).length + 2048 * (k.tables.filter fun t => t.owner == some c.cid).length

/-- Context slots that a number of bytes takes (R360). -/
def ctxSlotsFor (bytes : Nat) : Nat := (bytes + 65519) / 65520

/-- The bound on a save at the request (R357): what the crew holds, and every free replay entry and primitive slot its bundles could still
take. -/
def State.saveBound (s : State) (c : Crew) : Nat :=
  let k := s.core c.core
  let a := s.castOf c
  let z := slotBlocks a.na
  let more := if a.kind == 1 then min (c.bundles.filter fun b => b.prim.isNone).length ((256 - s.blocksUsed c.core) / z) * (256 * z) else 0
  s.saveBytes c + 640 * (32 - k.replay.length) + more

/-! ## Choosing victims (R357) -/

/-- Put victims in order: lowest priority first, then the most recently admitted. -/
def State.victimOrder (s : State) (p : Nat) : List Crew :=
  let l := (s.crews.filter fun c => c.records.isEmpty && c.st != .halted && decide (c.priority < p)).reverse
  sortBy (fun a b : Crew => decide (a.priority ≤ b.priority)) l

/-- The device as it would be with a set of crews gone from their cores, their contexts saved; `none` when the context slots or a budget do not
allow it. -/
def State.without (s : State) : List Crew → Option State
  | [] => some s
  | c :: l =>
    let n := ctxSlotsFor (s.saveBound c)
    match s.bankFor c.core n with
    | none => none
    | some bank =>
      match s.takeSlots bank n with
      | none => none
      | some (t, slots) =>
        let x : Context := { id := t.disp.nextCtx, crew := { c with spillSlots := [] }, tasks := [], entries := [], sboard := [], replay := [], tables := [], bins := [],
                             bank := bank, slots := slots, order := 0 }
        let t := (t.releaseCore c)
        let t := { t with crews := t.crews.filter fun d => d.cid != c.cid, disp := { t.disp with contexts := t.disp.contexts ++ [x] } }
        if (t.ancestors 8 c.region).all (fun k => match t.region? k with
            | some r => r.ctxb == 0 || decide (t.ctxHeld k ≤ r.ctxb)
            | none => true) then t.without l else none

/-- Add victims, gangs whole, until a candidate fits: the victims. -/
def State.chooseVictims (s : State) (k : CandKind) (chosen : List Crew) : List Crew → Option (List Crew)
  | [] => none
  | c :: l =>
    let gang := s.sameGang c
    let chosen := if chosen.any (fun d => d.cid == c.cid) then chosen else chosen ++ gang
    match s.without chosen with
    | none => none
    | some t =>
      -- the ramp of the current window is no reason to save more crews
      match { t with disp := { t.disp with starts := 0, units := 0 } }.tryPlace k with
      | some _ => some chosen
      | none => s.chooseVictims k chosen l

/-- Halt a bundle at an instruction boundary (R358): its stalled instruction is withdrawn, its sleep completed; resumed it enters its lines anew
(R18). -/
def Bundle.halt (b : Bundle) : Bundle :=
  { b with subs := b.subs.map fun x => { x.awake.leaveLine with stall := none }, primTicket := none }

/-- Halt a crew. -/
def State.haltCrew (s : State) (c : Crew) : State :=
  let k := s.core c.core
  let tickets := c.bundles.filterMap (·.primTicket)
  let s := s.setCore c.core { k with primOrder := k.primOrder.filter fun t => !tickets.contains t }
  let s := s.setCrew { c with st := .halted, haltOrder := s.disp.preOrder, bundles := c.bundles.map (·.halt) }
  { s with disp := { s.disp with waitStart := s.disp.waitStart.filter (· != c.cid) } }

/-- The device with crews halted by an earlier request gone: what a second request would find (R362). -/
def State.afterHalts (s : State) : Option State := s.without (s.crews.filter fun c => c.st == .halted)

/-- The victims for the first candidate that pre-emption would let in. -/
def State.preempt (s : State) : List (Nat × CandKind) → State
  | [] => s
  | e :: l =>
    match s.tryPlace e.2 with
    | some _ => s.preempt l
    | none =>
      match s.afterHalts with
      | none => s
      | some t =>
        match t.tryPlace e.2 with
        | some _ => s
        | none =>
          match t.chooseVictims e.2 [] (t.victimOrder e.1) with
          | some victims =>
            let s := victims.foldl (fun s c => s.haltCrew c) s
            { s with disp := { s.disp with preOrder := s.disp.preOrder + 1 } }
          | none => s.preempt l

/-- PREEMPT_REQUEST: victims are chosen and halted (R357, R358). -/
def execPreemptRequest (s : State) : Host.Outcome State Fault Refusal :=
  let l := s.candidateList
  .next (s.preempt (l.filter (mayPlace (s.blocker l))))

/-! ## Saving (R358 to R360) -/

/-- A halted crew's begun work is done: pending results written, issued arrivals completed (R195), begun copies and started tasks complete; a
copy that waits for a page request is saved as it stands (R264, R286). -/
def State.maySave (s : State) (c : Crew) : Bool :=
  let k := s.core c.core
  c.st == .halted && c.bundles.all (fun b => b.drained) && c.arrivals.isEmpty &&
  k.entries.all (fun e => e.crew != c.cid || e.st != .begun || e.requests.any s.outstanding) &&
  k.tasks.all fun t => t.crew != c.cid || t.engine.isNone

/-- CONTEXT_SAVE: the crew's state goes to context slots of the bank above its core or the nearest live bank with room; its resources return,
and the end of the save counts as a stop (R354, R358 to R360). -/
def execContextSave (crew : Nat) (s : State) : Host.Outcome State Fault Refusal :=
  match s.crew? crew with
  | none => .next s
  | some c =>
    let fpinv := (s.castOf c).fpinv
    let ready := s.maySave c && !s.mayRetire c
    let c := { c with bundles := c.bundles.map fun b => if b.pend.isEmpty then b else b.completeEntry s.step s.coreClock fpinv }
    let n := ctxSlotsFor (s.saveBytes c)
    if !ready || !s.stopFits c.bundles.length || !s.ctxFits c.region (n - c.spillSlots.length) then .next s
    else
      match s.bankFor c.core n with
      | none => .next s
      | some bank =>
        if s.disp.asleep.contains (bank % 16) then .next (s.wake [bank % 16])
        else if !s.bankAwake bank then .next s
        else
          match s.takeSlots bank n with
          | none => .next s
          | some (s, slots) =>
            let k := s.core c.core
            let saved := { c with
              inst := 0, faults := List.replicate 8 0, spillSlots := [], stuck := none, gangStuck := none }
            let x : Context :=
              { id := s.disp.nextCtx, crew := saved, tasks := k.tasks.filter fun t => t.crew == crew
                entries := (k.entries.filter fun e => e.crew == crew).map fun e => { e with requests := [] }
                sboard := k.sboard.filter fun e => e.crew == crew, replay := k.replay.filter fun r => r.crew == crew
                tables := (List.range 8).filterMap fun i =>
                  let t := k.tables.getD i Codebook.init
                  if t.owner == some crew then some (i, t.data) else none
                bins := s.crewBins c, bank := bank, slots := slots, order := c.haltOrder, lt := s.ltOf c.core }
            -- a trap area keeps the slot it has (R371)
            let s := (s.takeStop c.bundles.length).flushCrew c
            let s := s.releaseCore { c with bundles := c.bundles.map fun b => { b with area := none } }
            .next { s with
              crews := s.crews.filter fun d => d.cid != crew
              disp := { s.disp with
                contexts := s.disp.contexts ++ [x], nextCtx := s.disp.nextCtx + 1
                idleFrom := (s.disp.idleFrom.set (c.core % 16) s.ns).set (bank % 16) s.ns } }

end Sys2Proof.Machine
end

