-- ==== Sys2Proof/Machine/Slots.lean ====
section
/-! DEFINITION. What happens to a bundle slot between instructions: fetch arrivals (R17), results and markers (R57, R60), turns and stalls
(R64), bins (R69), watchdogs (R73, R110, R194), sleep (R84), the spill engine (R96), the drain of a trap entry (R366), counters (R344). -/

namespace Sys2Proof.Machine

/-- LINE_FETCH_ARRIVAL (R17) -/
def execLineFetchArrival (crew bun : Nat) (s : State) : Host.Outcome State Fault Refusal := .next (s.lineArrives crew bun false)
/-- LINE_REFETCH (R17) -/
def execLineRefetch (crew bun : Nat) (s : State) : Host.Outcome State Fault Refusal := .next (s.lineArrives crew bun true)

/-! ## Results and markers (R57, R60) -/

/-- The marks of the bundle's tasks whose stamp an acquire `ld` has read: they are reported when its wait ends (R285). In trap mode nothing is
reported (R367). -/
def Crew.loadMarks (c : Crew) (b : Bundle) (p : Pending) : List NanMark :=
  match p.gather with
  | some g => if !g.acquire || b.trap.isSome || g.cell.isSome || g.lanes.any (fun e => e.op.writes) then [] else c.nan.filter fun m => m.bun == b.index && (match m.stamp with
      | some a => g.lanes.any fun e => e.va == a.toNat
      | none => false)
  | none => []

/-- LONG_RESULT_WRITE: a bound result is written; the replies that brought it are consumed (R60). The wait of an acquire load ends: MNAN is set for
the tasks it reports, and under the NaN trap option it traps instead, before it takes effect (R285). -/
def execLongResultWrite (crew bun pend : Nat) (s : State) : Host.Outcome State Fault Refusal :=
  match s.bundle? crew bun with
  | none => .next s
  | some (c, b) =>
    match b.pend.find? fun p => p.id == pend && p.result.isSome && !p.written with
    | none => .next s
    | some p =>
      let marks := c.loadMarks b p
      let b := if marks.isEmpty then b else { b with flags := b.flags ||| flagMNAN }
      let nantrap := (s.castOf c).nantrap
      let c := { c with nan := if nantrap then (match marks with
        | m :: _ => c.nan.erase m
        | [] => c.nan) else c.nan.filter fun m => !marks.contains m }
      match (if nantrap then marks.head? else none), p.gather with
      | some m, some g => .next ((s.setBundle c b).loadTrap crew bun pend (lowLane g.mask) 15 (nanInfo m))
      | _, _ =>
      let s := s.setBundle c (b.writeLong s.coreClock pend)
      let s := { s with mem := { s.mem with replies := s.mem.replies.filter fun r => match r.kind with
        | .data c b p _ => !(c == crew && b == bun && p == pend)
        | _ => true } }
      .next (if b.live = 0 then s.progress crew else s)

/-- A pair that waited at its `rep` under the FP_INVALID option goes on past its last repeat (R85, R129). -/
def SubB.pastPair (x : SubB) (clock : Nat) : SubB :=
  if x.rep = 0 then x
  else
    match x.lineData with
    | none => x
    | some d =>
      match decode (slotBits d (pcSlot x.pc)) with
      | .ok (.rep r) => if r.count.toNat < x.rep then { (x.goto (skipPc x.pc 2) clock) with issued := x.issued } else x
      | _ => x

/-- MARKER_COMPLETE: every pending result of a parked slot is written; the marker completes, and after a stop marker the turn moves on
(R57, R64); an instruction that waited at its implicit marker may issue (R61). -/
def execMarkerComplete (crew bun : Nat) (s : State) : Host.Outcome State Fault Refusal :=
  match s.bundle? crew bun with
  | none => .next s
  | some (c, b) =>
    let fpinv := (s.castOf c).fpinv
    match b.subs with
    | [] => .next s
    | x :: _ =>
      if !b.drained then .next s
      else
        let t := s.coreClock
        let done := b.completeMarker s.step t fpinv
        match x.park with
        | .drain => .next ((s.setBundle c (done.setCurrent { x with park := .run, issued := 0, ready := t })).fpTrap crew bun)
        | .marker =>
          if done.fpOwed x then .next ((s.setBundle c (done.setCurrent { x with park := .run, issued := 0 })).fpTrap crew bun)
          else .next (s.setBundle c ((done.setCurrent { (x.pastPair t) with park := .run }).rotate t))
        | _ => .next s

/-- TRAP_ENTRY: a slot that has taken a trap has its pending results written; the entry acts as a completed marker, HANDLER is read, and the
handler's first instruction may be fetched (R61, R366); with no HANDLER the cast is killed (R370). -/
def execTrapEntry (crew bun : Nat) (s : State) : Host.Outcome State Fault Refusal :=
  match s.bundle? crew bun with
  | none => .next s
  | some (c, b) =>
    match b.trap with
    | none => .next s
    | some t =>
      if !t.entering || b.pend.isEmpty || !b.drained then .next s
      else
        let s' := s.setBundle c (b.completeEntry s.step s.coreClock (s.castOf c).fpinv)
        if t.debug then .next s'
        else if s.handlerOf c.region = 0 then .next (s'.killCast c.castId t.cause)
        else .next (s'.setHandler crew bun (s.handlerOf c.region))

/-! ## Turns and stalls (R64) -/

/-- The device inserts a completed marker: with nothing pending the turn passes now. -/
def State.insertMarker (s : State) (c : Crew) (b : Bundle) (x : SubB) : State :=
  if b.pend.isEmpty then s.setBundle c ((b.setCurrent x).rotate s.coreClock)
  else s.setBundle c (b.setCurrent { x with park := .marker })

/-- TURN_INSTRUCTION_LIMIT: 1,024 instructions without a completed marker (R64). -/
def execTurnInstructionLimit (crew bun : Nat) (s : State) : Host.Outcome State Fault Refusal :=
  match s.bundle? crew bun with
  | none => .next s
  | some (c, b) =>
    match b.subs with
    | [] => .next s
    | x :: _ => .next (if 1024 ≤ x.issued && x.park == .run && x.stall.isNone then s.insertMarker c b x else s)

/-- STALL_TIMEOUT: an instruction stalled for 256 clocks is withdrawn and the turn passes (R64), also one whose line waits for a page request
(log entry 17). -/
def execStallTimeout (crew bun : Nat) (s : State) : Host.Outcome State Fault Refusal :=
  match s.bundle? crew bun with
  | none => .next s
  | some (c, b) =>
    match b.subs with
    | [] => .next s
    | x :: _ =>
      match x.stall with
      | none => .next s
      | some st =>
        let held := match x.park with
          | .run => true
          | .fetch _ _ => true
          | _ => false
        if st.withdrawn || s.coreClock < st.since + 256 || !held then .next s
        else .next (s.insertMarker c b { x with stall := some { st with withdrawn := true } })

/-- STALL_REISSUE: a stalled instruction issues again at its slot's next issue; strands parked at a `reform` that found no bin, or at a
`reform` or `bar` that waited for parked stores, try again (R64, R67, R209). -/
def execStallReissue (crew bun : Nat) (s : State) : Host.Outcome State Fault Refusal :=
  match s.bundle? crew bun with
  | none => .next s
  | some (c, b) =>
    match b.subs with
    | [] => .next s
    | x :: _ =>
      match x.stall with
      | some st => .next (s.setBundle c (b.setCurrent { x with stall := some { st with retry := true }, ready := s.coreClock }))
      | none => .next (s.progress crew)

/-- SLEEP_WAKE: a sleeping sub-bundle is ready again (R84). -/
def execSleepWake (crew bun sub : Nat) (s : State) : Host.Outcome State Fault Refusal :=
  match s.bundle? crew bun with
  | none => .next s
  | some (c, b) =>
    match b.subs[sub]? with
    | none => .next s
    | some x =>
      match x.park with
      | .sleep wake =>
        if s.coreClock < wake || b.trap.isSome then .next s
        else .next (s.setBundle c (({ b with subs := b.subs.set sub { x with park := .run, ready := s.coreClock } } : Bundle).turn s.coreClock))
      | _ => .next s

/-! ## Reform bins (R69) -/

/-- REFORM_BIN_TIMEOUT: the time limits of a bin have been met. -/
def execReformBinTimeout (core bin : Nat) (s : State) : Host.Outcome State Fault Refusal :=
  let k := s.core core
  match k.bins.getD bin none with
  | none => .next s
  | some x => .next (if x.late s.coreClock then s.setCore core { k with bins := k.bins.set bin (some { x with aged := true }) } else s)

/-- REFORM_BIN_DRAW -/
def execReformBinDraw (crew : Nat) (s : State) : Host.Outcome State Fault Refusal := .next (s.drawBin crew)

/-! ## Watchdogs (R73, R110, R194) -/

/-- 2^20 core clocks. -/
def watchdogClocks : Nat := 1048576

/-- The sub-bundles of a slot that hold a strand are all parked where `ok` says. -/
def Bundle.allParked (b : Bundle) (ok : Park → Bool) : Bool := b.live == 0 || (b.trap.isNone && b.subs.all fun y => ok y.park)

/-- Parked at `bar`. -/
def atBar (p : Park) : Bool :=
  match p with
  | .bar _ => true
  | _ => false

/-- Parked at `bar` or `join`. -/
def atBarJoin (p : Park) : Bool := atBar p || p == .join

/-- Parked at `gbar`, `bar` or `join`. -/
def atGangBar (p : Park) : Bool := atBarJoin p || p == .gbar

/-- Every strand of a crew is parked at `bar` or `join`, none in a bin, and no `bar` can complete, now or once parked stores have drained (R73). -/
def State.crewStuck (s : State) (c : Crew) : Bool :=
  c.st == .running && c.bundles.any (fun b => b.live != 0) && c.bundles.all (·.allParked atBarJoin) && !s.binned c && !c.bundles.all (·.allParked atBar)

/-- A bundle traps WATCHDOG at the instruction its first sub-bundle is parked at. -/
def State.watchdog (s : State) (cid bi info : Nat) : State :=
  match s.bundle? cid bi with
  | none => s
  | some (c, b) =>
    match b.subs with
    | [] => s
    | x :: _ =>
      if b.live = 0 then s
      else (s.setBundle c (b.bringTo (lowLane x.mask) x.pc s.coreClock)).takeTrap cid bi 23 (BitVec.ofNat 128 info) x.pc false 0 0

/-- Since when a crew is stuck, alone or with its gang. -/
def Crew.stuckFrom (c : Crew) (gang : Bool) : Option Nat := if gang then c.gangStuck else c.stuck

/-- The crews' note of since when they are stuck. -/
def State.noteStuck (s : State) (gang : Bool) (l : List Crew) (t : Option Nat) : State :=
  l.foldl (fun s c => match s.crew? c.cid with
    | some d => s.setCrew (if gang then { d with gangStuck := t } else { d with stuck := t })
    | none => s) s

/-- A watchdog over crews that are stuck together: the first sight of the state is noted, and when it has lasted 2^20 clocks every bundle
with strands traps. -/
def State.overCrews (s : State) (gang : Bool) (l : List Crew) (stuck : Bool) (info : Nat) : State :=
  if !stuck then s.noteStuck gang l none
  else
    match l.mapM fun c : Crew => c.stuckFrom gang with
    | none => s.noteStuck gang l (some s.coreClock)
    | some ts =>
      if s.coreClock < ts.foldl max 0 + watchdogClocks then s
      else l.foldl (fun s c => c.bundles.foldl (fun s b => s.watchdog c.cid b.index info) s) (s.noteStuck gang l none)

/-- CREW_WATCHDOG (R73) -/
def execCrewWatchdog (crew : Nat) (s : State) : Host.Outcome State Fault Refusal :=
  match s.crew? crew with
  | none => .next s
  | some c => .next (s.overCrews false [c] (s.crewStuck c) 0)

/-- A queue entry is stopped (R262). -/
def QEntry.isStopped (e : QEntry) : Bool :=
  match e.st with
  | .stopped _ _ => true
  | _ => false

/-- The entry or task of a crew at a place of the enqueue order cannot complete while those at places `held` do not: a stopped copy; behind one in
its queue, by a fence, on the scoreboard, or by the ranges of tasks (R248, R259, R271, R280, R281). -/
def CoreSt.stuckAt (k : CoreSt) (cid : Nat) (held : List Nat) (n : Nat) : Bool :=
  let stop := fun m : Nat => decide (m < n) && held.contains m
  let board := { k with sboard := k.sboard.filter fun b => held.contains b.seq }
  let es := k.entries.filter fun e => e.crew == cid
  let ts := k.tasks.filter fun t => t.crew == cid
  (es.any fun e => e.seq == n && (e.isStopped || (es.any fun d => d.queue == e.queue && stop d.seq) || board.boardHolds e ||
    (e.kind == .qfence && ((es.any fun d => e.mask.getLsbD d.queue && stop d.seq) || (e.mask.getLsbD 4 && ts.any fun t => stop t.seq))))) ||
  ts.any fun t => t.seq == n && t.engine.isNone && ((ts.any fun d => d.clash t && stop d.seq) || board.taskHeld t)

/-- The places of a crew's entries and tasks that no longer complete because of its stopped copies. -/
def CoreSt.stuckSeqs (k : CoreSt) (cid : Nat) : List Nat :=
  let seqs := (k.entries.filter fun e => e.crew == cid).map (·.seq) ++ (k.tasks.filter fun t => t.crew == cid).map (·.seq)
  (sortBy (fun a b => decide (a ≤ b)) seqs).foldl (fun held n => if k.stuckAt cid held n then held ++ [n] else held) []

/-- A copy into an exchange area of a crew, or a task that reads or writes one, is stopped or held back by a stopped copy (R262): no `gbar` of its
gang can complete. -/
def State.exchStopped (s : State) (c : Crew) : Bool :=
  let k := s.core c.core
  let exch := fun r : Option PRange => match r with
    | some r => r.isExch
    | none => false
  let held := k.stuckSeqs c.cid
  (k.entries.any fun e => e.crew == c.cid && e.kind == .lcopy && exch e.range && held.contains e.seq) ||
  k.tasks.any fun t => t.crew == c.cid && exch t.range && held.contains t.seq

/-- Every strand of a crew that has strands is parked at `bar`: its barrier completes, or will once parked stores have drained. -/
def Crew.barComing (c : Crew) : Bool := c.bundles.any (fun b => b.live != 0) && c.bundles.all (·.allParked atBar)

/-- A gang's strands are all parked, some at `gbar`, and no barrier can complete (R194): not every strand is at `gbar`, or a copy that it
waits for is stopped. -/
def State.gangStuck (s : State) (gang : List Crew) : Bool :=
  gang.all (fun c => s.gangWhole c && c.bundles.all (·.allParked atGangBar) && !s.binned c && !c.barComing) &&
  gang.any (fun c => c.bundles.any fun b => b.subs.any fun y => y.park == .gbar) &&
  (gang.any s.exchStopped || !gang.all fun c => c.bundles.all (·.allParked (· == .gbar)))

/-- GANG_WATCHDOG (R194) -/
def execGangWatchdog (crew : Nat) (s : State) : Host.Outcome State Fault Refusal :=
  match s.crew? crew with
  | none => .next s
  | some c => .next (s.overCrews true (s.gangOf c) (s.gangStuck (s.gangOf c)) 2)

/-- A bundle is stalled in `xacq`, or parked as in R73. -/
def Bundle.atXacq (b : Bundle) : Bool := b.live == 0 || (b.trap.isNone && b.subs.all fun y => y.xacq?.isSome || atBarJoin y.park)

/-- XACQ_WATCHDOG: a request that has waited 2^20 clocks while every other bundle of the crew is stalled in `xacq` or parked at `bar` or
`join`: the sub-bundle that waits traps on its `xacq` (R110). -/
def execXacqWatchdog (crew bun : Nat) (s : State) : Host.Outcome State Fault Refusal :=
  match s.bundle? crew bun with
  | none => .next s
  | some (c, b) =>
    let late := fun y : SubB => match y.xacq? with
      | some (since, _) => decide (since + watchdogClocks ≤ s.coreClock)
      | none => false
    match b.subs.find? late with
    | none => .next s
    | some y =>
      if b.trap.isSome || !(c.bundles.all fun d => d.index == bun || d.atXacq) then .next s
      else .next ((s.setBundle c (b.bringTo (lowLane y.mask) y.pc s.coreClock)).takeTrap crew bun 23 1 y.pc false 0 0)

/-! ## The spill engine (R96) -/

/-- ROW_SPILL: while a stalled instruction needs more rows than are free, one victim row is packed and freed (R96, R97). -/
def execRowSpill (crew bun : Nat) (s : State) : Host.Outcome State Fault Refusal :=
  match s.bundle? crew bun with
  | none => .next s
  | some (c, b) =>
    match b.subs with
    | [] => .next s
    | x :: _ =>
      match x.stall.bind (·.rows) with
      | none => .next s
      | some (need, keep) =>
        if need ≤ s.freeRows c || !s.bankAwake c.spillBank then .next s
        else match s.victim c b keep with
          | some v => .next (s.spillRow c v)
          | none => .next s

/-! ## Counters (R344) -/

/-- COUNTER_FLUSH: a core adds the shares of its resident crews. -/
def execCounterFlush (core : Nat) (s : State) : Host.Outcome State Fault Refusal :=
  .next ((s.crews.filter fun c => c.core == core).foldl (fun s c => s.flushCrew c) s)

end Sys2Proof.Machine
end

