-- ==== Sys2Proof/Machine/Answers.lean ====
section
/-! DEFINITION. Answers to page-fault requests (R208 to R211, R262, R385) and the debugger (R373). -/

namespace Sys2Proof.Machine

/-! ## Answers (R385) -/

/-- The request is answered. -/
def State.dropRequest (s : State) (id : Nat) : State :=
  { s with mem := { s.mem with pageReqs := s.mem.pageReqs.filter fun q => q.id != id } }

/-- Parked stores that waited for a request may translate afresh, those of saved crews too (R209). -/
def State.freeParked (s : State) (id : Nat) : State :=
  let go := fun r : Replay => if r.request == some id then { r with request := none } else r
  { s with
    cores := s.cores.map fun k => if k.replay.isEmpty then k else { k with replay := k.replay.map go }
    disp := { s.disp with contexts := s.disp.contexts.map fun x => { x with replay := x.replay.map go } } }

/-- A stall learns that a request it waits for was rejected. -/
def SubB.reject (x : SubB) (id vpage : Nat) : SubB :=
  match x.stall with
  | some st => if st.requests.contains id then { x with stall := some { st with rejected := vpage :: st.rejected } } else x
  | none => x

/-- Every stalled sub-bundle of a bundle learns it. -/
def Bundle.reject (b : Bundle) (id vpage : Nat) : Bundle :=
  { b with
    subs := b.subs.map fun x => x.reject id vpage
    trap := b.trap.map fun t => { t with others := t.others.map fun x => x.reject id vpage } }

/-- The ranges the next step of a copy entry accesses. -/
def QEntry.ranges (e : QEntry) : List (Nat × Nat) :=
  let r := CopyRec.read e.recd
  let stamp := match e.stamp with
    | some (a, _) => [(a.toNat, 8)]
    | none => []
  if e.units ≤ e.unit then stamp
  else
    match e.kind with
    | .lcopy => r.unitReads e.unit
    | .lput => [(r.putLines.getD e.unit 0, 128)]
    | .lcode => (List.range 16).map fun i => (bitsOf (e.recd.getD 0 0) 47 0 + 128 * i, 128)
    | .qfence => stamp

/-- The copies that wait for a rejected request stop: in their bytes as PAGE, at their stamp as STAMP (R256, R262). -/
def State.rejectCopies (s : State) (id vpage : Nat) : State :=
  (List.range s.cores.length).foldl (fun s n =>
    ((s.core n).entries.filter fun e => e.requests.contains id).foldl (fun s e =>
      let va := match e.ranges.find? fun a => vpageOf a.1 == vpage || vpageOf (a.1 + a.2 - 1) == vpage with
        | some a => max a.1 (vpage * 8192)
        | none => vpage * 8192
      s.stopEntry n e (if e.units ≤ e.unit then 13 else 8) va) s) s

/-- A saved crew's parked stores behind a rejected request are discarded, and a fault is owed (R210). -/
def Context.discard (x : Context) (id : Nat) : Context :=
  let gone := x.replay.filter fun r => r.request == some id
  let firsts := gone.foldl (fun l r => if l.any fun q : Replay => q.bun == r.bun && q.vpage == r.vpage then l else l ++ [r]) []
  let crew := firsts.foldl (fun (c : Crew) r => match c.bundle? r.bun with
    | some b => c.setBundle (b.owe r.lanes r.pc false r.seq)
    | none => c) x.crew
  { x with crew := crew, replay := x.replay.filter fun r => r.request != some id }

/-- The firmware Ladles that wait for a rejected request. -/
def State.rejectFirmware (s : State) (id : Nat) : State :=
  { s with host := { s.host with ports := s.host.ports.map fun p => if p.fwReqs.contains id then { p with fwRejected := true } else p } }

/-- A request is rejected: waiting loads will trap, parked stores are discarded, copies stop (R208, R210, R262). -/
def State.rejectRequest (s : State) (q : PageReq) : State :=
  let s := s.dropRequest q.id
  let s := { s with crews := s.crews.map fun c : Crew => { c with bundles := c.bundles.map fun b : Bundle => b.reject q.id q.vpage } }
  let s := (s.rejectCopies q.id q.vpage).rejectFirmware q.id
  let s := { s with disp := { s.disp with contexts := s.disp.contexts.map fun x : Context => x.discard q.id } }
  (List.range s.cores.length).foldl (fun s n =>
    if (s.core n).replay.isEmpty then s else s.discardParked n (fun r => r.request == some q.id) false) s

/-- The outstanding request of a port with an id. -/
def State.requestOf (s : State) (port id : Nat) : Option PageReq := s.mem.pageReqs.find? fun q => q.id == id && q.host == port

/-- FAULTACK with resolve: Ebandyan invalidates the page's translations (R207, R385). -/
def State.ackResolve (s : State) (port id : Nat) : State :=
  match s.requestOf port id with
  | none => s
  | some q => let t := s.dropRequest id; { t with mem := t.mem.tlbInv q.host q.root (q.vpage * 8192) }.freeParked id

/-- FAULTACK with reject (R385) -/
def State.ackReject (s : State) (port id : Nat) : State :=
  match s.requestOf port id with
  | none => s
  | some q => s.rejectRequest q

/-- FAULTACK_RESOLVE -/
def execFaultackResolve (port id : Nat) (s : State) : Host.Outcome State Fault Refusal :=
  .next (if s.host.bring == .ready then s.ackResolve port id else s)

/-- FAULTACK_REJECT -/
def execFaultackReject (port id : Nat) (s : State) : Host.Outcome State Fault Refusal :=
  .next (if s.host.bring == .ready then s.ackReject port id else s)

/-- FAULT_TIMEOUT: a request unanswered within the blob's fault timeout is rejected (R385). -/
def execFaultTimeout (id : Nat) (s : State) : Host.Outcome State Fault Refusal :=
  match s.mem.pageReqs.find? fun q => q.id == id with
  | none => .next s
  | some q => .next (if q.time + s.host.blob.faultTimeoutNs ≤ s.ns then s.rejectRequest q else s)

/-! ## The debugger (R373) -/

/-- A debugger is attached to a cast. -/
def State.debugged (s : State) (castId : Nat) : Bool := s.host.debuggers.any fun d => d.castId == castId

/-- DEBUG_ATTACH -/
def execDebugAttach (castId : Nat) (causes : BitVec 32) (s : State) : Host.Outcome State Fault Refusal :=
  match s.cast? castId with
  | none => .next s
  | some a =>
    if a.done then .next s
    else
      let rest := s.host.debuggers.filter fun d => d.castId != castId
      .next { s with host := { s.host with debuggers := rest ++ [{ castId := castId, causes := causes }] } }

/-- DEBUG_DETACH: BREAK and the selected causes enter the handler again; a slot already halted stays halted. -/
def execDebugDetach (castId : Nat) (s : State) : Host.Outcome State Fault Refusal :=
  .next { s with host := { s.host with debuggers := s.host.debuggers.filter fun d => d.castId != castId } }

/-- The sub-bundle waits for others: for strands of its slot, crew or gang, or for a producer cast. -/
def SubB.awaits (x : SubB) : Bool :=
  match x.park with
  | .join | .bar _ | .gbar | .wait => true
  | .reform _ _ => true
  | _ => false

/-- A slot halted by its debugger at an instruction boundary, with cause BREAK and TRAPINFO [8] (R358, R373); a current sub-bundle parked at a
`join`, `reform`, `bar`, `gbar` or `wait` stays parked, and TRAPMASK is then 0 (log entry 14). `pair` tells of a sub-bundle that the instruction at
its PC is the first of a pair. -/
def Bundle.debugStop (b : Bundle) (clock : Nat) (pair : SubB → Bool) : Bundle :=
  let h := b.halt
  match b.subs with
  | [] => h
  | y :: _ =>
    let x := if y.park == .marker then y.pastPair clock else y
    if x.awaits then
      ({ h with subs := SubB.start 0 x.pc clock :: h.subs }.enterTrap clock 19 256 x.pc 0 0 false 0 0).debugHalted
    else (h.enterTrap clock 19 256 x.pc 0 (x.mask &&& b.live) (pair x) x.rep x.cst).debugHalted

/-- DEBUG_HALT_REQUEST: the slot halts at an instruction boundary as at a pre-emption, its trap registers set; a slot in trap mode halts with the
trap registers it has (R367, log entry 14). -/
def execDebugHaltRequest (crew bun : Nat) (s : State) : Host.Outcome State Fault Refusal :=
  match s.bundle? crew bun with
  | none => .next s
  | some (c, b) =>
    if !s.debugged c.castId || b.halted || b.subs.isEmpty then .next s
    else if b.trap.isSome then .next (s.setBundle c { b.halt with halted := true })
    else .next (s.setBundle c (b.debugStop s.coreClock (s.atPair c.core c.region)))

/-- Write one register of a halted slot, by operand code (R30) or by the number of a trap register (R88). -/
def Bundle.edit (b : Bundle) (clock : Nat) (e : RegEdit) : Bundle :=
  match e with
  | .operand code lane value =>
    if code < 640 then
      if code < b.v.length then
        b.storeV clock { name := code, mask := 1#32 <<< lane, vals := List.replicate W (value.setWidth 32), full := none }
      else b
    else if code < 768 then { b with s := b.s.setIfInBounds (code - 640) value }
    else if 864 ≤ code ∧ code < 880 then
      b.storeP { name := code - 864, mask := 1#32 <<< lane, vals := if value.getLsbD 0 then BitVec.allOnes 32 else 0 }
    else if 880 ≤ code ∧ code < 888 then { b with k := b.k.setIfInBounds (code - 880) value }
    else b
  | .special code value =>
    let t := fun g : TrapSt → TrapSt => { b with trap := b.trap.map g }
    match code with
    | 13 => { b with flags := value.setWidth 5 }
    | 14 => { b with fmask := value.setWidth 32 }
    | 19 => { b with repCount := value.toNat % 2 ^ 64 }
    | 20 => { b with cstDone := value.toNat % 2 ^ 64 }
    | 22 => t fun t => { t with cause := value.toNat % 2 ^ 64 }
    | 23 => t fun t => { t with pc := value.setWidth 64 }
    | 24 => t fun t => { t with mask := value.setWidth 32 }
    | 25 => t fun t => { t with info := value }
    | _ => b

/-- DEBUG_RESUME: once the slot's pending results are written, the registers the debugger wrote are in place and the slot goes on with the
effect of a `tret` form; one halted while its handler ran goes on in trap mode (R367). -/
def execDebugResume (crew bun : Nat) (edits : List RegEdit) (form : TretForm) (s : State) : Host.Outcome State Fault Refusal :=
  match s.bundle? crew bun with
  | none => .next s
  | some (c, b) =>
    match b.trap with
    | none => .next s
    | some t =>
      if !b.halted || !s.debugged c.castId || !b.drained then .next s
      else
        let done := b.completeEntry s.step s.coreClock (s.castOf c).fpinv
        let b' := edits.foldl (fun d e => d.edit s.coreClock e) { done with halted := false }
        let s' := s.setBundle c b'
        .next (if t.debug then (s'.trapReturn crew bun form).progress crew else s')

end Sys2Proof.Machine
end

