-- ==== Sys2Proof/Machine/Sha3.lean ====
section
/-! DEFINITION. SHA3-256 of a 64-byte message, as far as the journal's DIGEST needs it (R386): one block of Keccak-f[1600] (log entry 13). -/

namespace Sys2Proof.Machine

/-- Lane (x, y) of a Keccak state, kept as 25 lanes at x + 5y. -/
def lane64 (l : List (BitVec 64)) (x y : Nat) : BitVec 64 := l.getD (x % 5 + 5 * (y % 5)) 0

/-- Rotation offsets of the lanes. -/
def keccakRot : List Nat := [0, 1, 62, 28, 27, 36, 44, 6, 55, 20, 3, 10, 43, 25, 39, 41, 45, 15, 21, 8, 18, 2, 61, 56, 14]

/-- Round constants. -/
def keccakConst : List (BitVec 64) :=
  [0x1#64, 0x8082#64, 0x800000000000808A#64, 0x8000000080008000#64, 0x808B#64, 0x80000001#64, 0x8000000080008081#64,
   0x8000000000008009#64, 0x8A#64, 0x88#64, 0x80008009#64, 0x8000000A#64, 0x8000808B#64, 0x800000000000008B#64, 0x8000000000008089#64,
   0x8000000000008003#64, 0x8000000000008002#64, 0x8000000000000080#64, 0x800A#64, 0x800000008000000A#64, 0x8000000080008081#64,
   0x8000000000008080#64, 0x80000001#64, 0x8000000080008008#64]

/-- One round. -/
def keccakRound (l : List (BitVec 64)) (rc : BitVec 64) : List (BitVec 64) :=
  let col := (List.range 5).map fun x => lane64 l x 0 ^^^ lane64 l x 1 ^^^ lane64 l x 2 ^^^ lane64 l x 3 ^^^ lane64 l x 4
  let d := (List.range 5).map fun x => col.getD ((x + 4) % 5) 0 ^^^ (col.getD ((x + 1) % 5) 0).rotateLeft 1
  let a := (List.range 25).map fun i => (l.getD i 0 ^^^ d.getD (i % 5) 0).rotateLeft (keccakRot.getD i 0)
  -- lane (x, y) moves to (y, 2x + 3y); here for each target (u, v) its source is ((u + 3v), u)
  let b := (List.range 25).map fun i => lane64 a (i % 5 + 3 * (i / 5)) (i % 5)
  let c := (List.range 25).map fun i => lane64 b (i % 5) (i / 5) ^^^ (~~~(lane64 b (i % 5 + 1) (i / 5)) &&& lane64 b (i % 5 + 2) (i / 5))
  c.set 0 (c.getD 0 0 ^^^ rc)

/-- The first 64 bits of SHA3-256 over eight 64-bit words. -/
def sha3First (w : List (BitVec 64)) : BitVec 64 :=
  let block := (w.take 8 ++ [0x06#64] ++ List.replicate 7 0 ++ [0x8000000000000000#64]) ++ List.replicate 8 0
  (keccakConst.foldl keccakRound block).getD 0 0

end Sys2Proof.Machine
end

