-- ==== Sys2Proof/Machine/Commands.lean ====
section
/-! DEFINITION. The ports' registers and command queues (R379, R380, R387), the journal (R386), the start of commands (R382), and the
commands of R381 but for REGION and RESET_REGION. -/

namespace Sys2Proof.Machine

/-! ## Queues (R380) -/

/-- A port. -/
def State.port (s : State) (n : Nat) : Port := s.host.ports.getD n Port.init
/-- Replace a port. -/
def State.setPort (s : State) (n : Nat) (p : Port) : State := { s with host := { s.host with ports := s.host.ports.set n p } }
/-- A queue of a port. -/
def Port.queue (p : Port) (q : Nat) : CmdQueue := p.queues.getD q CmdQueue.init
/-- Replace a queue. -/
def State.setQueue (s : State) (port q : Nat) (c : CmdQueue) : State :=
  let p := s.port port
  s.setPort port { p with queues := p.queues.set q c }

/-- Word i of a command. -/
def JEntry.word (e : JEntry) (i : Nat) : DWord := e.cmd.getD i 0
/-- The region a command acts for. -/
def JEntry.region (e : JEntry) : Nat := bitsOf (e.word 0) 63 52

/-- A region lies in a host's subtree (R339). -/
def State.inHost (s : State) (host region : Nat) : Bool := (s.region? region).isSome && s.inSubtree 8 region (host + 1)

/-- The words of a region control block set a reserved bit (R340). -/
def blockReserved (w : Nat → DWord) : Bool :=
  bitsOf (w 0) 29 0 != 0 || bitsOf (w 1) 63 46 != 0 || bitsOf (w 1) 7 0 != 0 || bitsOf (w 2) 63 48 != 0 || bitsOf (w 3) 63 49 != 0 ||
  bitsOf (w 3) 31 14 != 0

/-- A REGION command names no operation or sets a reserved bit, of its argument or of the block that a create or modify gives (log entry 84). -/
def regionBad (cmd : List DWord) : Bool :=
  let op := bitsOf (cmd.getD 1 0) 1 0
  op == 3 || bitsOf (cmd.getD 1 0) 51 2 != 0 || (op != 2 && blockReserved fun i => cmd.getD (2 + i) 0)

/-- Why a command fails at acceptance: its CODE, 0 when it does not (R381). -/
def State.refuseCode (s : State) (port : Nat) (cmd : List DWord) : Nat :=
  let w := cmd.getD 0 0
  let kind := bitsOf w 7 0
  if kind = 0 ∨ 8 < kind then 1
  else if bitsOf w 51 16 != 0 || bitsOf w 14 8 != 0 || (kind == 2 && regionBad cmd) then 2
  else if !s.inHost port (bitsOf w 63 52) then 6 else 0

/-- Entries the journal's memory ring keeps (R386). -/
def journalKept : Nat := 524288

/-- Accept the entry at QHEAD: its journal entry, then QHEAD moves on. -/
def State.acceptOne (s : State) (port q : Nat) : State :=
  let c := (s.port port).queue q
  let bytes := (s.mem.host.getD port []).read (c.base.toNat + 64 * c.head) 64
  let cmd := (List.range 8).map fun i => BitVec.ofNat 64 (leNat ((bytes.drop (8 * i)).take 8))
  let code := s.refuseCode port cmd
  let e : JEntry := { seq := s.host.nextSeq, digest := sha3First cmd, host := port, queue := q, kind := bitsOf (cmd.getD 0 0) 7 0
                      st := if code = 0 then .accepted else .failed, code := code, value := 0, time := s.ns, cmd := cmd }
  let l := s.host.journal ++ [e]
  let s := { s with host := { s.host with journal := l.drop (l.length - journalKept), nextSeq := s.host.nextSeq + 1 } }
  s.setQueue port q { c with head := (c.head + 1) % c.size }

/-- Accept entries up to QTAIL. -/
def State.acceptAll (s : State) (port q : Nat) : Nat → State
  | 0 => s
  | n + 1 =>
    let c := (s.port port).queue q
    if c.head = c.tail ∨ !c.enable ∨ c.error then s else (s.acceptOne port q).acceptAll port q n

/-- A write of QTAIL: a value of QSIZE or more sets ERROR; cache-die columns that sleep begin to wake (R355, R380). -/
def State.tailWrite (s : State) (port q tail : Nat) : State :=
  let s := s.wake []
  let c := (s.port port).queue q
  if c.size ≤ tail then s.setQueue port q { c with error := true }
  else if !c.enable || c.error then s.setQueue port q { c with tail := tail }
  else (s.setQueue port q { c with tail := tail }).acceptAll port q c.size

/-- The registers answer: the BARs are enabled and the port and queue exist. -/
def State.barOn (s : State) (port : Nat) : Bool := s.host.bring == .ready && decide (port < s.host.ports.length)

/-- The host writes bytes of its own memory. -/
def State.hostWrites (s : State) (port : Nat) (l : List Host.Cell) : State :=
  { s with mem := { s.mem with host := s.mem.host.set port (l.foldl (fun m c => m.set c.1 c.2) (s.mem.host.getD port [])) } }

/-- QTAIL_WRITE: the entries the host has written, then QTAIL (R380). -/
def execQtailWrite (port queue tail : Nat) (writes : List Host.Cell) (s : State) : Host.Outcome State Fault Refusal :=
  let s := s.hostWrites port writes
  .next (if s.barOn port && decide (queue < 64) then s.tailWrite port queue tail else s)

/-- Enable a queue that is not enabled. -/
def State.enableQueue (s : State) (port q : Nat) : State :=
  let c := (s.port port).queue q
  if c.enable then s else s.setQueue port q { c with head := 0, error := false, enable := true }

/-- QCTL_ENABLE -/
def execQctlEnable (port queue : Nat) (s : State) : Host.Outcome State Fault Refusal :=
  .next (if s.barOn port && decide (queue < 64) then s.enableQueue port queue else s)

/-- ABORT: ACCEPTED commands of the queue become FAILED with ABORTED, a cast among them never starts, ENABLE is cleared (R387). -/
def State.abortQueue (s : State) (port q : Nat) : State :=
  let gone := (s.host.journal.filter fun e => e.host == port && e.queue == q && e.st == .accepted).map (·.seq)
  let s := gone.foldl (fun s n => s.journalTo n .failed 7 none) s
  let s := { s with casts := s.casts.map fun a : Cast => if gone.contains a.seq then { a with done := true } else a }
  s.setQueue port q { ((s.port port).queue q) with enable := false }

/-- QCTL_ABORT -/
def execQctlAbort (port queue : Nat) (s : State) : Host.Outcome State Fault Refusal :=
  .next (if s.barOn port && decide (queue < 64) then s.abortQueue port queue else s)

/-- The fault ring is set up anew: records are written from now on (R385). -/
def State.setFaultRing (s : State) (port : Nat) (base : DWord) (size : Nat) : State :=
  s.setPort port { (s.port port) with faultBase := base, faultSize := size, faultNext := 0, faultPhase := true, faultOpen := true }

/-- FAULTBASE_WRITE (R385) -/
def execFaultbaseWrite (port base size : Nat) (s : State) : Host.Outcome State Fault Refusal :=
  .next (if s.barOn port then s.setFaultRing port (BitVec.ofNat 64 base) size else s)

/-- A write to a queue's registers at an offset within its 32 bytes. -/
def State.queueRegister (s : State) (port q offset bytes : Nat) (value : DWord) : State :=
  let c := (s.port port).queue q
  match offset with
  | 0 => if c.enable then s else s.setQueue port q { c with base :=
      if bytes = 8 then value else (c.base &&& 0xFFFFFFFF00000000#64) ||| (value.setWidth 32).setWidth 64 }
  | 4 => if c.enable || bytes != 4 then s
      else s.setQueue port q { c with base := (c.base.setWidth 32).setWidth 64 ||| ((value.setWidth 32).setWidth 64 <<< 32) }
  | 8 => if c.enable then s else s.setQueue port q { c with size := value.toNat % 2 ^ 32 }
  | 12 => s.tailWrite port q (value.toNat % 2 ^ 32)
  | 20 =>
    if value.getLsbD 1 then s.abortQueue port q
    else if value.getLsbD 0 then s.enableQueue port q else s.setQueue port q { c with enable := false }
  | _ => s

/-- A write to the recovery mailbox at an offset in it: its status word, or bytes of the image that begins at offset 8 (log entry 82). -/
def State.mailboxWrite (s : State) (port offset bytes : Nat) (value : DWord) : State :=
  let p := s.port port
  if offset = 0 then s.setPort port { p with mailboxStatus := value.setWidth 32 }
  else if offset < 8 then s
  else
    let i := offset - 8
    let l := p.mailbox ++ List.replicate (i + bytes - p.mailbox.length) 0
    s.setPort port { p with mailbox := l.take i ++ leBytes bytes value.toNat ++ l.drop (i + bytes) }

/-- REGISTER_WRITE: a host write to a BAR0 register; reserved and read-only offsets ignore it (R379). The recovery mailbox is also reached while
the firmware image is awaited (R392). -/
def execRegisterWrite (port offset bytes : Nat) (value : DWord) (s : State) : Host.Outcome State Fault Refusal :=
  if 0x400000 ≤ offset ∧ offset < 0x800000 then
    .next (if (s.host.bring == .recovery && decide (port < s.host.ports.length)) || s.barOn port then s.mailboxWrite port (offset - 0x400000) bytes value else s)
  else if !s.barOn port then .next s
  else if 0x1000 ≤ offset ∧ offset < 0x1800 then .next (s.queueRegister port ((offset - 0x1000) / 32) (offset % 32) bytes value)
  else if offset = 0x3000 then .next (s.setFaultRing port value (s.port port).faultSize)
  else if offset = 0x3008 then .next (s.setPort port { (s.port port) with faultSize := value.toNat % 2 ^ 32 })
  else if offset = 0x3010 ∧ bytes = 8 then
    .next (if value.getLsbD 32 then s.ackResolve port (value.toNat % 2 ^ 32) else s.ackReject port (value.toNat % 2 ^ 32))
  else .next s

/-! ## Starting commands (R382) -/

/-- A journal entry. -/
def State.jentry? (s : State) (seq : Nat) : Option JEntry := s.host.journal.find? fun e => e.seq == seq

/-- DONE or FAILED. -/
def JEntry.over (e : JEntry) : Bool := e.st == .done || e.st == .failed

/-- A command may start: every earlier one of its queue has started, no WAITSIGNAL before it is outstanding, and under SERIAL all are over. -/
def State.mayStart (s : State) (e : JEntry) : Bool :=
  let before := s.host.journal.filter fun d => d.host == e.host && d.queue == e.queue && decide (d.seq < e.seq)
  e.st == .accepted && before.all (fun d => d.st != .accepted) && before.all (fun d => d.kind != 6 || d.over) &&
  (!bitOf (e.word 0) 15 || before.all JEntry.over)

/-- The entry of a command of a kind that may start; the cache die is awake (R355). -/
def State.starting (s : State) (seq kind : Nat) : Option JEntry :=
  match s.jentry? seq with
  | none => none
  | some e => if e.kind == kind && s.mayStart e && s.cacheAwake then some e else none

/-- A host's commands have written or read lines of these write times: what they release next comes after them (R219, R381). -/
def Port.after (p : Port) (ts : List Nat) : Port := { p with lt := ts.foldl max p.lt }

/-- Write 8 bytes at a virtual address of a region as a release at system scope of what the host's commands have written or read: an address that
is not a multiple of 8, absent, not writable or in a lost window fails. -/
def State.signalWrite (s : State) (host region va : Nat) (v : DWord) : Option State :=
  let rh := s.rootHost region
  let s := s.recallTables rh.2 rh.1 [va]
  if va % 8 != 0 then none
  else
    match physFor s.mem s.step rh.2 rh.1 pteW va, writeVirt s.mem s.step rh.2 rh.1 va (leBytes 8 v.toNat) with
    | some p, some m =>
      if s.lostAt p then none
      else
        let line := lineOf (s.mem.place p)
        let m := m.releaseTime line (s.port host).lt
        some ({ s with mem := m }.setPort host ((s.port host).after [(m.timeOf line).wt]))
    | _, _ => none

/-- SIGNAL -/
def execSignal (seq : Nat) (s : State) : Host.Outcome State Fault Refusal :=
  match s.starting seq 5 with
  | none => .next s
  | some e =>
    match s.signalWrite e.host e.region (e.word 1).toNat (e.word 2) with
    | some t => .next (t.journalTo seq .done 0 none)
    | none => .next (s.journalTo seq .failed 3 none)

/-- WAITSIGNAL looks at its n64: DONE when it has reached the value, FAILED when it cannot be read, else what `wait` says. The read recalls
update-only lines (R241), and it is an acquire for the host's later commands. -/
def State.signalLook (s : State) (e : JEntry) (wait : State → State) : State :=
  let rh := s.rootHost e.region
  match (if (e.word 1).toNat % 8 != 0 then none else s.homeReadVirt rh.2 rh.1 (e.word 1).toNat 8) with
  | none => s.journalTo e.seq .failed 3 none
  | some (s, bs) =>
    let t := match physFor s.mem s.step rh.2 rh.1 pteR (e.word 1).toNat with
      | some p => (s.mem.timeOf (lineOf (s.mem.place p))).wt
      | none => 0
    let s := s.setPort e.host ((s.port e.host).after [t])
    if (e.word 2).toNat ≤ leNat bs then s.journalTo e.seq .done 0 none else wait s

/-- WAITSIGNAL starts; it is DONE at once when the value is there. -/
def execWaitsignal (seq : Nat) (s : State) : Host.Outcome State Fault Refusal :=
  match s.starting seq 6 with
  | none => .next s
  | some e =>
    .next (s.signalLook e fun s => s.journalTo seq .started 0 none)

/-- WAITSIGNAL_SATISFIED: a started WAITSIGNAL finds its value. -/
def execWaitsignalSatisfied (seq : Nat) (s : State) : Host.Outcome State Fault Refusal :=
  match s.jentry? seq with
  | none => .next s
  | some e =>
    if e.kind != 6 || e.st != .started then .next s
    else .next (s.signalLook e id)

/-- The 32 bytes of a journal entry (R386). -/
def JEntry.bytes (e : JEntry) : List Byte :=
  let st := match e.st with
    | .accepted => 1
    | .started => 2
    | .done => 3
    | .failed => 4
  let w2 := e.host % 2 * 2 ^ 63 + e.queue % 64 * 2 ^ 56 + e.kind % 256 * 2 ^ 48 + st * 2 ^ 44 + e.code % 4096 * 2 ^ 32 + e.value.toNat
  leBytes 8 e.seq ++ leBytes 8 e.digest.toNat ++ leBytes 8 w2 ++ leBytes 8 e.time

/-- JOURNALREAD: the host's own entries of a range are copied, the others zeroed. -/
def execJournalread (seq : Nat) (s : State) : Host.Outcome State Fault Refusal :=
  match s.starting seq 7 with
  | none => .next s
  | some e =>
    let first := (e.word 1).toNat
    let n := (e.word 2).toNat
    if n = 0 ∨ 65536 < n then .next (s.journalTo seq .failed 2 none)
    else
      let s := s.journalTo seq .started 0 none
      let rh := s.rootHost e.region
      let entry := fun i => match s.jentry? (first + i) with
        | some d => if d.host == e.host then d.bytes else List.replicate 32 0
        | none => List.replicate 32 0
      let dst := (e.word 3).toNat
      let s := s.recallTables rh.2 rh.1 ((linesOf dst (32 * n)).map fun a => max a dst)
      match writeVirt s.mem s.step rh.2 rh.1 dst ((List.range n).map entry).flatten, spanPhys s.mem s.step rh.2 rh.1 pteW dst (32 * n) with
      | some m, some l =>
        if l.any s.lostAt then .next (s.journalTo seq .failed 3 none)
        else
          let lines := (l.map fun a => lineOf (s.mem.place a)).eraseDups
          let m := lines.foldl (fun m a => m.releaseTime a 0) m
          .next (({ s with mem := m }.setPort e.host ((s.port e.host).after (lines.map fun a => (m.timeOf a).wt))).journalTo seq .done 0 none)
      | _, _ => .next (s.journalTo seq .failed 3 none)

/-! ## The firmware Ladle (R384) -/

/-- FILL and COPY join their host's queue of the firmware Ladle. -/
def State.startLadle (s : State) (e : JEntry) (bad : Bool) : State :=
  if bad then s.journalTo e.seq .failed 2 none
  else
    let p := s.port e.host
    (s.journalTo e.seq .started 0 none).setPort e.host { p with fw := p.fw ++ [e.seq] }

/-- FILL -/
def execFill (seq : Nat) (s : State) : Host.Outcome State Fault Refusal :=
  match s.starting seq 3 with
  | none => .next s
  | some e => .next (s.startLadle e ((e.word 2).toNat % 8 != 0))

/-- COPY -/
def execCopy (seq : Nat) (s : State) : Host.Outcome State Fault Refusal :=
  match s.starting seq 4 with
  | none => .next s
  | some e => .next (s.startLadle e false)

/-- Part i of [a, a + n) cut at 128-byte lines: address and bytes. -/
def linePart (a n i : Nat) : Nat × Nat :=
  let lo := max a (lineOf a + 128 * i)
  (lo, min (a + n) (lineOf a + 128 * (i + 1)) - lo)

/-- A range cut at 128-byte lines. -/
def lineParts (a n : Nat) : List (Nat × Nat) := (List.range (linesOf a n).length).map (linePart a n)

/-- What a line of a command comes to. -/
inductive LineRes where
  | done (s : State)
  | wait (s : State) (ids : List Nat)
  | fail (s : State) (code : Nat)

/-- A stop's detail as a command's CODE. -/
def ladleCode (detail : Nat) : Nat := if detail = 10 then 4 else 3

/-- Move line i of a FILL or COPY command: translated and checked as an engine's access, read, written (R384). -/
def State.ladleLine (s : State) (e : JEntry) (i : Nat) : LineRes :=
  let isFill := e.kind == 3
  let dst := if isFill then (e.word 1).toNat else (e.word 2).toNat
  let n := if isFill then (e.word 2).toNat else (e.word 3).toNat
  let (a, len) := linePart dst n i
  let src := (e.word 1).toNat + (a - dst)
  let rd := if isFill then [] else lineParts src len
  let host := (s.rootHost e.region).2
  let demand := match s.region? e.region with
    | some r => r.demand
    | none => false
  let done := fun s : State => (s.acted (.ladle e.host false)).acted (.ladle e.host true)
  match s.engineAccess (.ladle e.host false) demand e.region false rd with
  | .wait s ids => .wait s ids
  | .stop s d _ => .fail (done s) (ladleCode d)
  | .ok s l =>
    match s.engineMeets (.firmware e.host) false l with
    | some (d, _) => .fail (done s) (ladleCode d)
    | none =>
      match s.engineAccess (.ladle e.host true) demand e.region true [(a, len)] with
      | .wait s ids => .wait s ids
      | .stop s d _ => .fail (done s) (ladleCode d)
      | .ok s w =>
        let s := done s
        let whole := unitsCovered (w.map fun t => (t.2.2.2, t.2.1))
        let hurt := w.any fun t => s.mem.poison.any fun u =>
          decide (u < t.2.2.2 + t.2.1) && decide (t.2.2.2 < u + 64) && !whole.contains u
        match (if hurt then some (10, 0) else s.engineMeets (.firmware e.host) true w) with
        | some (d, _) => .fail s (ladleCode d)
        | none =>
          let (s, data) := s.engineRead host l
          let bytes := if isFill then (List.range len).map fun j => (leBytes 8 (e.word 3).toNat).getD ((a + j - dst) % 8) 0
            else data.from src len
          let m := w.foldl (fun m t => (m.write host t.2.2.2 bytes).releaseTime (lineOf t.2.2.2) 0) s.mem
          let p := (s.port e.host).after (w.map fun t => (m.timeOf (lineOf t.2.2.2)).wt)
          .done ({ s with mem := m }.setPort e.host { p with fwSectors := engineRecords (engineRecords p.fwSectors false l) true w })

/-- The Ladle of a port is done with a command. -/
def State.ladleEnd (s : State) (e : JEntry) (st : JState) (code : Nat) : State :=
  let p := s.port e.host
  (s.journalTo e.seq st code none).setPort e.host { p with fw := p.fw.tail, fwLine := 0, fwReqs := [], fwRejected := false, fwSectors := [] }

/-- Move lines of a command from the first not yet moved, until one waits or fails. -/
def State.ladleRun (s : State) (e : JEntry) : Nat → Nat → State × Bool
  | _, 0 => (s, true)
  | i, k + 1 =>
    match s.ladleLine e i with
    | .done s => s.ladleRun e (i + 1) k
    | .wait s ids => (s.setPort e.host { (s.port e.host) with fwLine := i, fwReqs := ids }, false)
    | .fail s code => (s.ladleEnd e .failed code, false)

/-- FIRMWARE_LADLE_COMPLETE: the running command of a port moves its remaining lines, and when the last is moved it is DONE and its bytes are
counted; while a page request is outstanding it waits, and a rejected one makes it FAILED (R384). -/
def execFirmwareLadleComplete (port : Nat) (s : State) : Host.Outcome State Fault Refusal :=
  let p := s.port port
  match p.fw with
  | [] => .next s
  | seq :: _ =>
    match s.jentry? seq with
    | none => .next s
    | some e =>
      if p.fwRejected then .next (s.ladleEnd e .failed 3)
      else if p.fwReqs.any s.outstanding then .next s
      else
        let isFill := e.kind == 3
        let dst := if isFill then (e.word 1).toNat else (e.word 2).toNat
        let n := if isFill then (e.word 2).toNat else (e.word 3).toNat
        let (s, all) := s.ladleRun e p.fwLine ((linesOf dst n).length - p.fwLine)
        if !all then .next s
        else
          let s := match s.region? e.region with
            | none => s
            | some r => s.setRegion { r with ldcnt := r.ldcnt + BitVec.ofNat 64 (if isFill then n else 2 * n) }
          .next (s.ladleEnd e .done 0)

/-! ## CAST (R345, R346) -/

/-- The limits of a declared ring break (R186, R189). -/
def ringBad (w : DWord) : Bool :=
  match ringOf w 0 with
  | none => false
  | some r => decide (r.stages < 2) || r.size == 0 || r.dist == 0 || decide (r.stages ≤ r.dist) || r.parr == 0 || r.carr == 0 ||
      (r.spawn && (r.dist != 1 || r.carr != 1))

/-- A cast descriptor breaks a limit of R346 that its own words show; `ovc` of its region. -/
def Cast.bad (a : Cast) (ovc : Nat) : Bool :=
  let w := a.word
  let pool := w 3
  let slots := a.launch + a.spawnStages
  let spawns := (a.rings.filter fun r => match r with
    | some r => r.spawn
    | none => false).length
  let ringBytes := (a.rings.map fun r => match r with
    | some r => r.stages * r.size
    | none => 0).sum
  let gang := a.gang.1 * a.gang.2
  bitsOf (w 0) 63 48 != 0 || bitsOf (w 1) 11 0 != 0 || bitsOf (w 2) 63 54 != 0 || bitsOf (w 2) 2 0 != 0 || bitsOf pool 63 40 != 0 ||
  bitsOf (w 4) 63 16 != 0 || bitsOf (w 4) 4 0 != 0 || bitsOf (w 7) 13 0 != 0 || bitsOf (w 8) 13 0 != 0 || bitsOf (w 9) 63 48 != 0 ||
  bitsOf (w 10) 63 48 != 0 || bitsOf (w 11) 63 48 != 0 || bitsOf (w 12) 63 48 != 0 || a.done? % 64 != 0 ||
  bitsOf (w 13) 63 24 != 0 || bitsOf (w 13) 15 14 != 0 || bitsOf (w 13) 7 6 != 0 || w 14 != 0 || w 15 != 0 ||
  a.kind == 3 || a.place == 3 || decide (4 < bitsOf (w 4) 7 5) || decide (1024 < a.strands) || decide (32 < slots) ||
  decide (24 < gang) || decide (a.launch ≤ a.producer) || decide (64 < a.wbg) || a.vpos % 4 != 0 || decide (32 < a.na) || decide (32 < a.nam) ||
  decide (64 < poolCost pool) || ringBad (w 7) || ringBad (w 8) || decide (1 < spawns) || decide (49152 * poolRing pool < ringBytes) ||
  decide (384 * poolRegs pool * (16 + ovc) / 16 < slots * a.base) ||
  (gang != 1 && (a.place != 1 || a.gridCrews % gang != 0)) || (a.place == 2 && a.kind != 2) ||
  (a.kind == 2 && (a.gridCrews != 1 || bitsOf (w 2) 53 44 + 1 != W || bitsOf (w 2) 43 24 != 0 || decide (a.base < 8 + a.nam))) ||
  (a.kind == 1 && (bitsOf (w 11) 47 0 == 0 || decide (a.base ≤ a.vpos + 3 + a.na))) ||
  (a.kind != 1 && (a.vpos != 0 || a.na != 0)) || (a.kind != 2 && a.nam != 0)

/-- Words at a virtual address of a region, when readable, read at their homes (R241). -/
def State.wordsAt (s : State) (region va n : Nat) : Option (State × List DWord) :=
  let rh := s.rootHost region
  (s.homeReadVirt rh.2 rh.1 va (8 * n)).map fun r => (r.1, (List.range n).map fun i => BitVec.ofNat 64 (leNat ((r.2.drop (8 * i)).take 8)))

/-- The surface a descriptor names, listed when it is not yet; its fields are read now (R303). `none` when it cannot be read or breaks a limit. -/
def State.nameSurface (s : State) (region desc : Nat) : Option (State × Nat) :=
  if desc % 64 != 0 then none
  else
    match s.wordsAt region desc 8 with
    | none => none
    | some (s, l) =>
      if surfBad l then none
      else
        let d := SurfDesc.read l
        match s.surfaceOf region desc with
        | some n =>
          match s.surface? n with
          | some f => some (s.setSurface n { f with d := d, region := region }, n)
          | none => none
        | none =>
          some ({ s with vis := { s.vis with surfaces := s.vis.surfaces ++ [{ desc := desc, region := region, d := d, tiles := [] }] } },
            s.vis.surfaces.length)

/-- A tile of a surface is HELD, or an earlier pipeline cast of the surface that may leave some HELD is incomplete (R303, R315). -/
def State.surfaceHeld (s : State) (castId : Nat) (n : Option Nat) : Bool :=
  match n with
  | none => false
  | some n => match s.surface? n with
    | none => false
    | some f => f.tiles.any (fun t => t.st == .held) ||
      (f.d.retain && s.casts.any fun b => b.kind == 1 && b.surf == some n && !b.done && decide (b.castId < castId))

/-- CAST: the descriptor is read and checked; the cast is accepted under the next identifier, or its entry is FAILED. A pipeline cast whose
surface holds a HELD tile, or will when an earlier cast of it ends, keeps its entry ACCEPTED until its first crew starts (R315). -/
def execCast (seq : Nat) (s : State) : Host.Outcome State Fault Refusal :=
  match s.starting seq 1 with
  | none => .next s
  | some e =>
    let va := (e.word 1).toNat
    let fail := Host.Outcome.next (s.journalTo seq .failed 2 none)
    if s.casts.any (fun a => a.seq == seq) then .next s
    else
      match (if va % 64 != 0 then none else s.wordsAt e.region va 16) with
      | none => fail
      | some (s, desc) =>
        let a : Cast :=
          { castId := s.disp.nextCast, host := e.host, region := e.region, seq := seq, descVa := va, desc := desc
            consts := Vector.replicate 32 0, surf := none, nextCrew := 0, admitted := 0, retired := 0, mcrews := 0, flags := 0, fmask := 0
            off := 0, dropped := 0, prodFail := false, geomEnded := false, done := false, killed := none, trigged := [], trigLT := 0 }
        let const := bitsOf (a.word 10) 47 0
        let surfd := bitsOf (a.word 11) 47 0
        let depsOk := a.deps.all fun d => s.casts.any fun b => b.castId == d && b.host == e.host
        if a.bad (s.ovcOf e.region) || !depsOk then fail
        else
          match (if const = 0 then some (s, a.consts) else (s.wordsAt e.region const 32).map fun r => (r.1, Vector.ofFn fun i => r.2.getD i 0)) with
          | none => fail
          | some (s, consts) =>
            match (if surfd = 0 then some (s, none) else (s.nameSurface e.region surfd).map fun r => (r.1, some r.2)) with
            | none => fail
            | some (s, surf) =>
              let prodFail := a.deps.any fun d => s.casts.any fun b => b.castId == d && b.killed.isSome
              let a := { a with consts := consts, surf := surf, prodFail := prodFail }
              let s := { s with casts := s.casts ++ [a], disp := { s.disp with nextCast := s.disp.nextCast + 1 } }
              let st := if a.kind == 1 && s.surfaceHeld a.castId surf then JState.accepted else .started
              .next (s.journalTo seq st 0 (some (BitVec.ofNat 32 a.castId)))

end Sys2Proof.Machine
end

