-- ==== Sys2Proof/Machine/Regions.lean ====
section
/-! DEFINITION. The region tree and the REGION and RESET_REGION commands (R339 to R343, R381), bring-up (R392), the Nelaig links (R388, R389)
and the retirement of vertical buses (R364, R365). -/

namespace Sys2Proof.Machine

/-! ## Regions (R340, R341) -/

/-- A region before its fields are set. -/
def Region.blank (num parent depth host : Nat) : Region :=
  { num := num, parent := parent, depth := depth, host := host, priority := 0, faultdom := false, demand := false, ovc := 0, ovr := 0, root := 0
    rootUsed := 0, handler := 0, ctxb := 0, granb := 0, poolcnt := 0, instcnt := 0, mxcnt := 0, ldcnt := 0, fcnt := List.replicate 8 0
    killCast := 0, killCause := 0, kills := 0 }

/-- The command fields of a control block's words 0 to 3. -/
def Region.given (r : Region) (w : Nat → DWord) : Region :=
  { r with
    priority := bitsOf (w 0) 47 44, faultdom := bitOf (w 0) 43, demand := bitOf (w 0) 42, ovc := bitsOf (w 0) 41 37
    ovr := BitVec.ofNat 7 (bitsOf (w 0) 36 30), root := bitsOf (w 1) 45 8 * 256, handler := BitVec.ofNat 64 (bitsOf (w 2) 47 0)
    ctxb := bitsOf (w 3) 48 32, granb := bitsOf (w 3) 13 0 }

/-- A field whose OVR bit is clear is the parent's; FAULTDOM is 1 in regions 0 to 2 (R341). -/
def Region.inherit (r p : Region) : Region :=
  let own := fun i => r.ovr.getLsbD i
  { r with
    host := if r.num ≤ 2 then r.host else p.host
    depth := p.depth + 1
    priority := if own 6 then r.priority else p.priority
    faultdom := if r.num ≤ 2 then true else if own 5 then r.faultdom else p.faultdom
    demand := if own 4 then r.demand else p.demand
    ovc := if own 3 then r.ovc else p.ovc
    root := if own 2 then r.root else p.root
    handler := if own 1 then r.handler else p.handler
    ctxb := if own 0 then r.ctxb else p.ctxb
    granb := if own 0 then r.granb else p.granb }

/-- Inherited fields go down one level of the tree. -/
def State.inheritOnce (s : State) : State :=
  { s with regions := s.regions.map fun r : Region => if r.num = 0 then r else match s.region? r.parent with
      | some p => r.inherit p
      | none => r }

/-- Inherited fields go down the whole tree (8 levels). -/
def State.inheritAll (s : State) : State := (List.range 8).foldl (fun s _ => s.inheritOnce) s

/-- A block's words set a reserved bit or a field beyond its limit (R340). -/
def blockBad (w : Nat → DWord) : Bool :=
  blockReserved w || decide (16 < bitsOf (w 0) 41 37) || decide (98304 < bitsOf (w 3) 48 32) || decide (8192 < bitsOf (w 3) 13 0)

/-- The block words of a REGION command. -/
def JEntry.block (e : JEntry) (i : Nat) : DWord := e.word (2 + i)
/-- Target of a REGION command. -/
def JEntry.target (e : JEntry) : Nat := bitsOf (e.word 1) 63 52

/-- A REGION command ends: DONE with the region number, or FAILED with a code. -/
def State.regionEnds (s : State) (seq code num : Nat) : State :=
  if code = 0 then s.journalTo seq .done 0 (some (BitVec.ofNat 32 num)) else s.journalTo seq .failed code none

/-- The entry of a REGION command with an operation that may start. -/
def State.regionStarting (s : State) (seq op : Nat) : Option JEntry :=
  match s.starting seq 2 with
  | none => none
  | some e => if bitsOf (e.word 1) 1 0 == op then some e else none

/-- REGION create: under the number given, or with target 0 under the lowest free one (log entry 15). -/
def execRegionCreate (seq : Nat) (s : State) : Host.Outcome State Fault Refusal :=
  match s.regionStarting seq 0 with
  | none => .next s
  | some e =>
    let parent := bitsOf (e.block 0) 63 52
    let free := (List.range 4096).find? fun n => 3 ≤ n && (s.region? n).isNone
    let num := if e.target = 0 then free.getD 4096 else e.target
    match s.region? parent with
    | none => .next (s.regionEnds seq 6 0)
    | some p =>
      if !s.inHost e.host parent then .next (s.regionEnds seq 6 0)
      else if blockBad e.block || decide (7 ≤ p.depth) || decide (4096 ≤ num) || decide (num < 3) || (s.region? num).isSome then
        .next (s.regionEnds seq 2 0)
      else
        let r := ((Region.blank num parent (p.depth + 1) p.host).given e.block).inherit p
        .next ({ s with regions := s.regions ++ [{ r with rootUsed := r.root }] }.regionEnds seq 0 num)

/-- REGION modify: the fields named by OVR are set, the others are the parent's, and both go down the tree (R341). -/
def execRegionModify (seq : Nat) (s : State) : Host.Outcome State Fault Refusal :=
  match s.regionStarting seq 1 with
  | none => .next s
  | some e =>
    let parent := bitsOf (e.block 0) 63 52
    match s.region? e.target, s.region? parent with
    | some r, some p =>
      if !s.inHost e.host r.num then .next (s.regionEnds seq 6 0)
      else if r.num ≤ 2 then
        if parent != 0 || blockBad e.block then .next (s.regionEnds seq 2 0)
        else .next (((s.setRegion ((r.given e.block).inherit p)).inheritAll).regionEnds seq 0 r.num)
      else if !s.inHost e.host parent then .next (s.regionEnds seq 6 0)
      else if blockBad e.block || s.inSubtree 8 parent r.num then .next (s.regionEnds seq 2 0)
      else
        let t := (s.setRegion { (r.given e.block) with parent := parent }).inheritAll
        if t.regions.any fun d => decide (7 < d.depth) then .next (s.regionEnds seq 2 0) else .next (t.regionEnds seq 0 r.num)
    | _, _ => .next (s.regionEnds seq 6 0)

/-- Kill every cast of a subtree, with no cause code (R343). -/
def State.killSubtree (s : State) (top : Nat) : State :=
  ((s.casts.filter fun a => !a.done && s.inSubtree 8 a.region top).map (·.castId)).foldl (fun s id => s.killCast id 0) s

/-- REGION destroy: the subtree's casts are killed and its regions go. -/
def execRegionDestroy (seq : Nat) (s : State) : Host.Outcome State Fault Refusal :=
  match s.regionStarting seq 2 with
  | none => .next s
  | some e =>
    if e.target ≤ 2 || !s.inHost e.host e.target then .next (s.regionEnds seq 6 0)
    else
      let t := s.killSubtree e.target
      .next ({ t with regions := t.regions.filter fun r => !s.inSubtree 8 r.num e.target }.regionEnds seq 0 e.target)

/-- The counters of a region are zeroed. -/
def Region.zeroed (r : Region) : Region :=
  { r with poolcnt := 0, instcnt := 0, mxcnt := 0, ldcnt := 0, fcnt := List.replicate 8 0 }

/-- RESET_REGION: the subtree's casts are killed with their saved contexts, its counters are zeroed. -/
def execResetRegion (seq : Nat) (s : State) : Host.Outcome State Fault Refusal :=
  match s.starting seq 8 with
  | none => .next s
  | some e =>
    let top := (e.word 1).toNat
    if !s.inHost e.host top then .next (s.journalTo seq .failed 6 none)
    else
      let t := s.killSubtree top
      .next ({ t with regions := t.regions.map fun r : Region => if s.inSubtree 8 r.num top then r.zeroed else r }.journalTo seq .done 0 none)

/-! ## Bring-up (R392) -/

/-- Regions 0 to 2 from the blob (R339). -/
def rootRegions (b : Blob) : List Region :=
  let w := fun n i => (b.roots.getD n []).getD i 0
  let r0 := (Region.blank 0 0 0 0).given (w 0)
  let r0 := { r0 with faultdom := true, rootUsed := r0.root }
  let host := fun n => let r := ((Region.blank n 0 1 (n - 1)).given (w n)).inherit r0; { r with rootUsed := r.root }
  [r0, host 1, host 2]

/-- Bring-up after the firmware image: with the configuration blob's fields regions 0 to 2 exist and the BARs are enabled (R392, steps 3 to 5). -/
def State.bringUp (s : State) : State :=
  { s with regions := rootRegions s.host.blob, host := { s.host with bring := .ready } }

/-- DEVICE_RESET: firmware and blob are verified, regions 0 to 2 exist, the BARs are enabled, the journal is empty; a firmware image that fails
leaves the recovery mailbox waiting. The hosts' own memories stay. -/
def execDeviceReset (verified : Bool) (blob : Blob) (s : State) : Host.Outcome State Fault Refusal :=
  let r := { State.reset with agenda := s.agenda, step := s.step, mem := { MemSys.init with host := s.mem.host, device := blob.deviceNumber } }
  let r := { r with host := { r.host with blob := blob } }
  if verified then .next r.bringUp
  else .next { r with host := { r.host with bring := .recovery, ports := r.host.ports.map fun p => { p with mailboxStatus := 1 } } }

/-- RECOVERY_IMAGE_SUBMIT: an image in the mailbox, its status 2; the boot code verifies it, and bring-up goes on with the blob, or it waits
again. -/
def execRecoveryImageSubmit (port : Nat) (image : List Byte) (verified : Bool) (s : State) : Host.Outcome State Fault Refusal :=
  if s.host.bring != .recovery then .next s
  else
    let p := s.port port
    let t := s.setPort port { p with mailbox := image, mailboxStatus := if verified then 2 else 1 }
    .next (if verified then t.bringUp else t)

/-! ## Links (R388, R389) -/

/-- A line of a peer's home leaves this device: what the home holds from then on is not this device's to know, so its bytes are free. -/
def MemSys.dropPeer (m : MemSys) (step line : Nat) : MemSys :=
  if m.window.contains line then
    { m with
      window := m.window.filter (· != line)
      peerMem := m.peerMem.write line ((List.range 128).map fun i => BitVec.ofNat 8 (Config.freeNat step 13 (line + i))) }
  else m

/-- LINK_DOWN: sharers reached only through the link are lost, the window's lines held here are invalidated, accesses to it trap from now on. -/
def execLinkDown (link : Nat) (s : State) : Host.Outcome State Fault Refusal :=
  let lost := fun p => s.host.blob.peerLinks.getD p 0 == link
  let m := s.mem.window.foldl (fun m l => m.dropPeer s.step l) s.mem
  .next { s with
    mem := { m with sharers := m.sharers.map fun e => (e.1, e.2.filter fun p => !lost p) }
    host := { s.host with
      linksDown := if s.host.linksDown.contains link then s.host.linksDown else s.host.linksDown ++ [link]
      windowLost := true } }

/-- LINK_REJOIN: the link is back; with no link down the device is in the window again (R389). -/
def execLinkRejoin (link : Nat) (s : State) : Host.Outcome State Fault Refusal :=
  if !s.host.linksDown.contains link then .next s
  else
    let down := s.host.linksDown.filter (· != link)
    .next { s with host := { s.host with linksDown := down, windowLost := !down.isEmpty, notes := s.host.notes ++ [.rejoined link] } }

/-- SHARER_INVALIDATION: this device drops its copy of a line (R388). -/
def execSharerInvalidation (line : Nat) (s : State) : Host.Outcome State Fault Refusal := .next { s with mem := s.mem.dropPeer s.step line }

/-! ## Vertical buses (R364, R365) -/

/-- Slots of a live bank for n slots of what lay in another, nearest first; both banks carry the traffic, once their columns are ready
(R355). Slots that hold nothing move without. -/
def State.moveSlots (s : State) (old n : Nat) (data : Bool := true) : Option (State × Nat × List Nat) :=
  match s.bankFor old n with
  | none => none
  | some bank =>
    if !data then (s.takeSlots bank n).map fun e => (e.1, bank, e.2)
    else if !s.bankAwake bank || !s.bankAwake old then none
    else (s.takeSlots bank n).map fun e => ((e.1.bankTraffic bank).bankTraffic old, bank, e.2)

/-- The sleeping columns of a bank and of those that take what still lies in it: they are woken for the move (R355, R364). -/
def State.moveColumns (s : State) (bank : Nat) : List Nat :=
  let ns := (s.disp.contexts.filter fun x => x.bank == bank).map (fun x => x.slots.length) ++
    (s.crews.filter fun c => c.spillBank == bank && !c.spillSlots.isEmpty).map (fun c => c.spillSlots.length) ++ [1]
  ((bank % 16 :: (ns.filterMap (s.bankFor bank)).map (· % 16)).dedup).filter s.disp.asleep.contains

/-- Move the saved contexts of a bank; one for which no other bank has room stays. -/
def State.moveContexts (s : State) (bank : Nat) : State :=
  (s.disp.contexts.filter fun x => x.bank == bank).foldl (fun s x => match s.moveSlots bank x.slots.length with
    | none => s
    | some e => { e.1 with disp := { e.1.disp with contexts := e.1.disp.contexts.map fun y : Context =>
        if y.id == x.id then { y with bank := e.2.1, slots := e.2.2 } else y } }) s

/-- Move the trap areas of bundles that lie in a bank. -/
def State.moveAreas (s : State) (bank : Nat) (l : List Bundle) : State × List Bundle :=
  l.foldl (fun acc b => match b.area with
    | none => (acc.1, acc.2 ++ [b])
    | some a =>
      if a.bank != bank then (acc.1, acc.2 ++ [b])
      else match acc.1.moveSlots bank 1 with
        | none => (acc.1, acc.2 ++ [b])
        | some e => (e.1, acc.2 ++ [{ b with area := some { a with bank := e.2.1, ctxSlot := e.2.2.headD 0 } }])) (s, [])

/-- Move the spill reserves and trap areas of the resident crews. -/
def State.moveReserves (s : State) (bank : Nat) (data : Bool := true) : State :=
  s.crews.foldl (fun s c =>
    let (s, c) : State × Crew := match (if c.spillBank == bank && !c.spillSlots.isEmpty then s.moveSlots bank c.spillSlots.length data else none) with
      | none => (s, c)
      | some e => (e.1, { c with spillBank := e.2.1, spillSlots := e.2.2 })
    let e := s.moveAreas bank c.bundles
    e.1.setCrew { c with bundles := e.2 }) s

/-- Move the trap areas of saved crews. -/
def State.moveSavedAreas (s : State) (bank : Nat) : State :=
  s.disp.contexts.foldl (fun s x =>
    let e := s.moveAreas bank x.crew.bundles
    { e.1 with disp := { e.1.disp with contexts := e.1.disp.contexts.map fun y : Context =>
        if y.id == x.id then { y with crew := { y.crew with bundles := e.2 } } else y } }) s

/-- A bank takes nothing any more. -/
def State.closeBank (s : State) (bank : Nat) : State :=
  { s with disp := { s.disp with
      retiredBanks := if s.disp.retiredBanks.contains bank then s.disp.retiredBanks else s.disp.retiredBanks ++ [bank] } }

/-- The slots of a closed bank are no longer in use; their numbers are invalid. -/
def State.clearBank (s : State) (bank : Nat) : State :=
  { s with disp := { s.disp with ctxUsed := s.disp.ctxUsed.filter fun e => e.1 != bank } }

/-- Something still lies in a bank: a saved context, a spill reserve, a trap area. -/
def State.bankHolds (s : State) (bank : Nat) : Bool :=
  let areas := fun c : Crew => c.bundles.any fun b => match b.area with
    | some a => a.bank == bank
    | none => false
  s.disp.contexts.any (fun x => x.bank == bank || areas x.crew) ||
  s.crews.any fun c => (c.spillBank == bank && !c.spillSlots.isEmpty) || areas c

/-- The counters in the error window of BAR0. -/
def errorCounters : Nat := 131072

/-- A structure corrects an error: its counter rises (R390). -/
def State.countError (s : State) (n : Nat) : State :=
  if errorCounters ≤ n then s
  else
    let l := s.host.errors ++ List.replicate (n + 1 - s.host.errors.length) 0
    { s with host := { s.host with errors := l.set n (l.getD n 0 + 1) } }

/-- A check fails on the way of a unit: it is poisoned, in memory or in an area of a crew's scratchpad (R390). -/
def State.mismatchAt (s : State) (crew : Option (Nat × Area)) (unit : Nat) : State :=
  let u := unit / 64 * 64
  match crew with
  | none => if s.mem.poison.contains u then s else { s with mem := { s.mem with poison := s.mem.poison ++ [u] } }
  | some (cid, area) => match s.crew? cid with
    | some c => if c.poison.contains (area, u) then s else s.setCrew { c with poison := c.poison ++ [(area, u)] }
    | none => s

/-- The corrected-error count of a bank's vertical bus has passed the blob's threshold (R364). -/
def HostSide.vbusPast (h : HostSide) (bank : Nat) : Bool := decide (h.blob.vbusThreshold < (h.errors.getD bank 0).toNat)

/-- VBUS_PLANNED_RETIRE: once the bus's corrected errors have passed the threshold the bank takes nothing any more, what lies in it moves to other
live banks, and once all of it has moved the bus is retired; what finds no room moves when the event comes again (R364). -/
def execVbusPlannedRetire (bank : Nat) (s : State) : Host.Outcome State Fault Refusal :=
  if Config.nCores ≤ bank ∨ s.host.notes.contains (.planned bank) ∨ s.host.notes.contains (.forced bank) ∨ s.host.vbusPast bank = false then .next s
  else
    let t := (((s.closeBank bank).moveContexts bank).moveReserves bank).moveSavedAreas bank
    if t.bankHolds bank then .next (if (t.moveColumns bank).isEmpty then t else t.wake (t.moveColumns bank))
    else
      let t := t.clearBank bank
      .next { t with host := { t.host with notes := t.host.notes ++ [.planned bank] } }

/-- A crew has a trap area in a bank. -/
def Crew.areaIn (c : Crew) (bank : Nat) : Bool := c.bundles.any fun b => match b.area with
  | some a => a.bank == bank
  | none => false

/-- A resident crew has state in its spill reserve: spilled rows of registers or of bin records. -/
def State.spilledIn (s : State) (c : Crew) (bank : Nat) : Bool :=
  c.spillBank == bank && !c.spillSlots.isEmpty &&
  (c.bundles.any (fun b => b.v.any (·.spilled)) || (s.crewBins c).any fun x => decide (0 < x.spilled))

/-- The casts that lose state with a bank. -/
def State.castsIn (s : State) (bank : Nat) : List Nat :=
  ((s.disp.contexts.filter fun x => x.bank == bank || x.crew.areaIn bank).map (fun x => x.crew.castId) ++
    (s.crews.filter fun c => s.spilledIn c bank || c.areaIn bank).map (·.castId)).dedup

/-- VBUS_FORCED_RETIRE: what lay in the bank is lost; casts with state there are killed with CONTEXT_LOST, each counted once in class 6; empty
reserves move (R344, R365). -/
def execVbusForcedRetire (bank : Nat) (s : State) : Host.Outcome State Fault Refusal :=
  let t := s.closeBank bank
  let t := (s.castsIn bank).foldl (fun s id => match s.cast? id with
    | some a => (s.countFault a.region 6 1).killCast id 20
    | none => s) t
  let t := t.moveReserves bank false
  let t := { t with crews := t.crews.map fun c : Crew => if c.spillBank == bank then { c with spillSlots := [] } else c }
  let t := t.clearBank bank
  let cols := (((t.crews.filter fun c => !c.spillSlots.isEmpty).map fun c => c.spillBank % 16).dedup).filter t.disp.asleep.contains
  let t := if cols.isEmpty then t else t.wake cols
  .next { t with host := { t.host with notes := t.host.notes ++ [.forced bank] } }

end Sys2Proof.Machine
end

