-- ==== Sys2Proof/Machine/Dispatch.lean ====
section
/-! DEFINITION. The dispatch: one arm per constructor of Instr. -/

namespace Sys2Proof.Machine

/-- Carry out an instruction or an event. -/
def exec (i : Instr) (s : State) : Host.Outcome State Fault Refusal :=
  match i with
  | .nop f => Sys2Proof.Machine.execNop f s
  | .bra f => Sys2Proof.Machine.execBra f s
  | .brx f => Sys2Proof.Machine.execBrx f s
  | .call f => Sys2Proof.Machine.execCall f s
  | .callx f => Sys2Proof.Machine.execCallx f s
  | .ret f => Sys2Proof.Machine.execRet f s
  | .join f => Sys2Proof.Machine.execJoin f s
  | .reform f => Sys2Proof.Machine.execReform f s
  | .exit f => Sys2Proof.Machine.execExit f s
  | .bar f => Sys2Proof.Machine.execBar f s
  | .gbar f => Sys2Proof.Machine.execGbar f s
  | .wait f => Sys2Proof.Machine.execWait f s
  | .trig f => Sys2Proof.Machine.execTrig f s
  | .yield f => Sys2Proof.Machine.execYield f s
  | .sleep f => Sys2Proof.Machine.execSleep f s
  | .trap f => Sys2Proof.Machine.execTrap f s
  | .tret f => Sys2Proof.Machine.execTret f s
  | .brk f => Sys2Proof.Machine.execBrk f s
  | .rep f => Sys2Proof.Machine.execRep f s
  | .mov f => Sys2Proof.Machine.execMov f s
  | .movi f => Sys2Proof.Machine.execMovi f s
  | .sel f => Sys2Proof.Machine.execSel f s
  | .sreg f => Sys2Proof.Machine.execSreg f s
  | .sset f => Sys2Proof.Machine.execSset f s
  | .tag f => Sys2Proof.Machine.execTag f s
  | .expand f => Sys2Proof.Machine.execExpand f s
  | .xacq f => Sys2Proof.Machine.execXacq f s
  | .xrel f => Sys2Proof.Machine.execXrel f s
  | .tsave f => Sys2Proof.Machine.execTsave f s
  | .tload f => Sys2Proof.Machine.execTload f s
  | .pbool f => Sys2Proof.Machine.execPbool f s
  | .pmov f => Sys2Proof.Machine.execPmov f s
  | .fclr f => Sys2Proof.Machine.execFclr f s
  | .add f => Sys2Proof.Machine.execAdd f s
  | .sub f => Sys2Proof.Machine.execSub f s
  | .addc f => Sys2Proof.Machine.execAddc f s
  | .subb f => Sys2Proof.Machine.execSubb f s
  | .mul f => Sys2Proof.Machine.execMul f s
  | .mulh f => Sys2Proof.Machine.execMulh f s
  | .mad f => Sys2Proof.Machine.execMad f s
  | .madw f => Sys2Proof.Machine.execMadw f s
  | .min f => Sys2Proof.Machine.execMin f s
  | .max f => Sys2Proof.Machine.execMax f s
  | .and f => Sys2Proof.Machine.execAnd f s
  | .or f => Sys2Proof.Machine.execOr f s
  | .xor f => Sys2Proof.Machine.execXor f s
  | .andn f => Sys2Proof.Machine.execAndn f s
  | .shl f => Sys2Proof.Machine.execShl f s
  | .shr f => Sys2Proof.Machine.execShr f s
  | .sar f => Sys2Proof.Machine.execSar f s
  | .rot f => Sys2Proof.Machine.execRot f s
  | .bfe f => Sys2Proof.Machine.execBfe f s
  | .bfi f => Sys2Proof.Machine.execBfi f s
  | .popc f => Sys2Proof.Machine.execPopc f s
  | .clz f => Sys2Proof.Machine.execClz f s
  | .ctz f => Sys2Proof.Machine.execCtz f s
  | .brev f => Sys2Proof.Machine.execBrev f s
  | .cmp f => Sys2Proof.Machine.execCmp f s
  | .lea f => Sys2Proof.Machine.execLea f s
  | .dp4 f => Sys2Proof.Machine.execDp4 f s
  | .dp2 f => Sys2Proof.Machine.execDp2 f s
  | .sadd f => Sys2Proof.Machine.execSadd f s
  | .ssub f => Sys2Proof.Machine.execSsub f s
  | .prmt f => Sys2Proof.Machine.execPrmt f s
  | .fadd f => Sys2Proof.Machine.execFadd f s
  | .fmul f => Sys2Proof.Machine.execFmul f s
  | .ffma f => Sys2Proof.Machine.execFfma f s
  | .fmin f => Sys2Proof.Machine.execFmin f s
  | .fmax f => Sys2Proof.Machine.execFmax f s
  | .fcmp f => Sys2Proof.Machine.execFcmp f s
  | .fclass f => Sys2Proof.Machine.execFclass f s
  | .frnd f => Sys2Proof.Machine.execFrnd f s
  | .fdot2 f => Sys2Proof.Machine.execFdot2 f s
  | .fscale f => Sys2Proof.Machine.execFscale f s
  | .fexp f => Sys2Proof.Machine.execFexp f s
  | .cvt f => Sys2Proof.Machine.execCvt f s
  | .cvtp f => Sys2Proof.Machine.execCvtp f s
  | .quant f => Sys2Proof.Machine.execQuant f s
  | .rcp f => Sys2Proof.Machine.execRcp f s
  | .rsq f => Sys2Proof.Machine.execRsq f s
  | .sqrt f => Sys2Proof.Machine.execSqrt f s
  | .lg2 f => Sys2Proof.Machine.execLg2 f s
  | .ex2 f => Sys2Proof.Machine.execEx2 f s
  | .sinp f => Sys2Proof.Machine.execSinp f s
  | .cosp f => Sys2Proof.Machine.execCosp f s
  | .tanh f => Sys2Proof.Machine.execTanh f s
  | .shfl f => Sys2Proof.Machine.execShfl f s
  | .shfr f => Sys2Proof.Machine.execShfr f s
  | .vote f => Sys2Proof.Machine.execVote f s
  | .ballot f => Sys2Proof.Machine.execBallot f s
  | .matchLanes f => Sys2Proof.Machine.execMatchLanes f s
  | .lred f => Sys2Proof.Machine.execLred f s
  | .lscan f => Sys2Proof.Machine.execLscan f s
  | .qswap f => Sys2Proof.Machine.execQswap f s
  | .ddx f => Sys2Proof.Machine.execDdx f s
  | .ddy f => Sys2Proof.Machine.execDdy f s
  | .lds f => Sys2Proof.Machine.execLds f s
  | .sts f => Sys2Proof.Machine.execSts f s
  | .atoms f => Sys2Proof.Machine.execAtoms f s
  | .stbar f => Sys2Proof.Machine.execStbar f s
  | .ringq f => Sys2Proof.Machine.execRingq f s
  | .ld f => Sys2Proof.Machine.execLd f s
  | .st f => Sys2Proof.Machine.execSt f s
  | .cst f => Sys2Proof.Machine.execCst f s
  | .xld f => Sys2Proof.Machine.execXld f s
  | .pref f => Sys2Proof.Machine.execPref f s
  | .fence f => Sys2Proof.Machine.execFence f s
  | .mwait f => Sys2Proof.Machine.execMwait f s
  | .cctl f => Sys2Proof.Machine.execCctl f s
  | .atom f => Sys2Proof.Machine.execAtom f s
  | .red f => Sys2Proof.Machine.execRed f s
  | .xsadd f => Sys2Proof.Machine.execXsadd f s
  | .xsrd f => Sys2Proof.Machine.execXsrd f s
  | .xsclr f => Sys2Proof.Machine.execXsclr f s
  | .lcopy f => Sys2Proof.Machine.execLcopy f s
  | .lput f => Sys2Proof.Machine.execLput f s
  | .lcode f => Sys2Proof.Machine.execLcode f s
  | .qfence f => Sys2Proof.Machine.execQfence f s
  | .qstat f => Sys2Proof.Machine.execQstat f s
  | .mma f => Sys2Proof.Machine.execMma f s
  | .mwld f => Sys2Proof.Machine.execMwld f s
  | .mst f => Sys2Proof.Machine.execMst f s
  | .mzero f => Sys2Proof.Machine.execMzero f s
  | .astat f => Sys2Proof.Machine.execAstat f s
  | .ard f => Sys2Proof.Machine.execArd f s
  | .vemit f => Sys2Proof.Machine.execVemit f s
  | .pemit f => Sys2Proof.Machine.execPemit f s
  | .mcommit f => Sys2Proof.Machine.execMcommit f s
  | .ixbox f => Sys2Proof.Machine.execIxbox f s
  | .ixtri f => Sys2Proof.Machine.execIxtri f s
  | .hitbin f => Sys2Proof.Machine.execHitbin f s
  | .vtrel f => Sys2Proof.Machine.execVtrel f s
  | .vtld f => Sys2Proof.Machine.execVtld f s
  | .lineRefetch crew bun => Sys2Proof.Machine.execLineRefetch crew bun s
  | .longResultWrite crew bun pend => Sys2Proof.Machine.execLongResultWrite crew bun pend s
  | .markerComplete crew bun => Sys2Proof.Machine.execMarkerComplete crew bun s
  | .turnInstructionLimit crew bun => Sys2Proof.Machine.execTurnInstructionLimit crew bun s
  | .stallTimeout crew bun => Sys2Proof.Machine.execStallTimeout crew bun s
  | .stallReissue crew bun => Sys2Proof.Machine.execStallReissue crew bun s
  | .reformBinTimeout core bin => Sys2Proof.Machine.execReformBinTimeout core bin s
  | .reformBinDraw crew => Sys2Proof.Machine.execReformBinDraw crew s
  | .crewWatchdog crew => Sys2Proof.Machine.execCrewWatchdog crew s
  | .xacqWatchdog crew bun => Sys2Proof.Machine.execXacqWatchdog crew bun s
  | .gangWatchdog crew => Sys2Proof.Machine.execGangWatchdog crew s
  | .sleepWake crew bun sub => Sys2Proof.Machine.execSleepWake crew bun sub s
  | .waitRelease crew bun => Sys2Proof.Machine.execWaitRelease crew bun s
  | .gbarComplete crew => Sys2Proof.Machine.execGbarComplete crew s
  | .rowSpill crew bun => Sys2Proof.Machine.execRowSpill crew bun s
  | .producerArrivalComplete crew arrival => Sys2Proof.Machine.execProducerArrivalComplete crew arrival s
  | .pageWalkComplete walk => Sys2Proof.Machine.execPageWalkComplete walk s
  | .parkedStoreDrain core root vpage => Sys2Proof.Machine.execParkedStoreDrain core root vpage s
  | .sliceRequest req => Sys2Proof.Machine.execSliceRequest req s
  | .memoryFill line bad => Sys2Proof.Machine.execMemoryFill line bad s
  | .requestRetry req => Sys2Proof.Machine.execRequestRetry req s
  | .reservationLapse line => Sys2Proof.Machine.execReservationLapse line s
  | .updateLineMerge core line => Sys2Proof.Machine.execUpdateLineMerge core line s
  | .ltIdleTick core => Sys2Proof.Machine.execLtIdleTick core s
  | .noonMark replyMesh => Sys2Proof.Machine.execNoonMark replyMesh s
  | .copyUnitPerform core entry => Sys2Proof.Machine.execCopyUnitPerform core entry s
  | .copyComplete core entry => Sys2Proof.Machine.execCopyComplete core entry s
  | .codebookFill core entry => Sys2Proof.Machine.execCodebookFill core entry s
  | .qfenceComplete core entry => Sys2Proof.Machine.execQfenceComplete core entry s
  | .taskStart core engine => Sys2Proof.Machine.execTaskStart core engine s
  | .taskComplete core engine => Sys2Proof.Machine.execTaskComplete core engine s
  | .meshletRaster meshlet => Sys2Proof.Machine.execMeshletRaster meshlet s
  | .geometryEnd castId => Sys2Proof.Machine.execGeometryEnd castId s
  | .riddleSieve unit surf tile => Sys2Proof.Machine.execRiddleSieve unit surf tile s
  | .riddleBinTimeout unit bin => Sys2Proof.Machine.execRiddleBinTimeout unit bin s
  | .riddleBinLaunch unit bin => Sys2Proof.Machine.execRiddleBinLaunch unit bin s
  | .runnerFill crew => Sys2Proof.Machine.execRunnerFill crew s
  | .dispatchPlace => Sys2Proof.Machine.execDispatchPlace s
  | .candidateBlock cand => Sys2Proof.Machine.execCandidateBlock cand s
  | .startRampWindow => Sys2Proof.Machine.execStartRampWindow s
  | .columnSleep column => Sys2Proof.Machine.execColumnSleep column s
  | .columnWake column => Sys2Proof.Machine.execColumnWake column s
  | .crewRetire crew => Sys2Proof.Machine.execCrewRetire crew s
  | .castComplete castId => Sys2Proof.Machine.execCastComplete castId s
  | .preemptRequest => Sys2Proof.Machine.execPreemptRequest s
  | .contextSave crew => Sys2Proof.Machine.execContextSave crew s
  | .contextResume ctx => Sys2Proof.Machine.execContextResume ctx s
  | .counterFlush core => Sys2Proof.Machine.execCounterFlush core s
  | .trapEntry crew bun => Sys2Proof.Machine.execTrapEntry crew bun s
  | .debugAttach castId causes => Sys2Proof.Machine.execDebugAttach castId causes s
  | .debugHaltRequest crew bun => Sys2Proof.Machine.execDebugHaltRequest crew bun s
  | .debugResume crew bun edits form => Sys2Proof.Machine.execDebugResume crew bun edits form s
  | .qtailWrite port queue tail writes => Sys2Proof.Machine.execQtailWrite port queue tail writes s
  | .qctlEnable port queue => Sys2Proof.Machine.execQctlEnable port queue s
  | .qctlAbort port queue => Sys2Proof.Machine.execQctlAbort port queue s
  | .faultbaseWrite port base size => Sys2Proof.Machine.execFaultbaseWrite port base size s
  | .faultackResolve port id => Sys2Proof.Machine.execFaultackResolve port id s
  | .faultackReject port id => Sys2Proof.Machine.execFaultackReject port id s
  | .faultTimeout id => Sys2Proof.Machine.execFaultTimeout id s
  | .registerWrite port offset bytes value => Sys2Proof.Machine.execRegisterWrite port offset bytes value s
  | .recoveryImageSubmit port image verified => Sys2Proof.Machine.execRecoveryImageSubmit port image verified s
  | .cast seq => Sys2Proof.Machine.execCast seq s
  | .regionCreate seq => Sys2Proof.Machine.execRegionCreate seq s
  | .regionModify seq => Sys2Proof.Machine.execRegionModify seq s
  | .regionDestroy seq => Sys2Proof.Machine.execRegionDestroy seq s
  | .fill seq => Sys2Proof.Machine.execFill seq s
  | .copy seq => Sys2Proof.Machine.execCopy seq s
  | .signal seq => Sys2Proof.Machine.execSignal seq s
  | .waitsignal seq => Sys2Proof.Machine.execWaitsignal seq s
  | .journalread seq => Sys2Proof.Machine.execJournalread seq s
  | .resetRegion seq => Sys2Proof.Machine.execResetRegion seq s
  | .deviceReset verified blob => Sys2Proof.Machine.execDeviceReset verified blob s
  | .linkDown link => Sys2Proof.Machine.execLinkDown link s
  | .linkRejoin link => Sys2Proof.Machine.execLinkRejoin link s
  | .vbusPlannedRetire bank => Sys2Proof.Machine.execVbusPlannedRetire bank s
  | .vbusForcedRetire bank => Sys2Proof.Machine.execVbusForcedRetire bank s
  | .lineFetchArrival crew bun => Sys2Proof.Machine.execLineFetchArrival crew bun s
  | .firmwareLadleComplete port => Sys2Proof.Machine.execFirmwareLadleComplete port s
  | .waitsignalSatisfied seq => Sys2Proof.Machine.execWaitsignalSatisfied seq s
  | .debugDetach castId => Sys2Proof.Machine.execDebugDetach castId s
  | .sharerInvalidation line => Sys2Proof.Machine.execSharerInvalidation line s

end Sys2Proof.Machine
end

