-- ==== Sys2Proof/Machine/Step.lean ====
section
/-! DEFINITION. One step of the device: the head of the agenda happens (log entry 1). -/

namespace Sys2Proof.Machine

/-- Carry out what a fetch gave. -/
def runFetched (f : Fetched) : Host.Outcome State Fault Refusal :=
  match f with
  | .run s i => exec i s
  | .idle s => .next s

/-- One act of the agenda. An event is carried out with no issuing bundle; an instruction of R41 is no event. -/
def act (a : Act) (s : State) : Host.Outcome State Fault Refusal :=
  match a with
  | .tick n => .next (s.pass n)
  | .issue core part => runFetched (s.issue core part)
  | .issueSlot core slot => runFetched (s.issueSlot core slot)
  | .corrected n => .next (s.countError n)
  | .mismatch crew unit => .next (s.mismatchAt crew unit)
  | .event i => if fmtOf i == .event then exec i { s with cur := none } else .next s

/-- The next step: the step counter rises, the agenda's head happens; with an empty agenda a tick of time passes. -/
def step (s : State) : Host.Outcome State Fault Refusal :=
  let s := { s with step := s.step + 1 }
  match s.agenda with
  | [] => .next (s.pass 1)
  | a :: rest => act a { s with agenda := rest }

/-- `s` with an instruction's bits (those above `nbits` zero) stored where the next step fetches: a crew on core 0 whose PC names the line
(log entry 1 says how a program comes to run from reset). -/
def State.withFetchWord (s : State) (nbits w : Nat) : State := s.placeSlot (w % 2 ^ nbits)

end Sys2Proof.Machine
end

