-- ==== Sys2Proof/Laws/Encode.lean ====
section
/-! SUPPORT. The slots of the six formats: a slot built from fields has those fields and that OPCODE, and a slot's fields build it again. -/

namespace Sys2Proof

/-- The low bits of a number, split at a place. -/
theorem low_split (x s l : Nat) : x % 2 ^ (s + l) = x / 2 ^ s % 2 ^ l * 2 ^ s + x % 2 ^ s := by
  rw [pow_add, Nat.mod_mul, Nat.mul_comm, Nat.add_comm]

/-- The number of two bit vectors side by side. -/
theorem toNat_side {v w : Nat} (x : BitVec v) (y : BitVec w) : (x ++ y).toNat = x.toNat * 2 ^ w + y.toNat := by
  rw [BitVec.toNat_append, ← Nat.shiftLeft_add_eq_or_of_lt y.isLt, Nat.shiftLeft_eq]

/-- The number of a field of a bit vector. -/
theorem toNat_field {n : Nat} (x : BitVec n) (s l : Nat) : (x.extractLsb' s l).toNat = x.toNat / 2 ^ s % 2 ^ l := by
  rw [BitVec.extractLsb'_toNat, Nat.shiftRight_eq_div_pow]

/-- The number a FmtA slot holds: each field at its place. -/
theorem FmtA.toNat_toBits (op : BitVec 9) (f : FmtA) :
    (f.toBits op).toNat = f.m.toNat * 2 ^ 95 + op.toNat * 2 ^ 86 + f.dst.toNat * 2 ^ 76 + f.opa.toNat * 2 ^ 66 + f.opb.toNat * 2 ^ 56 + f.opc.toNat * 2 ^ 46 + f.moda.toNat * 2 ^ 39 + f.modb.toNat * 2 ^ 32 + f.modc.toNat * 2 ^ 25 + f.ty.toNat * 2 ^ 21 + f.guard.toNat * 2 ^ 16 + f.dsub.toNat * 2 ^ 11 + f.round.toNat * 2 ^ 8 + f.func.toNat * 2 ^ 0 := by
  show BitVec.toNat (f.m ++ op ++ f.dst ++ f.opa ++ f.opb ++ f.opc ++ f.moda ++ f.modb ++ f.modc ++ f.ty ++ f.guard ++ f.dsub ++ f.round ++ f.func) = _
  simp only [toNat_side]
  omega

theorem FmtA.opcode_toBits (op : BitVec 9) (f : FmtA) : slotOpcode (f.toBits op) = op := by
  apply BitVec.eq_of_toNat_eq
  rw [slotOpcode, toNat_field, FmtA.toNat_toBits]
  have h_m := f.m.isLt
  have h_op := op.isLt
  have h_dst := f.dst.isLt
  have h_opa := f.opa.isLt
  have h_opb := f.opb.isLt
  have h_opc := f.opc.isLt
  have h_moda := f.moda.isLt
  have h_modb := f.modb.isLt
  have h_modc := f.modc.isLt
  have h_ty := f.ty.isLt
  have h_guard := f.guard.isLt
  have h_dsub := f.dsub.isLt
  have h_round := f.round.isLt
  have h_func := f.func.isLt
  omega

/-- A FmtA slot built from fields has those fields. -/
theorem FmtA.ofBits_toBits (op : BitVec 9) (f : FmtA) : FmtA.ofBits (f.toBits op) = f := by
  have e : ∀ g h : FmtA, g.m.toNat = h.m.toNat → g.dst.toNat = h.dst.toNat → g.opa.toNat = h.opa.toNat → g.opb.toNat = h.opb.toNat → g.opc.toNat = h.opc.toNat → g.moda.toNat = h.moda.toNat → g.modb.toNat = h.modb.toNat → g.modc.toNat = h.modc.toNat → g.ty.toNat = h.ty.toNat → g.guard.toNat = h.guard.toNat → g.dsub.toNat = h.dsub.toNat → g.round.toNat = h.round.toNat → g.func.toNat = h.func.toNat → g = h := by
    rintro ⟨⟩ ⟨⟩
    simp only [← BitVec.toNat_inj, FmtA.mk.injEq]
    tauto
  have h_m := f.m.isLt
  have h_op := op.isLt
  have h_dst := f.dst.isLt
  have h_opa := f.opa.isLt
  have h_opb := f.opb.isLt
  have h_opc := f.opc.isLt
  have h_moda := f.moda.isLt
  have h_modb := f.modb.isLt
  have h_modc := f.modc.isLt
  have h_ty := f.ty.isLt
  have h_guard := f.guard.isLt
  have h_dsub := f.dsub.isLt
  have h_round := f.round.isLt
  have h_func := f.func.isLt
  apply e <;> rw [FmtA.ofBits, toNat_field, FmtA.toNat_toBits] <;> omega

/-- The fields and the OPCODE of a slot build it again. -/
theorem FmtA.toBits_ofBits (w : BitVec 96) : (FmtA.ofBits w).toBits (slotOpcode w) = w := by
  apply BitVec.eq_of_toNat_eq
  rw [FmtA.toNat_toBits]
  simp only [FmtA.ofBits, slotOpcode, toNat_field]
  have hw := Nat.mod_eq_of_lt w.isLt
  have s_m := low_split w.toNat 95 1
  have s_op := low_split w.toNat 86 9
  have s_dst := low_split w.toNat 76 10
  have s_opa := low_split w.toNat 66 10
  have s_opb := low_split w.toNat 56 10
  have s_opc := low_split w.toNat 46 10
  have s_moda := low_split w.toNat 39 7
  have s_modb := low_split w.toNat 32 7
  have s_modc := low_split w.toNat 25 7
  have s_ty := low_split w.toNat 21 4
  have s_guard := low_split w.toNat 16 5
  have s_dsub := low_split w.toNat 11 5
  have s_round := low_split w.toNat 8 3
  have s_func := low_split w.toNat 0 8
  norm_num only at *
  generalize w.toNat / 39614081257132168796771975168 % 2 = mv at *
  generalize w.toNat / 77371252455336267181195264 % 512 = opv at *
  generalize w.toNat / 75557863725914323419136 % 1024 = dstv at *
  generalize w.toNat / 73786976294838206464 % 1024 = opav at *
  generalize w.toNat / 72057594037927936 % 1024 = opbv at *
  generalize w.toNat / 70368744177664 % 1024 = opcv at *
  generalize w.toNat / 549755813888 % 128 = modav at *
  generalize w.toNat / 4294967296 % 128 = modbv at *
  generalize w.toNat / 33554432 % 128 = modcv at *
  generalize w.toNat / 2097152 % 16 = tyv at *
  generalize w.toNat / 65536 % 32 = guardv at *
  generalize w.toNat / 2048 % 32 = dsubv at *
  generalize w.toNat / 256 % 8 = roundv at *
  omega

/-- The number a FmtI slot holds: each field at its place. -/
theorem FmtI.toNat_toBits (op : BitVec 9) (f : FmtI) :
    (f.toBits op).toNat = f.m.toNat * 2 ^ 95 + op.toNat * 2 ^ 86 + f.dst.toNat * 2 ^ 76 + f.opa.toNat * 2 ^ 66 + f.opb.toNat * 2 ^ 56 + f.imm.toNat * 2 ^ 24 + f.round.toNat * 2 ^ 21 + f.guard.toNat * 2 ^ 16 + f.ty.toNat * 2 ^ 12 + f.func.toNat * 2 ^ 4 + f.rsv.toNat * 2 ^ 0 := by
  show BitVec.toNat (f.m ++ op ++ f.dst ++ f.opa ++ f.opb ++ f.imm ++ f.round ++ f.guard ++ f.ty ++ f.func ++ f.rsv) = _
  simp only [toNat_side]
  omega

theorem FmtI.opcode_toBits (op : BitVec 9) (f : FmtI) : slotOpcode (f.toBits op) = op := by
  apply BitVec.eq_of_toNat_eq
  rw [slotOpcode, toNat_field, FmtI.toNat_toBits]
  have h_m := f.m.isLt
  have h_op := op.isLt
  have h_dst := f.dst.isLt
  have h_opa := f.opa.isLt
  have h_opb := f.opb.isLt
  have h_imm := f.imm.isLt
  have h_round := f.round.isLt
  have h_guard := f.guard.isLt
  have h_ty := f.ty.isLt
  have h_func := f.func.isLt
  have h_rsv := f.rsv.isLt
  omega

/-- A FmtI slot built from fields has those fields. -/
theorem FmtI.ofBits_toBits (op : BitVec 9) (f : FmtI) : FmtI.ofBits (f.toBits op) = f := by
  have e : ∀ g h : FmtI, g.m.toNat = h.m.toNat → g.dst.toNat = h.dst.toNat → g.opa.toNat = h.opa.toNat → g.opb.toNat = h.opb.toNat → g.imm.toNat = h.imm.toNat → g.round.toNat = h.round.toNat → g.guard.toNat = h.guard.toNat → g.ty.toNat = h.ty.toNat → g.func.toNat = h.func.toNat → g.rsv.toNat = h.rsv.toNat → g = h := by
    rintro ⟨⟩ ⟨⟩
    simp only [← BitVec.toNat_inj, FmtI.mk.injEq]
    tauto
  have h_m := f.m.isLt
  have h_op := op.isLt
  have h_dst := f.dst.isLt
  have h_opa := f.opa.isLt
  have h_opb := f.opb.isLt
  have h_imm := f.imm.isLt
  have h_round := f.round.isLt
  have h_guard := f.guard.isLt
  have h_ty := f.ty.isLt
  have h_func := f.func.isLt
  have h_rsv := f.rsv.isLt
  apply e <;> rw [FmtI.ofBits, toNat_field, FmtI.toNat_toBits] <;> omega

/-- The fields and the OPCODE of a slot build it again. -/
theorem FmtI.toBits_ofBits (w : BitVec 96) : (FmtI.ofBits w).toBits (slotOpcode w) = w := by
  apply BitVec.eq_of_toNat_eq
  rw [FmtI.toNat_toBits]
  simp only [FmtI.ofBits, slotOpcode, toNat_field]
  have hw := Nat.mod_eq_of_lt w.isLt
  have s_m := low_split w.toNat 95 1
  have s_op := low_split w.toNat 86 9
  have s_dst := low_split w.toNat 76 10
  have s_opa := low_split w.toNat 66 10
  have s_opb := low_split w.toNat 56 10
  have s_imm := low_split w.toNat 24 32
  have s_round := low_split w.toNat 21 3
  have s_guard := low_split w.toNat 16 5
  have s_ty := low_split w.toNat 12 4
  have s_func := low_split w.toNat 4 8
  have s_rsv := low_split w.toNat 0 4
  norm_num only at *
  generalize w.toNat / 39614081257132168796771975168 % 2 = mv at *
  generalize w.toNat / 77371252455336267181195264 % 512 = opv at *
  generalize w.toNat / 75557863725914323419136 % 1024 = dstv at *
  generalize w.toNat / 73786976294838206464 % 1024 = opav at *
  generalize w.toNat / 72057594037927936 % 1024 = opbv at *
  generalize w.toNat / 16777216 % 4294967296 = immv at *
  generalize w.toNat / 2097152 % 8 = roundv at *
  generalize w.toNat / 65536 % 32 = guardv at *
  generalize w.toNat / 4096 % 16 = tyv at *
  generalize w.toNat / 16 % 256 = funcv at *
  omega

/-- The number a FmtM slot holds: each field at its place. -/
theorem FmtM.toNat_toBits (op : BitVec 9) (f : FmtM) :
    (f.toBits op).toNat = f.m.toNat * 2 ^ 95 + op.toNat * 2 ^ 86 + f.data.toNat * 2 ^ 76 + f.base.toNat * 2 ^ 66 + f.index.toNat * 2 ^ 56 + f.aux.toNat * 2 ^ 46 + f.offset.toNat * 2 ^ 24 + f.scale.toNat * 2 ^ 22 + f.rsvHi.toNat * 2 ^ 21 + f.guard.toNat * 2 ^ 16 + f.width.toNat * 2 ^ 13 + f.order.toNat * 2 ^ 10 + f.scope.toNat * 2 ^ 7 + f.func.toNat * 2 ^ 3 + f.rsvLo.toNat * 2 ^ 0 := by
  show BitVec.toNat (f.m ++ op ++ f.data ++ f.base ++ f.index ++ f.aux ++ f.offset ++ f.scale ++ f.rsvHi ++ f.guard ++ f.width ++ f.order ++ f.scope ++ f.func ++ f.rsvLo) = _
  simp only [toNat_side]
  omega

theorem FmtM.opcode_toBits (op : BitVec 9) (f : FmtM) : slotOpcode (f.toBits op) = op := by
  apply BitVec.eq_of_toNat_eq
  rw [slotOpcode, toNat_field, FmtM.toNat_toBits]
  have h_m := f.m.isLt
  have h_op := op.isLt
  have h_data := f.data.isLt
  have h_base := f.base.isLt
  have h_index := f.index.isLt
  have h_aux := f.aux.isLt
  have h_offset := f.offset.isLt
  have h_scale := f.scale.isLt
  have h_rsvHi := f.rsvHi.isLt
  have h_guard := f.guard.isLt
  have h_width := f.width.isLt
  have h_order := f.order.isLt
  have h_scope := f.scope.isLt
  have h_func := f.func.isLt
  have h_rsvLo := f.rsvLo.isLt
  omega

/-- A FmtM slot built from fields has those fields. -/
theorem FmtM.ofBits_toBits (op : BitVec 9) (f : FmtM) : FmtM.ofBits (f.toBits op) = f := by
  have e : ∀ g h : FmtM, g.m.toNat = h.m.toNat → g.data.toNat = h.data.toNat → g.base.toNat = h.base.toNat → g.index.toNat = h.index.toNat → g.aux.toNat = h.aux.toNat → g.offset.toNat = h.offset.toNat → g.scale.toNat = h.scale.toNat → g.rsvHi.toNat = h.rsvHi.toNat → g.guard.toNat = h.guard.toNat → g.width.toNat = h.width.toNat → g.order.toNat = h.order.toNat → g.scope.toNat = h.scope.toNat → g.func.toNat = h.func.toNat → g.rsvLo.toNat = h.rsvLo.toNat → g = h := by
    rintro ⟨⟩ ⟨⟩
    simp only [← BitVec.toNat_inj, FmtM.mk.injEq]
    tauto
  have h_m := f.m.isLt
  have h_op := op.isLt
  have h_data := f.data.isLt
  have h_base := f.base.isLt
  have h_index := f.index.isLt
  have h_aux := f.aux.isLt
  have h_offset := f.offset.isLt
  have h_scale := f.scale.isLt
  have h_rsvHi := f.rsvHi.isLt
  have h_guard := f.guard.isLt
  have h_width := f.width.isLt
  have h_order := f.order.isLt
  have h_scope := f.scope.isLt
  have h_func := f.func.isLt
  have h_rsvLo := f.rsvLo.isLt
  apply e <;> rw [FmtM.ofBits, toNat_field, FmtM.toNat_toBits] <;> omega

/-- The fields and the OPCODE of a slot build it again. -/
theorem FmtM.toBits_ofBits (w : BitVec 96) : (FmtM.ofBits w).toBits (slotOpcode w) = w := by
  apply BitVec.eq_of_toNat_eq
  rw [FmtM.toNat_toBits]
  simp only [FmtM.ofBits, slotOpcode, toNat_field]
  have hw := Nat.mod_eq_of_lt w.isLt
  have s_m := low_split w.toNat 95 1
  have s_op := low_split w.toNat 86 9
  have s_data := low_split w.toNat 76 10
  have s_base := low_split w.toNat 66 10
  have s_index := low_split w.toNat 56 10
  have s_aux := low_split w.toNat 46 10
  have s_offset := low_split w.toNat 24 22
  have s_scale := low_split w.toNat 22 2
  have s_rsvHi := low_split w.toNat 21 1
  have s_guard := low_split w.toNat 16 5
  have s_width := low_split w.toNat 13 3
  have s_order := low_split w.toNat 10 3
  have s_scope := low_split w.toNat 7 3
  have s_func := low_split w.toNat 3 4
  have s_rsvLo := low_split w.toNat 0 3
  norm_num only at *
  generalize w.toNat / 39614081257132168796771975168 % 2 = mv at *
  generalize w.toNat / 77371252455336267181195264 % 512 = opv at *
  generalize w.toNat / 75557863725914323419136 % 1024 = datav at *
  generalize w.toNat / 73786976294838206464 % 1024 = basev at *
  generalize w.toNat / 72057594037927936 % 1024 = indexv at *
  generalize w.toNat / 70368744177664 % 1024 = auxv at *
  generalize w.toNat / 16777216 % 4194304 = offsetv at *
  generalize w.toNat / 4194304 % 4 = scalev at *
  generalize w.toNat / 2097152 % 2 = rsvHiv at *
  generalize w.toNat / 65536 % 32 = guardv at *
  generalize w.toNat / 8192 % 8 = widthv at *
  generalize w.toNat / 1024 % 8 = orderv at *
  generalize w.toNat / 128 % 8 = scopev at *
  generalize w.toNat / 8 % 16 = funcv at *
  omega

/-- The number a FmtB slot holds: each field at its place. -/
theorem FmtB.toNat_toBits (op : BitVec 9) (f : FmtB) :
    (f.toBits op).toNat = f.m.toNat * 2 ^ 95 + op.toNat * 2 ^ 86 + f.reg.toNat * 2 ^ 76 + f.aux.toNat * 2 ^ 66 + f.rsvHi.toNat * 2 ^ 56 + f.offset.toNat * 2 ^ 24 + f.rsvMid.toNat * 2 ^ 21 + f.guard.toNat * 2 ^ 16 + f.func.toNat * 2 ^ 8 + f.rsvLo.toNat * 2 ^ 0 := by
  show BitVec.toNat (f.m ++ op ++ f.reg ++ f.aux ++ f.rsvHi ++ f.offset ++ f.rsvMid ++ f.guard ++ f.func ++ f.rsvLo) = _
  simp only [toNat_side]
  omega

theorem FmtB.opcode_toBits (op : BitVec 9) (f : FmtB) : slotOpcode (f.toBits op) = op := by
  apply BitVec.eq_of_toNat_eq
  rw [slotOpcode, toNat_field, FmtB.toNat_toBits]
  have h_m := f.m.isLt
  have h_op := op.isLt
  have h_reg := f.reg.isLt
  have h_aux := f.aux.isLt
  have h_rsvHi := f.rsvHi.isLt
  have h_offset := f.offset.isLt
  have h_rsvMid := f.rsvMid.isLt
  have h_guard := f.guard.isLt
  have h_func := f.func.isLt
  have h_rsvLo := f.rsvLo.isLt
  omega

/-- A FmtB slot built from fields has those fields. -/
theorem FmtB.ofBits_toBits (op : BitVec 9) (f : FmtB) : FmtB.ofBits (f.toBits op) = f := by
  have e : ∀ g h : FmtB, g.m.toNat = h.m.toNat → g.reg.toNat = h.reg.toNat → g.aux.toNat = h.aux.toNat → g.rsvHi.toNat = h.rsvHi.toNat → g.offset.toNat = h.offset.toNat → g.rsvMid.toNat = h.rsvMid.toNat → g.guard.toNat = h.guard.toNat → g.func.toNat = h.func.toNat → g.rsvLo.toNat = h.rsvLo.toNat → g = h := by
    rintro ⟨⟩ ⟨⟩
    simp only [← BitVec.toNat_inj, FmtB.mk.injEq]
    tauto
  have h_m := f.m.isLt
  have h_op := op.isLt
  have h_reg := f.reg.isLt
  have h_aux := f.aux.isLt
  have h_rsvHi := f.rsvHi.isLt
  have h_offset := f.offset.isLt
  have h_rsvMid := f.rsvMid.isLt
  have h_guard := f.guard.isLt
  have h_func := f.func.isLt
  have h_rsvLo := f.rsvLo.isLt
  apply e <;> rw [FmtB.ofBits, toNat_field, FmtB.toNat_toBits] <;> omega

/-- The fields and the OPCODE of a slot build it again. -/
theorem FmtB.toBits_ofBits (w : BitVec 96) : (FmtB.ofBits w).toBits (slotOpcode w) = w := by
  apply BitVec.eq_of_toNat_eq
  rw [FmtB.toNat_toBits]
  simp only [FmtB.ofBits, slotOpcode, toNat_field]
  have hw := Nat.mod_eq_of_lt w.isLt
  have s_m := low_split w.toNat 95 1
  have s_op := low_split w.toNat 86 9
  have s_reg := low_split w.toNat 76 10
  have s_aux := low_split w.toNat 66 10
  have s_rsvHi := low_split w.toNat 56 10
  have s_offset := low_split w.toNat 24 32
  have s_rsvMid := low_split w.toNat 21 3
  have s_guard := low_split w.toNat 16 5
  have s_func := low_split w.toNat 8 8
  have s_rsvLo := low_split w.toNat 0 8
  norm_num only at *
  generalize w.toNat / 39614081257132168796771975168 % 2 = mv at *
  generalize w.toNat / 77371252455336267181195264 % 512 = opv at *
  generalize w.toNat / 75557863725914323419136 % 1024 = regv at *
  generalize w.toNat / 73786976294838206464 % 1024 = auxv at *
  generalize w.toNat / 72057594037927936 % 1024 = rsvHiv at *
  generalize w.toNat / 16777216 % 4294967296 = offsetv at *
  generalize w.toNat / 2097152 % 8 = rsvMidv at *
  generalize w.toNat / 65536 % 32 = guardv at *
  generalize w.toNat / 256 % 256 = funcv at *
  omega

/-- The number a FmtP slot holds: each field at its place. -/
theorem FmtP.toNat_toBits (op : BitVec 9) (f : FmtP) :
    (f.toBits op).toNat = f.m.toNat * 2 ^ 95 + op.toNat * 2 ^ 86 + f.count.toNat * 2 ^ 80 + f.dstep.toNat * 2 ^ 76 + f.astep.toNat * 2 ^ 72 + f.bstep.toNat * 2 ^ 68 + f.cstep.toNat * 2 ^ 64 + f.rsvHi.toNat * 2 ^ 21 + f.guard.toNat * 2 ^ 16 + f.rsvLo.toNat * 2 ^ 0 := by
  show BitVec.toNat (f.m ++ op ++ f.count ++ f.dstep ++ f.astep ++ f.bstep ++ f.cstep ++ f.rsvHi ++ f.guard ++ f.rsvLo) = _
  simp only [toNat_side]
  omega

theorem FmtP.opcode_toBits (op : BitVec 9) (f : FmtP) : slotOpcode (f.toBits op) = op := by
  apply BitVec.eq_of_toNat_eq
  rw [slotOpcode, toNat_field, FmtP.toNat_toBits]
  have h_m := f.m.isLt
  have h_op := op.isLt
  have h_count := f.count.isLt
  have h_dstep := f.dstep.isLt
  have h_astep := f.astep.isLt
  have h_bstep := f.bstep.isLt
  have h_cstep := f.cstep.isLt
  have h_rsvHi := f.rsvHi.isLt
  have h_guard := f.guard.isLt
  have h_rsvLo := f.rsvLo.isLt
  omega

/-- A FmtP slot built from fields has those fields. -/
theorem FmtP.ofBits_toBits (op : BitVec 9) (f : FmtP) : FmtP.ofBits (f.toBits op) = f := by
  have e : ∀ g h : FmtP, g.m.toNat = h.m.toNat → g.count.toNat = h.count.toNat → g.dstep.toNat = h.dstep.toNat → g.astep.toNat = h.astep.toNat → g.bstep.toNat = h.bstep.toNat → g.cstep.toNat = h.cstep.toNat → g.rsvHi.toNat = h.rsvHi.toNat → g.guard.toNat = h.guard.toNat → g.rsvLo.toNat = h.rsvLo.toNat → g = h := by
    rintro ⟨⟩ ⟨⟩
    simp only [← BitVec.toNat_inj, FmtP.mk.injEq]
    tauto
  have h_m := f.m.isLt
  have h_op := op.isLt
  have h_count := f.count.isLt
  have h_dstep := f.dstep.isLt
  have h_astep := f.astep.isLt
  have h_bstep := f.bstep.isLt
  have h_cstep := f.cstep.isLt
  have h_rsvHi := f.rsvHi.isLt
  have h_guard := f.guard.isLt
  have h_rsvLo := f.rsvLo.isLt
  apply e <;> rw [FmtP.ofBits, toNat_field, FmtP.toNat_toBits] <;> omega

/-- The fields and the OPCODE of a slot build it again. -/
theorem FmtP.toBits_ofBits (w : BitVec 96) : (FmtP.ofBits w).toBits (slotOpcode w) = w := by
  apply BitVec.eq_of_toNat_eq
  rw [FmtP.toNat_toBits]
  simp only [FmtP.ofBits, slotOpcode, toNat_field]
  have hw := Nat.mod_eq_of_lt w.isLt
  have s_m := low_split w.toNat 95 1
  have s_op := low_split w.toNat 86 9
  have s_count := low_split w.toNat 80 6
  have s_dstep := low_split w.toNat 76 4
  have s_astep := low_split w.toNat 72 4
  have s_bstep := low_split w.toNat 68 4
  have s_cstep := low_split w.toNat 64 4
  have s_rsvHi := low_split w.toNat 21 43
  have s_guard := low_split w.toNat 16 5
  have s_rsvLo := low_split w.toNat 0 16
  norm_num only at *
  generalize w.toNat / 39614081257132168796771975168 % 2 = mv at *
  generalize w.toNat / 77371252455336267181195264 % 512 = opv at *
  generalize w.toNat / 1208925819614629174706176 % 64 = countv at *
  generalize w.toNat / 75557863725914323419136 % 16 = dstepv at *
  generalize w.toNat / 4722366482869645213696 % 16 = astepv at *
  generalize w.toNat / 295147905179352825856 % 16 = bstepv at *
  generalize w.toNat / 18446744073709551616 % 16 = cstepv at *
  generalize w.toNat / 2097152 % 8796093022208 = rsvHiv at *
  generalize w.toNat / 65536 % 32 = guardv at *
  omega

/-- The number a FmtE slot holds: each field at its place. -/
theorem FmtE.toNat_toBits (op : BitVec 9) (f : FmtE) :
    (f.toBits op).toNat = f.m.toNat * 2 ^ 95 + op.toNat * 2 ^ 86 + f.recd.toNat * 2 ^ 76 + f.stamp.toNat * 2 ^ 66 + f.aux.toNat * 2 ^ 56 + f.queue.toNat * 2 ^ 51 + f.rsvHi.toNat * 2 ^ 21 + f.guard.toNat * 2 ^ 16 + f.func.toNat * 2 ^ 8 + f.rsvLo.toNat * 2 ^ 0 := by
  show BitVec.toNat (f.m ++ op ++ f.recd ++ f.stamp ++ f.aux ++ f.queue ++ f.rsvHi ++ f.guard ++ f.func ++ f.rsvLo) = _
  simp only [toNat_side]
  omega

theorem FmtE.opcode_toBits (op : BitVec 9) (f : FmtE) : slotOpcode (f.toBits op) = op := by
  apply BitVec.eq_of_toNat_eq
  rw [slotOpcode, toNat_field, FmtE.toNat_toBits]
  have h_m := f.m.isLt
  have h_op := op.isLt
  have h_recd := f.recd.isLt
  have h_stamp := f.stamp.isLt
  have h_aux := f.aux.isLt
  have h_queue := f.queue.isLt
  have h_rsvHi := f.rsvHi.isLt
  have h_guard := f.guard.isLt
  have h_func := f.func.isLt
  have h_rsvLo := f.rsvLo.isLt
  omega

/-- A FmtE slot built from fields has those fields. -/
theorem FmtE.ofBits_toBits (op : BitVec 9) (f : FmtE) : FmtE.ofBits (f.toBits op) = f := by
  have e : ∀ g h : FmtE, g.m.toNat = h.m.toNat → g.recd.toNat = h.recd.toNat → g.stamp.toNat = h.stamp.toNat → g.aux.toNat = h.aux.toNat → g.queue.toNat = h.queue.toNat → g.rsvHi.toNat = h.rsvHi.toNat → g.guard.toNat = h.guard.toNat → g.func.toNat = h.func.toNat → g.rsvLo.toNat = h.rsvLo.toNat → g = h := by
    rintro ⟨⟩ ⟨⟩
    simp only [← BitVec.toNat_inj, FmtE.mk.injEq]
    tauto
  have h_m := f.m.isLt
  have h_op := op.isLt
  have h_recd := f.recd.isLt
  have h_stamp := f.stamp.isLt
  have h_aux := f.aux.isLt
  have h_queue := f.queue.isLt
  have h_rsvHi := f.rsvHi.isLt
  have h_guard := f.guard.isLt
  have h_func := f.func.isLt
  have h_rsvLo := f.rsvLo.isLt
  apply e <;> rw [FmtE.ofBits, toNat_field, FmtE.toNat_toBits] <;> omega

/-- The fields and the OPCODE of a slot build it again. -/
theorem FmtE.toBits_ofBits (w : BitVec 96) : (FmtE.ofBits w).toBits (slotOpcode w) = w := by
  apply BitVec.eq_of_toNat_eq
  rw [FmtE.toNat_toBits]
  simp only [FmtE.ofBits, slotOpcode, toNat_field]
  have hw := Nat.mod_eq_of_lt w.isLt
  have s_m := low_split w.toNat 95 1
  have s_op := low_split w.toNat 86 9
  have s_recd := low_split w.toNat 76 10
  have s_stamp := low_split w.toNat 66 10
  have s_aux := low_split w.toNat 56 10
  have s_queue := low_split w.toNat 51 5
  have s_rsvHi := low_split w.toNat 21 30
  have s_guard := low_split w.toNat 16 5
  have s_func := low_split w.toNat 8 8
  have s_rsvLo := low_split w.toNat 0 8
  norm_num only at *
  generalize w.toNat / 39614081257132168796771975168 % 2 = mv at *
  generalize w.toNat / 77371252455336267181195264 % 512 = opv at *
  generalize w.toNat / 75557863725914323419136 % 1024 = recdv at *
  generalize w.toNat / 73786976294838206464 % 1024 = stampv at *
  generalize w.toNat / 72057594037927936 % 1024 = auxv at *
  generalize w.toNat / 2251799813685248 % 32 = queuev at *
  generalize w.toNat / 2097152 % 1073741824 = rsvHiv at *
  generalize w.toNat / 65536 % 32 = guardv at *
  generalize w.toNat / 256 % 256 = funcv at *
  omega

end Sys2Proof
end

