-- ==== Sys2Proof/Laws/PerInstr.lean ====
section
/-! SUPPORT. The family of laws `Coded`, one per constructor of `Instr`: what its encoding holds. -/

namespace Sys2Proof.Laws.Coded

open Machine

/-- An instruction of R41 has one OPCODE, which the slot that encodes it holds; an event has neither (the events are no instructions). -/
def Statement (i : Instr) : Prop :=
  (fmtOf i = .event ↔ opcodeOf i = none) ∧ (fmtOf i = .event ↔ encode i = none) ∧
  ∀ b, encode i = some b → opcodeOf i = some (slotOpcode b)

theorem ofA {i : Instr} {f : FmtA} {op : BitVec 9} (hf : fmtOf i = .a f) (ho : opcodeOf i = some op)
    (he : encode i = some (f.toBits op)) : Statement i := by
  refine ⟨by simp [hf, ho], by simp [hf, he], fun b h => ?_⟩
  rw [he, Option.some.injEq] at h
  rw [ho, ← h, FmtA.opcode_toBits]

theorem ofI {i : Instr} {f : FmtI} {op : BitVec 9} (hf : fmtOf i = .i f) (ho : opcodeOf i = some op)
    (he : encode i = some (f.toBits op)) : Statement i := by
  refine ⟨by simp [hf, ho], by simp [hf, he], fun b h => ?_⟩
  rw [he, Option.some.injEq] at h
  rw [ho, ← h, FmtI.opcode_toBits]

theorem ofM {i : Instr} {f : FmtM} {op : BitVec 9} (hf : fmtOf i = .m f) (ho : opcodeOf i = some op)
    (he : encode i = some (f.toBits op)) : Statement i := by
  refine ⟨by simp [hf, ho], by simp [hf, he], fun b h => ?_⟩
  rw [he, Option.some.injEq] at h
  rw [ho, ← h, FmtM.opcode_toBits]

theorem ofB {i : Instr} {f : FmtB} {op : BitVec 9} (hf : fmtOf i = .b f) (ho : opcodeOf i = some op)
    (he : encode i = some (f.toBits op)) : Statement i := by
  refine ⟨by simp [hf, ho], by simp [hf, he], fun b h => ?_⟩
  rw [he, Option.some.injEq] at h
  rw [ho, ← h, FmtB.opcode_toBits]

theorem ofP {i : Instr} {f : FmtP} {op : BitVec 9} (hf : fmtOf i = .p f) (ho : opcodeOf i = some op)
    (he : encode i = some (f.toBits op)) : Statement i := by
  refine ⟨by simp [hf, ho], by simp [hf, he], fun b h => ?_⟩
  rw [he, Option.some.injEq] at h
  rw [ho, ← h, FmtP.opcode_toBits]

theorem ofE {i : Instr} {f : FmtE} {op : BitVec 9} (hf : fmtOf i = .e f) (ho : opcodeOf i = some op)
    (he : encode i = some (f.toBits op)) : Statement i := by
  refine ⟨by simp [hf, ho], by simp [hf, he], fun b h => ?_⟩
  rw [he, Option.some.injEq] at h
  rw [ho, ← h, FmtE.opcode_toBits]

theorem ofEvent {i : Instr} (hf : fmtOf i = .event) (ho : opcodeOf i = none) (he : encode i = none) : Statement i :=
  ⟨by simp [hf, ho], by simp [hf, he], fun b h => by rw [he] at h; cases h⟩

theorem nop (f : FmtA) : Statement (.nop f) := ofA rfl rfl rfl
theorem bra (f : FmtB) : Statement (.bra f) := ofB rfl rfl rfl
theorem brx (f : FmtB) : Statement (.brx f) := ofB rfl rfl rfl
theorem call (f : FmtB) : Statement (.call f) := ofB rfl rfl rfl
theorem callx (f : FmtB) : Statement (.callx f) := ofB rfl rfl rfl
theorem ret (f : FmtB) : Statement (.ret f) := ofB rfl rfl rfl
theorem join (f : FmtA) : Statement (.join f) := ofA rfl rfl rfl
theorem reform (f : FmtB) : Statement (.reform f) := ofB rfl rfl rfl
theorem exit (f : FmtA) : Statement (.exit f) := ofA rfl rfl rfl
theorem bar (f : FmtA) : Statement (.bar f) := ofA rfl rfl rfl
theorem gbar (f : FmtA) : Statement (.gbar f) := ofA rfl rfl rfl
theorem wait (f : FmtA) : Statement (.wait f) := ofA rfl rfl rfl
theorem trig (f : FmtA) : Statement (.trig f) := ofA rfl rfl rfl
theorem yield (f : FmtA) : Statement (.yield f) := ofA rfl rfl rfl
theorem sleep (f : FmtI) : Statement (.sleep f) := ofI rfl rfl rfl
theorem trap (f : FmtI) : Statement (.trap f) := ofI rfl rfl rfl
theorem tret (f : FmtA) : Statement (.tret f) := ofA rfl rfl rfl
theorem brk (f : FmtA) : Statement (.brk f) := ofA rfl rfl rfl
theorem rep (f : FmtP) : Statement (.rep f) := ofP rfl rfl rfl
theorem mov (f : FmtA) : Statement (.mov f) := ofA rfl rfl rfl
theorem movi (f : FmtI) : Statement (.movi f) := ofI rfl rfl rfl
theorem sel (f : FmtA) : Statement (.sel f) := ofA rfl rfl rfl
theorem sreg (f : FmtA) : Statement (.sreg f) := ofA rfl rfl rfl
theorem sset (f : FmtA) : Statement (.sset f) := ofA rfl rfl rfl
theorem tag (f : FmtA) : Statement (.tag f) := ofA rfl rfl rfl
theorem expand (f : FmtA) : Statement (.expand f) := ofA rfl rfl rfl
theorem xacq (f : FmtI) : Statement (.xacq f) := ofI rfl rfl rfl
theorem xrel (f : FmtA) : Statement (.xrel f) := ofA rfl rfl rfl
theorem tsave (f : FmtA) : Statement (.tsave f) := ofA rfl rfl rfl
theorem tload (f : FmtA) : Statement (.tload f) := ofA rfl rfl rfl
theorem pbool (f : FmtA) : Statement (.pbool f) := ofA rfl rfl rfl
theorem pmov (f : FmtA) : Statement (.pmov f) := ofA rfl rfl rfl
theorem fclr (f : FmtA) : Statement (.fclr f) := ofA rfl rfl rfl
theorem add (f : FmtA) : Statement (.add f) := ofA rfl rfl rfl
theorem sub (f : FmtA) : Statement (.sub f) := ofA rfl rfl rfl
theorem addc (f : FmtA) : Statement (.addc f) := ofA rfl rfl rfl
theorem subb (f : FmtA) : Statement (.subb f) := ofA rfl rfl rfl
theorem mul (f : FmtA) : Statement (.mul f) := ofA rfl rfl rfl
theorem mulh (f : FmtA) : Statement (.mulh f) := ofA rfl rfl rfl
theorem mad (f : FmtA) : Statement (.mad f) := ofA rfl rfl rfl
theorem madw (f : FmtA) : Statement (.madw f) := ofA rfl rfl rfl
theorem min (f : FmtA) : Statement (.min f) := ofA rfl rfl rfl
theorem max (f : FmtA) : Statement (.max f) := ofA rfl rfl rfl
theorem and (f : FmtA) : Statement (.and f) := ofA rfl rfl rfl
theorem or (f : FmtA) : Statement (.or f) := ofA rfl rfl rfl
theorem xor (f : FmtA) : Statement (.xor f) := ofA rfl rfl rfl
theorem andn (f : FmtA) : Statement (.andn f) := ofA rfl rfl rfl
theorem shl (f : FmtA) : Statement (.shl f) := ofA rfl rfl rfl
theorem shr (f : FmtA) : Statement (.shr f) := ofA rfl rfl rfl
theorem sar (f : FmtA) : Statement (.sar f) := ofA rfl rfl rfl
theorem rot (f : FmtA) : Statement (.rot f) := ofA rfl rfl rfl
theorem bfe (f : FmtA) : Statement (.bfe f) := ofA rfl rfl rfl
theorem bfi (f : FmtA) : Statement (.bfi f) := ofA rfl rfl rfl
theorem popc (f : FmtA) : Statement (.popc f) := ofA rfl rfl rfl
theorem clz (f : FmtA) : Statement (.clz f) := ofA rfl rfl rfl
theorem ctz (f : FmtA) : Statement (.ctz f) := ofA rfl rfl rfl
theorem brev (f : FmtA) : Statement (.brev f) := ofA rfl rfl rfl
theorem cmp (f : FmtA) : Statement (.cmp f) := ofA rfl rfl rfl
theorem lea (f : FmtA) : Statement (.lea f) := ofA rfl rfl rfl
theorem dp4 (f : FmtA) : Statement (.dp4 f) := ofA rfl rfl rfl
theorem dp2 (f : FmtA) : Statement (.dp2 f) := ofA rfl rfl rfl
theorem sadd (f : FmtA) : Statement (.sadd f) := ofA rfl rfl rfl
theorem ssub (f : FmtA) : Statement (.ssub f) := ofA rfl rfl rfl
theorem prmt (f : FmtA) : Statement (.prmt f) := ofA rfl rfl rfl
theorem fadd (f : FmtA) : Statement (.fadd f) := ofA rfl rfl rfl
theorem fmul (f : FmtA) : Statement (.fmul f) := ofA rfl rfl rfl
theorem ffma (f : FmtA) : Statement (.ffma f) := ofA rfl rfl rfl
theorem fmin (f : FmtA) : Statement (.fmin f) := ofA rfl rfl rfl
theorem fmax (f : FmtA) : Statement (.fmax f) := ofA rfl rfl rfl
theorem fcmp (f : FmtA) : Statement (.fcmp f) := ofA rfl rfl rfl
theorem fclass (f : FmtA) : Statement (.fclass f) := ofA rfl rfl rfl
theorem frnd (f : FmtA) : Statement (.frnd f) := ofA rfl rfl rfl
theorem fdot2 (f : FmtA) : Statement (.fdot2 f) := ofA rfl rfl rfl
theorem fscale (f : FmtA) : Statement (.fscale f) := ofA rfl rfl rfl
theorem fexp (f : FmtA) : Statement (.fexp f) := ofA rfl rfl rfl
theorem cvt (f : FmtA) : Statement (.cvt f) := ofA rfl rfl rfl
theorem cvtp (f : FmtA) : Statement (.cvtp f) := ofA rfl rfl rfl
theorem quant (f : FmtA) : Statement (.quant f) := ofA rfl rfl rfl
theorem rcp (f : FmtA) : Statement (.rcp f) := ofA rfl rfl rfl
theorem rsq (f : FmtA) : Statement (.rsq f) := ofA rfl rfl rfl
theorem sqrt (f : FmtA) : Statement (.sqrt f) := ofA rfl rfl rfl
theorem lg2 (f : FmtA) : Statement (.lg2 f) := ofA rfl rfl rfl
theorem ex2 (f : FmtA) : Statement (.ex2 f) := ofA rfl rfl rfl
theorem sinp (f : FmtA) : Statement (.sinp f) := ofA rfl rfl rfl
theorem cosp (f : FmtA) : Statement (.cosp f) := ofA rfl rfl rfl
theorem tanh (f : FmtA) : Statement (.tanh f) := ofA rfl rfl rfl
theorem shfl (f : FmtA) : Statement (.shfl f) := ofA rfl rfl rfl
theorem shfr (f : FmtA) : Statement (.shfr f) := ofA rfl rfl rfl
theorem vote (f : FmtA) : Statement (.vote f) := ofA rfl rfl rfl
theorem ballot (f : FmtA) : Statement (.ballot f) := ofA rfl rfl rfl
theorem matchLanes (f : FmtA) : Statement (.matchLanes f) := ofA rfl rfl rfl
theorem lred (f : FmtA) : Statement (.lred f) := ofA rfl rfl rfl
theorem lscan (f : FmtA) : Statement (.lscan f) := ofA rfl rfl rfl
theorem qswap (f : FmtA) : Statement (.qswap f) := ofA rfl rfl rfl
theorem ddx (f : FmtA) : Statement (.ddx f) := ofA rfl rfl rfl
theorem ddy (f : FmtA) : Statement (.ddy f) := ofA rfl rfl rfl
theorem lds (f : FmtM) : Statement (.lds f) := ofM rfl rfl rfl
theorem sts (f : FmtM) : Statement (.sts f) := ofM rfl rfl rfl
theorem atoms (f : FmtM) : Statement (.atoms f) := ofM rfl rfl rfl
theorem stbar (f : FmtA) : Statement (.stbar f) := ofA rfl rfl rfl
theorem ringq (f : FmtA) : Statement (.ringq f) := ofA rfl rfl rfl
theorem ld (f : FmtM) : Statement (.ld f) := ofM rfl rfl rfl
theorem st (f : FmtM) : Statement (.st f) := ofM rfl rfl rfl
theorem cst (f : FmtM) : Statement (.cst f) := ofM rfl rfl rfl
theorem xld (f : FmtM) : Statement (.xld f) := ofM rfl rfl rfl
theorem pref (f : FmtM) : Statement (.pref f) := ofM rfl rfl rfl
theorem fence (f : FmtA) : Statement (.fence f) := ofA rfl rfl rfl
theorem mwait (f : FmtM) : Statement (.mwait f) := ofM rfl rfl rfl
theorem cctl (f : FmtM) : Statement (.cctl f) := ofM rfl rfl rfl
theorem atom (f : FmtM) : Statement (.atom f) := ofM rfl rfl rfl
theorem red (f : FmtM) : Statement (.red f) := ofM rfl rfl rfl
theorem xsadd (f : FmtM) : Statement (.xsadd f) := ofM rfl rfl rfl
theorem xsrd (f : FmtM) : Statement (.xsrd f) := ofM rfl rfl rfl
theorem xsclr (f : FmtM) : Statement (.xsclr f) := ofM rfl rfl rfl
theorem lcopy (f : FmtE) : Statement (.lcopy f) := ofE rfl rfl rfl
theorem lput (f : FmtE) : Statement (.lput f) := ofE rfl rfl rfl
theorem lcode (f : FmtE) : Statement (.lcode f) := ofE rfl rfl rfl
theorem qfence (f : FmtE) : Statement (.qfence f) := ofE rfl rfl rfl
theorem qstat (f : FmtA) : Statement (.qstat f) := ofA rfl rfl rfl
theorem mma (f : FmtE) : Statement (.mma f) := ofE rfl rfl rfl
theorem mwld (f : FmtE) : Statement (.mwld f) := ofE rfl rfl rfl
theorem mst (f : FmtE) : Statement (.mst f) := ofE rfl rfl rfl
theorem mzero (f : FmtE) : Statement (.mzero f) := ofE rfl rfl rfl
theorem astat (f : FmtA) : Statement (.astat f) := ofA rfl rfl rfl
theorem ard (f : FmtA) : Statement (.ard f) := ofA rfl rfl rfl
theorem vemit (f : FmtA) : Statement (.vemit f) := ofA rfl rfl rfl
theorem pemit (f : FmtA) : Statement (.pemit f) := ofA rfl rfl rfl
theorem mcommit (f : FmtA) : Statement (.mcommit f) := ofA rfl rfl rfl
theorem ixbox (f : FmtA) : Statement (.ixbox f) := ofA rfl rfl rfl
theorem ixtri (f : FmtA) : Statement (.ixtri f) := ofA rfl rfl rfl
theorem hitbin (f : FmtA) : Statement (.hitbin f) := ofA rfl rfl rfl
theorem vtrel (f : FmtA) : Statement (.vtrel f) := ofA rfl rfl rfl
theorem vtld (f : FmtM) : Statement (.vtld f) := ofM rfl rfl rfl
theorem lineRefetch (crew bun : Nat) : Statement (.lineRefetch crew bun) := ofEvent rfl rfl rfl
theorem longResultWrite (crew bun pend : Nat) : Statement (.longResultWrite crew bun pend) := ofEvent rfl rfl rfl
theorem markerComplete (crew bun : Nat) : Statement (.markerComplete crew bun) := ofEvent rfl rfl rfl
theorem turnInstructionLimit (crew bun : Nat) : Statement (.turnInstructionLimit crew bun) := ofEvent rfl rfl rfl
theorem stallTimeout (crew bun : Nat) : Statement (.stallTimeout crew bun) := ofEvent rfl rfl rfl
theorem stallReissue (crew bun : Nat) : Statement (.stallReissue crew bun) := ofEvent rfl rfl rfl
theorem reformBinTimeout (core bin : Nat) : Statement (.reformBinTimeout core bin) := ofEvent rfl rfl rfl
theorem reformBinDraw (crew : Nat) : Statement (.reformBinDraw crew) := ofEvent rfl rfl rfl
theorem crewWatchdog (crew : Nat) : Statement (.crewWatchdog crew) := ofEvent rfl rfl rfl
theorem xacqWatchdog (crew bun : Nat) : Statement (.xacqWatchdog crew bun) := ofEvent rfl rfl rfl
theorem gangWatchdog (crew : Nat) : Statement (.gangWatchdog crew) := ofEvent rfl rfl rfl
theorem sleepWake (crew bun sub : Nat) : Statement (.sleepWake crew bun sub) := ofEvent rfl rfl rfl
theorem waitRelease (crew bun : Nat) : Statement (.waitRelease crew bun) := ofEvent rfl rfl rfl
theorem gbarComplete (crew : Nat) : Statement (.gbarComplete crew) := ofEvent rfl rfl rfl
theorem rowSpill (crew bun : Nat) : Statement (.rowSpill crew bun) := ofEvent rfl rfl rfl
theorem producerArrivalComplete (crew arrival : Nat) : Statement (.producerArrivalComplete crew arrival) := ofEvent rfl rfl rfl
theorem pageWalkComplete (walk : Nat) : Statement (.pageWalkComplete walk) := ofEvent rfl rfl rfl
theorem parkedStoreDrain (core root vpage : Nat) : Statement (.parkedStoreDrain core root vpage) := ofEvent rfl rfl rfl
theorem sliceRequest (req : Nat) : Statement (.sliceRequest req) := ofEvent rfl rfl rfl
theorem memoryFill (line : Nat) (bad : BitVec 2) : Statement (.memoryFill line bad) := ofEvent rfl rfl rfl
theorem requestRetry (req : Nat) : Statement (.requestRetry req) := ofEvent rfl rfl rfl
theorem reservationLapse (line : Nat) : Statement (.reservationLapse line) := ofEvent rfl rfl rfl
theorem updateLineMerge (core line : Nat) : Statement (.updateLineMerge core line) := ofEvent rfl rfl rfl
theorem ltIdleTick (core : Nat) : Statement (.ltIdleTick core) := ofEvent rfl rfl rfl
theorem noonMark (replyMesh : Bool) : Statement (.noonMark replyMesh) := ofEvent rfl rfl rfl
theorem copyUnitPerform (core entry : Nat) : Statement (.copyUnitPerform core entry) := ofEvent rfl rfl rfl
theorem copyComplete (core entry : Nat) : Statement (.copyComplete core entry) := ofEvent rfl rfl rfl
theorem codebookFill (core entry : Nat) : Statement (.codebookFill core entry) := ofEvent rfl rfl rfl
theorem qfenceComplete (core entry : Nat) : Statement (.qfenceComplete core entry) := ofEvent rfl rfl rfl
theorem taskStart (core engine : Nat) : Statement (.taskStart core engine) := ofEvent rfl rfl rfl
theorem taskComplete (core engine : Nat) : Statement (.taskComplete core engine) := ofEvent rfl rfl rfl
theorem meshletRaster (meshlet : Nat) : Statement (.meshletRaster meshlet) := ofEvent rfl rfl rfl
theorem geometryEnd (castId : Nat) : Statement (.geometryEnd castId) := ofEvent rfl rfl rfl
theorem riddleSieve (unit surf tile : Nat) : Statement (.riddleSieve unit surf tile) := ofEvent rfl rfl rfl
theorem riddleBinTimeout (unit bin : Nat) : Statement (.riddleBinTimeout unit bin) := ofEvent rfl rfl rfl
theorem riddleBinLaunch (unit bin : Nat) : Statement (.riddleBinLaunch unit bin) := ofEvent rfl rfl rfl
theorem runnerFill (crew : Nat) : Statement (.runnerFill crew) := ofEvent rfl rfl rfl
theorem dispatchPlace  : Statement (.dispatchPlace) := ofEvent rfl rfl rfl
theorem candidateBlock (cand : Nat) : Statement (.candidateBlock cand) := ofEvent rfl rfl rfl
theorem startRampWindow  : Statement (.startRampWindow) := ofEvent rfl rfl rfl
theorem columnSleep (column : Nat) : Statement (.columnSleep column) := ofEvent rfl rfl rfl
theorem columnWake (column : Nat) : Statement (.columnWake column) := ofEvent rfl rfl rfl
theorem crewRetire (crew : Nat) : Statement (.crewRetire crew) := ofEvent rfl rfl rfl
theorem castComplete (castId : Nat) : Statement (.castComplete castId) := ofEvent rfl rfl rfl
theorem preemptRequest  : Statement (.preemptRequest) := ofEvent rfl rfl rfl
theorem contextSave (crew : Nat) : Statement (.contextSave crew) := ofEvent rfl rfl rfl
theorem contextResume (ctx : Nat) : Statement (.contextResume ctx) := ofEvent rfl rfl rfl
theorem counterFlush (core : Nat) : Statement (.counterFlush core) := ofEvent rfl rfl rfl
theorem trapEntry (crew bun : Nat) : Statement (.trapEntry crew bun) := ofEvent rfl rfl rfl
theorem debugAttach (castId : Nat) (causes : BitVec 32) : Statement (.debugAttach castId causes) := ofEvent rfl rfl rfl
theorem debugHaltRequest (crew bun : Nat) : Statement (.debugHaltRequest crew bun) := ofEvent rfl rfl rfl
theorem debugResume (crew bun : Nat) (edits : List RegEdit) (form : TretForm) : Statement (.debugResume crew bun edits form) := ofEvent rfl rfl rfl
theorem qtailWrite (port queue tail : Nat) (writes : List Host.Cell) : Statement (.qtailWrite port queue tail writes) := ofEvent rfl rfl rfl
theorem qctlEnable (port queue : Nat) : Statement (.qctlEnable port queue) := ofEvent rfl rfl rfl
theorem qctlAbort (port queue : Nat) : Statement (.qctlAbort port queue) := ofEvent rfl rfl rfl
theorem faultbaseWrite (port base size : Nat) : Statement (.faultbaseWrite port base size) := ofEvent rfl rfl rfl
theorem faultackResolve (port id : Nat) : Statement (.faultackResolve port id) := ofEvent rfl rfl rfl
theorem faultackReject (port id : Nat) : Statement (.faultackReject port id) := ofEvent rfl rfl rfl
theorem faultTimeout (id : Nat) : Statement (.faultTimeout id) := ofEvent rfl rfl rfl
theorem registerWrite (port offset bytes : Nat) (value : DWord) : Statement (.registerWrite port offset bytes value) := ofEvent rfl rfl rfl
theorem recoveryImageSubmit (port : Nat) (image : List Byte) (verified : Bool) : Statement (.recoveryImageSubmit port image verified) := ofEvent rfl rfl rfl
theorem cast (seq : Nat) : Statement (.cast seq) := ofEvent rfl rfl rfl
theorem regionCreate (seq : Nat) : Statement (.regionCreate seq) := ofEvent rfl rfl rfl
theorem regionModify (seq : Nat) : Statement (.regionModify seq) := ofEvent rfl rfl rfl
theorem regionDestroy (seq : Nat) : Statement (.regionDestroy seq) := ofEvent rfl rfl rfl
theorem fill (seq : Nat) : Statement (.fill seq) := ofEvent rfl rfl rfl
theorem copy (seq : Nat) : Statement (.copy seq) := ofEvent rfl rfl rfl
theorem signal (seq : Nat) : Statement (.signal seq) := ofEvent rfl rfl rfl
theorem waitsignal (seq : Nat) : Statement (.waitsignal seq) := ofEvent rfl rfl rfl
theorem journalread (seq : Nat) : Statement (.journalread seq) := ofEvent rfl rfl rfl
theorem resetRegion (seq : Nat) : Statement (.resetRegion seq) := ofEvent rfl rfl rfl
theorem deviceReset (verified : Bool) (blob : Blob) : Statement (.deviceReset verified blob) := ofEvent rfl rfl rfl
theorem linkDown (link : Nat) : Statement (.linkDown link) := ofEvent rfl rfl rfl
theorem linkRejoin (link : Nat) : Statement (.linkRejoin link) := ofEvent rfl rfl rfl
theorem vbusPlannedRetire (bank : Nat) : Statement (.vbusPlannedRetire bank) := ofEvent rfl rfl rfl
theorem vbusForcedRetire (bank : Nat) : Statement (.vbusForcedRetire bank) := ofEvent rfl rfl rfl
theorem lineFetchArrival (crew bun : Nat) : Statement (.lineFetchArrival crew bun) := ofEvent rfl rfl rfl
theorem firmwareLadleComplete (port : Nat) : Statement (.firmwareLadleComplete port) := ofEvent rfl rfl rfl
theorem waitsignalSatisfied (seq : Nat) : Statement (.waitsignalSatisfied seq) := ofEvent rfl rfl rfl
theorem debugDetach (castId : Nat) : Statement (.debugDetach castId) := ofEvent rfl rfl rfl
theorem sharerInvalidation (line : Nat) : Statement (.sharerInvalidation line) := ofEvent rfl rfl rfl

end Sys2Proof.Laws.Coded
end

