-- ==== Sys2Proof/Machine/Bar.lean ====
section
/-! DEFINITION. What a host reads of the device through BAR0 of its port (R379): DEVINFO, the queue and fault-ring registers, the region control
blocks (R339, R340), the journal window (R386) and the error counters. A read has no effect on the device. -/

namespace Sys2Proof.Machine

/-- The 16 words of a region control block (R340). -/
def Region.block (r : Region) : List DWord :=
  let n := fun (v : Nat) => BitVec.ofNat 64 v
  let b := fun (c : Bool) (i : Nat) => if c then 2 ^ i else 0
  let f := fun i => (r.fcnt.getD i 0).toNat
  [n (r.parent * 2 ^ 52 + r.depth * 2 ^ 49 + r.host * 2 ^ 48 + r.priority * 2 ^ 44 + b r.faultdom 43 + b r.demand 42 + r.ovc * 2 ^ 37 +
      r.ovr.toNat * 2 ^ 30),
   n (r.root / 256 * 256), n r.handler.toNat, n (r.ctxb * 2 ^ 32 + r.granb),
   r.poolcnt, r.instcnt, r.mxcnt, r.ldcnt] ++
  (List.range 4).map (fun i => n (f (2 * i) + f (2 * i + 1) * 2 ^ 32)) ++
  [n (r.killCast.toNat * 2 ^ 32 + r.killCause.toNat * 2 ^ 24 + r.kills.toNat), 0, 0, 0]

/-- Word i of the region table: block n at 128 · n; the numbers no region has read zero (R339, R392). -/
def State.regionWord (s : State) (i : Nat) : DWord :=
  match s.region? (i / 16) with
  | some r => r.block.getD (i % 16) 0
  | none => 0

/-- The region window: a block reads only when its region lies in the reading host's subtree, every other as zero. -/
def State.regionWindow (s : State) (port i : Nat) : DWord := if s.inHost port (i / 16) then s.regionWord i else 0

/-- An entry as the other host's window shows it: every field zero but SEQ. -/
def JEntry.veiled (e : JEntry) : List Byte := leBytes 8 e.seq ++ List.replicate 24 0

/-- The journal window: the newest 4,096 entries, oldest first (log entry 82). -/
def State.journalWindow (s : State) (port i : Nat) : List Byte :=
  let l := s.host.journal.drop (s.host.journal.length - 4096)
  match l[i]? with
  | none => List.replicate 32 0
  | some e => if e.host == port then e.bytes else e.veiled

/-- The 8 bytes at offset 8 · j of a queue's 32 bytes of registers; write-only and reserved ones read zero (log entry 82). -/
def CmdQueue.register (c : CmdQueue) (j : Nat) : DWord :=
  match j with
  | 0 => c.base
  | 1 => BitVec.ofNat 64 c.size
  | 2 => BitVec.ofNat 64 (c.head + ((if c.enable then 1 else 0) + (if c.error then 4 else 0)) * 2 ^ 32)
  | _ => 0

/-- An 8-byte read of BAR0 at an offset that is a multiple of 8. -/
def State.barRead (s : State) (port offset : Nat) : DWord :=
  let p := s.port port
  if offset = 0 then BitVec.ofNat 64 (W + port * 2 ^ 8 + s.host.blob.fwVersion.toNat * 2 ^ 32)
  else if 0x1000 ≤ offset ∧ offset < 0x1800 then (p.queue ((offset - 0x1000) / 32)).register ((offset - 0x1000) % 32 / 8)
  else if offset = 0x3000 then p.faultBase
  else if offset = 0x3008 then BitVec.ofNat 64 p.faultSize
  else if 0x100000 ≤ offset ∧ offset < 0x180000 then s.regionWindow port ((offset - 0x100000) / 8)
  else if 0x200000 ≤ offset ∧ offset < 0x220000 then
    BitVec.ofNat 64 (leNat (((s.journalWindow port ((offset - 0x200000) / 32)).drop ((offset - 0x200000) % 32)).take 8))
  else if 0x300000 ≤ offset ∧ offset < 0x400000 then s.host.errors.getD ((offset - 0x300000) / 8) 0
  else if offset = 0x400000 then BitVec.ofNat 64 p.mailboxStatus.toNat
  else if 0x400008 ≤ offset ∧ offset < 0x800000 then BitVec.ofNat 64 (leNat ((p.mailbox.drop (offset - 0x400008)).take 8))
  else 0

end Sys2Proof.Machine
end

