-- ==== Sys2Proof/Safety.lean ====
section
/-! DEFINITION. What claims call a safe step and a safe run, and the words claims use: an instruction that issues, what it leaves in its
bundle, what it leaves alone, memory as one reads it. -/

namespace Sys2Proof.Safety

open Machine

/-- A step that neither faults nor is refused. -/
def Goes (s : State) : Prop := ∃ t, step s = .next t

/-- k steps, each of which goes on. -/
def RunsTo (s : State) : Nat → State → Prop
  | 0, t => s = t
  | k + 1, t => ∃ u, step s = .next u ∧ RunsTo u k t

/-! ## Instructions -/

/-- The bundle that issues in `s` may carry out `i` now, as the context `x`: `x` is that bundle's, no check of R42 and R43 fails, no stretch
hazard is met where the cast checks for them (R62), no deferred store fault (R210) and at its marker no kept FP_INVALID (R129, R367) falls due, an
implicit marker has nothing to wait for (R61), and the crew has a row for every name (R95). -/
structure Issues (i : Instr) (s : State) (x : Ctx) : Prop where
  cur : s.cur = some (x.c.cid, x.b.index)
  ctx : ∃ x0, s.ctx? x.c.cid x.b.index (guardOf i) = some x0 ∧ x = x0.counted
  legal : failing x.env i = none
  clear : x.cast.hazards = true → x.inTrap = false → x.hazard i = none
  owed : isSync i = true → x.b.owed = []
  due : (markOf i || x.asMarked i) = true → x.inTrap = false → x.b.fpDue = none
  drained : implicitMarker i = true → x.b.pend = []
  rows : x.c.ovc = 0

/-- `b` is the issuing bundle of `x` as the state `t` holds it. -/
def Holds (x : Ctx) (t : State) (b : Bundle) : Prop := ∃ c, t.bundle? x.c.cid x.b.index = some (c, b)

/-- A sub-bundle of the issuing one's lanes stands at the slot after the instruction. -/
def PastIt (x : Ctx) (b : Bundle) : Prop := ∃ y ∈ b.subs, y.mask = x.sub.mask ∧ y.pc = nextPc x.sub.pc

/-- The instruction goes on past itself, and of the whole device only its own bundle changes, to `b`. -/
def Ends (i : Instr) (s : State) (x : Ctx) (b : Bundle) : Prop :=
  exec i s = .next (x.s.setCrew (x.c.setBundle b)) ∧ PastIt x b

/-- A v name holds `v L` in every ACTIVE lane L. -/
def LanesAre (x : Ctx) (b : Bundle) (n : Nat) (v : Nat → Word) : Prop :=
  ∀ L, L < 32 → x.act.getLsbD L = true → (b.vreg n).shape.lane L = v L

/-- Predicate n holds `v L` in every ACTIVE lane L; p15 cannot be written (R86). -/
def PredIs (x : Ctx) (b : Bundle) (n : Nat) (v : Nat → Bool) : Prop :=
  n < 15 → ∀ L, L < 32 → x.act.getLsbD L = true → (b.predOf n).getLsbD L = v L

/-- FLAGS gains, outside trap mode, what the ACTIVE lanes that hold no helper set (R127, R367). -/
def FlagsGain (x : Ctx) (b : Bundle) (fl : Nat → Flags) : Prop :=
  ∀ j, j < 5 → b.flags.getLsbD j = (x.b.flags.getLsbD j || (!x.inTrap && x.actNH.lanes.any fun L => (fl L).getLsbD j))

/-- Where FP_INVALID is enabled no ACTIVE lane sets IV (R129). -/
def Quiet (x : Ctx) (fl : Nat → Flags) : Prop :=
  x.cast.fpinv = true → x.inTrap = false → ∀ L, L < 32 → x.actNH.getLsbD L = true → (fl L).getLsbD 0 = false

/-- The frame of an instruction in its bundle: but for the registers with operand codes `codes` (R30), FLAGS and the sub-bundles, the bundle
is as it was; a v or p register it writes keeps the lanes of strands that are not ACTIVE. -/
structure Keeps (x : Ctx) (b : Bundle) (codes : List Nat) : Prop where
  rest : { b with v := x.b.v, p := x.b.p, s := x.b.s, k := x.b.k, flags := x.b.flags, subs := x.b.subs, pend := x.b.pend } = x.b
  owned : b.v.length = x.b.v.length
  v : ∀ n, n ∉ codes → b.vreg n = x.b.vreg n
  s : ∀ n, 640 + n ∉ codes → b.s.getD n 0 = x.b.s.getD n 0
  p : ∀ n, 864 + n ∉ codes → b.predOf n = x.b.predOf n
  k : ∀ n, 880 + n ∉ codes → b.k.getD n 0 = x.b.k.getD n 0
  lanes : ∀ n L, L < 32 → x.b.live.getLsbD L = true → x.act.getLsbD L = false → (b.vreg n).shape.lane L = (x.b.vreg n).shape.lane L
  preds : ∀ n L, L < 32 → x.act.getLsbD L = false → (b.predOf n).getLsbD L = (x.b.predOf n).getLsbD L
  pend : (∀ n ∈ codes, x.b.isPending n = false) → b.pend = x.b.pend

/-- A short instruction that writes one v name: each ACTIVE lane by `g`, FLAGS what the lanes set, nothing else. -/
def WritesReg (i : Instr) (s : State) (x : Ctx) (dst : Nat) (g : Nat → Word × Flags) : Prop :=
  ∃ b, Ends i s x b ∧ LanesAre x b dst (fun L => (g L).1) ∧ FlagsGain x b (fun L => (g L).2) ∧ Keeps x b [dst]

/-- A short instruction that writes a v pair: its low and high words. -/
def WritesPair (i : Instr) (s : State) (x : Ctx) (dst : Nat) (g : Nat → DWord × Flags) : Prop :=
  ∃ b, Ends i s x b ∧ LanesAre x b dst (fun L => (g L).1.setWidth 32) ∧ LanesAre x b (dst + 1) (fun L => (g L).1.extractLsb' 32 32) ∧
    FlagsGain x b (fun L => (g L).2) ∧ Keeps x b [dst, dst + 1]

/-- A short integer instruction whose exact result in lane L is `v L`, formed for its destination by R29. -/
def WritesInt (i : Instr) (f : FmtA) (s : State) (x : Ctx) (round : Nat) (v : Nat → Int) : Prop :=
  if tyWide f.ty.toNat then WritesPair i s x f.dst.toNat fun L => formInt64 f.ty.toNat round (v L)
  else WritesReg i s x f.dst.toNat fun L => formInt f.ty.toNat f.dsub.toNat round (x.oldLane f.dst.toNat L) (v L)

/-- A short instruction that writes one predicate: each ACTIVE lane by `g`, nothing else but FLAGS. -/
def WritesPred (i : Instr) (s : State) (x : Ctx) (n : Nat) (g : Nat → Bool × Flags) : Prop :=
  ∃ b, Ends i s x b ∧ PredIs x b n (fun L => (g L).1) ∧ FlagsGain x b (fun L => (g L).2) ∧ Keeps x b [864 + n]

/-- A short instruction that writes no register and no FLAGS bit. -/
def WritesNothing (i : Instr) (s : State) (x : Ctx) : Prop := ∃ b, Ends i s x b ∧ b.flags = x.b.flags ∧ Keeps x b []

/-- A long instruction with ACTIVE lanes: it is pending with results bound at issue (R60): v name `n` gets `v` in every ACTIVE lane, for each
(n, v) of `regs`; predicate `n` likewise for each of `preds`; its registers and FLAGS are as they were. -/
def Binds (i : Instr) (s : State) (x : Ctx) (regs : List (Nat × (Nat → Word))) (preds : List (Nat × (Nat → Bool))) (fl : Nat → Flags) : Prop :=
  ∃ b p r, Ends i s x b ∧ b.pend = x.b.pend ++ [p] ∧ p.id = x.b.nextPend ∧ p.result = some r ∧ p.written = false ∧
    (∀ e ∈ regs, ∀ L, L < 32 → x.act.getLsbD L = true → r.lane e.1 L = some ((e.2 L).setWidth 64)) ∧
    (∀ e ∈ preds, e.1 < 15 → ∀ L, L < 32 → x.act.getLsbD L = true → r.lane (864 + e.1) L = some (if e.2 L then 1 else 0)) ∧
    (∀ j, j < 5 → r.flags.getLsbD j = x.actNH.lanes.any fun L => (fl L).getLsbD j) ∧
    b.v = x.b.v ∧ b.p = x.b.p ∧ b.s = x.b.s ∧ b.k = x.b.k ∧ b.flags = x.b.flags

/-! ## Memories -/

/-- The memories outside the cores are in canonical form, and every L2 line holds 128 bytes. -/
structure DeviceMemWf (m : MemSys) : Prop where
  gddr : m.gddr.wf = true
  peers : m.peerMem.wf = true
  hosts : ∀ h ∈ m.host, h.wf = true
  lines : ∀ l ∈ m.l2, l.data.length = 128

/-- The memories of a crew are in canonical form. -/
structure CrewMemWf (c : Crew) : Prop where
  plain : c.plain.wf = true
  ring : c.ringMem.wf = true
  live : c.live.wf = true
  shadow : c.shadow.wf = true
  wdata : c.wdata.wf = true
  wside : c.wside.wf = true
  tiles : ∀ z ∈ c.tiles, z.elems.wf = true

/-- The memories of the crews, of the saved contexts and of the codebook tables are in canonical form. -/
structure CoreMemWf (s : State) : Prop where
  crews : ∀ c ∈ s.crews, CrewMemWf c
  contexts : ∀ x ∈ s.disp.contexts, CrewMemWf x.crew ∧ ∀ t ∈ x.tables, t.2.wf = true
  tables : ∀ k ∈ s.cores, ∀ t ∈ k.tables, t.data.wf = true ∧ ∀ o, t.old = some o → o.wf = true

end Sys2Proof.Safety
end

