-- ==== Sys2Proof/Certificates/Slice0/Obligations.lean ====
section
/-! DEFINITION. The statements for the provers. `Issues i s x` of Safety says that the issuing bundle may carry out `i` now; its conclusions
say that `exec` answers a next state, which, and what it leaves alone. -/

open Sys2Proof Sys2Proof.Machine Sys2Proof.Safety

/-! ## Integer instructions (R139 to R151) -/

/-- R141: add, sub, mul, mulh, mad, madw, min and max write the exact result of their row, formed by R29. -/
def Claims.IntegerArithmetic : Prop :=
  ∀ (f : FmtA) (s : State) (x : Ctx),
    (Issues (.add f) s x → WritesInt (.add f) f s x f.round.toNat fun L => intA f x L + intB f x L) ∧
    (Issues (.sub f) s x → WritesInt (.sub f) f s x f.round.toNat fun L => intA f x L - intB f x L) ∧
    (Issues (.mul f) s x → WritesInt (.mul f) f s x f.round.toNat fun L => intA f x L * intB f x L) ∧
    (Issues (.mulh f) s x → WritesInt (.mulh f) f s x 0 fun L => intA f x L * intB f x L / 2 ^ tyBits f.ty.toNat) ∧
    (Issues (.mad f) s x → WritesInt (.mad f) f s x f.round.toNat fun L => intA f x L * intB f x L + intC f x L) ∧
    (Issues (.madw f) s x → WritesInt (.madw f) f s x f.round.toNat fun L =>
      int32 f x f.opa f.moda L * int32 f x f.opb f.modb L + intC f x L) ∧
    (Issues (.min f) s x → WritesInt (.min f) f s x f.round.toNat fun L => min (intA f x L) (intB f x L)) ∧
    (Issues (.max f) s x → WritesInt (.max f) f s x f.round.toNat fun L => max (intA f x L) (intB f x L))

/-- R142: addc and subb write the sum or difference with the carry or borrow in, and in a predicate the carry or borrow out. -/
def Claims.CarryChains : Prop :=
  ∀ (f : FmtA) (s : State) (x : Ctx),
    (Issues (.addc f) s x → ∃ b, Ends (.addc f) s x b ∧
      (tyWide f.ty.toNat = false → LanesAre x b f.dst.toNat fun L =>
        (formInt f.ty.toNat f.dsub.toNat 0 (x.oldLane f.dst.toNat L) (intA f x L + intB f x L + carryIn f x L)).1) ∧
      (tyWide f.ty.toNat = true → ∀ L, L < 32 → x.act.getLsbD L = true →
        (b.vreg (f.dst.toNat + 1)).shape.lane L ++ (b.vreg f.dst.toNat).shape.lane L =
          BitVec.ofInt 64 (intA f x L + intB f x L + carryIn f x L)) ∧
      PredIs x b (f.func.toNat % 16) (fun L => decide (2 ^ tyBits f.ty.toNat ≤ intA f x L + intB f x L + carryIn f x L)) ∧
      b.flags = x.b.flags ∧ Keeps x b [f.dst.toNat, f.dst.toNat + (if tyWide f.ty.toNat then 1 else 0), 864 + f.func.toNat % 16]) ∧
    (Issues (.subb f) s x → ∃ b, Ends (.subb f) s x b ∧
      (tyWide f.ty.toNat = false → LanesAre x b f.dst.toNat fun L =>
        (formInt f.ty.toNat f.dsub.toNat 0 (x.oldLane f.dst.toNat L) (intA f x L - intB f x L - carryIn f x L)).1) ∧
      (tyWide f.ty.toNat = true → ∀ L, L < 32 → x.act.getLsbD L = true →
        (b.vreg (f.dst.toNat + 1)).shape.lane L ++ (b.vreg f.dst.toNat).shape.lane L =
          BitVec.ofInt 64 (intA f x L - intB f x L - carryIn f x L)) ∧
      PredIs x b (f.func.toNat % 16) (fun L => decide (intA f x L - intB f x L - carryIn f x L < 0)) ∧
      b.flags = x.b.flags ∧ Keeps x b [f.dst.toNat, f.dst.toNat + (if tyWide f.ty.toNat then 1 else 0), 864 + f.func.toNat % 16])

/-- R143, R144: and, or, xor, andn; shl, shr, sar and rot, whose amount is read as n32 and may be any; a rotate takes it modulo the width. -/
def Claims.BitwiseAndShifts : Prop :=
  ∀ (f : FmtA) (s : State) (x : Ctx),
    let a := fun L => x.src f.ty.toNat f.opa.toNat f.moda L
    let b := fun L => x.src f.ty.toNat f.opb.toNat f.modb L
    let k := fun L => ctl32 f x f.opb f.modb L
    let w := tyBits f.ty.toNat
    (Issues (.and f) s x → WritesInt (.and f) f s x 0 fun L => ((a L &&& b L : Nat) : Int)) ∧
    (Issues (.or f) s x → WritesInt (.or f) f s x 0 fun L => ((a L ||| b L : Nat) : Int)) ∧
    (Issues (.xor f) s x → WritesInt (.xor f) f s x 0 fun L => ((a L ^^^ b L : Nat) : Int)) ∧
    (Issues (.andn f) s x → WritesInt (.andn f) f s x 0 fun L => ((a L ^^^ (a L &&& b L) : Nat) : Int)) ∧
    (Issues (.shl f) s x → WritesInt (.shl f) f s x 0 fun L => if k L < w then intA f x L * 2 ^ k L else 0) ∧
    (Issues (.shr f) s x → WritesInt (.shr f) f s x 0 fun L => if k L < w then intA f x L / 2 ^ k L else 0) ∧
    (Issues (.sar f) s x → WritesInt (.sar f) f s x 0 fun L =>
      if k L < w then intA f x L / 2 ^ k L else if intA f x L < 0 then -1 else 0) ∧
    (Issues (.rot f) s x → WritesInt (.rot f) f s x 0 fun L =>
      ((a L * 2 ^ (k L % w) % 2 ^ w + a L / 2 ^ (w - k L % w) : Nat) : Int))

/-- R145, R146, R148, R149, R151: fields, bit counts, addresses, packed dot products and byte permutes. -/
def Claims.FieldsAndBits : Prop :=
  ∀ (f : FmtA) (s : State) (x : Ctx),
    let ty := f.ty.toNat
    let w := tyBits ty
    let a := fun L => x.src ty f.opa.toNat f.moda L
    let cb := fun L => ctl32 f x f.opb f.modb L
    let cc := fun L => ctl32 f x f.opc f.modc L
    (Issues (.bfe f) s x → WritesInt (.bfe f) f s x 0 fun L =>
      fieldExtract (tySigned ty) w (a L) (cb L % 256) (min (cb L / 256 % 256) w)) ∧
    (Issues (.bfi f) s x → WritesInt (.bfi f) f s x 0 fun L =>
      (fieldInsert w (a L) (x.src ty f.opb.toNat f.modb L) (cc L % 256) (min (cc L / 256 % 256) w) : Nat)) ∧
    (Issues (.popc f) s x → WritesReg (.popc f) s x f.dst.toNat fun L =>
      (BitVec.ofNat 32 ((List.range w).filter fun i => (a L).testBit i).length, 0)) ∧
    (Issues (.clz f) s x → WritesReg (.clz f) s x f.dst.toNat fun L => (BitVec.ofNat 32 (w - bitLen (a L)), 0)) ∧
    (Issues (.ctz f) s x → WritesReg (.ctz f) s x f.dst.toNat fun L =>
      (BitVec.ofNat 32 (((List.range w).find? fun i => (a L).testBit i).getD w), 0)) ∧
    (Issues (.brev f) s x → WritesInt (.brev f) f s x 0 fun L => (reverseBits w (a L) : Nat)) ∧
    (Issues (.lea f) s x → WritesInt (.lea f) f s x 0 fun L =>
      a L + (if cc L < w then (if ty = 4 ∧ f.func = 0 then readInt true 32 (cb L) else (cb L : Int)) * 2 ^ cc L else 0)) ∧
    (Issues (.dp4 f) s x → WritesInt (.dp4 f) f s x f.round.toNat fun L =>
      intC f x L + dotSum (tySigned ty) (if f.func = 1 then !tySigned ty else tySigned ty) 4 8
        (x.src ty f.opa.toNat 0 L) (x.src ty f.opb.toNat 0 L)) ∧
    (Issues (.dp2 f) s x → WritesInt (.dp2 f) f s x f.round.toNat fun L =>
      intC f x L + dotSum (tySigned ty) (if f.func = 1 then !tySigned ty else tySigned ty) 2 16
        (x.src ty f.opa.toNat 0 L) (x.src ty f.opb.toNat 0 L)) ∧
    (Issues (.prmt f) s x → WritesInt (.prmt f) f s x 0 fun L =>
      (permute (x.src 0 f.opa.toNat 0 L) (x.src 0 f.opb.toNat 0 L) (x.src 0 f.opc.toNat 0 L) : Nat))

/-- Bitwise, shift, field and bit-count instructions (R143 to R146, R148, R149, R151). -/
def Obligations.BitOperations : Prop := Claims.BitwiseAndShifts ∧ Claims.FieldsAndBits

/-- R150: sadd and ssub always clamp to the destination's range, whatever the pattern of the type. -/
def Claims.SaturatingAddSub : Prop :=
  ∀ (f : FmtA) (s : State) (x : Ctx),
    (Issues (.sadd f) s x → WritesInt (.sadd f) f s x 5 fun L => intA f x L + intB f x L) ∧
    (Issues (.ssub f) s x → WritesInt (.ssub f) f s x 5 fun L => intA f x L - intB f x L)

/-- The integer arithmetic instructions, wrapping and saturating (R29, R141, R150). -/
def Obligations.IntegerSums : Prop := Claims.IntegerArithmetic ∧ Claims.SaturatingAddSub

/-- R147, R156: a compare writes a predicate, alone or combined with another by and or or, from the order of its sources; a float compare with a NaN is
unordered, and of a signalling NaN, or under an ordered relation of any NaN, sets IV. -/
def Claims.Compares : Prop :=
  ∀ (f : FmtA) (s : State) (x : Ctx),
    (Issues (.cmp f) s x → WritesPred (.cmp f) s x (f.dst.toNat - 864) fun L =>
      (combine f x (match f.func.toNat % 16 with
        | 0 => decide (intA f x L = intB f x L)
        | 1 => decide (intA f x L ≠ intB f x L)
        | 2 => decide (intA f x L < intB f x L)
        | 3 => decide (intA f x L ≤ intB f x L)
        | 4 => decide (intB f x L < intA f x L)
        | _ => decide (intB f x L ≤ intA f x L)) L, 0)) ∧
    (Issues (.fcmp f) s x → Quiet x (fun L => if (fcond (f.func.toNat % 16) (fltA f x L) (fltB f x L)).2 then flagIV else 0) →
      WritesPred (.fcmp f) s x (f.dst.toNat - 864) fun L =>
        (combine f x (fcond (f.func.toNat % 16) (fltA f x L) (fltB f x L)).1 L,
         if (fcond (f.func.toNat % 16) (fltA f x L) (fltB f x L)).2 then flagIV else 0))

/-- Carry chains and integer compares (R142, R147, R156). -/
def Obligations.CarriesAndCompares : Prop := Claims.CarryChains ∧ Claims.Compares

/-- What ROUND makes of an exact value of a type n bits wide: under 0 to 4 it stays, under 5 to 7 it is the nearest of the type's values. -/
def nearestIn (signed : Bool) (n round : Nat) (r : Int) : Int :=
  if round < 5 then r else if signed then max (-2 ^ (n - 1)) (min (2 ^ (n - 1) - 1) r) else max 0 (min (2 ^ n - 1) r)

/-- R29: an integer result in a whole 32-bit register is its low 32 bits; with `.sat` it is the nearest value of the type, and SAT says when
that differs; a result in a field leaves the other bits of the register. For every TYPE, field and ROUND: codes 0 to 4 keep the low bits, 5 to 7 clamp;
the value is narrowed to the narrower of field and type and extended by TYPE's sign over the field; a 64-bit result likewise. -/
def Obligations.ResultForming : Prop :=
  (∀ (ty : Nat) (old : Word) (r : Int), ty ≤ 2 → formInt ty 0 0 old r = (BitVec.ofInt 32 r, 0)) ∧
  (∀ (old : Word) (r : Int), formInt 1 0 5 old r =
    if r < -2 ^ 31 then (0x80000000#32, flagSAT) else if 2 ^ 31 ≤ r then (0x7FFFFFFF#32, flagSAT) else (BitVec.ofInt 32 r, 0)) ∧
  (∀ (old : Word) (r : Int), formInt 2 0 5 old r =
    if r < 0 then (0#32, flagSAT) else if 2 ^ 32 ≤ r then (0xFFFFFFFF#32, flagSAT) else (BitVec.ofInt 32 r, 0)) ∧
  (∀ (ty dsub round i : Nat) (old : Word) (r : Int), dsub < 20 → i < 32 →
    (i < (subField dsub).1 ∨ (subField dsub).1 + (subField dsub).2 ≤ i) →
      (formInt ty dsub round old r).1.getLsbD i = old.getLsbD i) ∧
  (∀ (ty dsub round : Nat) (old : Word) (r : Int), tyWide ty = false → dsub < 20 →
    let p := subField dsub
    let n := min (tyBits ty) p.2
    let c := nearestIn (tySigned ty) n round r
    let out := formInt ty dsub round old r
    out.2 = (if c = r then 0 else flagSAT) ∧
    (∀ i, i < n → out.1.getLsbD (p.1 + i) = decide (c / 2 ^ i % 2 = 1)) ∧
    (∀ i, n ≤ i → i < p.2 → out.1.getLsbD (p.1 + i) = (tySigned ty && decide (c / 2 ^ (n - 1) % 2 = 1)))) ∧
  (∀ (ty round : Nat) (r : Int), tyWide ty = true →
    let c := nearestIn (tySigned ty) 64 round r
    formInt64 ty round r = (BitVec.ofInt 64 c, if c = r then 0 else flagSAT))

/-! ## Float instructions and conversions (R152 to R163) -/

/-- A short float result rounded into the destination's format or field by R29, with the flags of that rounding. -/
def floatLane (f : FmtA) (x : Ctx) (L : Nat) (r : FRes) : Word × Flags :=
  formF f.ty.toNat f.dsub.toNat f.round.toNat x.ftz (x.oldLane f.dst.toNat L) r

/-- A short instruction that writes one v register, unless a lane raises FP_INVALID. -/
def WritesQuiet (i : Instr) (s : State) (x : Ctx) (dst : Nat) (g : Nat → Word × Flags) : Prop :=
  Issues i s x → Quiet x (fun L => (g L).2) → WritesReg i s x dst g

/-- fdot2 in a lane (R154). -/
def fdot2Lane (f : FmtA) (x : Ctx) (L : Nat) : Word × Flags :=
  let src := f.func.toNat % 16
  let a := x.raw32 0 f.opa.toNat L
  let b := x.raw32 0 f.opb.toNat L
  floatLane f x L (sum3 (decide (f.round = 2)) (mulVal (halfF x src f.moda a 0) (halfF x src f.modb b 0))
    (mulVal (halfF x src f.moda a 1) (halfF x src f.modb b 1)) (fltC f x L))
/-- frnd in a lane (R158). -/
def frndLane (f : FmtA) (x : Ctx) (L : Nat) : Word × Flags :=
  ((formF f.ty.toNat f.dsub.toNat 0 false (x.oldLane f.dst.toNat L) (integralVal (roundMode f.round.toNat).1 (fltA f x L))).1,
   if (fltA f x L).isSnan then flagIV else 0)
/-- fscale in a lane (R159). -/
def fscaleLane (f : FmtA) (x : Ctx) (L : Nat) : Word × Flags :=
  floatLane f x L (scaleVal (fltA f x L) (clampExp (x.srcInt 1 f.opb.toNat f.modb L)))
/-- fexp in a lane (R160). -/
def fexpLane (f : FmtA) (x : Ctx) (L : Nat) : Word × Flags :=
  let v := (tyFmt f.ty.toNat).read false (x.src f.ty.toNat f.opa.toNat f.moda L)
  if f.func = 0 then (BitVec.ofInt 32 (exponentOf v).1, (exponentOf v).2)
  else (BitVec.ofNat 32 (roundTo (tyFmt f.ty.toNat) 0 false (significandOf v)).1, if v.isSnan then flagIV else 0)
/-- fmin or fmax in a lane (R155). -/
def minMaxLane (f : FmtA) (x : Ctx) (isMax : Bool) (L : Nat) : Word × Flags :=
  let a := fltA f x L
  let b := fltB f x L
  let pick := if a.isNan && b.isNan then FVal.nan false else if a.isNan then b else if b.isNan then a
    else if belowVal b a = isMax then a else b
  let r := floatLane f x L pick.res
  (r.1, if a.isSnan || b.isSnan then r.2 ||| flagIV else r.2)

/-- R154, R158 to R160: fadd, fmul, ffma and fdot2 compute the exact value and round it once; frnd rounds to an integral value without a
flag but IV; fscale multiplies by a power of two; fexp gives the exponent or the significand. -/
def Claims.FloatArithmetic : Prop :=
  ∀ (f : FmtA) (s : State) (x : Ctx),
    let rdn := decide (f.round = 2)
    let dst := f.dst.toNat
    WritesQuiet (.fadd f) s x dst (fun L => floatLane f x L (addVal rdn (fltA f x L) (fltB f x L))) ∧
    WritesQuiet (.fmul f) s x dst (fun L => floatLane f x L (mulVal (fltA f x L) (fltB f x L))) ∧
    WritesQuiet (.ffma f) s x dst (fun L => floatLane f x L (fmaVal rdn (fltA f x L) (fltB f x L) (fltC f x L))) ∧
    WritesQuiet (.fdot2 f) s x dst (fdot2Lane f x) ∧
    WritesQuiet (.frnd f) s x dst (frndLane f x) ∧
    WritesQuiet (.fscale f) s x dst (fscaleLane f x) ∧
    WritesQuiet (.fexp f) s x dst (fexpLane f x)

/-- R155, R157: fmin and fmax give the number where the other source is a NaN, a canonical NaN of two, −0 below +0, and IV of a signalling NaN;
fclass sets the one bit of its source's class and no flag. -/
def Claims.FloatSelection : Prop :=
  ∀ (f : FmtA) (s : State) (x : Ctx),
    WritesQuiet (.fmin f) s x f.dst.toNat (minMaxLane f x false) ∧ WritesQuiet (.fmax f) s x f.dst.toNat (minMaxLane f x true) ∧
    WritesQuiet (.fclass f) s x f.dst.toNat (fun L =>
      (BitVec.ofNat 32 (2 ^ classOf (tyFmt f.ty.toNat) (x.src f.ty.toNat f.opa.toNat f.moda L)), 0))

/-- Float arithmetic, selection and classification (R154, R155, R157 to R160). -/
def Obligations.FloatResults : Prop := Claims.FloatArithmetic ∧ Claims.FloatSelection

/-- The value a conversion reads in a lane: a float, or an integer as an exact value (R161). -/
def convSource (f : FmtA) (x : Ctx) (L : Nat) : FRes :=
  let src := f.func.toNat % 16
  if tyFloat src then (x.srcF src f.opa.toNat f.moda L).res else (FVal.ofInt (x.srcInt src f.opa.toNat f.moda L)).res

/-- cvt to a 64-bit integer in a lane (R161). -/
def cvtWide (f : FmtA) (x : Ctx) (L : Nat) : DWord × Flags :=
  (BitVec.ofInt 64 (toIntField (intRound f.round.toNat) (tySigned f.ty.toNat) 64 (convSource f x L)).1,
   (toIntField (intRound f.round.toNat) (tySigned f.ty.toNat) 64 (convSource f x L)).2)
/-- cvt to a float or a 32-bit integer in a lane (R161). -/
def cvtLane (f : FmtA) (x : Ctx) (L : Nat) : Word × Flags :=
  if tyFloat f.ty.toNat then floatLane f x L (convSource f x L)
  else formToInt f.ty.toNat f.dsub.toNat f.round.toNat (x.oldLane f.dst.toNat L) (convSource f x L)
/-- cvtp in a lane (R162). -/
def cvtpLane (f : FmtA) (x : Ctx) (L : Nat) : Word × Flags :=
  packWord f.ty.toNat (f.func.toNat % 2) f.round.toNat x.ftz (x.oldLane f.dst.toNat L) (x.srcF 3 f.opa.toNat f.moda L).res
    (x.srcF 3 f.opb.toNat f.modb L).res
/-- quant in a lane (R163). -/
def quantLane (f : FmtA) (x : Ctx) (L : Nat) : Word × Flags :=
  let w := (subField f.dsub.toNat).2
  let q := quantise f.round.toNat (tySigned f.ty.toNat) (min (tyBits f.ty.toNat) w) (x.srcF (f.func.toNat % 16) f.opa.toNat f.moda L)
    (x.srcInt 1 f.opb.toNat f.modb L) (x.srcInt 1 f.opc.toNat f.modc L)
  (putField (x.oldLane f.dst.toNat L) (subField f.dsub.toNat).1 w (wrapInt w q.1), q.2)

/-- R161 to R163: cvt rounds the source's exact value once into the destination, an integer one by clamping; cvtp packs two f32 sources;
quant rounds a · 2^k, adds the zero point and clamps. -/
def Obligations.Conversions : Prop :=
  ∀ (f : FmtA) (s : State) (x : Ctx),
    (Issues (.cvt f) s x →
      (tyWide f.ty.toNat = true → Quiet x (fun L => (cvtWide f x L).2) → WritesPair (.cvt f) s x f.dst.toNat (cvtWide f x)) ∧
      (tyWide f.ty.toNat = false → Quiet x (fun L => (cvtLane f x L).2) → WritesReg (.cvt f) s x f.dst.toNat (cvtLane f x))) ∧
    WritesQuiet (.cvtp f) s x f.dst.toNat (cvtpLane f x) ∧ WritesQuiet (.quant f) s x f.dst.toNat (quantLane f x)

/-- A value passing through a copy from the operand `code` with modifier `m`, formed by R29. -/
def copyLane (f : FmtA) (x : Ctx) (code : Nat) (m : BitVec 7) (L : Nat) : Word × Flags :=
  if tyFloat f.ty.toNat then floatLane f x L (x.srcF f.ty.toNat code m L).res
  else formInt f.ty.toNat f.dsub.toNat f.round.toNat (x.oldLane f.dst.toNat L) (x.srcInt f.ty.toNat code m L)

/-- The operand and modifier that sel takes in a lane (R105). -/
def selFrom (f : FmtA) (x : Ctx) (L : Nat) : Nat × BitVec 7 :=
  if x.pred f.opc.toNat L then (f.opa.toNat, f.moda) else (f.opb.toNat, f.modb)

/-- A short instruction of the FP_INVALID option outside trap mode, of whose ACTIVE lanes that hold no helper some set IV (flags `fl`), has
written what it writes (`wrote`) and takes FP_INVALID. -/
def TrapsInvalid (i : Instr) (s : State) (x : Ctx) (fl : Nat → Flags) (wrote : Bundle → Prop) : Prop :=
  Issues i s x → x.cast.fpinv = true → x.inTrap = false →
    let iv := maskOf fun L => x.actNH.getLsbD L && (fl L).getLsbD 0
    iv ≠ 0 → s.debugTakes x.c.castId 16 = false → (∃ r, s.region? x.c.region = some r ∧ r.handler ≠ 0) →
    ∃ t c b tr, exec i s = .next t ∧ t.bundle? x.c.cid x.b.index = some (c, b) ∧ b.trap = some tr ∧ tr.cause = 16 ∧
      tr.pc = x.sub.pc ∧ tr.info = iv.setWidth 128 ∧ tr.pair = false ∧ wrote b ∧ FlagsGain x b fl

/-- R129: a short float instruction (fadd, fmul, ffma, fdot2, frnd, fscale, fexp, fmin, fmax, fcmp, cvt, cvtp, quant, a float mov or sel) under
the FP_INVALID option, outside trap mode, whose lanes set IV writes its result and then takes FP_INVALID, its TRAPINFO the lanes that set IV; FLAGS
holds them in trap mode. -/
def Obligations.FpInvalidTrap : Prop :=
  ∀ (f : FmtA) (s : State) (x : Ctx),
    let rdn := decide (f.round = 2)
    let one := fun (i : Instr) (g : Nat → Word × Flags) =>
      TrapsInvalid i s x (fun L => (g L).2) fun b => LanesAre x b f.dst.toNat fun L => (g L).1
    one (.fadd f) (fun L => floatLane f x L (addVal rdn (fltA f x L) (fltB f x L))) ∧
    one (.fmul f) (fun L => floatLane f x L (mulVal (fltA f x L) (fltB f x L))) ∧
    one (.ffma f) (fun L => floatLane f x L (fmaVal rdn (fltA f x L) (fltB f x L) (fltC f x L))) ∧
    one (.fdot2 f) (fdot2Lane f x) ∧ one (.frnd f) (frndLane f x) ∧ one (.fscale f) (fscaleLane f x) ∧ one (.fexp f) (fexpLane f x) ∧
    one (.fmin f) (minMaxLane f x false) ∧ one (.fmax f) (minMaxLane f x true) ∧
    one (.cvtp f) (cvtpLane f x) ∧ one (.quant f) (quantLane f x) ∧
    (tyWide f.ty.toNat = false → one (.cvt f) (cvtLane f x)) ∧
    (tyWide f.ty.toNat = true → TrapsInvalid (.cvt f) s x (fun L => (cvtWide f x L).2) fun b =>
      LanesAre x b f.dst.toNat (fun L => (cvtWide f x L).1.setWidth 32) ∧
      LanesAre x b (f.dst.toNat + 1) fun L => (cvtWide f x L).1.extractLsb' 32 32) ∧
    (let c := fun L => fcond (f.func.toNat % 16) (fltA f x L) (fltB f x L)
     TrapsInvalid (.fcmp f) s x (fun L => if (c L).2 then flagIV else 0) fun b => PredIs x b (f.dst.toNat - 864) fun L => combine f x (c L).1 L) ∧
    (f.dst.toNat < 640 → tyWide f.ty.toNat = false → one (.mov f) (copyLane f x f.opa.toNat f.moda)) ∧
    (tyWide f.ty.toNat = false → one (.sel f) fun L => copyLane f x (selFrom f x L).1 (selFrom f x L).2 L)

/-! ## Special functions (R164) -/

/-- R164: a special function is long; its pending result is the exact value rounded once. The model's choice: the enclosures that find the rounding (log entry 5). -/
def Obligations.SpecialFunctions : Prop :=
  ∀ (f : FmtA) (s : State) (x : Ctx), x.act ≠ 0 →
    let out := fun (g : FVal → FRes) (L : Nat) => formF 3 0 0 x.ftz (x.oldLane f.dst.toNat L) (g (fltA f x L))
    let sfu := fun (i : Instr) (g : FVal → FRes) =>
      Issues i s x → Binds i s x [(f.dst.toNat, fun L => (out g L).1)] [] (fun L => (out g L).2)
    sfu (.rcp f) rcpVal ∧ sfu (.rsq f) rsqVal ∧ sfu (.sqrt f) sqrtVal ∧ sfu (.lg2 f) lg2Val ∧ sfu (.ex2 f) ex2Val ∧
    sfu (.sinp f) sinpVal ∧ sfu (.cosp f) cospVal ∧ sfu (.tanh f) tanhVal

/-! ## Registers and predicates (R75, R102 to R114) -/

/-- A short instruction whose destination is an s register below s128 or a k register: written once, when a lane that is ACTIVE and no
helper exists (R23). -/
def WritesScalar (i : Instr) (s : State) (x : Ctx) (dst : Nat) (v : DWord) : Prop :=
  (x.actNH = 0 → WritesNothing i s x) ∧
  (x.actNH ≠ 0 → ∃ b, Ends i s x b ∧ (dst < 768 → b.s.getD (dst - 640) 0 = v) ∧ (880 ≤ dst → b.k.getD (dst - 880) 0 = v) ∧
    b.flags = x.b.flags ∧ Keeps x b [dst])

/-- R75, R103 to R105: nop writes nothing; mov and sel copy a source through its modifier and the destination's field, to lanes or to a
scalar; movi writes its immediate, `.hi` the high half only. The model's choice: where a copy keeps tag A (log entry 6). -/
def Obligations.Copies : Prop :=
  ∀ (f : FmtA) (g : FmtI) (s : State) (x : Ctx),
    let ty := f.ty.toNat
    let low := lowLane x.actNH
    let from? := selFrom f x
    (Issues (.nop f) s x → WritesNothing (.nop f) s x) ∧
    (Issues (.mov f) s x →
      (f.dst.toNat < 640 → tyWide ty = true → WritesPair (.mov f) s x f.dst.toNat fun L =>
        formInt64 ty f.round.toNat (x.srcInt ty f.opa.toNat f.moda L)) ∧
      (f.dst.toNat < 640 → tyWide ty = false → Quiet x (fun L => (copyLane f x f.opa.toNat f.moda L).2) →
        WritesReg (.mov f) s x f.dst.toNat (copyLane f x f.opa.toNat f.moda)) ∧
      (640 ≤ f.dst.toNat → WritesScalar (.mov f) s x f.dst.toNat (BitVec.ofNat 64 (x.src ty f.opa.toNat f.moda low)))) ∧
    (Issues (.sel f) s x →
      (tyWide ty = true → WritesPair (.sel f) s x f.dst.toNat fun L =>
        formInt64 ty f.round.toNat (x.srcInt ty (from? L).1 (from? L).2 L)) ∧
      (tyWide ty = false → Quiet x (fun L => (copyLane f x (from? L).1 (from? L).2 L).2) →
        WritesReg (.sel f) s x f.dst.toNat fun L => copyLane f x (from? L).1 (from? L).2 L)) ∧
    (Issues (.movi g) s x →
      (g.dst.toNat < 640 → g.func = 1 → WritesReg (.movi g) s x (g.dst.toNat + 1) fun _ => (g.imm, 0)) ∧
      (g.dst.toNat < 640 → g.func ≠ 1 → tyWide g.ty.toNat = true → WritesPair (.movi g) s x g.dst.toNat fun _ =>
        (if g.ty = 6 then g.imm.setWidth 64 else g.imm.signExtend 64, 0)) ∧
      (g.dst.toNat < 640 → g.func ≠ 1 → tyWide g.ty.toNat = false → WritesReg (.movi g) s x g.dst.toNat fun _ => (g.imm, 0)) ∧
      (640 ≤ g.dst.toNat → g.func = 1 → WritesScalar (.movi g) s x g.dst.toNat
        (g.imm ++ (if g.dst.toNat < 800 then x.sreg (g.dst.toNat - 640) low else x.b.k.getD (g.dst.toNat - 880) 0).setWidth 32)) ∧
      (640 ≤ g.dst.toNat → g.func ≠ 1 → WritesScalar (.movi g) s x g.dst.toNat
        (if g.ty = 1 ∨ g.ty = 4 ∨ g.ty = 5 then g.imm.signExtend 64 else g.imm.setWidth 64)))

/-- R88, R106, R107: sreg reads a special register, under b32 its low word; sset writes a scalar, or a crew constant, from the lowest ACTIVE lane
that is no helper: its own bundle sees the new constant at once. The model's choice: the TYPEs of sreg (log entry 16). -/
def Obligations.SpecialAndScalar : Prop :=
  ∀ (f : FmtA) (s : State) (x : Ctx),
    let code := f.func.toNat % 32
    let word := f.func.toNat / 32
    let dst := f.dst.toNat
    let val := fun L : Nat => if sregU code then x.special code word else ((x.specialShape code).lane L).setWidth 64
    let low := lowLane x.actNH
    let v : DWord := if f.ty = 4 then BitVec.ofNat 64 (x.raw64 4 f.opa.toNat low)
      else if f.ty = 1 then (BitVec.ofNat 32 (x.raw32 0 f.opa.toNat low)).signExtend 64
      else (BitVec.ofNat 32 (x.raw32 0 f.opa.toNat low)).setWidth 64
    (Issues (.sreg f) s x →
      (dst < 640 → f.ty = 4 → WritesPair (.sreg f) s x dst fun L => (val L, 0)) ∧
      (dst < 640 → f.ty ≠ 4 → WritesReg (.sreg f) s x dst fun L => ((val L).setWidth 32, 0)) ∧
      (640 ≤ dst → WritesScalar (.sreg f) s x dst (if f.ty = 4 then val 0 else ((val 0).setWidth 32).setWidth 64))) ∧
    (Issues (.sset f) s x →
      (dst < 768 ∨ 880 ≤ dst → WritesScalar (.sset f) s x dst v) ∧
      (768 ≤ dst → dst < 800 → x.actNH = 0 → WritesNothing (.sset f) s x) ∧
      (768 ≤ dst → dst < 800 → x.actNH ≠ 0 → ∃ (b : Bundle) (c : Crew), exec (.sset f) s = .next (x.s.setCrew (c.setBundle b)) ∧ PastIt x b ∧
        c = x.c.writeConst (dst - 768) v x.b.index x.s.coreClock ∧ (x.c.constLog = [] → c.consts.getD (dst - 768) 0 = v) ∧
        b.seen.getD (dst - 768) 0 = v ∧ (∀ n, n ≠ dst - 768 → b.seen.getD n 0 = x.b.seen.getD n 0) ∧ b.flags = x.b.flags ∧
        Keeps x { b with seen := x.b.seen, seenAt := x.b.seenAt } []))

/-- R108, R109: tag reads a register's shape and format tags and none of its lanes; expand makes its register G and keeps every lane. -/
def Obligations.ShapeTags : Prop :=
  ∀ (f : FmtA) (s : State) (x : Ctx),
    (Issues (.tag f) s x → x.act ≠ 0 → Binds (.tag f) s x [(f.dst.toNat, fun _ => BitVec.ofNat 32 (x.tagsOf f.opa.toNat))] [] (fun _ => 0)) ∧
    (∀ n, x.b.isPending n = false → x.tagsOf n = (x.b.vreg n).shape.code + 4 * (x.b.vreg n).fmt) ∧
    (Issues (.expand f) s x → (x.actNH = 0 → WritesNothing (.expand f) s x) ∧
      (x.actNH ≠ 0 → ∃ b, Ends (.expand f) s x b ∧ (b.vreg f.dst.toNat).shape.code = 2 ∧ (b.vreg f.dst.toNat).fmt = 0 ∧
        (∀ L, L < 32 → (b.vreg f.dst.toNat).shape.lane L = (x.b.vreg f.dst.toNat).shape.lane L) ∧ b.flags = x.b.flags ∧
        Keeps x b [f.dst.toNat]))

/-- R89, R110, R111: xacq to a count already owned, or with no lane, does nothing; one the crew's bound can never hold is UNNAMED_REG; one that
fits, with no older request of the crew waiting, owns the names, the new ones 0 with tag U; xrel keeps the base block only, and drops what was pending
for the names it releases. The model's choice: which request is older (log entry 29). -/
def Claims.ExtendedNames : Prop :=
  ∀ (f : FmtI) (g : FmtA) (s : State) (x : Ctx),
    let n := f.imm.toNat
    let owned := x.b.v.length
    (Issues (.xacq f) s x →
      (x.actNH = 0 ∨ n ≤ owned → WritesNothing (.xacq f) s x) ∧
      (x.actNH ≠ 0 → owned < n → x.c.bound < (x.c.bundles.length - 1) * x.c.base + n →
        exec (.xacq f) s = .next (x.commit.takeTrap x.c.cid x.b.index 5 (BitVec.ofNat 128 (n * 2 ^ 32)) x.sub.pc false 0 x.sub.cst)) ∧
      (x.actNH ≠ 0 → owned < n → (x.c.bundles.length - 1) * x.c.base + n ≤ x.c.bound → x.c.claim - owned + n ≤ x.c.bound →
        x.olderXacq = false →
        ∃ (b : Bundle) (c : Crew), exec (.xacq f) s = .next (x.s.setCrew (c.setBundle b)) ∧ PastIt x b ∧ { c with spillBank := x.c.spillBank } = x.c ∧
          b.v = x.b.v ++ List.replicate (n - owned) VReg.zero ∧ b.flags = x.b.flags ∧
          b.p = x.b.p ∧ b.s = x.b.s ∧ b.k = x.b.k ∧ b.pend = x.b.pend)) ∧
    (Issues (.xrel g) s x →
      (x.actNH = 0 ∨ owned ≤ x.c.base → WritesNothing (.xrel g) s x) ∧
      (x.actNH ≠ 0 → x.c.base < owned → ∃ b, Ends (.xrel g) s x b ∧ b.v = x.b.v.take x.c.base ∧ b.pend.length = x.b.pend.length ∧
        (∀ p ∈ b.pend, ∀ m ∈ p.names, m < x.c.base ∨ 640 ≤ m) ∧ b.flags = x.b.flags ∧ b.p = x.b.p ∧ b.s = x.b.s ∧ b.k = x.b.k))

/-- R112 to R114: pbool reads its truth table, in FUNC, at the three source bits; pmov moves p0 to p15 into the low bits of a register, and
back to p0 to p14; fclr clears the FLAGS bits its source selects, or HINTDROP. -/
def Obligations.PredicatesAndFlags : Prop :=
  ∀ (f : FmtA) (s : State) (x : Ctx),
    let bit := fun (code : BitVec 10) L => if x.pred code.toNat L then 1 else 0
    (Issues (.pbool f) s x → WritesPred (.pbool f) s x (f.dst.toNat - 864) fun L =>
      (f.func.getLsbD (4 * bit f.opa L + 2 * bit f.opb L + bit f.opc L), 0)) ∧
    (Issues (.pmov f) s x → f.func = 0 → ∃ b, Ends (.pmov f) s x b ∧
      (∀ L i, L < 32 → x.act.getLsbD L = true → i < 32 →
        ((b.vreg f.dst.toNat).shape.lane L).getLsbD i = (decide (i < 16) && x.pred (864 + i) L)) ∧
      b.flags = x.b.flags ∧ Keeps x b [f.dst.toNat]) ∧
    (Issues (.pmov f) s x → f.func ≠ 0 → ∃ b, Ends (.pmov f) s x b ∧
      (∀ i, i < 15 → PredIs x b i fun L => (x.raw32 0 f.opa.toNat L).testBit i) ∧
      b.flags = x.b.flags ∧ Keeps x b ((List.range 15).map (864 + ·))) ∧
    (Issues (.fclr f) s x →
      (x.actNH = 0 → WritesNothing (.fclr f) s x) ∧
      (x.actNH ≠ 0 → f.func = 1 → ∃ b, Ends (.fclr f) s x b ∧ b.hintDrop = 0 ∧ b.flags = x.b.flags ∧
        Keeps x { b with hintDrop := x.b.hintDrop } []) ∧
      (x.actNH ≠ 0 → f.func ≠ 1 → ∃ b, Ends (.fclr f) s x b ∧
        b.flags = x.b.flags &&& ~~~(BitVec.ofNat 5 (x.raw32 0 f.opa.toNat (lowLane x.actNH))) ∧ Keeps x b []))

/-! ## Cross-lane instructions (R167 to R178) -/

/-- A shuffle from `src`: each lane takes the source of the lane named, where that lane is ACTIVE, else its fallback; a predicate says which. -/
def Shuffles (i : Instr) (f : FmtA) (s : State) (x : Ctx) (src : Nat → Option Nat) : Prop :=
  let good := fun L => match src L with
    | some P => decide (P < 32) && x.act.getLsbD P
    | none => false
  let at? := fun L => if good L then (f.opa.toNat, (src L).getD 0) else (f.opc.toNat, L)
  let lo := fun L => BitVec.ofNat 32 (x.raw32 f.ty.toNat (at? L).1 (at? L).2)
  let all := fun L => BitVec.ofNat 64 (x.raw64 f.ty.toNat (at? L).1 (at? L).2)
  Issues i s x → x.act ≠ 0 →
    Binds i s x
      (if tyWide f.ty.toNat then [(f.dst.toNat, fun L => (all L).setWidth 32), (f.dst.toNat + 1, fun L => (all L).extractLsb' 32 32)]
       else [(f.dst.toNat, lo)])
      [(f.func.toNat % 16, good)] fun _ => 0

/-- R170, R177: shfl, shfr and qswap. -/
def Claims.ShufflesMove : Prop :=
  ∀ (f : FmtA) (s : State) (x : Ctx),
    let b := fun L => x.raw32 0 f.opb.toNat L
    let n := fun L => if f.func.getLsbD 6 then (if b L < 32 then 32 / 2 ^ b L else 0) else b L
    let mode := f.func.toNat / 16 % 4
    Shuffles (.shfl f) f s x (fun L => if mode = 0 then (if n L ≤ L then some (L - n L) else none)
      else if mode = 1 then some (L + n L) else if mode = 2 then some (L ^^^ n L) else some ((L + n L) % 32)) ∧
    Shuffles (.shfr f) f s x (fun L => some (b L)) ∧
    Shuffles (.qswap f) f s x (fun L =>
      some (if mode = 0 then L ^^^ 1 else if mode = 1 then L ^^^ 2 else if mode = 2 then L ^^^ 3 else L / 4 * 4 + f.func.toNat / 64))

/-- R171 to R173: vote, ballot and match over the contributing lanes, those ACTIVE that hold no helper. -/
def Claims.VotesAndBallots : Prop :=
  ∀ (f : FmtA) (s : State) (x : Ctx), x.act ≠ 0 →
    let c := x.actNH
    let p := maskOf fun L => x.pred f.opa.toNat L
    let j := f.func.toNat / 64
    let dst := f.dst.toNat
    let same := fun L => maskOf fun P =>
      if tyWide f.ty.toNat then x.raw64 f.ty.toNat f.opa.toNat P == x.raw64 f.ty.toNat f.opa.toNat L
      else x.raw32 f.ty.toNat f.opa.toNat P == x.raw32 f.ty.toNat f.opa.toNat L
    (Issues (.vote f) s x → Binds (.vote f) s x [(dst, fun _ => if j = 0 then ~~~c else 0)]
      [(f.func.toNat % 16, fun _ => match f.func.toNat / 16 % 4 with
        | 0 => decide (c &&& ~~~p = 0)
        | 1 => decide (c &&& p ≠ 0)
        | 2 => decide (c &&& p = 0 ∨ c &&& ~~~p = 0)
        | _ => decide ((c &&& p).lanes.length % 2 = 1))] fun _ => 0) ∧
    (Issues (.ballot f) s x → Binds (.ballot f) s x
      (if tyWide f.ty.toNat then [(dst, fun _ => if j = 0 then c &&& p else 0), (dst + 1, fun _ => if j = 0 then ~~~c else 0)]
       else [(dst, fun _ => if j = 0 then c &&& p else 0)]) [] fun _ => 0) ∧
    (Issues (.matchLanes f) s x → Binds (.matchLanes f) s x [(dst, fun L => if j = 0 then c &&& same L else 0)] [] fun _ => 0)

/-- Shuffles, votes, ballots and matches (R170 to R173, R177). -/
def Obligations.LanesExchange : Prop := Claims.ShufflesMove ∧ Claims.VotesAndBallots

/-- The registers of a 32-bit or 64-bit result. -/
def resultRegs (f : FmtA) (v : Nat → Nat) : List (Nat × (Nat → Word)) :=
  if tyWide f.ty.toNat then
    [(f.dst.toNat, fun L => (BitVec.ofNat 64 (v L)).setWidth 32), (f.dst.toNat + 1, fun L => (BitVec.ofNat 64 (v L)).extractLsb' 32 32)]
  else [(f.dst.toNat, fun L => BitVec.ofNat 32 (v L))]

/-- R174 to R176, R178: lred gives every lane the butterfly's value; lscan the ascending prefix, with `.excl` the one before the lane; ddx and ddy
the difference within a quad, +0 where one of its lanes is no source or in a ray-hit bundle. -/
def Obligations.ReductionsAndDerivatives : Prop :=
  ∀ (f : FmtA) (s : State) (x : Ctx), x.act ≠ 0 →
    let op := f.func.toNat % 16
    let ty := f.ty.toNat
    let go := redPairs op ty x.ftz
    let e : RedPart := { val := redIdentity op ty, flags := 0, iv := 0, lanes := 0 }
    let all := (go (go (go (go (go (redInputs f x)))))).headD e
    let pre := scanFrom op ty x.ftz e (redInputs f x)
    let diff := fun (at? : Nat → Nat × Nat) (L : Nat) =>
      if x.act.getLsbD (at? L).1 && x.act.getLsbD (at? L).2 && !x.isHit then
        let r := roundTo f32 f.round.toNat x.ftz (addVal (decide (f.round = 2)) (fltA f x (at? L).1) (fltA f x (at? L).2).negate)
        (BitVec.ofNat 32 r.1, r.2)
      else ((0 : Word), (0 : Flags))
    let dx := diff fun L => let r := if f.func = 1 then 0 else L / 2 % 2; (L / 4 * 4 + 2 * r + 1, L / 4 * 4 + 2 * r)
    let dy := diff fun L => let c := if f.func = 1 then 0 else L % 2; (L / 4 * 4 + 2 + c, L / 4 * 4 + c)
    (Issues (.lred f) s x → Binds (.lred f) s x (resultRegs f fun _ => all.val) [] fun _ => all.flags) ∧
    (Issues (.lscan f) s x → Binds (.lscan f) s x
      (resultRegs f fun L => if f.func.getLsbD 4 then (pre.1.getD L (0, 0)).1 else (pre.1.getD L (0, 0)).2) [] fun _ => pre.2.flags) ∧
    (Issues (.ddx f) s x → Binds (.ddx f) s x [(f.dst.toNat, fun L => (dx L).1)] [] fun L => (dx L).2) ∧
    (Issues (.ddy f) s x → Binds (.ddy f) s x [(f.dst.toNat, fun L => (dy L).1)] [] fun L => (dy L).2)

/-! ## Control (R63 to R85) -/

/-- A branch: each ACTIVE strand goes to its target, the sub-bundle's other strands to the next slot (R63); a target that fails R21 traps
BADTARGET, for the lowest lane; a target whose line fails its PARITY twice kills the cast (R17). Copies in the instruction cache that fail their
PARITY are discarded as the lines are read. `codes` are the registers it may write. -/
def Branches (i : Instr) (s : State) (x : Ctx) (target : Nat → DWord) (codes : List Nat) (link : Bundle → Prop) : Prop :=
  let read := x.s.dropBadCopies x.c.core x.c.region (x.act.lanes.map target)
  ((∀ L, L < 32 → x.act.getLsbD L = true → s.targetBad x.c.core x.c.region (target L) = false ∧
      s.targetBroken x.c.core x.c.region (target L) = none) →
    ∃ b, exec i s = .next (read.setCrew (x.c.setBundle b)) ∧
      (∀ L, L < 32 → (x.sub.mask &&& x.b.live).getLsbD L = true →
        ∃ y ∈ b.subs, y.mask.getLsbD L = true ∧ y.pc = if x.act.getLsbD L then target L else nextPc x.sub.pc) ∧
      b.flags = x.b.flags ∧ link b ∧ Keeps x b codes) ∧
  (∀ L, L < 32 → x.act.getLsbD L = true → s.targetBad x.c.core x.c.region (target L) = true →
    (∀ M, M < L → x.act.getLsbD M = true → s.targetBad x.c.core x.c.region (target M) = false) →
    (∀ M, M < 32 → x.act.getLsbD M = true → s.targetBroken x.c.core x.c.region (target M) = none) →
    exec i s = .next (({ x with s := read }).commit.takeTrap x.c.cid x.b.index 3 (badTargetInfo (target L) L) x.sub.pc false 0 x.sub.cst)) ∧
  (∀ L a, L < 32 → x.act.getLsbD L = true → s.targetBroken x.c.core x.c.region (target L) = some a →
    (∀ M, M < L → x.act.getLsbD M = true → s.targetBroken x.c.core x.c.region (target M) = none) →
    exec i s = .next (x.commit.parityKill x.c a))

/-- R17, R20, R21, R76 to R78: bra, brx, ret, call and callx send each ACTIVE strand to its target, the others to the next slot; the calls also write
the next slot's PC into the link pair of every ACTIVE lane. A target that is no PC, or lacks its TARGETS bit, traps BADTARGET for the lowest such
lane; one whose line fails PARITY twice kills the cast. The model's choice: that the targets of all taken strands are looked at in lane order before the branch acts (log entry 21) and how a target's line is read (log entry 76). -/
def Obligations.BranchesDivide : Prop :=
  ∀ (f : FmtB) (s : State) (x : Ctx),
    let rel := fun _ : Nat => pcOfLinear ((pcLinear x.sub.pc : Int) + f.offset.toInt)
    let reg := fun (c : BitVec 10) (L : Nat) => BitVec.ofNat 64 (x.raw64 4 c.toNat L)
    let link := fun b => LanesAre x b f.reg.toNat (fun _ => (nextPc x.sub.pc).setWidth 32) ∧
      LanesAre x b (f.reg.toNat + 1) fun _ => (nextPc x.sub.pc).extractLsb' 32 32
    (Issues (.bra f) s x → Branches (.bra f) s x rel [] fun _ => True) ∧
    (Issues (.brx f) s x → Branches (.brx f) s x (reg f.reg) [] fun _ => True) ∧
    (Issues (.ret f) s x → Branches (.ret f) s x (reg f.reg) [] fun _ => True) ∧
    (Issues (.call f) s x → Branches (.call f) s x rel [f.reg.toNat, f.reg.toNat + 1] link) ∧
    (Issues (.callx f) s x → Branches (.callx f) s x (reg f.aux) [f.reg.toNat, f.reg.toNat + 1] link)

/-- The sub-bundle parks: its strands' accesses have performed, after the merges that the release forces (R242), and another sub-bundle of the
bundle runs, so that nothing can complete. -/
def ParksAt (i : Instr) (s : State) (x : Ctx) (p : Park) : Prop :=
  let y := x.forceReds i
  y.releaseWaits y.subStrands 1 = false → x.b.live ≠ 0 → (∃ y ∈ x.b.subs.tail, y.park = .run) →
    ∃ t b, exec i s = .next t ∧ Holds x t b ∧ (∃ y ∈ b.subs, y.mask = x.sub.mask ∧ y.pc = x.sub.pc ∧ y.park = p) ∧
      b.v = x.b.v ∧ b.p = x.b.p ∧ b.s = x.b.s ∧ b.k = x.b.k ∧ b.flags = x.b.flags ∧ t.mem = y.s.mem

/-- R79, R80, R82, R202, R236: join, reform, bar and gbar park their sub-bundle at themselves while strands of the bundle are still to come;
reform in a bundle that files nothing acts as join; wait parks while it has producer casts, and is only a marker without. -/
def Claims.StrandsPark : Prop :=
  ∀ (f : FmtA) (g : FmtB) (s : State) (x : Ctx),
    (Issues (.join f) s x → ParksAt (.join f) s x .join) ∧
    (Issues (.reform g) s x →
      (x.filesNothing = true → ParksAt (.reform g) s x .join) ∧
      (x.filesNothing = false →
        (∀ L, L < 32 → (x.forceReds (.reform g)).s.targetBad x.c.core x.c.region (reformTarget g x L) = false ∧
          (x.forceReds (.reform g)).s.targetBroken x.c.core x.c.region (reformTarget g x L) = none) →
        ParksAt (.reform g) s x (.reform g.aux.toNat (lanesOf (reformTarget g x))))) ∧
    (Issues (.bar f) s x → ParksAt (.bar f) s x (.bar f.func.toNat)) ∧
    (Issues (.gbar f) s x → ParksAt (.gbar f) s x .gbar) ∧
    (Issues (.wait f) s x → x.spanBusy x.subStrands = false →
      let z := (x.endSpans x.subStrands).s
      (x.cast.deps = [] → ∃ b, exec (.wait f) s = .next (z.setCrew (x.c.setBundle b)) ∧ PastIt x b ∧ b.v = x.b.v ∧ b.p = x.b.p ∧ b.s = x.b.s ∧ b.k = x.b.k ∧ b.flags = x.b.flags) ∧
      (x.cast.deps ≠ [] → ∃ b, exec (.wait f) s = .next (z.setCrew (x.c.setBundle b)) ∧
        (∃ y ∈ b.subs, y.mask = x.sub.mask ∧ y.pc = x.sub.pc ∧ y.park = .wait) ∧
        b.v = x.b.v ∧ b.p = x.b.p ∧ b.s = x.b.s ∧ b.k = x.b.k ∧ b.flags = x.b.flags))

/-- R79, R82: when every sub-bundle of the bundle has reached the same join they go on as one at the next slot; when the only strands of the
crew have arrived at bar, with nothing of theirs outstanding or filed in a bin, they resume at the next slot. -/
def Claims.StrandsReconverge : Prop :=
  ∀ (f : FmtA) (s : State) (x : Ctx), x.inTrap = false → x.sub.mask &&& x.b.live ≠ 0 → x.c.st ≠ .halted →
    (x.c.bundles.map (·.index)).Nodup →
    let j := x.forceReds (.join f)
    let r := x.forceReds (.bar f)
    (Issues (.join f) s x → j.releaseWaits j.subStrands 1 = false → (∀ y ∈ x.b.subs.tail, y.park = .join ∧ y.pc = x.sub.pc) →
      ∃ t b y, exec (.join f) s = .next t ∧ Holds x t b ∧ b.subs = [y] ∧ y.pc = nextPc x.sub.pc ∧
        y.mask = unionMask x.b.subs &&& x.b.live ∧ y.park = .run) ∧
    (Issues (.bar f) s x → r.releaseWaits r.subStrands 1 = false → x.b.subs.tail = [] → (∀ d ∈ x.c.bundles, d.index ≠ x.b.index → d.present = 0) → r.s.binned x.c = false →
      r.s.storesOpen x.c x.b.index = false → r.s.lateStores x.c.cid = false →
      ∃ t b y, exec (.bar f) s = .next t ∧ Holds x t b ∧ b.subs = [y] ∧ y.pc = nextPc x.sub.pc ∧ y.mask = x.sub.mask ∧ y.park = .run)

/-- R67, R68: when the only sub-bundle of a bundle reaches reform, and bins are free, each of its strands is filed in the bin of its crew and target, with
its STRAND, carried registers, predicates and arrival clock; the bundle's slot then holds no strands, and its FLAGS and FMASK are in the crew's
accumulators. -/
def Claims.ReformFiles : Prop :=
  ∀ (g : FmtB) (s : State) (x : Ctx), Issues (.reform g) s x → x.filesNothing = false → x.inTrap = false →
    let y := x.forceReds (.reform g)
    let lanes := x.sub.mask &&& x.b.live
    let bins := (s.core x.c.core).bins
    y.releaseWaits y.subStrands 1 = false → lanes ≠ 0 → x.b.subs.tail = [] → x.c.st ≠ .halted → (x.c.bundles.map (·.index)).Nodup →
    (∀ d ∈ x.c.bundles, d.index = x.b.index ∨ ∀ z ∈ d.subs, z.park = .run) → (∀ e ∈ (s.core x.c.core).replay, e.crew ≠ x.c.cid) →
    x.c.core < s.cores.length → 32 ≤ (bins.filter (·.isNone)).length →
    (∀ L, L < 32 → lanes.getLsbD L = true → y.s.targetBad x.c.core x.c.region (reformTarget g x L) = false ∧
      y.s.targetBroken x.c.core x.c.region (reformTarget g x L) = none) →
    ∃ t c b, exec (.reform g) s = .next t ∧ t.bundle? x.c.cid x.b.index = some (c, b) ∧ b.present = 0 ∧ b.subs = [] ∧
      (∀ j, x.b.flags.getLsbD j = true → c.flagAcc.getLsbD j = true) ∧ (∀ L, x.b.fmask.getLsbD L = true → c.faultAcc.getLsbD L = true) ∧
      ∀ L, L < 32 → lanes.getLsbD L = true → ∃ i z, (t.core x.c.core).bins.getD i none = some z ∧ z.crew = x.c.cid ∧ z.target = reformTarget g x L ∧
        ∃ r ∈ z.records, r.strand = x.b.strands.getD L 0 ∧ r.clock = s.coreClock ∧ r.carried.length = g.aux.toNat ∧
          (∀ k, k < g.aux.toNat → (r.carried.getD k (0, true)).1 = (x.b.vreg k).shape.lane L) ∧
          ∀ n, n < 15 → r.preds.getLsbD n = (x.b.predOf n).getLsbD L

/-- Where strands park, how they come together again, and how `reform` files them (R67, R68, R79, R80, R82, R202, R236). -/
def Obligations.StrandsSynchronise : Prop := Claims.StrandsPark ∧ Claims.StrandsReconverge ∧ Claims.ReformFiles

/-- R81: exit takes the ACTIVE strands out of the bundle; where strands of the sub-bundle stay they stand at the next slot; when it takes the
bundle's last strands, and no stores of the bundle are parked, the bundle is empty and its FLAGS are in the crew's accumulator (R68). -/
def Obligations.ExitEndsStrands : Prop :=
  ∀ (f : FmtA) (s : State) (x : Ctx), Issues (.exit f) s x →
    (x.sub.mask &&& x.b.live &&& ~~~x.b.helper &&& ~~~x.act ≠ 0 →
      ∃ t b, exec (.exit f) s = .next t ∧ Holds x t b ∧ (∀ L, L < 32 → x.act.getLsbD L = true → b.live.getLsbD L = false) ∧
        (∀ L, L < 32 → x.act.getLsbD L = false → x.b.helper.getLsbD L = false → b.live.getLsbD L = x.b.live.getLsbD L) ∧
        (∃ y ∈ b.subs, y.pc = nextPc x.sub.pc ∧ y.mask &&& x.act = 0) ∧ b.v = x.b.v ∧ b.p = x.b.p ∧ b.s = x.b.s ∧ t.mem = s.mem) ∧
    (x.act = x.b.live → s.hasParked x.c x.b.index = false → x.b.present ≠ 0 → x.c.st ≠ .halted →
      ∃ t c b, exec (.exit f) s = .next t ∧ t.bundle? x.c.cid x.b.index = some (c, b) ∧ b.live = 0 ∧ b.subs = [] ∧
        c.flagAcc &&& x.b.flags = x.b.flags ∧ t.mem = s.mem)

/-- R83, R84: yield and sleep write nothing; yield passes the turn to the next sub-bundle that takes one; sleep of n > 0 parks its sub-bundle, past
itself, until n clocks from now. The model's choice: that they do nothing for an empty ACTIVE (log entry 24). -/
def Claims.YieldAndSleep : Prop :=
  ∀ (f : FmtA) (g : FmtI) (s : State) (x : Ctx),
    (Issues (.yield f) s x → WritesNothing (.yield f) s x ∧
      (∀ y r, x.act ≠ 0 → x.b.subs = x.sub :: y :: r → y.takesTurn = true →
        ∃ b z l, exec (.yield f) s = .next (x.s.setCrew (x.c.setBundle b)) ∧ b.subs = z :: l ∧ z.mask = y.mask ∧ z.pc = y.pc)) ∧
    (Issues (.sleep g) s x →
      (x.act = 0 ∨ g.imm = 0 → WritesNothing (.sleep g) s x) ∧
      (x.act ≠ 0 → g.imm ≠ 0 → ∃ b, exec (.sleep g) s = .next (x.s.setCrew (x.c.setBundle b)) ∧ Keeps x b [] ∧ b.flags = x.b.flags ∧
        ∃ y ∈ b.subs, y.mask = x.sub.mask ∧ y.pc = nextPc x.sub.pc ∧ y.park = .sleep (s.coreClock + g.imm.toNat)))

/-- R236: trig notes its ACTIVE strands as triggered and goes on. -/
def Claims.TrigNotes : Prop :=
  ∀ (f : FmtA) (s : State) (x : Ctx), Issues (.trig f) s x → (x.forceReds (.trig f)).memWaits 2 4 = false →
    ∃ t c b, exec (.trig f) s = .next t ∧ t.bundle? x.c.cid x.b.index = some (c, b) ∧ PastIt x b ∧
      (∀ L, L < 32 → x.act.getLsbD L = true → x.b.strands.getD L 0 ∈ c.triggered) ∧ (∀ n ∈ x.c.triggered, n ∈ c.triggered) ∧
      b.v = x.b.v ∧ b.p = x.b.p ∧ b.s = x.b.s ∧ b.flags = x.b.flags ∧ t.mem = (x.forceReds (.trig f)).s.mem

/-- `yield`, `sleep` and `trig` (R83, R84, R236). -/
def Obligations.YieldSleepTrig : Prop := Claims.YieldAndSleep ∧ Claims.TrigNotes

/-- R39, R40: one repeat of a pair bound to a 32-bit add: the add with its operands moved i steps; after it the pair's next repeat, or after the
last the slot past the pair. -/
def Obligations.RepRepeats : Prop :=
  ∀ (r : FmtP) (f : FmtA) (s : State) (x x0 : Ctx),
    s.cur = some (x.c.cid, x.b.index) → s.ctx? x.c.cid x.b.index f.guard = some x0 → x = x0.counted → x.boundInstr = some (.add f) →
    failing x.env (.rep r) = none → failing x.env (.add f) = none → stepChecks r (.add f) f = [] → movedChecks x.env r (.add f) f = [] →
    x.sub.rep ≤ r.count.toNat → (x.cast.hazards = true → x.inTrap = false → x.hazard (.add (movedFmt r f x.sub.rep)) = none) →
    (markOf (.add f) = true → x.inTrap = false → x.b.fpDue = none) → x.c.ovc = 0 → tyWide f.ty.toNat = false →
    let g := movedFmt r f x.sub.rep
    ∃ b, exec (.rep r) s = .next (x.s.setCrew (x.c.setBundle b)) ∧
      LanesAre x b g.dst.toNat (fun L =>
        (formInt f.ty.toNat f.dsub.toNat f.round.toNat (x.oldLane g.dst.toNat L) (intA g x L + intB g x L)).1) ∧
      (∃ y ∈ b.subs, y.mask = x.sub.mask ∧
        if x.sub.rep < r.count.toNat then y.pc = x.sub.pc ∧ y.rep = x.sub.rep + 1 else y.pc = skipPc x.sub.pc 2 ∧ y.rep = 0) ∧
      Keeps x b [g.dst.toNat]

/-! ## Traps (R42, R43, R62, R366 to R378) -/

/-- R366, R367, R370: taking a trap outside trap mode, with a handler, or with results pending, before which HANDLER is not read, and no debugger that halts for it: the trap registers hold the cause, the
trapping PC and lanes and the info; the trapping strands are one sub-bundle at the region's handler; registers and FLAGS are as they were; the fault is
counted in its class. In trap mode, or without a handler and with nothing pending, the cast is killed instead. -/
def Obligations.TakingATrap : Prop :=
  ∀ (s : State) (c : Crew) (b : Bundle) (y : SubB) (r : Region) (cause : Nat) (info : BitVec 128) (pc : DWord) (pair : Bool) (rep cst : Nat),
    s.bundle? c.cid b.index = some (c, b) → b.subs.head? = some y → s.region? c.region = some r →
    (b.trap = none → s.debugTakes c.castId cause = false → r.handler ≠ 0 ∨ b.pend ≠ [] →
      ∃ d e tr, (s.takeTrap c.cid b.index cause info pc pair rep cst).bundle? c.cid b.index = some (d, e) ∧ e.trap = some tr ∧
        tr.cause = cause ∧ tr.pc = pc ∧ tr.mask = y.mask &&& b.live ∧ tr.info = info ∧ tr.pair = pair ∧ tr.entering = true ∧
        (∃ z, e.subs = [z] ∧ z.mask = y.mask &&& b.live ∧ z.pc = r.handler) ∧ e.repCount = rep ∧ e.cstDone = cst ∧
        e.v = b.v ∧ e.p = b.p ∧ e.s = b.s ∧ e.k = b.k ∧ e.flags = b.flags ∧
        d.faults = bump c.faults (faultClass cause) 1 ∧
        (s.takeTrap c.cid b.index cause info pc pair rep cst).mem = s.mem) ∧
    (b.trap ≠ none ∨ (s.debugTakes c.castId cause = false ∧ r.handler = 0 ∧ b.pend = []) →
      s.takeTrap c.cid b.index cause info pc pair rep cst =
        (s.setCrew { c with faults := bump c.faults (faultClass cause) 1 }).killCast c.castId cause)

/-- R343, R347: a killed cast is done with its cause, none of its crews stays resident, and the region of its fault domain names it. -/
def Claims.KillEndsTheCast : Prop :=
  ∀ (s : State) (a : Cast) (cause : Nat), s.cast? a.castId = some a → a.done = false →
    let t := s.killCast a.castId cause
    (∃ e, t.cast? a.castId = some e ∧ e.done = true ∧ e.killed = some cause) ∧ (∀ c ∈ t.crews, c.castId ≠ a.castId) ∧
    (∀ r, s.region? (s.faultDomain 8 a.region) = some r →
      ∃ q, t.region? (s.faultDomain 8 a.region) = some q ∧ q.killCast = BitVec.ofNat 32 a.castId ∧ q.killCause = BitVec.ofNat 8 cause)

/-- An instruction of the opcode table that is carried out by itself: no event, no `rep` (R36 to R40). -/
def carried (i : Instr) : Bool :=
  match i with
  | .rep _ => false
  | _ => fmtOf i != .event

/-- The trap of an issuing instruction that has had no effect: its cause and TRAPINFO, at its own PC; `trig` is noted by its crew as it always is. -/
def TrapsAt (i : Instr) (s : State) (x : Ctx) (cause : Nat) (info : BitVec 128) : Prop :=
  let t := Host.Outcome.next (x.commit.takeTrap x.c.cid x.b.index cause info x.sub.pc false 0 0)
  exec i s = match i with
    | .trig _ => noteTrigs t
    | _ => t

/-- R42, R43: an instruction, any but a `rep`, that fails a check, of its encoding or of what its cast declares, has no effect but the trap of the first
failing check, in the order ILLEGAL_OP, PRIVILEGE, ILLEGAL_OPERAND, UNNAMED_REG and the fields of each from the high bits down. The model's choice: which field some checks name (log entries 22 and 69). -/
def Claims.ChecksTrap : Prop :=
  ∀ (i : Instr) (s : State) (x x0 : Ctx) (e : Failure), carried i = true →
    s.cur = some (x.c.cid, x.b.index) → s.ctx? x.c.cid x.b.index (guardOf i) = some x0 → x = x0.counted →
    firstFailure (checks x.env i ++ x.castChecks i) = some e →
    TrapsAt i s x e.cause.code (e.info false) ∧
    ∀ d ∈ checks x.env i ++ x.castChecks i, e.cause.rank ≤ d.cause.rank ∧ (d.cause = e.cause → d.bit ≤ e.bit)

/-- R41, R367, R374: tret, tsave and tload fail the privilege check outside trap mode, unless ILLEGAL_OP comes first; exit, join, reform, bar,
gbar, wait, sleep, yield and trap are ILLEGAL_OP in trap mode. -/
def Claims.TrapModeChecks : Prop :=
  ∀ (env : CheckEnv) (i : Instr),
    (privileged i = true → env.inTrap = false → ∃ e, failing env i = some e ∧ (e.cause = .illegalOp ∨ e.cause = .privilege)) ∧
    (notInTrap i = true → env.inTrap = true → ∃ e, failing env i = some e ∧ e.cause = .illegalOp) ∧
    (∀ f, privileged (.tret f) = true ∧ privileged (.tsave f) = true ∧ privileged (.tload f) = true ∧ notInTrap (.exit f) = true ∧
      notInTrap (.join f) = true ∧ notInTrap (.bar f) = true ∧ notInTrap (.gbar f) = true ∧ notInTrap (.wait f) = true ∧
      notInTrap (.yield f) = true) ∧
    (∀ f, notInTrap (.sleep f) = true ∧ notInTrap (.trap f) = true) ∧ (∀ f, notInTrap (.reform f) = true)

/-- R62: under HAZARDS, outside trap mode, an instruction that passes its checks traps STRETCH_HAZARD in the first of these cases: it reads a name that a
pending long instruction writes, it reads FLAGS while one that may set a bit is pending, it writes such a name; TRAPINFO holds the name and the case, and the long
instruction's PC. The model's choice: that a hazard goes by names and before the wait of a marker (log entry 70). -/
def Claims.HazardsTrap : Prop :=
  ∀ (i : Instr) (s : State) (x x0 : Ctx) (n : Nat) (p : Pending), carried i = true →
    s.cur = some (x.c.cid, x.b.index) → s.ctx? x.c.cid x.b.index (guardOf i) = some x0 → x = x0.counted →
    firstFailure (checks x.env i ++ x.castChecks i) = none → x.cast.hazards = true → x.inTrap = false →
    let rd := readNames i ++ x.castReads i
    let trap := fun low : Nat => TrapsAt i s x 17 (BitVec.ofNat 128 (low + p.pc.toNat % 2 ^ 48 * 2 ^ 64))
    (rd.find? x.b.isPending = some n → x.b.pend.find? (fun q => q.names.contains n) = some p → trap n) ∧
    ((∀ m ∈ rd, x.b.isPending m = false) → readsFlags i = true → x.b.pend.find? (·.setsFlags) = some p → trap 2048) ∧
    ((∀ m ∈ rd, x.b.isPending m = false) → (readsFlags i = true → ∀ q ∈ x.b.pend, q.setsFlags = false) →
      (writeNames i).find? x.b.isPending = some n → x.b.pend.find? (fun q => q.names.contains n) = some p → trap (1024 + n))

/-- A failing check, of the encoding, the cast or trap mode, and a stretch hazard trap before any effect (R41 to R43, R62, R367, R374). -/
def Obligations.FailingChecksTrap : Prop := Claims.ChecksTrap ∧ Claims.TrapModeChecks ∧ Claims.HazardsTrap

/-- R375, R376: trap and brk, with an ACTIVE lane that is no helper, raise SOFTWARE with IMM and the ACTIVE lanes, and BREAK with FUNC; with
none they do nothing. -/
def Obligations.SoftwareTraps : Prop :=
  ∀ (f : FmtI) (g : FmtA) (s : State) (x : Ctx),
    (Issues (.trap f) s x →
      (x.actNH = 0 → WritesNothing (.trap f) s x) ∧
      (x.actNH ≠ 0 → exec (.trap f) s =
        .next (x.commit.takeTrap x.c.cid x.b.index 18 (x.act.setWidth 64 ++ f.imm.setWidth 64) x.sub.pc false 0 x.sub.cst))) ∧
    (Issues (.brk g) s x →
      (x.actNH = 0 → WritesNothing (.brk g) s x) ∧
      (x.actNH ≠ 0 → exec (.brk g) s =
        .next (x.commit.takeTrap x.c.cid x.b.index 19 (g.func.setWidth 128) x.sub.pc false 0 x.sub.cst)))

/-- R372, R377: tret leaves trap mode with the strands that trapped: restarting the instruction (for SOFTWARE, FP_INVALID and brk at the next
slot), at the next slot or past a pair, or at the PC of a k register; `.kill` kills the cast with the trap's cause. -/
def Claims.ReturnFromTrap : Prop :=
  ∀ (f : FmtA) (s : State) (x : Ctx) (tr : TrapSt), Issues (.tret f) s x → x.b.trap = some tr → tr.mask &&& x.b.live ≠ 0 →
    let past := if tr.pair then skipPc tr.pc 2 else nextPc tr.pc
    let k := x.b.k.getD (f.opa.toNat - 880) 0
    let at? := fun pc => ∃ t b, exec (.tret f) s = .next t ∧ Holds x t b ∧ b.trap = none ∧ b.area = none ∧
      (∃ y ∈ b.subs, y.mask = tr.mask &&& x.b.live ∧ y.pc = pc) ∧
      b.v = x.b.v ∧ b.p = x.b.p ∧ b.s = x.b.s ∧ b.flags = x.b.flags ∧ t.mem = s.mem
    (f.func = 0 → at? (if returnsNext tr then past else tr.pc)) ∧ (f.func = 1 → at? past) ∧
    (f.func = 2 → exec (.tret f) s = .next (x.commit.killCast x.c.castId tr.cause)) ∧
    (f.func = 3 → pcWellFormed k = true → at? k) ∧ (f.func = 3 → pcWellFormed k = false → exec (.tret f) s = .next (x.commit.killCast x.c.castId 3))

/-- R371, R378: tsave moves owned registers into the slot's trap area, the v registers then reading 0 with tag U; tload, a long instruction, binds
what the area holds to them; neither touches another register. The
column of the area's bank is awake and not idle from now (R355). -/
def Claims.TrapAreaMoves : Prop :=
  ∀ (f : FmtA) (s : State) (x y : Ctx) (a : TrapArea),
    let names := (List.range (f.func.toNat + 1)).map (f.opa.toNat + ·)
    (Issues (.tsave f) s x → x.withArea = some (y, a) → s.bankAwake a.bank = true →
      ∃ b a', exec (.tsave f) s = .next ((y.s.bankTraffic a.bank).setCrew (x.c.setBundle b)) ∧ PastIt x b ∧ b.area = some a' ∧
        (∀ n ∈ names, n < 640 → n < x.b.v.length → (b.vreg n).shape = .u 0 ∧ a'.v.getD n (.u 0) = x.savedShape n) ∧
        (∀ n ∈ names, 640 ≤ n → a'.s.getD (n - 640) 0 = x.sreg (n - 640) 0) ∧
        (∀ n, n ∉ names → n < 256 → a'.v.getD n (.u 0) = a.v.getD n (.u 0)) ∧
        (∀ n, n ∉ names → b.vreg n = x.b.vreg n) ∧ b.s = x.b.s ∧ b.p = x.b.p ∧ b.flags = x.b.flags) ∧
    (Issues (.tload f) s x → x.act ≠ 0 → x.b.area = some a → s.bankAwake a.bank = true →
      ∃ b p r, exec (.tload f) s = .next ((x.s.bankTraffic a.bank).setCrew (x.c.setBundle b)) ∧ PastIt x b ∧ b.pend = x.b.pend ++ [p] ∧ p.result = some r ∧ p.written = false ∧
        (∀ n ∈ names, n < 640 → n < x.b.v.length → ∀ L, L < 32 → r.lane n L = some (((a.v.getD n (.u 0)).lane L).setWidth 64)) ∧
        (∀ n ∈ names, 640 ≤ n → r.lane n 0 = some (a.s.getD (n - 640) 0)) ∧
        b.v = x.b.v ∧ b.s = x.b.s ∧ b.p = x.b.p ∧ b.flags = x.b.flags)

/-- What killing a cast ends; `tret` leaves trap mode; a handler saves registers in the trap area and loads them back (R343, R347, R355, R371, R372, R377, R378). -/
def Obligations.KillAndReturn : Prop := Claims.KillEndsTheCast ∧ Claims.ReturnFromTrap ∧ Claims.TrapAreaMoves

/-! ## Scratch (R182 to R202) -/

/-- Byte a of an area of a resident crew. -/
def areaByte (s : State) (cid : Nat) (area : Area) (a : Nat) : Byte :=
  match s.crew? cid with
  | some d => (d.areaMem area).get a
  | none => 0

/-- The scratch memories of every crew are in canonical form. -/
def ScratchWf (s : State) : Prop := ∀ d ∈ s.crews, ∀ area, (d.areaMem area).wf = true

/-- Where lane L of a scratch access reaches (R182). -/
def laneSpot (x : Ctx) (k : Reach) (f : FmtM) (L : Nat) : Spot := x.spot k (x.scratchAddr f L) (widthBytes f.width.toNat)

/-- A scratch access of the lanes of `m` may perform now: no order to wait for, every lane's address exists (R185) and nothing holds it
(R191, R259). -/
def Reaches (x : Ctx) (k : Reach) (f : FmtM) (m : LaneMask) : Prop :=
  x.memWaits f.order.toNat f.scope.toNat = false ∧
  ∀ L, L < 32 → m.getLsbD L = true → (∃ cid area o, laneSpot x k f L = .at cid area o) ∧ x.held k (laneSpot x k f L) (widthBytes f.width.toNat) = false

/-- Lane L's access covers byte a of the area. -/
def Covers (x : Ctx) (k : Reach) (f : FmtM) (L cid : Nat) (area : Area) (a : Nat) : Prop :=
  ∃ o, laneSpot x k f L = .at cid area o ∧ o ≤ a ∧ a < o + widthBytes f.width.toNat

/-- R185, R197, R215: lds loads each ACTIVE lane's bytes, extended by WIDTH; an acquire brings its core the logical time of the gang's releases;
with no ACTIVE lane it does nothing; poison in the way traps. -/
def Claims.ScratchLoad : Prop :=
  ∀ (f : FmtM) (s : State) (x : Ctx), Issues (.lds f) s x →
    let n := widthBytes f.width.toNat
    (x.act = 0 → WritesNothing (.lds f) s x) ∧
    (Reaches x .load f x.act → (∀ L, L < 32 → x.act.getLsbD L = true → x.scratchPoison (laneSpot x .load f L) n = false) → x.act ≠ 0 →
      Binds (.lds f) s { x with s := ((x.ordered f.order.toNat).gangTime f.order.toNat f.scope.toNat).s } ((List.range (widthNames f.width.toNat)).map fun i =>
        (f.data.toNat + i, fun L => (loadedWords f.width.toNat (x.scratchRead (laneSpot x .load f L) n)).getD i 0)) [] fun _ => 0) ∧
    (∀ L, Reaches x .load f x.act → L < 32 → x.act.getLsbD L = true → x.scratchPoison (laneSpot x .load f L) n = true →
      (∀ M, M < L → x.act.getLsbD M = true → x.scratchPoison (laneSpot x .load f M) n = false) →
      exec (.lds f) s = .next (x.commit.takeTrap x.c.cid x.b.index 9 (poisonInfo 0 L 1) x.sub.pc false 0 x.sub.cst))

/-- R198: sts stores each lane's bytes, the highest lane's where lanes meet, at the address it computes; no other byte of any crew's scratch, no
register, no flag and nothing of the memory system changes, but for the merges that a release forces first (R242). -/
def Claims.ScratchStore : Prop :=
  ∀ (f : FmtM) (s : State) (x0 : Ctx), Issues (.sts f) s x0 → ScratchWf s →
    let x := x0.forceReds (.sts f)
    Reaches x .store f x.actNH →
    ∃ t c b, exec (.sts f) s = .next t ∧ t.bundle? x.c.cid x.b.index = some (c, b) ∧ PastIt x b ∧
      (∀ L cid area a o, L < 32 → x.actNH.getLsbD L = true → laneSpot x .store f L = .at cid area o → o ≤ a → a < o + widthBytes f.width.toNat →
        (∀ M, L < M → M < 32 → x.actNH.getLsbD M = true → ¬Covers x .store f M cid area a) →
        areaByte t cid area a = (x.storeBytes f.data.toNat (widthBytes f.width.toNat) L).getD (a - o) 0) ∧
      (∀ cid area a, (∀ L, L < 32 → x.actNH.getLsbD L = true → ¬Covers x .store f L cid area a) → areaByte t cid area a = areaByte x.s cid area a) ∧
      t.mem = x.s.mem ∧ b.flags = x.b.flags ∧ Keeps x { b with spans := x.b.spans } []

/-- A word at a spot after the lanes of `l`, in order, have performed their atomic operation on it (R199). -/
def atomFold (x : Ctx) (f : FmtM) (l : List Nat) (sp : Spot) (v : Nat) : Nat :=
  let n := widthBytes f.width.toNat
  l.foldl (fun old M => if laneSpot x .atom f M = sp then
    (atomOp f.func.toNat n old (x.srcBytes f.aux.toNat n M) (x.srcBytes f.data.toNat n M) x.ftz).1 else old) v

/-- R199: atoms performs its lanes in ascending order, each on the word the lanes below it left; each lane returns the word it found; no other
byte changes, and nothing of the memory system but for the merges that a release forces first (R242); without a result no lane sets an IV bit that
raises FP_INVALID (R129). Spots either agree or do not meet: rings and areas hold whole words. -/
def Claims.ScratchAtomic : Prop :=
  ∀ (f : FmtM) (s : State) (x0 : Ctx), Issues (.atoms f) s x0 → ScratchWf s →
    let x := x0.forceReds (.atoms f)
    Reaches x .atom f x.actNH → x.actNH ≠ 0 →
    let n := widthBytes f.width.toNat
    let lanes := x.actNH.lanes
    let found := fun L => atomFold x f (lanes.filter (· < L)) (laneSpot x .atom f L) (leNat (x.scratchRead (laneSpot x .atom f L) n))
    (∀ L, L < 32 → x.actNH.getLsbD L = true → x.scratchPoison (laneSpot x .atom f L) n = false) →
    (∀ L M, L < 32 → M < 32 → ∀ cid area o o', laneSpot x .atom f L = .at cid area o → laneSpot x .atom f M = .at cid area o' →
      o = o' ∨ o + n ≤ o' ∨ o' + n ≤ o) →
    (f.data = 800 → f.func = 10 → x.cast.fpinv = true → x.inTrap = false → ∀ L ∈ lanes,
      (atomOp f.func.toNat n (found L) (x.srcBytes f.aux.toNat n L) (x.srcBytes f.data.toNat n L) x.ftz).2.getLsbD 0 = false) →
    ∃ t c b, exec (.atoms f) s = .next t ∧ t.bundle? x.c.cid x.b.index = some (c, b) ∧ PastIt x b ∧
      (∀ L cid area a o, L < 32 → x.actNH.getLsbD L = true → laneSpot x .atom f L = .at cid area o → o ≤ a → a < o + n →
        areaByte t cid area a =
          (leBytes n (atomFold x f lanes (.at cid area o) (leNat (x.scratchRead (.at cid area o) n)))).getD (a - o) 0) ∧
      (∀ cid area a, (∀ L, L < 32 → x.actNH.getLsbD L = true → ¬Covers x .atom f L cid area a) → areaByte t cid area a = areaByte x.s cid area a) ∧
      t.mem = x.s.mem ∧ b.v = x.b.v ∧ b.p = x.b.p ∧ b.s = x.b.s ∧ b.k = x.b.k ∧ b.flags = x.b.flags ∧
      (f.data = 800 → f.func ≠ 10 → b.pend = x.b.pend) ∧
      (f.data ≠ 800 ∨ f.func = 10 → ∃ p r, b.pend = x.b.pend ++ [p] ∧ p.id = x.b.nextPend ∧ p.result = some r ∧
        (f.data ≠ 800 → ∀ L i, L < 32 → x.actNH.getLsbD L = true → i < widthNames f.width.toNat →
          r.lane (f.data.toNat + i) L = some (((loadedWords f.width.toNat (leBytes n (found L))).getD i 0).setWidth 64)) ∧
        (∀ j, j < 5 → r.flags.getLsbD j = lanes.any fun L =>
          (atomOp f.func.toNat n (found L) (x.srcBytes f.aux.toNat n L) (x.srcBytes f.data.toNat n L) x.ftz).2.getLsbD j))

/-- Strands of the lanes `m` are switched off by `i` (R185): their FMASK bits are set, they count as exited and in the crew's OFF, the fault is counted in
class 7 for each; the other strands of the sub-bundle go on. -/
def SwitchesOff (i : Instr) (s : State) (x : Ctx) (m : LaneMask) : Prop :=
  let stay := x.sub.mask &&& x.b.live &&& ~~~x.b.helper &&& ~~~m
  m ≠ 0 → stay ≠ 0 →
    ∃ t c b, exec i s = .next t ∧ t.bundle? x.c.cid x.b.index = some (c, b) ∧ b.fmask = x.b.fmask ||| m ∧
      c.off = min 1024 (x.c.off + popMask m) ∧ c.faults = bump x.c.faults 7 (popMask m) ∧
      (∀ L, L < 32 → m.getLsbD L = true → b.live.getLsbD L = false) ∧
      (∀ L, L < 32 → m.getLsbD L = false → x.b.helper.getLsbD L = false → b.live.getLsbD L = x.b.live.getLsbD L) ∧
      (∀ L, L < 32 → stay.getLsbD L = true → ∃ y ∈ b.subs, y.mask.getLsbD L = true ∧ y.pc = nextPc x.sub.pc)

/-- The lanes of `m` whose address faults. -/
def faulting (x : Ctx) (k : Reach) (f : FmtM) (m : LaneMask) : LaneMask := maskOf fun L => m.getLsbD L && laneSpot x k f L == .fault

/-- Nothing holds an access of the lanes of `m`, and no poison is in its way. -/
def Unheld (x : Ctx) (k : Reach) (f : FmtM) (m : LaneMask) : Prop :=
  let n := widthBytes f.width.toNat
  x.memWaits f.order.toNat f.scope.toNat = false ∧
  ∀ L, L < 32 → m.getLsbD L = true → x.held k (laneSpot x k f L) n = false ∧ (k = .store ∨ x.scratchPoison (laneSpot x k f L) n = false)

/-- R185: a scratch fault switches the strand off: of lds, sts and atoms in the lanes whose address does not exist or is misaligned, of vemit and pemit in
those whose index is out of range; the rest of the lanes perform. -/
def Claims.ScratchFaults : Prop :=
  ∀ (f : FmtM) (g : FmtA) (s : State) (x : Ctx),
    let st := x.forceReds (.sts f)
    let at_ := x.forceReds (.atoms f)
    let idx := fun (code : BitVec 10) L => x.raw32 g.ty.toNat code.toNat L
    (Issues (.lds f) s x → Unheld x .load f x.act → SwitchesOff (.lds f) s x (faulting x .load f x.act)) ∧
    (Issues (.sts f) s x → Unheld st .store f x.actNH → SwitchesOff (.sts f) s x (faulting st .store f x.actNH)) ∧
    (Issues (.atoms f) s x → x.cast.fpinv = false → Unheld at_ .atom f x.actNH → SwitchesOff (.atoms f) s x (faulting at_ .atom f x.actNH)) ∧
    (Issues (.vemit g) s x → x.cast.kind = 1 → x.b.prim ≠ none →
      SwitchesOff (.vemit g) s x (maskOf fun L => x.act.getLsbD L && decide (96 ≤ idx g.opa L))) ∧
    (Issues (.pemit g) s x → x.cast.kind = 1 → x.b.prim ≠ none →
      SwitchesOff (.pemit g) s x (maskOf fun L => x.act.getLsbD L &&
        (decide (160 ≤ idx g.opa L) || (List.range 3).any fun i => decide (96 ≤ idx g.opb L % 2 ^ 24 / 256 ^ i % 256))))

/-- Loads, stores and atomics of scratch, and the lanes that fault (R129, R185, R197 to R199, R215, R242). The model's choice: that an access performs when it issues (log entry 7). -/
def Obligations.ScratchAccesses : Prop := Claims.ScratchLoad ∧ Claims.ScratchStore ∧ Claims.ScratchAtomic ∧ Claims.ScratchFaults

/-- R187, R188, R200: a producer arrival issues on logical stage D; a consumer arrival counts on a FULL stage 0, and the last one empties it and
moves hp on; in a bundle bound to a stage, for a spawn ring's consumer, and for a ring the cast does not declare, stbar is ILLEGAL_OP; without
lanes it does nothing. The model's choice: the literal reading of a release (log entry 60), and that the checks of the ring ask for no ACTIVE lane (log entry 24). -/
def Claims.RingArrivals : Prop :=
  ∀ (f : FmtA) (s : State) (x : Ctx), Issues (.stbar f) s x →
    let i := f.func.toNat / 2
    let consumer := f.func.getLsbD 0
    (x.c.ring? i = none → exec (.stbar f) s = .next (x.commit.takeTrap x.c.cid x.b.index 1 0 x.sub.pc false 0 0)) ∧
    ∀ r, x.c.ring? i = some r → r.st.length = r.stages → 0 < r.stages →
      (x.b.stage ≠ none ∨ (consumer = true ∧ r.spawn = true) →
        exec (.stbar f) s = .next (x.commit.takeTrap x.c.cid x.b.index 1 0 x.sub.pc false 0 0)) ∧
      (x.b.stage = none → (consumer = true → r.spawn = false) → x.actNH = 0 → WritesNothing (.stbar f) s x) ∧
      (x.b.stage = none → x.actNH ≠ 0 → consumer = false → (r.stage (r.phys r.dist)).issued < r.parr →
        ∃ (b : Bundle) (c : Crew) (q : Ring), exec (.stbar f) s = .next (x.s.setCrew (c.setBundle b)) ∧ PastIt x b ∧ b.flags = x.b.flags ∧ Keeps x b [] ∧
          c.ring? i = some q ∧ (q.stage (r.phys r.dist)).issued = (r.stage (r.phys r.dist)).issued + 1 ∧ q.hp = r.hp ∧
          c.arrivals = x.c.arrivals ++ [{ id := x.c.nextArrival, bun := x.b.index, ring := i, stage := r.phys r.dist }]) ∧
      (x.b.stage = none → x.actNH ≠ 0 → consumer = true → r.spawn = false → (r.stage (r.phys 0)).st = .full →
        ∃ (b : Bundle) (c : Crew) (q : Ring), exec (.stbar f) s = .next (x.s.setCrew (c.setBundle b)) ∧ PastIt x b ∧ b.flags = x.b.flags ∧ Keeps x b [] ∧
          c.ring? i = some q ∧ c.arrivals = x.c.arrivals ∧
          ((r.stage (r.phys 0)).consumed + 1 ≠ r.carr → q.hp = r.hp ∧ (q.stage (r.phys 0)).st = .full ∧
            (q.stage (r.phys 0)).consumed = (r.stage (r.phys 0)).consumed + 1) ∧
          ((r.stage (r.phys 0)).consumed + 1 = r.carr → q.stage (r.phys 0) = Stage.empty ∧ (r.prime = 0 → q.hp = (r.hp + 1) % r.stages)))

/-- R201: ringq reads a snapshot of a declared ring: the FULL and HELD stages as masks, or the counts with hp; of another ring it is ILLEGAL_OP. The model's choice: that the snapshot is taken at the issue (log entry 7) and that the check of the ring asks for no ACTIVE lane (log entry 24). -/
def Claims.RingQuery : Prop :=
  ∀ (f : FmtA) (s : State) (x : Ctx), Issues (.ringq f) s x →
    (x.c.ring? (f.func.toNat % 2) = none →
      exec (.ringq f) s = .next (x.commit.takeTrap x.c.cid x.b.index 1 0 x.sub.pc false 0 0)) ∧
    ∀ r, x.c.ring? (f.func.toNat % 2) = some r → x.act ≠ 0 → r.stages ≤ 8 → r.st.length = r.stages →
      Binds (.ringq f) s x [(f.dst.toNat, fun _ => BitVec.ofNat 32 (r.query (f.func.getLsbD 1)))] [] (fun _ => 0) ∧
      (∀ k, k < r.stages → (r.query true).testBit k = ((r.stage k).st == .full) ∧
        (r.query true).testBit (16 + k) = ((r.stage k).st == .held)) ∧
      (r.hp < 16 → r.query false % 16 = r.hp)

/-- Ring arrivals and ring queries (R187, R188, R200, R201). -/
def Obligations.RingStages : Prop := Claims.RingArrivals ∧ Claims.RingQuery

/-! ## Global memory (R203 to R246) -/

/-- The place of lane L's access, through the leaf entry its core knows (R204, R205). -/
def placeAt (x : Ctx) (va : Nat) : Nat :=
  match x.s.translate x.c.core x.c.region va with
  | .leaf p => x.s.mem.place (physOf p va)
  | _ => 0

/-- An address of n bytes is aligned and mapped with a right, on a page that is not CHECKED and not of a lost window. -/
def Mapped (x : Ctx) (right : DWord → Bool) (va n : Nat) : Prop :=
  va % n = 0 ∧ ∃ p, x.s.translate x.c.core x.c.region va = .leaf p ∧ right p = true ∧ pteChecked p = false ∧
    (pteShared p = true → x.s.host.windowLost = false)

/-- Nothing delays an access: no order to wait for, no parked store of the core, no earlier load of the bundle whose result is not written. -/
def Free (x : Ctx) (order scope : Nat) : Prop :=
  x.memWaits order scope = false ∧ (x.s.core x.c.core).replay = [] ∧ x.loadsOut (fun _ => true) = false

/-- Of the memory system only requests change: what `want` asks has been sent for its line and nothing else has. -/
def Sends (x : Ctx) (t : State) (pend : Option Nat) (want : LaneReq → Prop) : Prop :=
  { t.mem with requests := x.s.mem.requests, nextReq := x.s.mem.nextReq } = x.s.mem ∧ (∀ q ∈ x.s.mem.requests, q ∈ t.mem.requests) ∧
  (∀ e, want e → ∃ q ∈ t.mem.requests, q.core = x.c.core ∧ q.crew = x.c.cid ∧ q.bun = x.b.index ∧ q.pend = pend ∧ q.st = .flight ∧
    q.line = lineOf e.pa ∧ e ∈ q.lanes) ∧
  (∀ q ∈ t.mem.requests, q ∉ x.s.mem.requests → ∀ e ∈ q.lanes, want e)

/-- No L1 copy of the core holds poisoned data (R212). -/
def CleanL1 (x : Ctx) : Prop := ∀ k ∈ (x.s.core x.c.core).l1, k.bad = []

/-- A load is pending: its registers are unchanged, and each of its lanes has its bytes from an L1 copy (R228) or has asked its home. -/
def Loads (i : Instr) (s : State) (x : Ctx) (dst n : Nat) (m : LaneMask) (va : Nat → Nat) (op : Nat → LaneOp) (more : Gather → Prop) : Prop :=
  ∃ t c b p g, exec i s = .next t ∧ t.bundle? x.c.cid x.b.index = some (c, b) ∧ PastIt x b ∧ b.pend = x.b.pend ++ [p] ∧ p.id = x.b.nextPend ∧
    p.gather = some g ∧ g.mask = m ∧ g.bytes = n ∧ g.dst = dst ∧ more g ∧
    b.v = x.b.v ∧ b.p = x.b.p ∧ b.s = x.b.s ∧ b.k = x.b.k ∧ b.flags = x.b.flags ∧
    (∀ e ∈ g.got, ∃ k ∈ (x.s.core x.c.core).l1, e.1 < 32 ∧ m.getLsbD e.1 = true ∧ k.line = lineOf (placeAt x (va e.1)) ∧
      e.2 = (k.data.drop (placeAt x (va e.1) % 128)).take n) ∧
    Sends x t (some x.b.nextPend) fun e => e.lane < 32 ∧ m.getLsbD e.lane = true ∧ (∀ a ∈ g.got, a.1 ≠ e.lane) ∧
      e = { lane := e.lane, va := va e.lane, pa := placeAt x (va e.lane), op := op e.lane }

/-- R228: ld to v names loads the ACTIVE lanes, to a scalar register the lowest ACTIVE lane; with no lane it does nothing. The bytes that come for a lane
are extended by zeros, or for s8 and s16 by their sign, to a word; 8 bytes go to a pair and 16 to a quad. -/
def Claims.GlobalLoad : Prop :=
  ∀ (f : FmtM) (s : State) (x : Ctx), Issues (.ld f) s x → x.sub.redo = none →
    let n := widthBytes f.width.toNat
    let m := x.loadMask f.data.toNat
    (m = 0 → WritesNothing (.ld f) s x) ∧
    (m ≠ 0 → Free x f.order.toNat f.scope.toNat → CleanL1 x →
      (∀ L, L < 32 → m.getLsbD L = true → Mapped x pteR (x.globalAddr f L) n ∧ s.mem.poisoned (placeAt x (x.globalAddr f L)) n = false) →
      Loads (.ld f) s x f.data.toNat n m (x.globalAddr f) (fun _ => .load n) fun g =>
        g.signed = (f.width == 1 || f.width == 3) ∧ g.cell = none ∧ g.also = RegResult.empty) ∧
    ∀ (g : Gather) (h : LaneMask) (L : Nat), g.cell = none → g.also = RegResult.empty → L < 32 → g.mask.getLsbD L = true →
      let val := leNat (g.lane L)
      let got := fun j => (g.result h).lane (g.dst + j) L
      let word := fun (v : Int) => some ((BitVec.ofInt 32 v).setWidth 64)
      (g.dst + 4 ≤ g.limit → g.limit ≤ 640 → (g.lane L).length = g.bytes →
        (g.bytes = 1 ∨ g.bytes = 2 → got 0 = word (readInt g.signed (8 * g.bytes) val)) ∧
        (g.bytes = 4 → got 0 = word val) ∧
        (g.bytes = 8 → got 0 = word val ∧ got 1 = word (val / 2 ^ 32 : Nat)) ∧
        (g.bytes = 16 → ∀ j, j < 4 → got j = word (val / 2 ^ (32 * j) : Nat)))

/-- R231: xld gives the ACTIVE lanes, in ascending order, consecutive elements from the address of the lowest; `.ff` loads those before the
first that is not readable, and writes how many they are. -/
def Claims.ExpandLoad : Prop :=
  ∀ (f : FmtM) (s : State) (x : Ctx), Issues (.xld f) s x → x.sub.redo = none → x.act ≠ 0 → Free x 0 0 → CleanL1 x →
    let n := widthBytes f.width.toNat
    let k := x.act.lanes.length
    let at_ := fun j => (x.globalAddr f (lowLane x.act) + j * n) % 2 ^ 64
    let place := fun L => (x.act.lanes.filter (· < L)).length
    (f.func = 0 → (∀ j, j < k → Mapped x pteR (at_ j) n ∧ s.mem.poisoned (placeAt x (at_ j)) n = false) →
      Loads (.xld f) s x f.data.toNat n x.act (fun L => at_ (place L)) (fun _ => .load n) fun g => g.also = RegResult.empty) ∧
    (f.func ≠ 0 → ∀ h, 0 < h → h ≤ k → (∀ j, j < h → Mapped x pteR (at_ j) n ∧ s.mem.poisoned (placeAt x (at_ j)) n = false) →
      (∀ j, j < k → x.s.translate x.c.core x.c.region (at_ j) ≠ .walk) →
      (h < k → ∀ p, x.s.translate x.c.core x.c.region (at_ h) = .leaf p → pteR p = false) →
      Loads (.xld f) s x f.data.toNat n (maskOf fun L => x.act.getLsbD L && decide (place L < h)) (fun L => at_ (place L)) (fun _ => .load n) fun g =>
        ∀ L, L < 32 → x.act.getLsbD L = true → g.also.lane f.aux.toNat L = some (BitVec.ofNat 64 h))

/-- Global and expanding loads (R228, R231). -/
def Obligations.GlobalReads : Prop := Claims.GlobalLoad ∧ Claims.ExpandLoad

/-- A store, plain or ordered, goes on at once; it has sent what each lane that is no helper asks of its home, and nothing else; no register,
flag or byte of memory changes before a home performs it. -/
def SendsStores (i : Instr) (s : State) (x : Ctx) (va : Nat → Nat) (op : Nat → LaneOp) : Prop :=
  ∃ t c b, exec i s = .next t ∧ t.bundle? x.c.cid x.b.index = some (c, b) ∧ PastIt x b ∧ b.flags = x.b.flags ∧
    Keeps x { b with spans := x.b.spans } [] ∧
    Sends x t none fun e => e.lane < 32 ∧ x.actNH.getLsbD e.lane = true ∧
      e = { lane := e.lane, va := va e.lane, pa := placeAt x (va e.lane), op := op e.lane }

/-- R229, R246: st, xsadd and xsclr, on mapped pages, ask each lane's home; with no such lane they do nothing. A release comes after the merges it
forces (R242). -/
def Claims.GlobalStores : Prop :=
  ∀ (f : FmtM) (s : State) (x : Ctx),
    let n := widthBytes f.width.toNat
    let y := fun i => x.forceReds i
    let ready := fun (x : Ctx) (n : Nat) (host : Bool) =>
      Free x f.order.toNat f.scope.toNat ∧ x.actNH ≠ 0 ∧ ∀ L, L < 32 → x.actNH.getLsbD L = true → Mapped x pteW (x.globalAddr f L) n ∧ (isHost (placeAt x (x.globalAddr f L)) = true → host = true)
    (Issues (.st f) s x → (x.actNH = 0 → WritesNothing (.st f) s (y (.st f))) ∧
      (ready (y (.st f)) n true → SendsStores (.st f) s (y (.st f)) (x.globalAddr f) fun L => .store (x.storeBytes f.data.toNat n L))) ∧
    (Issues (.xsadd f) s x → (x.actNH = 0 → WritesNothing (.xsadd f) s (y (.xsadd f))) ∧
      (ready (y (.xsadd f)) 16 false → SendsStores (.xsadd f) s (y (.xsadd f)) (x.globalAddr f) fun L => .xsadd (BitVec.ofNat 32 (x.raw32 3 f.data.toNat L)))) ∧
    (Issues (.xsclr f) s x → (x.actNH = 0 → WritesNothing (.xsclr f) s (y (.xsclr f))) ∧
      (ready (y (.xsclr f)) 16 false → SendsStores (.xsclr f) s (y (.xsclr f)) (x.globalAddr f) fun L => .xsclr (BitVec.ofNat 8 (x.raw32 0 f.data.toNat L))))

/-- R230: cst stores the elements of the ACTIVE lanes not done yet to consecutive addresses, those of R34 from the lowest lane's. -/
def Claims.CompressStore : Prop :=
  ∀ (f : FmtM) (s : State) (x : Ctx), Issues (.cst f) s x →
    let n := widthBytes f.width.toNat
    let at_ := fun j => (x.globalAddr f (lowLane x.actNH) + j * n) % 2 ^ 64
    let place := fun L => (x.actNH.lanes.filter (· < L)).length
    (x.actNH = 0 → WritesNothing (.cst f) s x) ∧
    (x.actNH ≠ 0 → Free x 0 0 →
      (∀ j, x.sub.cst ≤ j → j < x.actNH.lanes.length → Mapped x pteW (at_ j) n) →
      ∃ t c b, exec (.cst f) s = .next t ∧ t.bundle? x.c.cid x.b.index = some (c, b) ∧ PastIt x b ∧ b.flags = x.b.flags ∧ Keeps x b [] ∧
        Sends x t none fun e => e.lane < 32 ∧ x.actNH.getLsbD e.lane = true ∧ x.sub.cst ≤ place e.lane ∧
          e = { lane := e.lane, va := at_ (place e.lane), pa := placeAt x (at_ (place e.lane)), op := .store (x.storeBytes f.data.toNat n e.lane) })

/-- Global and compressing stores (R34, R229, R230, R242, R246). -/
def Obligations.GlobalWrites : Prop := Claims.GlobalStores ∧ Claims.CompressStore

/-- R240, R245: atom asks each lane's home for its operation, and waits for the old value; red asks nothing back, and on an ordinary page, plain,
its value is added to the core's update-only line of its address, room for which may take the merge of another. A PCIe completer may turn an atomic down; device memory does not. The model's choice: which page is ordinary (log entry 11). -/
def Claims.GlobalAtomics : Prop :=
  ∀ (f : FmtM) (s : State) (x : Ctx),
    let n := widthBytes f.width.toNat
    let va := x.globalAddr f
    let mapped := fun (x : Ctx) right => ∀ L, L < 32 → x.actNH.getLsbD L = true → Mapped x right (va L) n ∧ isHost (placeAt x (va L)) = false
    (Issues (.atom f) s x → x.sub.redo = none →
      let y := x.forceReds (.atom f)
      (x.actNH = 0 → WritesNothing (.atom f) s y) ∧
      (x.actNH ≠ 0 → Free y f.order.toNat f.scope.toNat → mapped y (fun p => pteR p && pteW p) →
        (∀ L, L < 32 → x.actNH.getLsbD L = true → y.s.mem.poisoned (placeAt y (va L)) n = false) →
        Loads (.atom f) s y f.data.toNat n x.actNH va (fun L => .atom f.func.toNat n (x.srcBytes f.aux.toNat n L) (x.srcBytes f.data.toNat n L))
          fun g => g.got = [] ∧ g.also = RegResult.empty ∧ g.cell = none)) ∧
    (Issues (.red f) s x →
      let y := x.forceReds (.red f)
      (x.actNH = 0 → WritesNothing (.red f) s y) ∧
      (x.actNH ≠ 0 → Free y f.order.toNat f.scope.toNat → mapped y pteW →
        (f.order ≠ 0 ∨ (∀ L p, L < 32 → x.actNH.getLsbD L = true → y.s.translate x.c.core x.c.region (va L) = .leaf p → pteCache p ≠ 0) →
          SendsStores (.red f) s y va fun L => .atom f.func.toNat n (x.srcBytes f.data.toNat n L) 0) ∧
        (f.order = 0 → x.c.core < s.cores.length → s.mem.requests = [] → (s.core x.c.core).upd = [] →
          (∀ L p, L < 32 → x.actNH.getLsbD L = true → x.s.translate x.c.core x.c.region (va L) = .leaf p → pteCache p = 0 ∧ pteShared p = false) →
          (∀ L M, x.actNH.getLsbD L = true → x.actNH.getLsbD M = true → L ≠ M → placeAt x (va L) ≠ placeAt x (va M)) →
          ∃ t c b, exec (.red f) s = .next t ∧ t.bundle? x.c.cid x.b.index = some (c, b) ∧ PastIt x b ∧ b.flags = x.b.flags ∧
            Keeps x b [] ∧ { t.mem with requests := s.mem.requests, nextReq := s.mem.nextReq } = s.mem ∧
            (∀ q ∈ t.mem.requests, ∃ line, q.agent = some (.merge x.c.core line)) ∧
            ∀ L, L < 32 → x.actNH.getLsbD L = true → ∃ u ∈ (t.core x.c.core).upd, u.line = lineOf (placeAt x (va L)) ∧
              (x.c.cid, x.b.index, x.b.strands.getD L 0) ∈ u.users ∧
              { idx := placeAt x (va L) % 128 / 4, func := f.func.toNat, bytes := n, val := x.srcBytes f.data.toNat n L } ∈ u.words)))

/-- R246: xsrd reads each ACTIVE lane's cell, rounded as FUNC says; with `.clr` the lanes that are no helper clear it. -/
def Claims.ExactSumRead : Prop :=
  ∀ (f : FmtM) (s : State) (x : Ctx), Issues (.xsrd f) s x → x.sub.redo = none →
    let clear := f.func.getLsbD 3
    let y := x.forceReds (.xsrd f)
    (x.act = 0 → WritesNothing (.xsrd f) s y) ∧
    (x.act ≠ 0 → Free y f.order.toNat f.scope.toNat →
      (∀ L, L < 32 → x.act.getLsbD L = true → Mapped y (fun p => pteR p && (!clear || pteW p)) (x.globalAddr f L) 16 ∧
        isHost (placeAt y (x.globalAddr f L)) = false ∧ y.s.mem.poisoned (placeAt y (x.globalAddr f L)) 16 = false) →
      Loads (.xsrd f) s y f.data.toNat 16 x.act (x.globalAddr f) (fun L => .xsrd (clear && !x.b.helper.getLsbD L)) fun g =>
        g.got = [] ∧ g.cell = some (f.func.toNat % 8, f.aux.toNat))

/-- Global atomics and exact-sum cells (R240, R245, R246). -/
def Obligations.AtomicsAndSums : Prop := Claims.GlobalAtomics ∧ Claims.ExactSumRead

/-- R232, R235: pref sends reads that deliver nothing, and counts in HINTDROP the lanes it drops; pref.res asks for each page not present, and drops the
lanes it can ask for none; cctl drops or writes back copies and translations, its FUNC 0 once the core's update-only lines of them have merged; l2drop
counts no lane. None of them changes a register. The model's choice: what tlbinv waits for (log entry 18) and that l2drop counts nothing (log entry 37). -/
def Obligations.HintsAndCacheControl : Prop :=
  ∀ (f : FmtM) (s : State) (x : Ctx),
    let va := x.globalAddr f
    let tr := fun L => x.s.translate x.c.core x.c.region (va L)
    let known := ∀ L, L < 32 → x.act.getLsbD L = true → tr L ≠ .walk
    let good := fun L => match tr L with
      | .leaf p => pteR p && !(pteShared p && s.host.windowLost)
      | _ => false
    let leaf := fun L => match tr L with
      | .leaf _ => true
      | _ => false
    let here := fun L => match tr L with
      | .leaf p => pteR p
      | .absent _ _ => true
      | _ => false
    let line := fun L => lineOf (placeAt x (va L))
    let root := (s.rootHost x.c.region).1
    let hit := fun bits a => x.act.lanes.any fun L => samePage bits a (va L)
    let dropped := fun (ok : Nat → Bool) => satAdd32 x.b.hintDrop (x.act.lanes.filter fun L => !ok L).length
    let after := fun (i : Instr) (more : State → Bundle → Prop) => ∃ t c b, exec i s = .next t ∧ t.bundle? x.c.cid x.b.index = some (c, b) ∧
      PastIt x b ∧ b.flags = x.b.flags ∧ Keeps x { b with hintDrop := x.b.hintDrop } [] ∧ more t b
    (Issues (.pref f) s x → known →
      (f.func ≠ 2 → after (.pref f) fun t b => b.hintDrop = dropped good ∧
        { t.mem with requests := s.mem.requests, nextReq := s.mem.nextReq } = s.mem ∧
        ∀ L, L < 32 → x.act.getLsbD L = true → good L = true → ∃ q ∈ t.mem.requests, q.pend = none ∧ q.strands = [] ∧
          { lane := L, va := va L, pa := placeAt x (va L), op := .load 1 } ∈ q.lanes) ∧
      (f.func = 2 → after (.pref f) fun t _ => t.mem.gddr = s.mem.gddr ∧ t.mem.l2 = s.mem.l2 ∧ t.mem.peerMem = s.mem.peerMem ∧
        t.mem.requests = s.mem.requests) ∧
      (f.func = 2 → x.c.demand = false → after (.pref f) fun t b => t.mem.pageReqs = s.mem.pageReqs ∧ b.hintDrop = dropped fun _ => false) ∧
      (∀ r, f.func = 2 → x.c.demand = true → s.region? x.c.region = some r →
        (let port := s.host.ports.getD r.host Port.init
         port.faultOpen = true ∧ (s.mem.pageReqs.filter fun q => q.host == r.host).length + 32 ≤ port.faultSize) →
        after (.pref f) fun t b => b.hintDrop = dropped here ∧
          ∀ L m c, L < 32 → x.act.getLsbD L = true → tr L = .absent m c → ∃ q ∈ t.mem.pageReqs, q.vpage = vpageOf (va L) ∧ q.root = root ∧
            q.host = r.host)) ∧
    (Issues (.cctl f) s x →
      (f.func = 8 → x.storesOut = false → s.accessHeld root hit = false → s.stampHeld root hit = false →
        after (.cctl f) fun t b => b.hintDrop = x.b.hintDrop ∧ t.mem.gddr = s.mem.gddr ∧ t.mem.l2 = s.mem.l2 ∧
          ∀ L, L < 32 → x.act.getLsbD L = true → (∀ e ∈ t.mem.tlb, e.covers root (va L) = false) ∧
            (∀ e ∈ t.mem.tlb2, (TlbEntry.mk 0 e.root e.vpage e.pte).covers root (va L) = false) ∧
            ∀ e ∈ t.mem.missing, e.root = root → e.vpage ≠ vpageOf (va L)) ∧
      (f.func = 10 → x.act ≠ 0 → x.storesOut = false → s.accessHeld root (fun _ _ => true) = false → s.stampHeld root (fun _ _ => true) = false →
        after (.cctl f) fun t b => b.hintDrop = x.b.hintDrop ∧ t.mem.gddr = s.mem.gddr ∧ t.mem.l2 = s.mem.l2 ∧ (∀ e ∈ t.mem.tlb, e.root ≠ root) ∧
          ∀ e ∈ t.mem.tlb2, e.root ≠ root) ∧
      (f.func = 10 → x.act = 0 → WritesNothing (.cctl f) s x) ∧
      (f.func ≠ 8 → f.func ≠ 10 → known → x.c.core < s.cores.length →
        (f.func = 0 → ∀ L, L < 32 → x.act.getLsbD L = true → leaf L = true → ∀ u ∈ (s.core x.c.core).upd, u.line ≠ line L) →
        after (.cctl f) fun t b =>
          b.hintDrop = (if f.func = 9 then x.b.hintDrop else dropped leaf) ∧
          ∀ L, L < 32 → x.act.getLsbD L = true → leaf L = true →
            (f.func = 0 → ∀ k ∈ (t.core x.c.core).l1, k.line ≠ line L) ∧
            (f.func = 1 → ∀ l, t.mem.l2At (line L) = some l → l.dirty = false) ∧
            (f.func = 2 ∨ f.func = 9 → ∀ l ∈ t.mem.l2, l.line ≠ line L) ∧
            (f.func = 3 → ∀ k ∈ t.cores, ∀ i ∈ k.icache, lineOf i.phys ≠ line L)) ∧
      (f.func = 0 → known → ∀ L u, L < 32 → x.act.getLsbD L = true → leaf L = true → u ∈ (s.core x.c.core).upd → u.line = line L →
        homeless (line L) = false →
        ∃ t c b, exec (.cctl f) s = .next t ∧ t.bundle? x.c.cid x.b.index = some (c, b) ∧ (∃ y ∈ b.subs, y.mask = x.sub.mask ∧ y.pc = x.sub.pc ∧
          y.stall.isSome = true) ∧ (t.core x.c.core).l1 = (s.core x.c.core).l1 ∧ ∃ q ∈ t.mem.requests, q.agent = some (.merge x.c.core (line L))))

/-- R222, R233, R242: fence, once the merges that a release forces are sent and its strands' accesses have performed as its order asks, goes on and
ends their spans; nothing else changes but the note that the bundle has synchronised after the stores it has parked (log entry 78). -/
def Obligations.FencesGoOn : Prop :=
  ∀ (f : FmtA) (s : State) (x : Ctx), Issues (.fence f) s x →
    let y := x.forceReds (.fence f)
    (x.act = 0 → WritesNothing (.fence f) s y) ∧
    (x.act ≠ 0 → y.memWaits (f.func.toNat % 8) (f.func.toNat / 8) = false →
      (acquires (f.func.toNat % 8) = true → y.loadsOpen x.actStrands = false) →
      ∃ b, exec (.fence f) s = .next ((y.endSpans x.actStrands).s.setCrew (x.c.setBundle b)) ∧ PastIt x b ∧ b.spans = (x.b.spans.filter fun e => !x.actStrands.contains e.strand) ∧ b.flags = x.b.flags ∧
        Keeps x { b with spans := x.b.spans } [])

/-- R234, R295: mwait asks the homes of its lines first; once they have served it, on lines that L2 holds already, it goes on, with the values it read,
if every lane's location has reached its value; else it is held and writes nothing. The model's choice: that the lanes are read at one instant (log entry 7). -/
def Obligations.MemoryWait : Prop :=
  ∀ (f : FmtM) (s : State) (x : Ctx), Issues (.mwait f) s x →
    let host := (s.rootHost x.c.region).2
    let val := fun L => leNat (s.mem.read host (placeAt x (x.globalAddr f L)) 8)
    let met := fun L => if f.func = 1 then val L = x.raw64 4 f.aux.toNat L else x.raw64 4 f.aux.toNat L ≤ val L
    (x.act = 0 → WritesNothing (.mwait f) s x) ∧
    let served := fun L => ∃ q ∈ s.mem.requests, q.agent = some (.mwait x.c.cid x.b.index) ∧ q.wr = false ∧ q.st = .ready ∧
      q.line = lineOf (placeAt x (x.globalAddr f L))
    let held := fun (b : Bundle) => b.pend = x.b.pend ∧ ∃ y ∈ b.subs, y.mask = x.sub.mask ∧ y.pc = x.sub.pc ∧ y.stall.isSome = true
    (∀ L, Free x 1 f.scope.toNat → (s.core x.c.core).entries = [] → (∀ M, M < 32 → x.act.getLsbD M = true → Mapped x pteR (x.globalAddr f M) 8) →
      L < 32 → x.act.getLsbD L = true → homeless (lineOf (placeAt x (x.globalAddr f L))) = false → ¬served L →
      ∃ t c b, exec (.mwait f) s = .next t ∧ t.bundle? x.c.cid x.b.index = some (c, b) ∧ held b ∧ b.v = x.b.v ∧ b.p = x.b.p ∧ b.s = x.b.s ∧
        b.k = x.b.k ∧ b.flags = x.b.flags ∧ ∃ q ∈ t.mem.requests, q.agent = some (.mwait x.c.cid x.b.index) ∧
          q.line = lineOf (placeAt x (x.globalAddr f L))) ∧
    (x.act ≠ 0 → Free x 1 f.scope.toNat → x.c.nan = [] → (s.core x.c.core).entries = [] → (∀ k ∈ s.cores, k.upd = []) →
      (∀ L, L < 32 → x.act.getLsbD L = true → let a := placeAt x (x.globalAddr f L)
        Mapped x pteR (x.globalAddr f L) 8 ∧ s.mem.poisoned a 8 = false ∧ (homeless (lineOf a) = true ∨ (served L ∧ (s.mem.l2At a).isSome = true))) →
      ∃ t c b, exec (.mwait f) s = .next t ∧ t.bundle? x.c.cid x.b.index = some (c, b) ∧
        b.v = x.b.v ∧ b.p = x.b.p ∧ b.s = x.b.s ∧ b.k = x.b.k ∧ b.flags = x.b.flags ∧ t.mem.gddr = s.mem.gddr ∧ t.mem.l2 = s.mem.l2 ∧
        t.mem.host = s.mem.host ∧ t.mem.peerMem = s.mem.peerMem ∧
        ((∃ L, L < 32 ∧ x.act.getLsbD L = true ∧ ¬met L) → held b) ∧
        ((∀ L, L < 32 → x.act.getLsbD L = true → met L) → PastIt x b ∧ (f.data = 800 → b.pend = x.b.pend) ∧
          (f.data ≠ 800 → ∃ p r, b.pend = x.b.pend ++ [p] ∧ p.result = some r ∧ ∀ L, L < 32 → x.act.getLsbD L = true →
            r.lane f.data.toNat L = some (BitVec.ofNat 64 (val L % 2 ^ 32)) ∧ r.lane (f.data.toNat + 1) L = some (BitVec.ofNat 64 (val L / 2 ^ 32)))))

/-- An access of one address per lane: its format, lanes, bytes per lane, the right its pages need, whether it writes, how it touches a CHECKED page, and
whether it waits for an absent page as a load does. -/
structure LaneAccess where
  f : FmtM
  m : LaneMask
  n : Nat
  right : DWord → Bool
  write : Bool
  touch : Touch
  waits : Bool

/-- The access of an instruction with the context x. -/
def laneAccess (i : Instr) (x : Ctx) : Option LaneAccess :=
  let n := fun f : FmtM => widthBytes f.width.toNat
  match i with
  | .ld f => some ⟨f, x.loadMask f.data.toNat, n f, pteR, false, .load, true⟩
  | .st f => some ⟨f, x.actNH, n f, pteW, true, .store, f.order != 0⟩
  | .atom f => some ⟨f, x.actNH, n f, fun p => pteR p && pteW p, true, .atom, true⟩
  | .red f => some ⟨f, x.actNH, n f, pteW, true, .atom, f.order != 0⟩
  | .xsadd f => some ⟨f, x.actNH, 16, pteW, true, .atom, f.order != 0⟩
  | .xsclr f => some ⟨f, x.actNH, 16, pteW, true, .atom, f.order != 0⟩
  | .xsrd f => some ⟨f, x.act, 16, fun p => pteR p && (!f.func.getLsbD 3 || pteW p), f.func.getLsbD 3, .atom, true⟩
  | _ => none

/-- An access fails protection: it is misaligned, or its page is present without the right (R208, R209). -/
def unfit (right : DWord → Bool) (va n : Nat) (w : Trans) : Bool :=
  decide (va % n ≠ 0) || (match w with
    | .leaf p => !right p
    | _ => false)

/-- A trap at the instruction, its effects on the context `x` made. -/
def trapOf (x : Ctx) (cause : Nat) (info : BitVec 128) : State := x.commit.takeTrap x.c.cid x.b.index cause info x.sub.pc false 0 x.sub.cst

/-- R208, R209, R223, R239: of ld, st, atom, red, xsadd, xsclr and xsrd the lowest lane that is misaligned or lacks the right traps PROT_FAULT; a plain
load or store, or an atomic, that races with another open span on a CHECKED page traps MEMRACE; one that waits for a page not present, in a crew without
demand paging, traps PAGE_FAULT, with it in TRAPINFO. xld traps PROT_FAULT at its lowest element that fails, cst at the next it would store. -/
def Claims.GlobalFaults : Prop :=
  (∀ (i : Instr) (s : State) (x0 : Ctx) (k : LaneAccess) (L : Nat), Issues i s x0 →
    let x := x0.forceReds i
    let va := x.globalAddr k.f
    let tr := fun L => x.s.translate x.c.core x.c.region (va L)
    let bad := fun L => unfit k.right (va L) k.n (tr L)
    laneAccess i x = some k → x.sub.redo = none → x.memWaits k.f.order.toNat k.f.scope.toNat = false → k.m.getLsbD L = true → L < 32 →
    (∀ M, M < 32 → k.m.getLsbD M = true → tr M ≠ .walk) →
    (bad L = true → (∀ M, M < L → k.m.getLsbD M = true → bad M = false) →
      exec i s = .next (trapOf x 7 (faultInfo (va L) L 0 false k.write false))) ∧
    (Free x k.f.order.toNat k.f.scope.toNat → CleanL1 x → (x.s.core x.c.core).upd = [] →
      (∀ M, M < 32 → k.m.getLsbD M = true → bad M = false ∧ ∃ p, tr M = .leaf p ∧ pteShared p = false ∧ (M ≠ L → pteChecked p = false) ∧
        x.s.mem.poisoned (placeAt x (va M)) k.n = false ∧ (k.touch = .atom → isHost (placeAt x (va M)) = false)) →
      ∀ p q, tr L = .leaf p → pteChecked p = true → k.touch = .atom ∨ k.f.order = 0 →
      x.s.raceWith (.strand x.c.cid x.b.index (x.b.strands.getD L 0) x.c.core x.b.slot) k.touch (placeAt x (va L)) k.n = some q →
      exec i s = .next (trapOf x 10 (raceInfo (va L) L q (k.touch != .load)))) ∧
    (k.waits = true → x.sub.stall = none → x.c.demand = false → (∀ M, M < 32 → k.m.getLsbD M = true → bad M = false) → tr L = .absent false false →
      (∀ M, M < 32 → k.m.getLsbD M = true → M ≠ L → ∃ p, tr M = .leaf p) →
      (∀ r, s.region? x.c.region = some r → r.handler ≠ 0) → (s.region? x.c.region).isSome = true → x.inTrap = false → s.host.debuggers = [] →
      ∃ t c b u, exec i s = .next t ∧ t.bundle? x.c.cid x.b.index = some (c, b) ∧ b.trap = some u ∧ u.cause = 6 ∧
        u.info = faultInfo (va L) L 0 false k.write false ∧ u.pc = x.sub.pc)) ∧
  (∀ (f : FmtM) (s : State) (x : Ctx) (j : Nat) (m : LaneMask),
    let n := widthBytes f.width.toNat
    let va := fun j => (x.globalAddr f (lowLane m) + j * n) % 2 ^ 64
    let tr := fun j => x.s.translate x.c.core x.c.region (va j)
    let lane := m.lanes.getD j 0
    x.memWaits 0 0 = false → j < m.lanes.length →
    (Issues (.xld f) s x → m = x.act → f.func = 0 → x.sub.redo = none → (∀ j, j < m.lanes.length → tr j ≠ .walk) → unfit pteR (va j) n (tr j) = true →
      (∀ h, h < j → unfit pteR (va h) n (tr h) = false) → exec (.xld f) s = .next (trapOf x 7 (faultInfo (va j) lane j false false false))) ∧
    (Issues (.cst f) s x → m = x.actNH → j = x.sub.cst → ∀ p, tr j = .leaf p → unfit pteW (va j) n (tr j) = true →
      exec (.cst f) s = .next (trapOf x 7 (faultInfo (va j) lane j false true false))))

/-- R209: a plain store whose page is not present parks its lanes in the replay queue, asks for the page, and its strands go on. The model's choice: how an absent CHECKED page is known (log entry 9). -/
def Claims.StoresPark : Prop :=
  ∀ (f : FmtM) (s : State) (x : Ctx) (r : Region), Issues (.st f) s x → f.order = 0 → Free x 0 0 → x.actNH ≠ 0 →
    let n := widthBytes f.width.toNat
    x.c.core < s.cores.length → s.region? x.c.region = some r → x.c.demand = true → s.mem.pageReqs = [] →
    r.host < s.host.ports.length → (let port := s.host.ports.getD r.host Port.init
      port.faultOpen = true ∧ port.faultSize ≠ 0) →
    ∀ page, page < 2 ^ 35 → (∀ L, L < 32 → x.actNH.getLsbD L = true → x.globalAddr f L % n = 0 ∧ vpageOf (x.globalAddr f L) = page ∧
      ∃ m, s.translate x.c.core x.c.region (x.globalAddr f L) = .absent m false) →
    ∃ t c b e q, exec (.st f) s = .next t ∧ t.bundle? x.c.cid x.b.index = some (c, b) ∧ PastIt x b ∧ Keeps x b [] ∧ b.flags = x.b.flags ∧
      (t.core x.c.core).replay = [e] ∧ e.vpage = page ∧ e.crew = x.c.cid ∧ e.bun = x.b.index ∧ e.request = some q.id ∧
      e.lanes = (x.actNH.lanes.map fun L => { lane := L, va := x.globalAddr f L, pa := 0, op := .store (x.storeBytes f.data.toNat n L) }) ∧
      t.mem.pageReqs = [q] ∧ q.vpage = page ∧ q.write = true ∧ t.mem.gddr = s.mem.gddr ∧ t.mem.l2 = s.mem.l2 ∧ t.mem.requests = s.mem.requests

/-- Accesses that fault, and stores that park (R208, R209, R223, R239). -/
def Obligations.FaultingAccesses : Prop := Claims.GlobalFaults ∧ Claims.StoresPark

/-- As `Issues`, in a crew of a region with overcommit: the v names the instruction reads are resident, and there are rows for those it writes (R95, R98). -/
structure IssuesOver (i : Instr) (s : State) (x : Ctx) (wr : List Nat) : Prop where
  cur : s.cur = some (x.c.cid, x.b.index)
  ctx : ∃ x0, s.ctx? x.c.cid x.b.index (guardOf i) = some x0 ∧ x = x0.counted
  legal : failing x.env i = none
  clear : x.cast.hazards = true → x.inTrap = false → x.hazard i = none
  owed : isSync i = true → x.b.owed = []
  due : (markOf i || x.asMarked i) = true → x.inTrap = false → x.b.fpDue = none
  commits : x.c.ovc ≠ 0
  resident : x.fills (x.valuesRead i) = []
  room : (x.freshRows wr).length ≤ x.s.freeRows x.c

/-- The context once the recency of the names the instruction reads is noted (R96). -/
def noted (x : Ctx) (i : Instr) : Ctx := { x with b := x.b.touch x.s.coreClock (x.ownedOf (x.valuesRead i)) }

/-- R95, R96, R98: under overcommit an instruction that finds its rows has the same effect as without, and the recency of the names it read is noted; one
that reads a spilled name for which no row is free waits, and writes no register. -/
def Claims.IssuesUnderOvercommit : Prop :=
  ∀ (f : FmtA) (g : FmtM) (s : State) (x : Ctx),
    let d := [f.dst.toNat]
    (IssuesOver (.add f) s x d → tyWide f.ty.toNat = false → WritesInt (.add f) f s (noted x (.add f)) f.round.toNat fun L => intA f x L + intB f x L) ∧
    (IssuesOver (.mul f) s x d → tyWide f.ty.toNat = false → WritesInt (.mul f) f s (noted x (.mul f)) f.round.toNat fun L => intA f x L * intB f x L) ∧
    (IssuesOver (.mad f) s x d → tyWide f.ty.toNat = false →
      WritesInt (.mad f) f s (noted x (.mad f)) f.round.toNat fun L => intA f x L * intB f x L + intC f x L) ∧
    (IssuesOver (.popc f) s x d → let y := noted x (.popc f)
      WritesReg (.popc f) s y f.dst.toNat fun L =>
        (BitVec.ofNat 32 ((List.range (tyBits f.ty.toNat)).filter fun i => (x.src f.ty.toNat f.opa.toNat f.moda L).testBit i).length, 0)) ∧
    (IssuesOver (.ld g) s x (writeNames (.ld g)) → x.sub.redo = none → let y := noted x (.ld g)
      let n := widthBytes g.width.toNat
      let m := x.loadMask g.data.toNat
      m ≠ 0 → Free y g.order.toNat g.scope.toNat → CleanL1 y →
      (∀ L, L < 32 → m.getLsbD L = true → Mapped y pteR (y.globalAddr g L) n ∧ s.mem.poisoned (placeAt y (y.globalAddr g L)) n = false) →
      Loads (.ld g) s y g.data.toNat n m (y.globalAddr g) (fun _ => .load n) fun _ => True) ∧
    (∀ n, (s.cur = some (x.c.cid, x.b.index) ∧ (∃ x0, s.ctx? x.c.cid x.b.index (guardOf (.add f)) = some x0 ∧ x = x0.counted) ∧
        failing x.env (.add f) = none ∧ x.cast.hazards = false ∧ x.c.ovc ≠ 0 ∧ n ∈ x.fills (x.valuesRead (.add f)) ∧ x.s.freeRows x.c = 0 ∧
        (∃ m ∈ x.b.rows, 4 < x.b.rows.length ∧ m ∉ readNames (.add f) ∧ m ∉ x.castReads (.add f) ∧ m ∉ writeNames (.add f) ∧ x.b.isPending m = false)) →
      ∃ t c b, exec (.add f) s = .next t ∧ t.bundle? x.c.cid x.b.index = some (c, b) ∧ b.v = x.b.v ∧ b.p = x.b.p ∧ b.s = x.b.s ∧ b.k = x.b.k ∧
        b.flags = x.b.flags ∧ ∃ y ∈ b.subs, y.mask = x.sub.mask ∧ y.pc = x.sub.pc ∧ ∃ st, y.stall = some st ∧ st.rows.isSome = true)

/-- `xacq` and `xrel` change the names a bundle owns, and under overcommit instructions find or wait for rows (R89, R95, R96, R98, R110, R111). -/
def Obligations.NamesAndRows : Prop := Claims.ExtendedNames ∧ Claims.IssuesUnderOvercommit

/-! ## Copy queues and matrix engines (R247 to R293) -/

/-- Of a core only its queue entries, scoreboard, tasks and enqueue counter may have changed, of the memory system and the other cores nothing. -/
def QueuesOnly (x : Ctx) (t : State) : Prop :=
  let k := x.s.core x.c.core
  t.mem = x.s.mem ∧ (∀ n, n ≠ x.c.core → t.core n = x.s.core n) ∧
  { t.core x.c.core with entries := k.entries, sboard := k.sboard, tasks := k.tasks, enq := k.enq, tables := k.tables } = k

/-- The place that an enqueue takes in the enqueue order of its core (R249). -/
def placeOf (x : Ctx) : Nat := (x.s.core x.c.core).enqPlace x.s.coreClock (x.c.ageOf x.b)

/-- The instruction goes on past itself, its bundle's registers and FLAGS as they were; `more` is said of the next state, crew and bundle. -/
def GoesOn (i : Instr) (s : State) (x : Ctx) (more : State → Crew → Bundle → Prop) : Prop :=
  ∃ t c b, exec i s = .next t ∧ t.bundle? x.c.cid x.b.index = some (c, b) ∧ PastIt x b ∧ b.v = x.b.v ∧ b.p = x.b.p ∧ b.s = x.b.s ∧ b.k = x.b.k ∧
    b.flags = x.b.flags ∧ b.pend = x.b.pend ∧ more t c b

/-- The instruction traps at its own PC. -/
def Traps (i : Instr) (s : State) (x : Ctx) (cause : Nat) (info : BitVec 128) : Prop :=
  exec i s = .next (x.commit.takeTrap x.c.cid x.b.index cause info x.sub.pc false 0 x.sub.cst)

/-- A check of the instruction's word against what its cast declares fails: it traps ILLEGAL_OP before any effect (R43). -/
def IllegalHere (i : Instr) (s : State) (x : Ctx) (bit : BitVec 128) : Prop :=
  exec i s = .next (x.commit.takeTrap x.c.cid x.b.index 1 bit x.sub.pc false 0 0)

/-- The bundle is the producer, of which an enqueue may act now: a lane that is no helper, no stopped copy, no access to wait for, room in the
queue and on the scoreboard. -/
def MayEnqueue (x : Ctx) (q : Nat) (board : Bool) : Prop :=
  x.actNH ≠ 0 ∧ x.b.stage = none ∧ x.b.index = x.cast.producer ∧ x.anyStopped = none ∧ x.enqueueWaits q board = false ∧
  x.c.core < x.s.cores.length

/-- R249 to R252, R257, R258, R269: lcopy and lput put an entry with their record, stamp and physical range into the queue at their place of the
enqueue order (the tail, but before younger bundles' of the same clock), and the range on the scoreboard; with ARRIVE the ring arrival is issued at once.
A stamped enqueue is a release, after the merges it forces (R242). The model's choice: where a range without a strip ends (log entry 12). -/
def Claims.CopiesEnqueue : Prop :=
  ∀ (f : FmtE) (s : State) (x0 : Ctx) (put : Bool),
    let i := if put then Instr.lput f else Instr.lcopy f
    let x := x0.forceReds i
    let q := f.queue.toNat
    let words := (List.range 4).map fun j => x.sreg (f.recd.toNat - 640 + j) 0
    let r := CopyRec.read words
    let n := placeOf x
    let k := (x.s.core x.c.core).openPlace n
    Issues i s x0 → MayEnqueue x q true → r.bad words put = [] →
    (4 ≤ r.fmt → (k.tables.getD r.tbl Codebook.init).owner = some x.c.cid) → x.stampBad q r.sscope (x.stampOf f) = false →
    ∀ cid area off, x.rangeSpot (if put then .load else .store) r.saddr (r.footprint put) = .at cid area off →
    (r.arrive = true → put = false ∧ x.inStageD r.aring r.saddr = true ∧
      ∃ g, x.c.ring? r.aring = some g ∧ (g.stage (g.phys g.dist)).issued < g.parr) →
    GoesOn i s x fun t c _ => QueuesOnly x t ∧ ∃ e, (t.core x.c.core).entries = insertSeq QEntry.seq e k.entries ∧ e.crew = x.c.cid ∧ e.queue = q ∧
      e.kind = (if put then .lput else .lcopy) ∧ e.recd = words ∧ e.stamp = x.stampOf f ∧ e.scope = r.sscope ∧ e.unit = 0 ∧ e.st = .waiting ∧
      e.range = some { area := area, off := off, len := r.footprint put } ∧ e.seq = n ∧ (t.core x.c.core).enq = k.enq ∧
      (t.core x.c.core).sboard = k.sboard ++ [{ seq := n, crew := x.c.cid, write := !put, range := { area := area, off := off, len := r.footprint put } }] ∧
      (r.arrive = false → e.arrive = none ∧ c.rings = x.c.rings) ∧
      (r.arrive = true → ∀ g, x.c.ring? r.aring = some g → e.arrive = some (r.aring, g.phys g.dist))

/-- R247, R252, R262, R263: without lanes an enqueue does nothing; by another bundle than the producer it is NOTPRODUCER; with a stopped copy it traps
QUEUE_FAULT for it; a record that breaks a field rule traps QUEUE_FAULT with RECORD at the highest such field. The model's choice: fields at which some rules are reported (log entries 38 and 84). -/
def Claims.EnqueueChecks : Prop :=
  ∀ (f : FmtE) (s : State) (x0 : Ctx) (i : Instr), i = .lcopy f ∨ i = .lput f ∨ i = .lcode f ∨ i = .qfence f → Issues i s x0 →
    let x := x0.forceReds i
    (x.actNH = 0 → WritesNothing i s x) ∧
    (x.actNH ≠ 0 → x.b.stage ≠ none ∨ x.b.index ≠ x.cast.producer →
      Traps i s x 12 (BitVec.ofNat 128 (x.cast.producer + x.b.index % 32 * 2 ^ 8))) ∧
    (∀ info, x.actNH ≠ 0 → x.b.stage = none → x.b.index = x.cast.producer → x.anyStopped = some info → (i = .qfence f → f.func.getLsbD 2 = false) →
      Traps i s x 13 info) ∧
    (∀ (put : Bool) (w : RecField), i = (if put then .lput f else .lcopy f) → x.actNH ≠ 0 → x.b.stage = none → x.b.index = x.cast.producer →
      x.anyStopped = none →
      let words := (List.range 4).map fun j => x.sreg (f.recd.toNat - 640 + j) 0
      w ∈ (CopyRec.read words).bad words put → (∀ u ∈ (CopyRec.read words).bad words put, u.bit ≤ w.bit) →
      Traps i s x 13 (queueInfo f.queue.toNat 1 w.bit))

/-- R265, R270 to R272: lcode takes its table for the crew and enters the queue; qfence enters the queue with the queues it names, or with `.drop`
abandons the crew's entries in them; qstat reads the queue's state, or its last stamp. -/
def Claims.QueueOperations : Prop :=
  ∀ (f : FmtE) (g : FmtA) (s : State) (x : Ctx),
    let w := x.sreg (f.recd.toNat - 640) 0
    let tbl := bitsOf w 50 48
    (Issues (.lcode f) s x →
      let x := x.forceReds (.lcode f)
      let k := (x.s.core x.c.core).openPlace (placeOf x)
      MayEnqueue x f.queue.toNat false → bitsOf w 63 54 = 0 → bitsOf w 53 51 ≤ 5 → bitsOf w 47 0 % 128 = 0 →
      x.stampBad f.queue.toNat (bitsOf w 53 51) (x.stampOf f) = false → tbl < k.tables.length →
      ((k.tables.getD tbl Codebook.init).owner = none ∨ (k.tables.getD tbl Codebook.init).owner = some x.c.cid) →
      GoesOn (.lcode f) s x fun t _ _ => QueuesOnly x t ∧ ((t.core x.c.core).tables.getD tbl Codebook.init).owner = some x.c.cid ∧
        ∃ e, (t.core x.c.core).entries = insertSeq QEntry.seq e k.entries ∧ e.seq = placeOf x ∧ e.kind = .lcode ∧ e.recd = [w] ∧ e.crew = x.c.cid ∧ e.queue = f.queue.toNat ∧
          e.stamp = x.stampOf f) ∧
    (Issues (.qfence f) s x → f.func.getLsbD 2 = false →
      let x := x.forceReds (.qfence f)
      let k := (x.s.core x.c.core).openPlace (placeOf x)
      MayEnqueue x (f.func.toNat % 4) false →
      x.stampBad (f.func.toNat % 4) (f.func.toNat / 8) (x.stampOf f) = false →
      GoesOn (.qfence f) s x fun t _ _ => QueuesOnly x t ∧ ∃ e, (t.core x.c.core).entries = insertSeq QEntry.seq e k.entries ∧ e.kind = .qfence ∧
        e.mask = f.queue ∧ e.seq = placeOf x ∧ e.crew = x.c.cid ∧ e.queue = f.func.toNat % 4 ∧ e.stamp = x.stampOf f) ∧
    (Issues (.qfence f) s x → f.func.getLsbD 2 = true → x.actNH ≠ 0 → x.b.stage = none → x.b.index = x.cast.producer → x.c.core < s.cores.length →
      let x := x.forceReds (.qfence f)
      let k := x.s.core x.c.core
      (∀ e ∈ k.entries, e.arrive = none) →
      GoesOn (.qfence f) s x fun t _ _ => QueuesOnly x t ∧
        (t.core x.c.core).entries = (k.entries.filter fun e => !(e.crew == x.c.cid && f.queue.toNat.testBit e.queue))) ∧
    (Issues (.qstat g) s x → x.act ≠ 0 → Binds (.qstat g) s x [(g.dst.toNat, fun _ => if g.func.getLsbD 2 then
        (x.c.stampDone.getD (g.func.toNat % 4) 0).setWidth 32 else BitVec.ofNat 32 (x.queueWord (g.func.toNat % 4) false))] [] fun _ => 0)

/-- Copies are enqueued after their checks (R242, R247, R249 to R252, R257, R258, R262, R263, R265, R269 to R272). -/
def Obligations.CopyQueueEntries : Prop := Claims.CopiesEnqueue ∧ Claims.EnqueueChecks ∧ Claims.QueueOperations

/-- The instruction that enqueues a task kind. -/
def taskInstr (k : TKind) (f : FmtE) : Instr :=
  match k with
  | .mma => .mma f
  | .mwld => .mwld f
  | .mst => .mst f
  | .mzero => .mzero f

/-- R274, R279, R288 to R291: mma, mwld, mst and mzero put a task with their record, stamp and physical range into the core's pool, at their place of the enqueue
order, and the range on the scoreboard; a record that breaks a field rule or a shape rule, a scratch range that is not the crew's, a weight-buffer range past
WBG or a tile the crew does not have traps TASK_FAULT, in this order. The model's choice: fields at which some rules are reported (log entries 38 and 84). -/
def Obligations.TasksEnqueue : Prop :=
  ∀ (kind : TKind) (f : FmtE) (s : State) (x0 : Ctx),
    let i := taskInstr kind f
    let x := x0.forceReds i
    let words := (List.range 4).map fun j => x.sreg (f.recd.toNat - 640 + j) 0
    let r := TaskRec.read kind (words.getD 0 0) (words.getD 1 0)
    let k := x.s.core x.c.core
    let n := placeOf x
    let sound := r.bad words (x.stampOf f).isSome = [] ∧ r.badShape = []
    let spotOf := x.rangeSpot (if kind = .mst then .store else .load) r.saddr r.size
    let fits := (kind = .mma ∨ kind = .mwld → r.wg + r.granules ≤ x.c.wbg) ∧ (kind ≠ .mwld → r.ct + r.nt < x.c.tiles.length)
    Issues i s x0 →
    (x.actNH = 0 → WritesNothing i s x) ∧
    (∀ w, x.actNH ≠ 0 → w ∈ r.bad words (x.stampOf f).isSome → (∀ u ∈ r.bad words (x.stampOf f).isSome, u.bit ≤ w.bit) →
      Traps i s x 14 (taskInfo 1 w.bit)) ∧
    (∀ w, x.actNH ≠ 0 → r.bad words (x.stampOf f).isSome = [] → w ∈ r.badShape → (∀ u ∈ r.badShape, u.bit ≤ w.bit) →
      Traps i s x 14 (taskInfo 2 w.bit)) ∧
    (x.actNH ≠ 0 → sound → kind ≠ .mzero → spotOf = .fault → Traps i s x 14 (taskInfo 3 0)) ∧
    (x.actNH ≠ 0 → sound → kind = .mma ∨ kind = .mwld → spotOf ≠ .fault → x.c.wbg < r.wg + r.granules → Traps i s x 14 (taskInfo 4 80)) ∧
    (x.actNH ≠ 0 → sound → kind ≠ .mwld → (kind ≠ .mzero → spotOf ≠ .fault) → (kind = .mma → r.wg + r.granules ≤ x.c.wbg) →
      x.c.tiles.length ≤ r.ct + r.nt → Traps i s x 14 (taskInfo 5 64)) ∧
    (∀ spot : Spot, x.actNH ≠ 0 → sound → fits → x.c.core < s.cores.length → k.tasks.length < 64 → k.sboard.length < 64 →
      x.acqPending (x.b.strandsOf x.b.present) = false →
      (kind = .mzero → spot = .fault) → (kind ≠ .mzero → spotOf = spot ∧
        ∃ cid area off, spot = .at cid area off) →
      (∀ a v, x.stampOf f = some (a, v) → Mapped x pteW a.toNat 8) →
      GoesOn i s x fun t _ _ => QueuesOnly x t ∧ ∃ u, (t.core x.c.core).tasks = insertSeq Task.seq u (k.openPlace n).tasks ∧ u.crew = x.c.cid ∧ u.bun = x.b.index ∧ u.kind = kind ∧
        u.w0 = words.getD 0 0 ∧ u.w1 = words.getD 1 0 ∧ u.engine = none ∧ u.seq = n ∧ (t.core x.c.core).enq = k.enq + 1 ∧
        u.stamp = (x.stampOf f).map (fun st => (st.1, placeAt x st.1.toNat, st.2)) ∧
        (∀ cid area off, spot = .at cid area off → u.range = some { area := area, off := off, len := r.size } ∧
          (t.core x.c.core).sboard = (k.openPlace n).sboard ++ [{ seq := n, crew := x.c.cid, write := kind == .mst, range := { area := area, off := off, len := r.size } }]) ∧
        (kind = .mzero → u.range = none ∧ (t.core x.c.core).sboard = (k.openPlace n).sboard))

/-- R284, R292, R293: astat reads a tile's counts, and with `.clr` clears them; ard reads each lane's element; a tile the crew does not have is
TASK_FAULT; a poisoned element traps. Tasks of the crew that would write the tile have gone. The model's choice: that helper lanes alone clear too (log entry 42). -/
def Obligations.TileReads : Prop :=
  ∀ (f : FmtA) (s : State) (x : Ctx),
    let n := x.tileNum f
    let z := x.c.tile n
    let elem := fun L => 64 * (x.raw32 f.ty.toNat f.opb.toNat L % 64) + x.raw32 f.ty.toNat f.opc.toNat L % 64
    let word := BitVec.ofNat 32 (if f.func.getLsbD 1 then z.infc else z.nanc * 2 ^ 16 + z.satc)
    let free := x.act ≠ 0 ∧ n < x.c.tiles.length ∧ ∀ t ∈ (s.core x.c.core).tasks, t.crew = x.c.cid → t.record.samples n = false
    (Issues (.astat f) s x → (x.act = 0 → WritesNothing (.astat f) s x) ∧
      (x.act ≠ 0 → x.c.tiles.length ≤ n → Traps (.astat f) s x 14 (taskInfo 5 0)) ∧
      (free → f.func.getLsbD 0 = false → Binds (.astat f) s x [(f.dst.toNat, fun _ => word)] [] fun _ => 0) ∧
      (free → f.func.getLsbD 0 = true →
        ∃ (b : Bundle) (c : Crew) (p : Pending) (r : RegResult), exec (.astat f) s = .next (x.s.setCrew (c.setBundle b)) ∧ PastIt x b ∧
          b.pend = x.b.pend ++ [p] ∧ p.result = some r ∧ (∀ L, L < 32 → x.act.getLsbD L = true → r.lane f.dst.toNat L = some (word.setWidth 64)) ∧
          { c with tiles := x.c.tiles } = x.c ∧ c.tile n = { z with satc := 0, nanc := 0, infc := 0 } ∧ ∀ m, m ≠ n → c.tile m = x.c.tile m)) ∧
    (Issues (.ard f) s x → (x.act = 0 → WritesNothing (.ard f) s x) ∧
      (x.act ≠ 0 → x.c.tiles.length ≤ n → Traps (.ard f) s x 14 (taskInfo 5 0)) ∧
      (free → x.c.nan = [] → (∀ L, L < 32 → x.act.getLsbD L = true → z.poison.contains (elem L) = false) →
        Binds (.ard f) s x [(f.dst.toNat, fun L => z.elems.get (elem L))] [] fun _ => 0) ∧
      (∀ L, free → x.c.nan = [] → L < 32 → x.act.getLsbD L = true → z.poison.contains (elem L) = true →
        (∀ M, M < L → x.act.getLsbD M = true → z.poison.contains (elem M) = false) → Traps (.ard f) s x 9 (poisonInfo 0 L 2)))

/-! ## The visibility path (R304 to R337) -/

/-- What a bundle's primitive-buffer slot holds, or will hold once taken. -/
def slotOf (x : Ctx) : PrimSlot := x.b.prim.getD { na := x.cast.na, verts := [], tris := [] }

/-- The bundle has a primitive-buffer slot, or one is free for it now (R304). -/
def HasSlot (x : Ctx) : Prop :=
  x.b.prim.isSome = true ∨ (x.b.primTicket = none ∧ (x.s.core x.c.core).primOrder = [] ∧ x.c.core < x.s.cores.length ∧
    x.s.blocksUsed x.c.core + slotBlocks x.cast.na ≤ 256)

/-- R304, R330, R331: vemit and pemit write each lane's vertex or triangle into the bundle's slot, the highest lane's where lanes name one index; in a
cast that is no pipeline they are ILLEGAL_OP; without lanes they do nothing. The model's choice: that the check of the cast asks for no ACTIVE lane (log entry 24). -/
def Claims.MeshletEmits : Prop :=
  ∀ (f : FmtA) (s : State) (x : Ctx),
    let idx := fun L => x.raw32 f.ty.toNat f.opa.toNat L
    let ind := fun L => x.raw32 f.ty.toNat f.opb.toNat L % 2 ^ 24
    let last := fun L => ∀ M, L < M → M < 32 → x.act.getLsbD M = true → idx M ≠ idx L
    let word := fun L (w : List Word) => w = (List.range (4 + x.cast.na)).map fun i => BitVec.ofNat 32 (x.raw32 0 (x.cast.vpos + i) L)
    (∀ i, i = .vemit f ∨ i = .pemit f → Issues i s x →
      (x.cast.kind ≠ 1 → IllegalHere i s x 86) ∧ (x.cast.kind = 1 → x.act = 0 → WritesNothing i s x)) ∧
    (Issues (.vemit f) s x → x.cast.kind = 1 → x.act ≠ 0 → HasSlot x → (∀ L, L < 32 → x.act.getLsbD L = true → idx L < 96) →
      GoesOn (.vemit f) s x fun t _ b => t.mem = s.mem ∧ t.vis = s.vis ∧ ∃ q, b.prim = some q ∧ q.tris = (slotOf x).tris ∧
        (∀ L, L < 32 → x.act.getLsbD L = true → last L → word L (entryAt q.verts (idx L) [])) ∧
        ∀ j, (∀ L, L < 32 → x.act.getLsbD L = true → idx L ≠ j) → entryAt q.verts j [] = entryAt (slotOf x).verts j []) ∧
    (Issues (.pemit f) s x → x.cast.kind = 1 → x.act ≠ 0 → HasSlot x →
      (∀ L, L < 32 → x.act.getLsbD L = true → idx L < 160 ∧ ∀ n, n < 3 → ind L / 256 ^ n % 256 < 96) →
      GoesOn (.pemit f) s x fun t _ b => t.mem = s.mem ∧ t.vis = s.vis ∧ ∃ q, b.prim = some q ∧ q.verts = (slotOf x).verts ∧
        (∀ L, L < 32 → x.act.getLsbD L = true → last L → entryAt q.tris (idx L) 0 = BitVec.ofNat 32 (ind L)) ∧
        ∀ j, (∀ L, L < 32 → x.act.getLsbD L = true → idx L ≠ j) → entryAt q.tris j 0 = entryAt (slotOf x).tris j 0)

/-- R305, R332: mcommit stores the slot's vertex block at VB, hands the meshlet to the raster units and gives the slot back; with no slot it does
nothing; a VB that is not a multiple of 16 traps PROT_FAULT. The model's choice: that a commit without a slot does nothing (log entry 63) and that the check of the cast asks for no ACTIVE lane (log entry 24). -/
def Claims.MeshletCommit : Prop :=
  ∀ (f : FmtA) (s : State) (x : Ctx), Issues (.mcommit f) s x →
    let L := lowLane x.act
    let vb := x.raw64 4 f.opc.toNat L
    (x.cast.kind ≠ 1 → IllegalHere (.mcommit f) s x 86) ∧
    (x.cast.kind = 1 → x.actNH = 0 ∨ x.b.prim = none → WritesNothing (.mcommit f) s x) ∧
    ∀ p, x.cast.kind = 1 → x.actNH ≠ 0 → x.b.prim = some p →
      (vb % 16 ≠ 0 → Traps (.mcommit f) s x 7 (faultInfo vb L 0 false true false)) ∧
      (vb % 16 = 0 → Free x 0 0 → p.block.length < 2 ^ 64 →
        (∀ e ∈ pieces p.block.length, Mapped x pteW ((vb + e.1) % 2 ^ 64) e.2) →
        GoesOn (.mcommit f) s x fun t _ b => b.prim = none ∧
          Sends x t none (fun e => ∃ o ∈ pieces p.block.length, e = { lane := L, va := (vb + o.1) % 2 ^ 64, pa := placeAt x ((vb + o.1) % 2 ^ 64),
                                                                        op := .store ((p.block.drop o.1).take o.2) }) ∧
          ∃ m, t.vis.meshlets = s.vis.meshlets ++ [m] ∧ m.castId = x.c.castId ∧ m.nv = highIndex p.verts ∧ m.nt = highIndex p.tris ∧
            m.verts = p.verts ∧ m.tris = p.tris ∧ m.inst = BitVec.ofNat 24 (x.raw32 f.ty.toNat f.opa.toNat L) ∧
            m.clus = BitVec.ofNat 24 (x.raw32 f.ty.toNat f.opb.toNat L) ∧ t.vis.surfaces = s.vis.surfaces)

/-- R333, R334: ixbox gives each ACTIVE lane its ray's entry into the box, or infinity; ixtri the ray's t and barycentrics, and a predicate that says
hit. -/
def Claims.RayTests : Prop :=
  ∀ (f : FmtA) (s : State) (x : Ctx), x.act ≠ 0 →
    let at_ := fun (code : BitVec 10) (L i : Nat) => x.raw32 3 (code.toNat + i) L
    let hit := fun L => triTest x.cast.ftz (at_ f.opa L) (at_ f.opb L) fun i k => at_ f.opc L (4 * i + k)
    let part := fun (g : Nat × Nat × Nat → Nat) (miss : Nat) L => BitVec.ofNat 32 (match hit L with
      | some h => g h
      | none => miss)
    (Issues (.ixbox f) s x → Binds (.ixbox f) s x [(f.dst.toNat, fun L => BitVec.ofNat 32 (boxTest (at_ f.opa L) (at_ f.opb L) (at_ f.opc L)))] []
      fun _ => 0) ∧
    (Issues (.ixtri f) s x → Binds (.ixtri f) s x [(f.dst.toNat, part (·.1) (f32.inf false)), (f.dst.toNat + 1, part (·.2.1) 0),
      (f.dst.toNat + 2, part (·.2.2) 0)] [(f.func.toNat % 16, fun L => (hit L).isSome)] fun _ => 0)

/-- Meshlet emission and commitment, and the ray tests (R304, R305, R330 to R334). -/
def Obligations.EmitAndCommit : Prop := Claims.MeshletEmits ∧ Claims.MeshletCommit ∧ Claims.RayTests

/-- R326, R327, R335: hitbin, in a cast with a surface, files or drops each lane's hit: with a shaded material it is in the bin of its material at the unit
that serves the core, with its ray, id and distances; one whose cluster lies past the map is dropped; in a cast without a surface it is ILLEGAL_OP. The model's choice: that the check of the surface asks for no ACTIVE lane (log entry 24). -/
def Claims.HitsFile : Prop :=
  ∀ (f : FmtA) (s : State) (x0 : Ctx), Issues (.hitbin f) s x0 →
    let x := x0.forceReds (.hitbin f)
    let unit := hitUnit x.c.core
    let word := fun L i => BitVec.ofNat 32 (x.raw32 0 (f.opc.toNat + i) L)
    let id := fun L => BitVec.ofNat 64 (x.raw64 4 f.opb.toNat L)
    (x0.cast.surf = none → IllegalHere (.hitbin f) s x0 86) ∧
    ∀ n g, x.cast.surf = some n → s.surface? n = some g →
      (x.actNH = 0 → WritesNothing (.hitbin f) s x) ∧
      (x.actNH ≠ 0 → x.memWaits 2 4 = false → s.unitLoad unit ≤ 480 → unit < s.vis.riddle.length →
        (∀ k ∈ x.s.cores, k.upd = []) → ∀ a, s.cast? x.c.castId = some a →
        GoesOn (.hitbin f) s x fun t _ _ => t.vis.surfaces = s.vis.surfaces ∧ t.mem = x.s.mem ∧ ∃ e, t.cast? x.c.castId = some e ∧
          t.unitLoad unit + e.dropped = s.unitLoad unit + a.dropped + x.actNH.lanes.length ∧
          ((∀ L, L < 32 → x.actNH.getLsbD L = true → idClus (id L) < g.d.maplen ∧ ∃ m c, (x.s.materialAt x.c.region g.d (idClus (id L))).2 = some m ∧
              (x.s.materialCast x.cast g.d m).2 = some c) → e.dropped = a.dropped) ∧
          ∀ L m c, L < 32 → x.actNH.getLsbD L = true → idClus (id L) < g.d.maplen →
            (x.s.materialAt x.c.region g.d (idClus (id L))).2 = some m → (x.s.materialCast x.cast g.d m).2 = some c →
            ∃ b ∈ t.vis.riddle.getD unit [], b.surf = n ∧ b.material = m ∧ b.hits = some x.c.castId ∧ ∃ q ∈ b.records, q.surf = n ∧ q.hit = true ∧
              q.material = m ∧ q.ids = [id L] ∧ q.ray = BitVec.ofNat 32 (x.raw32 0 f.opa.toNat L) ∧ q.t = word L 0 ∧ q.b1 = word L 1 ∧ q.b2 = word L 2 ∧
              q.cone = word L 3 ∧ q.castId = x.c.castId ∧ q.matCast = c.castId ∧ q.core = x.c.core) ∧
      (x.actNH ≠ 0 → x.memWaits 2 4 = false → s.unitLoad unit ≤ 512 →
        (∀ L, L < 32 → x.actNH.getLsbD L = true → g.d.maplen ≤ idClus (id L)) → (s.cast? x.c.castId).isSome = true →
        GoesOn (.hitbin f) s x fun t _ _ => t.vis = s.vis ∧ t.mem = x.s.mem ∧
          ∃ a e, s.cast? x.c.castId = some a ∧ t.cast? x.c.castId = some e ∧ e.dropped = a.dropped + x.actNH.lanes.length)

/-- R336, R337: vtrel releases the HELD tiles its lanes name and no other; vtld reads, from a surface whose descriptor is mapped and in L2 and whose tiles are FREE
without KEEP, the clear pixel. The model's choice: that the pixels are read when vtld issues (log entry 7). -/
def Claims.TilesFromPrograms : Prop :=
  ∀ (f : FmtA) (g : FmtM) (s : State) (x : Ctx) (n : Nat) (y : Surface),
    let mine := fun L => s.surfaceOf x.c.region (x.raw64 4 f.opa.toNat L) = some n ∧
      x.raw32 0 f.opb.toNat L % 65536 < y.d.tilesX ∧ x.raw32 0 f.opb.toNat L / 65536 < y.d.height / 8
    let tile := fun L => x.raw32 0 f.opb.toNat L / 65536 * y.d.tilesX + x.raw32 0 f.opb.toNat L % 65536
    (Issues (.vtrel f) s x → s.surface? n = some y → y.d.keep = false → (y.tiles.map (·.tile)).Nodup →
      (∀ L, L < 32 → x.actNH.getLsbD L = true → mine L) →
      GoesOn (.vtrel f) s x fun t _ _ => t.mem = s.mem ∧ ∃ z, t.surface? n = some z ∧ z.d = y.d ∧
        z.tiles = y.tiles.filter fun r => !(r.st == .held && x.actNH.lanes.any fun L => tile L == r.tile)) ∧
    (Issues (.vtld g) s x → x.act = 0 → WritesNothing (.vtld g) s x) ∧
    (Issues (.vtld g) s x → x.act ≠ 0 → x.memWaits 0 0 = false → (s.core x.c.core).replay = [] → (∀ k ∈ s.cores, k.upd = []) → g.func.toNat < 2 →
      x.sub.stall = none →
      let addr := fun L => x.raw64 4 g.base.toNat L
      let host := (s.rootHost x.c.region).2
      let words := fun L => (List.range 8).map fun i => BitVec.ofNat 64 (leNat (s.mem.read host (placeAt x (addr L + 16 * (i / 2)) + 8 * (i % 2)) 8))
      let d := fun L => SurfDesc.read (words L)
      let pix := fun L => x.raw32 0 g.index.toNat L
      (∀ L i, L < 32 → x.act.getLsbD L = true → i < 4 → Mapped x pteR (addr L + 16 * i) 16 ∧ addr L % 64 = 0 ∧
        s.mem.poisoned (placeAt x (addr L + 16 * i)) 16 = false ∧ (s.mem.l2At (placeAt x (addr L + 16 * i))).isSome = true ∧ addr L + 64 < 2 ^ 45 ∧
        ∀ p, s.translate x.c.core x.c.region (addr L + 16 * i) = .leaf p → pteShared p = false ∧ isHost (physOf p (addr L + 16 * i)) = false) →
      (∀ L, L < 32 → x.act.getLsbD L = true → surfBad (words L) = false ∧ (d L).keep = false ∧ pix L % 65536 < (d L).width ∧
        pix L / 65536 < (d L).height ∧ s.surfaceOf x.c.region (addr L) = none) →
      (g.func = 1 → Binds (.vtld g) s x [(g.data.toNat, fun L => (d L).clearDepth)] [] fun _ => 0) ∧
      (g.func = 0 → Binds (.vtld g) s x [(g.data.toNat, fun _ => BitVec.allOnes 32), (g.data.toNat + 1, fun _ => BitVec.allOnes 32)] [] fun _ => 0))

/-- Hits are filed in Riddle bins; programs release and read tiles (R326, R327, R335 to R337). -/
def Obligations.HitsAndTiles : Prop := Claims.HitsFile ∧ Claims.TilesFromPrograms

/-! ## Events of a bundle slot (R17, R57, R60, R64, R84) -/

/-- R17, R19, R60, R295: a fetch asks the home of its line, and once that has served it the line is read there: with matching PARITY it is entered and cached, one that does not match is asked for
once more, and a second mismatch kills the cast with FETCH_PARITY; a bound long result is written to its registers, FLAGS waiting for the marker. -/
def Claims.LinesAndResultsArrive : Prop :=
  ∀ (s : State) (c : Crew) (b : Bundle), s.bundle? c.cid b.index = some (c, b) →
    (∀ (x : Ctx) (line : DWord) (pte : DWord) (phys : Nat), s.ctx? c.cid b.index 30 = some x → x.sub.stall = none → c.core < s.cores.length →
      x.loadAccess pteX false true [{ lane := 0, elem := 0, va := line.toNat, bytes := 64 }] =
        .ok [({ lane := 0, elem := 0, va := line.toNat, bytes := 64 }, pte, phys)] →
      let me := Agent.fetch c.cid b.index
      let served := homeless (lineOf phys) = true ∨ ∃ q ∈ s.mem.requests, q.agent = some me ∧ q.wr = false ∧ q.st = .ready ∧ q.line = lineOf phys
      let read := (s.acted me).homeRead (s.rootHost c.region).2 (pteCache pte) phys 64
      let h := read.1
      let data := read.2
      let entered := fun i => ∃ t e y l, exec i s = .next t ∧ Holds x t e ∧ e.subs = y :: l ∧ y.mask = x.sub.mask ∧ y.pc = x.sub.pc ∧
        y.park = .run ∧ y.line = some { addr := pcLine x.sub.pc, data := data } ∧ (t.core c.core).iline phys = some data ∧ e.v = b.v ∧
        e.p = b.p ∧ e.s = b.s ∧ e.flags = b.flags ∧ t.mem = h.mem
      (x.sub.park = .fetch line false → ¬served → ∃ t, exec (.lineFetchArrival c.cid b.index) s = .next t ∧ t.crews = s.crews ∧ t.cores = s.cores ∧
        ∃ q ∈ t.mem.requests, q.agent = some me ∧ q.line = lineOf phys) ∧
      (served →
      (x.sub.park = .fetch line false → parityOk data = true → entered (.lineFetchArrival c.cid b.index)) ∧
      (x.sub.park = .fetch line true → parityOk data = true → entered (.lineRefetch c.cid b.index)) ∧
      (x.sub.park = .fetch line false → parityOk data = false →
        ∃ t e y l, exec (.lineFetchArrival c.cid b.index) s = .next t ∧ Holds x t e ∧ e.subs = y :: l ∧ y.pc = x.sub.pc ∧
          y.park = .fetch (pcLine x.sub.pc) true ∧ t.cores = h.cores ∧ t.mem = h.mem) ∧
      (x.sub.park = .fetch line true → parityOk data = false →
        exec (.lineRefetch c.cid b.index) s = .next (h.parityKill c phys) ∧ phys ∈ (h.parityKill c phys).host.checks))) ∧
    (∀ p r, b.pend.find? (fun q => q.id == p.id) = some p → p.result = some r → p.written = false → b.live ≠ 0 →
      c.loadMarks b p = [] → (r.v.map (·.name)).Nodup → (∀ w ∈ r.v, w.name < b.v.length) →
      ∃ t e, exec (.longResultWrite c.cid b.index p.id) s = .next t ∧ t.bundle? c.cid b.index = some (c.setBundle e, e) ∧
        (∀ w ∈ r.v, w.mask ≠ 0 → (e.vreg w.name).shape = (b.vreg w.name).shape.written w) ∧
        (∀ n, (∀ w ∈ r.v, w.name ≠ n) → e.vreg n = b.vreg n) ∧
        (r.s = [] → e.s = b.s) ∧ (∀ w, r.s = [w] → w.1 < 128 → e.s.getD w.1 0 = w.2) ∧
        (r.p = [] → e.p = b.p) ∧ (∀ w, r.p = [w] → w.name < 15 → ∀ L, L < 32 →
          (e.predOf w.name).getLsbD L = if w.mask.getLsbD L then w.vals.getLsbD L else (b.predOf w.name).getLsbD L) ∧
        e.flags = b.flags ∧ e.subs = b.subs ∧ (∃ q ∈ e.pend, q.id = p.id ∧ q.written = true) ∧ t.cores = s.cores ∧ t.mem.gddr = s.mem.gddr)

/-- Some result pending in `b` sets FLAGS bit j. -/
def Claims.PendsFlag (b : Bundle) (j : Nat) : Prop := ∃ p ∈ b.pend, ∃ r, p.result = some r ∧ r.flags.getLsbD j = true

/-- R57, R60, R61, R366, R370, R373: a marker whose pending results are all written completes, an implicit one and the one of a trap entry too: the results'
FLAGS are set (outside trap mode), nothing stays pending, and after a stop marker the turn passes; a trap entry goes on at
HANDLER, kills the cast where that is 0, and in a slot that its debugger has halted stays. -/
def Claims.MarkersComplete : Prop :=
  ∀ (s : State) (c : Crew) (b : Bundle) (x : SubB) (l : List SubB), s.bundle? c.cid b.index = some (c, b) → b.subs = x :: l →
    b.drained = true → (∀ p ∈ b.pend, p.rivals = []) →
    let keeps := fun e : Bundle => e.pend = [] ∧ e.v = b.v ∧ e.p = b.p ∧ e.s = b.s ∧ e.k = b.k ∧ e.trap = b.trap
    let gained := fun e : Bundle => ∀ j, j < 5 → (e.flags.getLsbD j = true ↔ b.flags.getLsbD j = true ∨ Claims.PendsFlag b j)
    ((s.castOf c).fpinv = false → b.fpDue = none →
      (x.park = .marker → x.rep = 0 → ∃ e, exec (.markerComplete c.cid b.index) s = .next (s.setBundle c e) ∧ keeps e ∧
        (b.trap = none → gained e) ∧ (b.trap ≠ none → e.flags = b.flags) ∧
        (∃ y ∈ e.subs, y.mask = x.mask ∧ y.pc = x.pc ∧ y.park = .run ∧ y.issued = 0) ∧
        (∀ y r, l = y :: r → y.takesTurn = true → ∃ z q, e.subs = z :: q ∧ z.mask = y.mask ∧ z.pc = y.pc)) ∧
      (x.park = .drain → ∃ e y, exec (.markerComplete c.cid b.index) s = .next (s.setBundle c e) ∧ keeps e ∧
        (b.trap = none → gained e) ∧ (b.trap ≠ none → e.flags = b.flags) ∧
        e.subs = y :: l ∧ y.mask = x.mask ∧ y.pc = x.pc ∧ y.park = .run)) ∧
    (∀ tr, b.trap = some tr → tr.entering = true → b.pend ≠ [] →
      let h := s.handlerOf c.region
      let i := Instr.trapEntry c.cid b.index
      (tr.debug = true → ∃ e, exec i s = .next (s.setBundle c e) ∧ keeps e ∧ gained e ∧ e.subs = b.subs) ∧
      (tr.debug = false → h ≠ 0 → ∃ e, exec i s = .next (s.setBundle c e) ∧ keeps e ∧ gained e ∧
        e.subs = b.subs.map fun y => { y with pc := h }) ∧
      (tr.debug = false → h = 0 → ∃ e, exec i s = .next ((s.setBundle c e).killCast c.castId tr.cause) ∧ keeps e ∧ gained e))

/-- Fetch lines and results arrive; markers complete (R17, R19, R57, R60, R61, R295, R366, R370, R373). -/
def Obligations.ArrivalsAndMarkers : Prop := Claims.LinesAndResultsArrive ∧ Claims.MarkersComplete

/-- R64: after 1,024 instructions without a marker, or 256 clocks of a stall, a completed marker is inserted: the instruction is withdrawn, the
turn passes, or waits for the pending results; before that nothing happens. STALL_REISSUE lets it issue again. R84: a sleep ends at its clock. -/
def Claims.TurnsStallsAndSleeps : Prop :=
  ∀ (s : State) (c : Crew) (b : Bundle) (x : SubB) (l : List SubB), s.bundle? c.cid b.index = some (c, b) → b.subs = x :: l →
    let passes := fun (i : Instr) (st : Option Stall) => ∃ e, exec i s = .next (s.setBundle c e) ∧ e.v = b.v ∧ e.p = b.p ∧ e.s = b.s ∧
      e.flags = b.flags ∧ (∃ y ∈ e.subs, y.mask = x.mask ∧ y.pc = x.pc ∧ y.stall = st) ∧
      (b.pend ≠ [] → ∃ y, e.subs = y :: l ∧ y.park = .marker) ∧
      (b.pend = [] → ∀ y r, l = y :: r → y.takesTurn = true → ∃ z q, e.subs = z :: q ∧ z.mask = y.mask ∧ z.pc = y.pc)
    (x.stall = none → x.park = .run → 1024 ≤ x.issued → passes (.turnInstructionLimit c.cid b.index) none) ∧
    (x.issued < 1024 → exec (.turnInstructionLimit c.cid b.index) s = .next s) ∧
    (∀ st, x.stall = some st → x.park = .run → st.withdrawn = false →
      (st.since + 256 ≤ s.coreClock → passes (.stallTimeout c.cid b.index) (some { st with withdrawn := true })) ∧
      (s.coreClock < st.since + 256 → exec (.stallTimeout c.cid b.index) s = .next s)) ∧
    (∀ st, x.stall = some st → ∃ e y, exec (.stallReissue c.cid b.index) s = .next (s.setBundle c e) ∧ e.subs = y :: l ∧
      y.stall = some { st with retry := true } ∧ y.mask = x.mask ∧ y.pc = x.pc ∧ y.park = x.park ∧ e.v = b.v ∧ e.flags = b.flags) ∧
    (∀ n y w, b.subs[n]? = some y → y.park = .sleep w → b.trap = none →
      (w ≤ s.coreClock → ∃ e, exec (.sleepWake c.cid b.index n) s = .next (s.setBundle c e) ∧ e.v = b.v ∧ e.p = b.p ∧ e.s = b.s ∧
        e.flags = b.flags ∧ ∃ z ∈ e.subs, z.mask = y.mask ∧ z.pc = y.pc ∧ z.park = .run) ∧
      (s.coreClock < w → exec (.sleepWake c.cid b.index n) s = .next s))

/-! ## Bins, watchdogs, the spill engine, counters (R69, R73, R96, R110, R194, R344) -/

/-- R69, R70: the time limits of a bin make it ripe; a draw puts a bin's records, here all of them, into the crew's lowest free slot as one
sub-bundle at the bin's target PC, each with its STRAND, predicates and carried registers, and the bin is free. -/
def Claims.BinsRipenAndDraw : Prop :=
  ∀ (s : State),
    (∀ core bin x, (s.core core).bins.getD bin none = some x → x.late s.coreClock = true →
      ∃ t, exec (.reformBinTimeout core bin) s = .next t ∧ (t.core core).bins.getD bin none = some { x with aged := true } ∧
        (∀ n, n ≠ bin → (t.core core).bins.getD n none = (s.core core).bins.getD n none) ∧ t.crews = s.crews ∧ t.mem = s.mem) ∧
    (∀ core bin x, (s.core core).bins.getD bin none = some x → x.late s.coreClock = false → exec (.reformBinTimeout core bin) s = .next s) ∧
    (∀ (c : Crew) (i : Nat) (x : Bin) (b : Bundle) (l : List Bundle), s.crew? c.cid = some c → c.st ≠ .halted → s.binToDraw c = some (i, x) →
      s.freeBundles c (s.castOf c).producer = b :: l → x.records.length ≤ 32 → x.records ≠ [] → (x.spilled = 0 ∧ c.ovc = 0) ∨ s.bankAwake c.spillBank = true →
      ∃ t d e y, exec (.reformBinDraw c.cid) s = .next t ∧ t.bundle? c.cid b.index = some (d, e) ∧ e.subs = [y] ∧ y.pc = x.target ∧
        (∀ r ∈ x.records, ∃ L, L < 32 ∧ e.strands.getD L 0 = r.strand ∧ y.mask.getLsbD L = true ∧ e.live.getLsbD L = true ∧
          (∀ n, n < 15 → (e.predOf n).getLsbD L = r.preds.getLsbD n) ∧
          ∀ k, k < r.carried.length → k < c.base → (e.vreg k).shape.lane L = (r.carried.getD k (0, true)).1) ∧
        (t.core c.core).bins.getD i none = none ∧ t.mem = s.mem)

/-- R73, R110, R194: a crew stuck at barriers and joins for 2^20 clocks, a gang stuck at `gbar` as long, and an `xacq` that has waited as
long, trap WATCHDOG with TRAPINFO 0, 2 and 1; at first sight the clock is only noted. The model's choice: the clock from which a watchdog counts (log entry 41). -/
def Claims.WatchdogsTrap : Prop :=
  ∀ (s : State) (c : Crew) (r : Region), s.crew? c.cid = some c →
    (c.bundles.map (·.index)).Nodup → (s.crews.map (·.cid)).Nodup → r.handler ≠ 0 → s.host.debuggers = [] →
    let trapped := fun (t : State) (d : Crew) (info : BitVec 128) => ∀ b ∈ d.bundles, b.live ≠ 0 → b.subs ≠ [] →
      ∃ f e tr, t.bundle? d.cid b.index = some (f, e) ∧ e.trap = some tr ∧ tr.cause = 23 ∧ tr.info = info
    (s.crewStuck c = true → c.stuck = none →
      ∃ t d, exec (.crewWatchdog c.cid) s = .next t ∧ t.crew? c.cid = some d ∧ d.stuck = some s.coreClock ∧ d.bundles = c.bundles) ∧
    (∀ n, s.region? c.region = some r → s.crewStuck c = true → c.stuck = some n → n + 2 ^ 20 ≤ s.coreClock →
      ∃ t, exec (.crewWatchdog c.cid) s = .next t ∧ trapped t c 0) ∧
    (∀ n, s.gangStuck (s.gangOf c) = true → (∀ d ∈ s.gangOf c, d.gangStuck = some n ∧ s.region? d.region = some r ∧
        (d.bundles.map (·.index)).Nodup) → n + 2 ^ 20 ≤ s.coreClock →
      ∃ t, exec (.gangWatchdog c.cid) s = .next t ∧ ∀ d ∈ s.gangOf c, trapped t d 2) ∧
    (∀ b, s.bundle? c.cid b.index = some (c, b) → b.trap = none →
      let late := fun y : SubB => match y.xacq? with
        | some e => decide (e.1 + 2 ^ 20 ≤ s.coreClock)
        | none => false
      (∀ y, b.subs.find? late = some y → (∀ d ∈ c.bundles, d.index = b.index ∨ d.atXacq = true) →
        exec (.xacqWatchdog c.cid b.index) s =
          .next ((s.setBundle c (b.bringTo (lowLane y.mask) y.pc s.coreClock)).takeTrap c.cid b.index 23 1 y.pc false 0 0)) ∧
      (b.subs.any late = false → exec (.xacqWatchdog c.cid b.index) s = .next s))

/-- R67, R96, R97, R344, R181: ROW_SPILL packs the spill engine's victim, whose lanes keep their values, and no other register, or a row of a bin's
records; COUNTER_FLUSH adds a
resident crew's instructions and pool time to its region. -/
def Claims.SpillsAndCounters : Prop :=
  (∀ (s : State) (c : Crew) (b : Bundle) (x : SubB) (l : List SubB) (st : Stall) (need : Nat) (keep : List Nat) (d : Bundle) (n : Nat),
    s.bundle? c.cid b.index = some (c, b) → (c.bundles.map (·.index)).Nodup → b.subs = x :: l → x.stall = some st → st.rows = some (need, keep) →
    s.freeRows c < need → s.bankAwake c.spillBank = true → s.victim c b keep = some (.name d.index n) → c.bundle? d.index = some d →
    ∃ e, exec (.rowSpill c.cid b.index) s = .next ((s.setBundle c e).bankTraffic c.spillBank) ∧ e.index = d.index ∧ (e.vreg n).spilled = true ∧
      (∀ L, L < 32 → (e.vreg n).shape.lane L = (d.vreg n).shape.lane L) ∧ (∀ m, m ≠ n → e.vreg m = d.vreg m) ∧
      e.p = d.p ∧ e.s = d.s ∧ e.flags = d.flags ∧ e.subs = d.subs) ∧
  (∀ (s : State) (c : Crew) (b : Bundle) (x : SubB) (l : List SubB) (st : Stall) (need : Nat) (keep : List Nat) (i : Nat) (z : Bin),
    s.bundle? c.cid b.index = some (c, b) → b.subs = x :: l → x.stall = some st → st.rows = some (need, keep) → s.freeRows c < need →
    s.bankAwake c.spillBank = true → s.victim c b keep = some (.bin i) → (s.core c.core).bins.getD i none = some z →
    ∃ t, exec (.rowSpill c.cid b.index) s = .next t ∧ (t.core c.core).bins.getD i none = some { z with spilled := z.spilled + 1 } ∧ t.crews = s.crews ∧
      t.mem = s.mem) ∧
  (∀ (s : State) (c : Crew) (r : Region), s.crew? c.cid = some c → s.crews.filter (fun d => d.core == c.core) = [c] →
    s.region? c.region = some r →
    ∃ t d q, exec (.counterFlush c.core) s = .next t ∧ t.crew? c.cid = some d ∧ d.inst = 0 ∧ t.region? c.region = some q ∧
      q.instcnt = r.instcnt + BitVec.ofNat 64 c.inst ∧ q.poolcnt = r.poolcnt + BitVec.ofNat 64 (c.cost * ((s.ns - c.poolFrom) / 1000)) ∧
      d.bundles = c.bundles ∧ t.mem = s.mem)

/-- Turns pass, stalls retry, sleeps end, watchdogs trap, rows spill and counters flush (R64, R67, R73, R84, R96, R97, R110, R181, R194, R344). -/
def Obligations.BundleEvents : Prop := Claims.TurnsStallsAndSleeps ∧ Claims.WatchdogsTrap ∧ Claims.SpillsAndCounters

/-! ## wait, gangs, rings (R190, R194, R236) -/

/-- R236, R194, R190: the strands parked at `wait` go on when every producer crew has triggered; when every strand of a whole gang is at `gbar` with its
accesses performed all go on with LIVE and SHADOW exchanged; a producer arrival completes on its stage, the last making it FULL. -/
def Claims.SynchronisationsComplete : Prop :=
  (∀ (s : State) (c : Crew) (b : Bundle), s.bundle? c.cid b.index = some (c, b) →
    ((s.castOf c).deps.all s.depDone = true → b.trap = none → b.halted = false → c.st ≠ .halted →
      ∃ t d e, exec (.waitRelease c.cid b.index) s = .next t ∧ t.bundle? c.cid b.index = some (d, e) ∧
        (∀ y ∈ b.subs, y.park = .wait → ∃ z ∈ e.subs, z.mask = y.mask ∧ z.pc = nextPc y.pc ∧ z.park = .run) ∧
        e.v = b.v ∧ e.p = b.p ∧ e.s = b.s ∧ e.flags = b.flags ∧ t.mem = s.mem) ∧
    ((s.castOf c).deps.all s.depDone = false → exec (.waitRelease c.cid b.index) s = .next s)) ∧
  (∀ (s : State) (c : Crew), s.crew? c.cid = some c → (s.crews.map (·.cid)).Nodup → c ∈ s.gangOf c → (∃ b ∈ c.bundles, b.live ≠ 0) →
    s.gangWhole c = true → (s.gangOf c).all s.gbarReady = true →
    ∃ t, exec (.gbarComplete c.cid) s = .next t ∧ t.mem = s.mem ∧
      ∀ d ∈ s.gangOf c, ∃ e, t.crew? d.cid = some e ∧ e.live = d.shadow ∧ e.shadow = [] ∧ e.plain = d.plain ∧ e.ringMem = d.ringMem ∧
        e.bundles.map (·.v) = d.bundles.map (·.v) ∧
        ∀ b ∈ d.bundles, ∀ y ∈ b.subs, y.park = .gbar → ∃ f ∈ e.bundles, f.index = b.index ∧
          ∃ z ∈ f.subs, z.mask = y.mask ∧ z.pc = nextPc y.pc ∧ z.park = .run) ∧
  (∀ (s : State) (c : Crew) (a : Arrival) (r : Ring), s.crew? c.cid = some c → c.arrivals.find? (fun e => e.id == a.id) = some a →
    c.ring? a.ring = some r → r.spawn = false → r.prime = 0 → a.stage < r.st.length →
    ∃ t d q, exec (.producerArrivalComplete c.cid a.id) s = .next t ∧ t.crew? c.cid = some d ∧ d.ring? a.ring = some q ∧
      (q.stage a.stage).completed = (r.stage a.stage).completed + 1 ∧
      ((r.stage a.stage).completed + 1 = r.parr → (q.stage a.stage).st = .full) ∧
      ((r.stage a.stage).completed + 1 ≠ r.parr → (q.stage a.stage).st = (r.stage a.stage).st) ∧
      (∀ k, k ≠ a.stage → q.stage k = r.stage k) ∧ q.hp = r.hp ∧ (∀ e ∈ d.arrivals, e.id ≠ a.id) ∧ d.bundles = c.bundles)

/-- Reform bins ripen and draw; joins, barriers and waits complete (R69, R70, R190, R194, R236). -/
def Obligations.CrewSynchronisation : Prop := Claims.BinsRipenAndDraw ∧ Claims.SynchronisationsComplete

/-! ## Events of the memory system (R206, R209, R219, R241, R294 to R300) -/

/-- The bytes of every memory are as they were. -/
def SameBytes (s t : State) : Prop :=
  t.mem.gddr = s.mem.gddr ∧ t.mem.l2 = s.mem.l2 ∧ t.mem.host = s.mem.host ∧ t.mem.peerMem = s.mem.peerMem

/-- A lane's access has its address placed and lies in its request's line. -/
def InLine (s : State) (line pa n : Nat) : Prop :=
  s.mem.place pa = pa ∧ (isHost pa = true → pa < 2 ^ 46) ∧ lineOf pa = line ∧ pa % 128 + n ≤ 128

/-- An access of an agent other than a core's instruction brings no line into L2: it is there, or kept at no slice of this device (R294, R295). -/
def AtHome (s : State) (a : Nat) : Prop := homeless (lineOf a) = true ∨ (s.mem.l2At a).isSome = true

/-- R238, R294 to R298, R300: a request in its router's injection queue takes an entry of its home's queue, or is refused while that is full, its
count carried by the refusal; one that is held back stays; a queued
one whose line is present, or that passes the cache, is served: each lane's bytes become what its operation makes of those it found, no other byte
changes, and its pending load receives the bytes found. -/
def Claims.SlicesServe : Prop :=
  ∀ (s : State) (q : Request), s.mem.requests.find? (fun r => r.id == q.id) = some q →
    let sent := (s.mem.injecting q.router).any fun r => r.id == q.id
    (q.st = .flight → sent = true → isHost q.line = false → isPeer q.line = false → q.refusals < 8 → s.mem.reserves = [] →
      (∀ r ∈ s.mem.requests, r.line = q.line → r.st ≠ .inval) →
      let n := (s.mem.queueOf q.line).length
      (n < 16 → ∃ t r, exec (.sliceRequest q.id) s = .next t ∧ r ∈ t.mem.requests ∧ r = { q.landed with st := .queued } ∧ SameBytes s t ∧ t.crews = s.crews) ∧
      (16 ≤ n → ∃ t r, exec (.sliceRequest q.id) s = .next t ∧ r ∈ t.mem.requests ∧ SameBytes s t ∧ t.crews = s.crews ∧
        r = { q.landed with refusals := q.refusals + 1, st := .refused (s.netClock + backOff (q.refusals + 1)) })) ∧
    (q.st = .flight → sent = false → exec (.sliceRequest q.id) s = .next s) ∧
    (q.st = .queued → q.agent = none → q.shared = false → q.direct = true ∨ (s.mem.l2At q.line).isSome = true → (∀ n, (s.core n).upd = []) →
      (s.mem.requests.map (·.id)).Nodup →
      (∀ r ∈ s.mem.requests, q.pend ≠ none → r.crew = q.crew → r.bun = q.bun → r.pend = q.pend → r = q) → DeviceMemWf s.mem → q.host < s.mem.host.length → q.core < s.cores.length →
      (∀ e ∈ q.lanes, InLine s q.line e.pa e.op.width ∧ s.mem.poisoned e.pa e.op.width = false) → q.lanes.Pairwise (fun a b => a.meets b = false) →
      let old := fun e : LaneReq => s.mem.read q.host e.pa e.op.width
      ∃ t, exec (.sliceRequest q.id) s = .next t ∧ (∀ r ∈ t.mem.requests, r.id ≠ q.id) ∧
        (∀ e ∈ q.lanes, t.mem.read q.host e.pa e.op.width = e.op.result (old e)) ∧
        (∀ a, s.mem.place a = a → (isHost a = true → a < 2 ^ 46) → (∀ e ∈ q.lanes, e.op.writes = true → a < e.pa ∨ e.pa + e.op.width ≤ a) →
          t.mem.read q.host a 1 = s.mem.read q.host a 1) ∧
        (q.pend = none → t.crews = s.crews) ∧
        ∀ id c b p, q.pend = some id → s.bundle? q.crew q.bun = some (c, b) → b.pend.find? (fun p => p.id == id) = some p →
          ∃ d e, t.bundle? q.crew q.bun = some (d, e) ∧ e.v = b.v ∧ e.p = b.p ∧ e.s = b.s ∧ e.flags = b.flags ∧
            p.take b.helper (q.lanes.map fun l => (l.lane, old l)) ∈ e.pend)

/-- R296, R297: a fill serves its line's waiting list, here of loads, and leaves the line present, clean, its bad units poisoned; a refused request
is sent again when its back-off has run out; a reservation lapses after 8,192 network clocks to another requester refused 8 times. -/
def Claims.FillsRetriesReservations : Prop :=
  (∀ (s : State) (l : WaitList) (bad : BitVec 2), s.mem.lists.find? (fun x => x.line == l.line) = some l → 
    (l.entries.map (·.req)).Nodup → (∀ n, (s.core n).upd = []) →
    (∀ id ∈ l.entries.map (·.req), ∃ q, s.mem.requests.find? (fun q => q.id == id) = some q ∧ (∀ e ∈ q.lanes, ∃ n, e.op = .load n) ∧ q.agent = none ∧ q.wr = false ∧
      ((bad = 0 ∧ s.mem.poison = []) ∨ q.pend = none)) →
    ∃ t f, exec (.memoryFill l.line bad) s = .next t ∧ (∀ x ∈ t.mem.lists, x.line ≠ l.line) ∧
      t.mem.l2 = s.mem.l2 ++ [{ line := l.line, data := s.mem.gddr.read l.line 128, dirty := false, first := f }] ∧
      (∀ i, i < 2 → bad.getLsbD i = true → l.line + 64 * i ∈ t.mem.poison) ∧ (∀ id ∈ l.entries.map (·.req), ∀ q ∈ t.mem.requests, q.id ≠ id) ∧
      t.mem.gddr = s.mem.gddr) ∧
  (∀ (s : State) (q : Request) (n : Nat), s.mem.requests.find? (fun r => r.id == q.id) = some q → q.st = .refused n →
    (n ≤ s.netClock → ∃ t, exec (.requestRetry q.id) s = .next t ∧ { q with st := .flight } ∈ t.mem.requests ∧ SameBytes s t ∧ t.crews = s.crews) ∧
    (s.netClock < n → exec (.requestRetry q.id) s = .next s)) ∧
  (∀ (s : State) (r : Reserve), s.mem.reserves.find? (fun x => x.line == r.line) = some r →
    (s.netClock < r.since + 8192 → exec (.reservationLapse r.line) s = .next s) ∧
    (r.since + 8192 ≤ s.netClock → ∃ t, exec (.reservationLapse r.line) s = .next t ∧
      (∀ x ∈ t.mem.reserves, x.line = r.line → x.req ≠ r.req ∧ x.since = s.netClock) ∧
      (∀ q ∈ s.mem.requests, q.line = r.line → 8 ≤ q.refusals → q.st = .flight → q.id ≠ r.req → ∃ x ∈ t.mem.reserves, x.line = r.line) ∧
      SameBytes s t ∧ t.mem.requests = s.mem.requests ∧ t.crews = s.crews))

/-- Slices serve, fill, retry and reserve (R238, R294 to R298, R300). -/
def Obligations.SlicesAnswer : Prop := Claims.SlicesServe ∧ Claims.FillsRetriesReservations

/-- R219, R240, R241, R295, R300, R301: an update-only line that L1 gives up asks its home, as any access; served there, on a line that L2 holds, it
merges word by word into its line, its core is acknowledged, and it is gone; an idle core's logical time rises by at least 1 for 4,096 clocks; the noon
source's oldest packet becomes golden if it is not, once a turn. The model's choice: the order of merges (log entry 36). -/
def Claims.MergesTicksAndNoon : Prop :=
  (∀ (s : State) (core : Nat) (u : UpdLine), (s.core core).upd.find? (fun x => x.line == u.line) = some u → homeless u.line = false →
    (∃ t, exec (.updateLineMerge core u.line) s = .next t ∧ SameBytes s t ∧ t.cores = s.cores ∧ t.crews = s.crews ∧
      ∃ q ∈ t.mem.requests, q.agent = some (.merge core u.line) ∧ q.line = u.line) ∧
    (∀ q, s.mem.requests.find? (fun r => r.id == q.id) = some q → q.agent = some (.merge core u.line) → q.line = u.line → q.st = .queued →
      q.shared = false → (s.mem.l2At u.line).isSome = true → core < s.cores.length →
    DeviceMemWf s.mem → isHost u.line = false → (∀ w ∈ u.words, InLine s u.line (u.line + 4 * w.idx) w.bytes) →
    u.words.Pairwise (fun a b => a.meets b.idx b.bytes = false) →
    ∃ t, exec (.sliceRequest q.id) s = .next t ∧ (∀ x ∈ (t.core core).upd, x.line ≠ u.line) ∧ (∀ r ∈ t.mem.requests, r.agent ≠ q.agent) ∧
      (∃ r ∈ t.mem.replies, r.kind = .ack core u.line 0 []) ∧
      (∀ w ∈ u.words, t.mem.read 0 (u.line + 4 * w.idx) w.bytes =
        leBytes w.bytes (atomOp w.func w.bytes (leNat (s.mem.read 0 (u.line + 4 * w.idx) w.bytes)) w.val 0 false).1) ∧
      (∀ a, s.mem.place a = a → (isHost a = true → a < 2 ^ 46) → (∀ w ∈ u.words, a < u.line + 4 * w.idx ∨ u.line + 4 * w.idx + w.bytes ≤ a) →
        t.mem.read 0 a 1 = s.mem.read 0 a 1) ∧ t.crews = s.crews)) ∧
  (∀ (s : State) (core : Nat), core < s.cores.length →
    ((s.core core).ltClock + 4096 ≤ s.coreClock → ∃ t, exec (.ltIdleTick core) s = .next t ∧ (s.core core).lt + 1 ≤ (t.core core).lt ∧
      s.ltOf core ≤ t.ltOf core ∧
      (∀ n, n ≠ core → t.core n = s.core n) ∧ t.mem = s.mem ∧ t.crews = s.crews) ∧
    (s.coreClock < (s.core core).ltClock + 4096 → exec (.ltIdleTick core) s = .next s)) ∧
  (∀ (s : State) (pre post : List Reply) (r : Reply), s.mem.replies = pre ++ r :: post → r.router = s.netClock / 16 % 128 →
    (∀ a ∈ pre, a.router ≠ s.netClock / 16 % 128) →
    (r.golden = none → s.mem.noon.2 ≠ some (s.netClock / 16) → exec (.noonMark true) s = .next { s with mem := { s.mem with
      noon := (s.mem.noon.1, some (s.netClock / 16)), replies := pre ++ { r with golden := some s.netClock } :: post } }) ∧
    (r.golden ≠ none ∨ s.mem.noon.2 = some (s.netClock / 16) → exec (.noonMark true) s = .next s)) ∧
  (∀ (s : State) (q : Request) (l : List Request), s.mem.injecting (s.netClock / 16 % 128) = q :: l →
    (q.golden = none → s.mem.noon.1 ≠ some (s.netClock / 16) → ∃ t, exec (.noonMark false) s = .next t ∧ { q with golden := some s.netClock } ∈ t.mem.requests ∧
      (∀ r ∈ s.mem.requests, r.id ≠ q.id → r ∈ t.mem.requests) ∧ t.mem.noon = (some (s.netClock / 16), s.mem.noon.2) ∧ SameBytes s t ∧ t.crews = s.crews) ∧
    (q.golden ≠ none ∨ s.mem.noon.1 = some (s.netClock / 16) → exec (.noonMark false) s = .next s))

/-- R206, R207, R209, R295: a walk asks the homes of its table lines; once they have served it, here of a page that no L2 TLB holds and on lines that L2
holds, it ends with its leaf entry in the L2 TLB and in
the TLB of every core that asked, or with the page noted as missing for them; stores parked for a page that now
translates go to their homes; where it translates without W they are discarded and the bundle owes a fault. The model's choice: which of two translations is used (log entry 62). -/
def Claims.WalksAndParkedStores : Prop :=
  (∀ (s : State) (w : Walk), s.mem.walks.find? (fun x => x.id == w.id) = some w → (∀ n, (s.core n).upd = []) →
    let served := fun a => ∃ q ∈ s.mem.requests, q.agent = some (.walk w.id) ∧ q.wr = false ∧ q.st = .ready ∧ q.line = lineOf (s.mem.place a)
    let path := walkPath s.mem w.host 4 w.root (w.vpage * 8192)
    (∀ a ∈ path, homeless (lineOf (s.mem.place a)) = false → ¬served a → ∃ t, exec (.pageWalkComplete w.id) s = .next t ∧ t.crews = s.crews ∧
      t.cores = s.cores ∧ t.mem.tlb = s.mem.tlb ∧ t.mem.walks = s.mem.walks ∧ ∃ q ∈ t.mem.requests, q.agent = some (.walk w.id) ∧ q.line = lineOf (s.mem.place a)) ∧
    ((∀ a ∈ path, AtHome s (s.mem.place a) ∧ (homeless (lineOf (s.mem.place a)) = true ∨ served a)) → (∀ e ∈ s.mem.tlb2, e.vpage ≠ w.vpage) →
    ∃ t, exec (.pageWalkComplete w.id) s = .next t ∧ SameBytes s t ∧ t.crews = s.crews ∧ t.cores = s.cores ∧ (∀ v ∈ t.mem.walks, v.id ≠ w.id) ∧
      (∀ p, walk s.mem w.host w.root (w.vpage * 8192) = .leaf p →
        (∃ e ∈ t.mem.tlb2, e.host = w.host ∧ e.root = w.root ∧ e.vpage = w.vpage ∧ e.pte = p) ∧
        ∀ n ∈ w.cores, { core := n, root := w.root, vpage := w.vpage, pte := p } ∈ t.mem.tlb) ∧
      (∀ mal, walk s.mem w.host w.root (w.vpage * 8192) = (if mal then .malformed else .absent) → t.mem.tlb = s.mem.tlb ∧
        ∀ n ∈ w.cores, ∃ e ∈ t.mem.missing, e.core = n ∧ e.root = w.root ∧ e.vpage = w.vpage ∧ e.malformed = mal))) ∧
  (∀ (s : State) (core root vpage : Nat) (r0 : Replay) (l : List Replay) (c : Crew) (p : DWord),
    let mine := fun r : Replay => r.root == root && r.vpage == vpage && r.request.isNone
    (s.core core).replay.filter mine = r0 :: l → s.crew? r0.crew = some c → s.translate core c.region (vpage * 8192) = .leaf p →
    (∀ r ∈ r0 :: l, r.red = false ∧ (s.bundle? r.crew r.bun).isSome = true) →
    (pteW p = true → isHost (physOf p vpage) = false → (pteShared p = true → s.host.windowLost = false) →
      ∃ t, exec (.parkedStoreDrain core root vpage) s = .next t ∧ (t.core core).replay = ((s.core core).replay.filter fun r => !mine r) ∧
      SameBytes s t ∧ (pteChecked p = false → (s.crews.map (·.cid)).Nodup → (∀ d ∈ s.crews, (d.bundles.map (·.index)).Nodup) → t.crews = s.crews) ∧ ∀ r ∈ r0 :: l, ∀ e ∈ r.lanes, ∃ q ∈ t.mem.requests, q.crew = r.crew ∧ q.bun = r.bun ∧ q.pc = r.pc ∧
        { e with pa := s.mem.place (physOf p e.va) } ∈ q.lanes) ∧
    (pteW p = false → l = [] → ∀ b, s.bundle? r0.crew r0.bun = some (c, b) → b.trap = none → (∀ y ∈ b.subs, y.park = .run) →
      ∃ t d e o, exec (.parkedStoreDrain core root vpage) s = .next t ∧ t.bundle? r0.crew r0.bun = some (d, e) ∧ o ∈ e.owed ∧ o.pc = r0.pc ∧
        o.lackedW = true ∧ (t.core core).replay = ((s.core core).replay.filter fun r => !mine r) ∧ SameBytes s t ∧ e.v = b.v ∧ e.subs = b.subs))

/-- Update lines merge, time advances, walks end and parked stores go on (R206, R207, R209, R219, R240, R241, R295, R300, R301). -/
def Obligations.MemoryEvents : Prop := Claims.MergesTicksAndNoon ∧ Claims.WalksAndParkedStores

/-! ## Events of the copy queues and matrix engines (R252 to R267, R271, R273, R281 to R291) -/

/-- The lines of ranges that an engine reads or writes are at their homes already. -/
def AllAtHome (s : State) (l : List (Nat × Nat × DWord × Nat)) : Prop := ∀ z ∈ l, ∀ a ∈ linesOf (s.mem.place z.2.2.2) z.2.1, AtHome s a

/-- An entry of a core's queues that may act now (R259), of crew `c`; nothing of the device recalls a line. -/
def EntryActs (s : State) (core : Nat) (e : QEntry) (c : Crew) : Prop :=
  (s.core core).entry? e.id = some e ∧ s.crew? e.crew = some c ∧ s.entryReady core e = true ∧ (∀ n, (s.core n).upd = []) ∧
  DeviceMemWf s.mem ∧ (s.rootHost c.region).2 < s.mem.host.length

/-- The element of a copy's box at position i of scratch row u, and the positions of a row (R251, R253). -/
def rowElem (r : CopyRec) (u i : Nat) : Nat := if r.role then r.elem i u else r.elem u i

/-- R253 to R255, R259, R261, R262, R266: a unit of a copy asks for pages and homes first and waits; on lines that L2 holds, the next unit of an lcopy puts
its row into the crew's scratch, each element converted as FMT and NARROW say, and its last unit the exponents of the strip; the next line of an lput
puts its bytes into global memory; an access that fails stops the copy with its detail code. -/
def Claims.CopyUnitsPerform : Prop :=
  ∀ (s : State) (core : Nat) (e : QEntry) (c : Crew) (g : PRange), EntryActs s core e c → e.range = some g →
    let r := CopyRec.read e.recd
    let host := (s.rootHost c.region).2
    let access := fun write => s.engineAccess (.copy core c.cid e.id) c.demand c.region write
    let cells := r.putCells.filter fun p => lineOf p.addr == r.putLines.getD e.unit 0
    (e.kind = .lcopy → e.unit < r.rows →
      (∀ u ids, access false (e.reads r) = .wait u ids →
        ∃ t f, exec (.copyUnitPerform core e.id) s = .next t ∧ (t.core core).entry? e.id = some f ∧ f.requests = ids ∧ f.unit = e.unit ∧ t.crews = u.crews ∧
          t.mem = u.mem) ∧
      (∀ u d va, access false (e.reads r) = .stop u d va →
        ∃ t f, exec (.copyUnitPerform core e.id) s = .next t ∧ (t.core core).entry? e.id = some f ∧ f.st = .stopped d (BitVec.ofNat 64 va) ∧
          f.unit = e.unit ∧ t.crews = s.crews) ∧
      (∀ l, access false (e.reads r) = .ok s l → AllAtHome s l → s.engineMeets (.copy core e.id e.queue) false l = none →
        e.held = [] → (c.areaMem g.area).wf = true → r.fmt ≤ 5 → (r.narrow = true → (r.fmt = 2 ∨ r.fmt = 3) ∧ r.role = false) →
        r.rowBytes false ≤ r.pitch → (r.role = true → r.boxr ≤ 64) →
        (∀ y ∈ l, ∀ z ∈ l, y.1 ≤ z.1 → z.1 < y.1 + y.2.1 → z.1 = y.1 ∧ z.2.1 = y.2.1) →
        let u := e.unit
        let n := if r.role then r.boxr else r.boxc
        let strip := r.lsel ≠ 0 ∧ u + 1 = r.rows
        let up : Int := if r.narrow then 4 else 0
        let read := fun a len (bs : List Byte) => ∃ z ∈ l, z.1 = a ∧ z.2.1 = len ∧ bs = s.mem.read host z.2.2.2 len
        (strip → ∀ j ∈ r.stripElems, ∀ x, read j.2 1 [x] → x.toInt + up ≤ 127) →
        ∃ t f, exec (.copyUnitPerform core e.id) s = .next t ∧ (t.core core).entry? e.id = some f ∧ f.unit = u + 1 ∧ f.st = .begun ∧ SameBytes s t ∧
          let put := fun o => areaByte t c.cid g.area (g.off + o)
          (∀ i, i < n → let m := rowElem r u i
            (∀ bs b, r.fmt = 0 → b < 2 ^ r.param → read (r.gaddr + m * 2 ^ r.param) (2 ^ r.param) bs → put (u * r.pitch + i * 2 ^ r.param + b) = bs.getD b 0) ∧
            (∀ bs b, r.fmt = 1 → b < 2 → read (r.gaddr + 4 * m) 4 bs → put (u * r.pitch + 2 * i + b) = (leBytes 2 (toBf16 (leNat bs))).getD b 0) ∧
            (∀ bs, r.fmt = 2 ∨ r.fmt = 3 → read (r.gaddr + 128 * (m / 128)) (16 * r.param) bs →
              let v := fun w => widenPlane (planeValue bs r.param (m % 128)) r.param w (r.fmt == 3)
              (r.narrow = false → put (u * r.pitch + i) = BitVec.ofInt 8 (v 8)) ∧
              (r.narrow = true → (put (u * r.pitch + i / 2)).toNat / 16 ^ (i % 2) % 16 = wrapInt 4 (v 4))) ∧
            (∀ x b, r.fmt = 4 ∨ r.fmt = 5 → b < 8 → read (r.gaddr + if r.fmt = 4 then m / 2 else m) 1 [x] →
              (((s.core core).tables.getD r.tbl Codebook.init).old = none) →
              put (u * r.pitch + 8 * i + b) =
                ((s.core core).tables.getD r.tbl Codebook.init).data.get (8 * (if r.fmt = 4 then x.toNat / 16 ^ (m % 2) % 16 else x.toNat) + b))) ∧
          (strip → ∀ j ∈ r.stripElems, ∀ x, read j.2 1 [x] → put (r.rows * r.pitch + j.1) = BitVec.ofInt 8 (x.toInt + up)) ∧
          (∀ a, a < g.off ∨ g.off + r.footprint false ≤ a → areaByte t c.cid g.area a = areaByte s c.cid g.area a) ∧
          (∀ area, area ≠ g.area → ∀ a, areaByte t c.cid area a = areaByte s c.cid area a))) ∧
    (e.kind = .lput → e.unit < r.putLines.length →
      ∀ l, access true (cells.map fun p => (p.addr, 1)) = .ok s l → AllAtHome s l → c.poison = [] →
        s.engineMeets (.copy core e.id e.queue) true l = none → (l.map (·.2.2.2)).Nodup →
        ∃ t f, exec (.copyUnitPerform core e.id) s = .next t ∧ (t.core core).entry? e.id = some f ∧ f.unit = e.unit + 1 ∧ t.crews = s.crews ∧
          (∀ (n : Nat) (z : Nat × Nat × DWord × Nat) (p : PutCell), l[n]? = some z → cells[n]? = some p →
            t.mem.read host z.2.2.2 1 = [p.value r.fmt fun i => (c.areaMem g.area).get (g.off + i)]) ∧
          (∀ a, s.mem.place a = a → (isHost a = true → a < 2 ^ 46) → (∀ z ∈ l, z.2.2.2 ≠ a) → t.mem.read host a 1 = s.mem.read host a 1))

/-- R256, R266, R267, R271: a copy whose bytes have landed and a qfence whose entries have gone leave the queue, their stamp written, and are counted, a fence not before the clock after its enqueue;
an lcode's table holds its 2,048 bytes. -/
def Claims.QueueEntriesComplete : Prop :=
  ∀ (s : State) (core : Nat) (e : QEntry) (c : Crew), EntryActs s core e c →
    let host := (s.rootHost c.region).2
    let access := fun write => s.engineAccess (.copy core c.cid e.id) c.demand c.region write
    let ends := fun i : Instr =>
      (e.stamp = none → ∃ t, exec i s = .next t ∧ (t.core core).entries = (s.core core).entries.filter (fun d => d.id != e.id) ∧ SameBytes s t ∧
        (∀ m, t.crew? m = s.crew? m) ∧ ∀ r, s.region? c.region = some r → ∃ q, t.region? c.region = some q ∧ q.ldcnt = r.ldcnt + BitVec.ofNat 64 e.globalBytes) ∧
      (∀ a v z, e.stamp = some (a, v) → a.toNat % 8 = 0 → access true [(a.toNat, 8)] = .ok s [z] → z.2.2.2 % 128 ≤ 120 →
        e.queue < c.stampDone.length →
        ∃ t d, exec i s = .next t ∧ (∀ f ∈ (t.core core).entries, f.id ≠ e.id) ∧ t.mem.read host z.2.2.2 8 = leBytes 8 v.toNat ∧
          t.crew? c.cid = some d ∧ d.stampDone.getD e.queue 0 = v ∧ d.bundles = c.bundles)
    (e.kind ≠ .qfence → e.units ≤ e.unit → e.arrive = none → ends (.copyComplete core e.id)) ∧
    (e.kind = .qfence → e.clock < s.coreClock → (s.core core).fenceMet e = true → ends (.qfenceComplete core e.id)) ∧
    (e.kind = .qfence → (s.core core).fenceMet e = false ∨ s.coreClock ≤ e.clock → exec (.qfenceComplete core e.id) s = .next s) ∧
    (e.kind = .lcode → e.unit = 0 → ∀ l, bitsOf (e.recd.getD 0 0) 50 48 < (s.core core).tables.length →
      access false ((List.range 16).map fun i => (bitsOf (e.recd.getD 0 0) 47 0 + 128 * i, 128)) = .ok s l → AllAtHome s l →
      s.engineMeets (.copy core e.id e.queue) false l = none →
      ∃ t f, exec (.codebookFill core e.id) s = .next t ∧ (t.core core).entry? e.id = some f ∧ f.unit = 1 ∧ SameBytes s t ∧ t.crews = s.crews ∧
        ∀ i z, l[i]? = some z →
          ((t.core core).tables.getD (bitsOf (e.recd.getD 0 0) 50 48) Codebook.init).data.read (128 * i) 128 = s.mem.read host z.2.2.2 128)

/-- The matrix task of an engine completes, its stamp's home having served it: it and its scoreboard entry are gone, its clocks are counted and its stamp is written; `more` is said of the
crew before and after. -/
def TaskEnds (s : State) (core n : Nat) (u : Task) (more : Crew → Crew → Prop) : Prop :=
  ∀ c r, s.crew? u.crew = some c → s.region? c.region = some r → core < s.cores.length → (s.core core).tasks.find? (fun t => t.engine == some n) = some u →
    (∀ e ∈ (s.core core).tasks, e.crew = u.crew → u.seq ≤ e.seq) → (∀ k, (s.core k).upd = []) → DeviceMemWf s.mem →
    (∀ va pa v, u.stamp = some (va, pa, v) → homeless (lineOf pa) = true ∨ ∃ q ∈ s.mem.requests, q.agent = some (.task core u.crew u.id) ∧ q.wr = true ∧
      q.st = .ready ∧ q.line = lineOf pa) →
    ∃ t d q, exec (.taskComplete core n) s = .next t ∧ t.crew? u.crew = some d ∧ (∀ e ∈ (t.core core).tasks, e.id ≠ u.id) ∧
      (∀ b ∈ (t.core core).sboard, b.seq ≠ u.seq) ∧ t.region? c.region = some q ∧ q.mxcnt = r.mxcnt + BitVec.ofNat 64 u.record.clocks ∧
      (u.stamp = none → SameBytes s t) ∧
      (∀ va pa v, u.stamp = some (va, pa, v) → s.mem.place pa = pa → isHost pa = false → pa % 128 ≤ 120 →
        t.mem.read (s.rootHost c.region).2 pa 8 = leBytes 8 v.toNat) ∧ d.bundles = c.bundles ∧ more c d

/-- Element k of row i of a task's A operand, and of column col of its B operand, in the integer modes (R133, R275, R277). -/
def aInt (c : Crew) (p : PRange) (r : TaskRec) (i k : Nat) : Int :=
  let at_ := fun o => (c.areaMem p.area).get (p.off + i * r.pitch + o)
  if r.etype = .int4 then readInt true 4 ((at_ (k / 2)).toNat / 16 ^ (k % 2) % 16) else (at_ k).toInt
/-- B -/
def bInt (c : Crew) (r : TaskRec) (k col : Nat) : Int :=
  let at_ := fun o => c.wdata.get (4096 * r.wg + o)
  if r.etype = .int4 then readInt true 4 ((at_ (32 * k + col / 2)).toNat / 16 ^ (col % 2) % 16) else (at_ (64 * k + col)).toInt

/-- What an mma makes of element (i, col), here `old` (R282, R283). -/
def mmaElem (c : Crew) (p : PRange) (r : TaskRec) (i col : Nat) (old : Word) : Word :=
  let a := aInt c p r i
  let b := fun k => bInt c r k col
  let start := if r.zero then 0 else old.toNat
  let (la, lb, R) := (scaleLen r.sla, scaleLen r.slb, r.etype.rows)
  let L := min r.k (if la = 0 then (if lb = 0 then 64 else lb) else if lb = 0 then la else min la lb)
  let sa := fun n => if r.sla = 0 then 0 else ((c.areaMem p.area).get (p.off + r.m * r.pitch + (max 1 (r.k / la) * i + n * L / la))).toInt
  let sb := fun n => if r.slb = 0 then 0 else (c.wside.get (512 * (r.wg + n * L / R) + 64 * (n * L % R / lb) + col)).toInt
  match r.fmt with
  | 0 | 3 => BitVec.ofNat 32 (scaledSum start ((List.range (r.k / L)).map fun n => (((List.range L).map fun j => a (n * L + j) * b (n * L + j)).sum, sa n + sb n)))
  | 6 => BitVec.ofNat 32 (bf16Sum start ((List.range r.k).map fun j => bf16.read false (leNat ((c.areaMem p.area).read (p.off + i * r.pitch + 2 * j) 2)))
      ((List.range r.k).map fun j => bf16.read false (leNat (c.wdata.read (4096 * r.wg + 128 * j + 2 * col) 2))))
  | _ =>
    let exact := (if r.zero then 0 else old.toInt) + ((List.range r.k).map fun j => a j * b j).sum
    BitVec.ofInt 32 (if r.fmt = 2 ∨ r.fmt = 5 then max (-(2 ^ 31)) (min (2 ^ 31 - 1) exact) else exact)

/-- R273, R281 to R283, R288 to R291: an idle engine takes its core's oldest ready task; a task that ends has zeroed its tiles (mzero), added the products of
its scratch rows and weight columns in its mode (mma, scaled, wrapping, clamping or bf16), loaded the weight buffer and its side from either layout
(mwld), or stored its tiles whole, as bf16 or narrowed with their exponents (mst). The model's choice: that a task performs at its completion (log entry 7). -/
def Claims.MatrixTasksRun : Prop :=
  ∀ (s : State) (core n : Nat) (u : Task),
    let k := s.core core
    let r := u.record
    (n < 4 → (∀ t ∈ k.tasks, t.engine ≠ some n) → (k.tasks.map (·.id)).Nodup → u ∈ k.tasks → s.taskReady core u = true →
      (∀ t ∈ k.tasks, s.taskReady core t = true → t ≠ u → u.seq < t.seq) →
      ∃ t, exec (.taskStart core n) s = .next t ∧
        (t.core core).tasks = (k.tasks.map fun e => if e = u then { e with engine := some n } else e) ∧ t.mem = s.mem ∧ t.crews = s.crews) ∧
    ((∃ t ∈ k.tasks, t.engine = some n) → exec (.taskStart core n) s = .next s) ∧
    (u.kind = .mzero → TaskEnds s core n u fun c d => r.ct + r.nt < c.tiles.length →
      ∀ i, d.tile i = if r.ct ≤ i ∧ i ≤ r.ct + r.nt then AccTile.zero else c.tile i) ∧
    (u.kind = .mma → r.fmt ≤ 6 → TaskEnds s core n u fun c d => r.ct + r.nt < c.tiles.length →
      (∀ z ∈ c.tiles, (z.elems.map Prod.fst).Pairwise (· < ·)) → ∀ p, u.range = some p →
      (∀ i col, i < r.m → col < 64 → (d.tile (r.ct + i / 64)).elems.get (64 * (i % 64) + col) =
        mmaElem c p r i col ((c.tile (r.ct + i / 64)).elems.get (64 * (i % 64) + col))) ∧
      (∀ i, i < r.ct ∨ r.ct + r.nt < i → d.tile i = c.tile i) ∧ d.wdata = c.wdata ∧ (∀ area, d.areaMem area = c.areaMem area)) ∧
    (u.kind = .mwld → r.fmt ≤ 2 → (r.fmt = 1 → r.trans = true) → TaskEnds s core n u fun c d => c.wdata.wf = true → c.wside.wf = true → ∀ p, u.range = some p →
      let src := fun o => (c.areaMem p.area).get (p.off + o)
      let (w, R, L) := (r.etype.rowBytes, r.etype.rows, scaleLen r.sla)
      (∀ j b, j < r.k → b < w → let got := d.wdata.get (4096 * r.wg + w * j + b)
        (r.trans = false → got = src (j * r.pitch + b)) ∧
        (r.trans = true → r.fmt = 0 → got = src (b * r.pitch + j)) ∧
        (r.trans = true → r.fmt = 2 → got = src (b / 2 * r.pitch + 2 * j + b % 2)) ∧
        (r.trans = true → r.fmt = 1 → ∀ h, h < 2 → got.toNat / 16 ^ h % 16 = (src ((2 * b + h) * r.pitch + j / 2)).toNat / 16 ^ (j % 2) % 16)) ∧
      (∀ a, a < 4096 * r.wg ∨ 4096 * (r.wg + r.granules) ≤ a → d.wdata.get a = c.wdata.get a) ∧
      (∀ i j col, i < r.granules → j < 8 → col < 64 → d.wside.get (512 * (r.wg + i) + 64 * j + col) =
        if r.sla ≠ 0 ∧ j < max 1 (R / L) ∧ (R * i + j * L) / L < r.blocks then src (r.stripAt col ((R * i + j * L) / L)) else 0) ∧
      d.tiles = c.tiles ∧ (∀ area, d.areaMem area = c.areaMem area)) ∧
    (u.kind = .mst → r.fmt ≤ 2 → (r.fmt = 2 → 1 ≤ r.sla ∧ r.sla ≤ 3) → TaskEnds s core n u fun c d => r.rowBytes ≤ r.pitch → r.ct + r.nt < c.tiles.length →
      ∀ p, u.range = some p → (c.areaMem p.area).wf = true →
      let elem := fun i col => (c.tile (r.ct + i / 64)).elems.get (64 * (i % 64) + col)
      let put := fun o len => (d.areaMem p.area).read (p.off + o) len
      let L := scaleLen r.sla
      let scale := fun i j => blockExp ((List.range L).map fun b => r.value (elem i (L * j + b)).toNat)
      (∀ i col, i < r.m → col < 64 →
        (r.fmt = 0 → put (i * r.pitch + 4 * col) 4 = leBytes 4 (elem i col).toNat) ∧
        (r.fmt = 1 → put (i * r.pitch + 2 * col) 2 = leBytes 2 (roundTo bf16 r.slb false (r.value (elem i col).toNat).res).1) ∧
        (r.fmt = 2 → put (i * r.pitch + col) 1 = [(narrowElem r.slb (scale i (col / L)) (r.value (elem i col).toNat)).1])) ∧
      (∀ i j, r.fmt = 2 → i < r.m → j < 64 / L → put (r.m * r.pitch + (64 / L * i + j)) 1 = [BitVec.ofInt 8 (scale i j)]) ∧
      (∀ a, a < p.off ∨ p.off + r.size ≤ a → (d.areaMem p.area).get a = (c.areaMem p.area).get a) ∧
      (∀ i, (d.tile i).elems = if r.zero ∧ r.ct ≤ i ∧ i ≤ r.ct + r.nt then [] else (c.tile i).elems) ∧ d.wdata = c.wdata)

/-- Copy units, queue entries and matrix tasks (R253 to R256, R259, R261, R262, R266, R267, R271, R273, R281 to R283, R288 to R291). -/
def Obligations.EnginesRun : Prop := Claims.CopyUnitsPerform ∧ Claims.QueueEntriesComplete ∧ Claims.MatrixTasksRun

/-! ## Events of the visibility path (R310, R314, R317 to R328) -/

/-- A pixel's pair after the samples of a list that fall on it, in order (R310). -/
def pixAfter (d : SurfDesc) (tile i : Nat) (old : Word × DWord) (l : List (Nat × Nat × Word × DWord)) : Word × DWord :=
  (l.filter fun p => p.2.1 / 8 * d.tilesX + p.1 / 8 == tile && 8 * (p.2.1 % 8) + p.1 % 8 == i).foldl
    (fun o p => if d.replaces p.2.2.1 p.2.2.2 o then (p.2.2.1, p.2.2.2) else o) old

/-- R310, R314, R317: a meshlet's samples meet the pixels of its OPEN tiles, a tile that was FREE opened clear; the end of the geometry seals every OPEN
tile of the surface. -/
def Claims.MeshletsRaster : Prop :=
  (∀ (s : State) (m : Meshlet) (f : Surface), s.vis.meshlets.find? (fun e => e.id == m.id) = some m → s.surface? m.surf = some f →
    let l := m.samples f.d s.step
    ((∀ t ∈ sampleTiles f.d l, ∃ r ∈ f.tiles, r.tile = t ∧ r.st = .open) → (f.tiles.map (·.tile)).Nodup → (∀ r ∈ f.tiles, r.pix.length = 64) →
      ∃ t g, exec (.meshletRaster m.id) s = .next t ∧ (∀ e ∈ t.vis.meshlets, e.id ≠ m.id) ∧ t.surface? m.surf = some g ∧ g.d = f.d ∧
        (∀ r ∈ f.tiles, r.st = .open → ∃ q, g.tile? r.tile = some q ∧ q.st = .open ∧ ∀ i, i < 64 →
          q.pix.getD i (0, 0) = pixAfter f.d r.tile i (r.pix.getD i (0, 0)) l) ∧
        (∀ r ∈ f.tiles, r.st ≠ .open → g.tile? r.tile = some r) ∧ t.mem = s.mem ∧ t.crews = s.crews) ∧
    (∀ n, sampleTiles f.d l = [n] → f.tile? n = none → s.pinsFull f n = false → s.tileWays f n = true →
      ∃ t g q, exec (.meshletRaster m.id) s = .next t ∧ t.surface? m.surf = some g ∧ g.tile? n = some q ∧ q.st = .open ∧ q.castId = m.castId ∧
        q.pinned = true ∧ ∀ i, i < 64 → q.pix.getD i (0, 0) = pixAfter f.d n i (f.d.clearDepth, clearId) l)) ∧
  (∀ (s : State) (a : Cast) (n : Nat) (f : Surface), s.cast? a.castId = some a → a.kind = 1 → a.done = false → a.geomEnded = false → a.crewsDone = true →
    (∀ m ∈ s.vis.meshlets, m.castId ≠ a.castId) → a.surf = some n → s.surface? n = some f →
    ∃ t g e, exec (.geometryEnd a.castId) s = .next t ∧ t.surface? n = some g ∧ g.d = f.d ∧
      g.tiles = (f.tiles.map fun r => if r.st == .open then { r with st := .sealed, sealSeq := s.vis.sealCtr } else r) ∧
      t.cast? a.castId = some e ∧ e.geomEnded = true ∧ (f.d.keep = false → t.mem = s.mem))

/-- R318 to R320: a unit sieves a SEALED tile: a quad of a material with a material cast is filed for it; a tile of clear pixels has nothing to file and goes
on to HELD under RETAIN; a bin that has waited 2,048 clocks, or holds a full bundle, qualifies. The model's choice: which quads stay unshaded (log entry 47). -/
def Claims.RiddleFiles : Prop :=
  (∀ (s : State) (unit n : Nat) (f : Surface) (r : TileRec) (a : Cast), s.surface? n = some f → f.tile? r.tile = some r → s.cast? r.castId = some a →
    f.d.tileSlice r.tile / 4 = unit → r.filed = false → r.st = .sealed → r.sieved = 0 → (∀ k, (s.core k).upd = []) → (f.tiles.map (·.tile)).Nodup →
    (∀ k m cover c, quadItems (s.tileMaterials a.region f.d r.pix).2 = [(k, m, cover)] → (s.materialCast a f.d m).2 = some c →
      s.unitLoad unit < 512 → unit < s.vis.riddle.length →
      ∃ t b q, exec (.riddleSieve unit n r.tile) s = .next t ∧ b ∈ t.vis.riddle.getD unit [] ∧ b.surf = n ∧ b.material = m ∧ b.hits = none ∧
        q ∈ b.records ∧ q.tile = r.tile ∧ q.quad = k ∧ q.cover = cover ∧ q.matCast = c.castId ∧ q.castId = a.castId ∧ q.filed = s.netClock ∧
        (∀ p, p < 4 → q.ids.getD p 0 = (r.pix.getD (quadPixel k p) (0, 0)).2) ∧ (8 ≤ b.records.length → b.qual.isSome = true) ∧
        ∃ g z, t.surface? n = some g ∧ g.tile? r.tile = some z ∧ z.st = .sorting) ∧
    ((∀ p ∈ r.pix, p.2 = clearId) → f.d.retain = true → a.killed = none → s.quadHeld n r.tile = false →
      ∃ t g z, exec (.riddleSieve unit n r.tile) s = .next t ∧ t.surface? n = some g ∧ g.tile? r.tile = some z ∧ z.st = .held ∧ z.pix = r.pix ∧
        t.vis.riddle = s.vis.riddle ∧ t.crews = s.crews)) ∧
  (∀ (s : State) (unit n : Nat) (b : RBin) (r : MatRecord) (l : List MatRecord), (s.vis.riddle.getD unit [])[n]? = some b → b.records = r :: l →
    b.qual = none →
    (r.filed + 2048 ≤ s.netClock → ∃ t, exec (.riddleBinTimeout unit n) s = .next t ∧
      (t.vis.riddle.getD unit [])[n]? = some { b with qual := some s.vis.qualCtr } ∧ t.mem = s.mem ∧ t.crews = s.crews) ∧
    (s.netClock < r.filed + 2048 → exec (.riddleBinTimeout unit n) s = .next s))

/-- R313, R320, R321, R326: a qualified bin that comes first among the candidates launches a crew of its records' material cast on the nearest core that
fits, which holds its oldest records, up to a full bundle. -/
def Claims.RiddleBinsLaunch : Prop :=
  ∀ (s : State) (unit n q p : Nat) (b : RBin) (r : MatRecord) (l : List MatRecord) (rest : List (Nat × CandKind)) (a : Cast) (f : Surface) (core : Nat),
    (s.vis.riddle.getD unit [])[n]? = some b → b.qual = some q → (s.vis.riddle.getD unit []).findIdx? (fun b => b.qual == some q) = some n →
    b.next = r :: l → s.candidateList = (p, .riddle unit q) :: rest → s.disp.passed = [] → s.cast? r.matCast = some a → s.surface? r.surf = some f →
    s.rampFits (a.need s).slots = true → s.budgetFits a.region [a.need s] = true → s.nearestFit (a.need s) (r.homeCore f.d) = some core →
    (a.need s).reserve = 0 → (∀ c ∈ s.crews, c.cid ≠ s.disp.nextCrewId) →
    ∃ t c, exec (.riddleBinLaunch unit n) s = .next t ∧ t.crews = s.crews ++ [c] ∧ c.cid = s.disp.nextCrewId ∧ c.castId = a.castId ∧ c.core = core ∧
      c.st = .running ∧ c.records = r :: l ∧ t.winStarts = s.winStarts + 1 ∧ t.mem = s.mem

/-- Meshlets raster, the Riddle files, ages and launches its bins (R310, R313, R314, R317 to R321, R326). -/
def Obligations.VisibilityPath : Prop := Claims.MeshletsRaster ∧ Claims.RiddleFiles ∧ Claims.RiddleBinsLaunch

/-- R323 to R325, R328: the Runner fills v0 to v(7 + NAM) of every lane that holds a strand from the triangle it has read, or leaves the registers and
the fault of the lowest lane for the bundle's first instruction. -/
def Claims.RunnerFills : Prop :=
  ∀ (s : State) (x : Ctx) (f : Surface) (q0 : MatRecord) (l : List MatRecord), s.ctx? x.c.cid 0 30 = some x → x.c.records = q0 :: l →
    s.surface? q0.surf = some f → x.c.runnerDone = false → x.c.st ≠ .halted → x.sub.stall = none →
    let nam := x.cast.nam
    (∀ tri : Nat → RunTri, (∀ L, L < 32 → x.b.present.getLsbD L = true → ∃ q p, x.c.laneRecord L = some (q, p) ∧
        x.runnerLane L nam f.d (q.idAt p) = (x, .got (tri L))) → 8 + nam ≤ x.b.v.length →
      ∃ t c b, exec (.runnerFill x.c.cid) s = .next t ∧ t.bundle? x.c.cid 0 = some (c, b) ∧ c.runnerDone = true ∧ b.runnerTrap = x.b.runnerTrap ∧
        (∀ L q p n, L < 32 → x.b.present.getLsbD L = true → x.c.laneRecord L = some (q, p) → n < 8 + nam →
          (b.vreg n).shape.lane L = BitVec.ofNat 32 ((if q.hit then (tri L).hitLane nam q
            else (tri L).pixelLane f.d s.step nam (q.pixel f.d p).1 (q.pixel f.d p).2 (q.depths.getD p 0)).getD n 0)) ∧
        (∀ n, 8 + nam ≤ n → b.vreg n = x.b.vreg n) ∧ b.p = x.b.p ∧ b.s = x.b.s ∧ b.flags = x.b.flags ∧ t.mem = s.mem) ∧
    (∀ (res : Nat → RunRes) (L cause : Nat) (info : BitVec 128), (∀ M, M < 32 → x.b.present.getLsbD M = true → ∃ q p, x.c.laneRecord M = some (q, p) ∧
        x.runnerLane M nam f.d (q.idAt p) = (x, res M) ∧ res M ≠ .wait) →
      L < 32 → x.b.present.getLsbD L = true → res L = .fault cause info → (∀ M, M < L → x.b.present.getLsbD M = true → ∃ u, res M = .got u) →
      ∃ t c b, exec (.runnerFill x.c.cid) s = .next t ∧ t.bundle? x.c.cid 0 = some (c, b) ∧ c.runnerDone = true ∧
        b.runnerTrap = some (cause, if cause = 6 ∨ cause = 7 then info ||| BitVec.ofNat 128 (2 ^ 75) else info) ∧ b.v = x.b.v ∧ b.flags = x.b.flags ∧
        t.mem = s.mem)

/-! ## Events of the dispatcher and the context layer (R347 to R362) -/

/-- R349 to R352, R354, R355: the first candidate, here a single crew of a cast placed in rotation, is admitted to the first core in turn that fits; a
candidate passed over for 50 µs blocks; the crews of a gang start one in a window, and issue from the window after the last; compute columns and
cache-die columns sleep and wake. The model's choice: the points of log entries 50 and 51. -/
def Claims.DispatcherActs : Prop :=
  ∀ (s : State),
    (∀ p rest a core, s.candidateList = (p, .fresh a.castId) :: rest → s.disp.passed = [] → s.cast? a.castId = some a → a.gang = (1, 1) → a.place ≠ 1 →
      s.rampFits (a.need s).slots = true → s.budgetFits a.region [a.need s] = true → (a.need s).reserve = 0 →
      ((List.range 128).map fun i => (s.disp.rr + i) % 128).find? (s.coreFits (a.need s)) = some core →
      ∃ t c e, exec .dispatchPlace s = .next t ∧ t.crews = s.crews ++ [c] ∧ c.cid = s.disp.nextCrewId ∧ c.castId = a.castId ∧ c.core = core ∧
        c.st = .running ∧ c.x + a.grid.1 * (c.y + a.grid.2.1 * c.z) = a.nextCrew ∧ c.bundles.length = a.launch + a.spawnStages ∧
        (∀ b ∈ c.bundles, ∀ y ∈ b.subs, y.pc = a.word 0) ∧ t.cast? a.castId = some e ∧ e.nextCrew = a.nextCrew + 1 ∧ e.admitted = a.admitted + 1 ∧
        t.disp.rr = (core + 1) % 128 ∧ t.winStarts = s.winStarts + 1 ∧ t.mem = s.mem) ∧
    (s.candidateList = [] → ∃ t, exec .dispatchPlace s = .next t ∧ t.crews = s.crews ∧ t.casts = s.casts ∧ t.mem = s.mem) ∧
    (∀ n p, s.disp.passed[n]? = some p →
      (p.since + 50000 ≤ s.ns → (∃ e ∈ s.candidateList, e.2 = p.kind) →
        exec (.candidateBlock n) s = .next { s with disp := { s.disp with passed := s.disp.passed.set n { p with blocking := true } } }) ∧
      (s.ns < p.since + 50000 → exec (.candidateBlock n) s = .next s)) ∧
    (s.disp.waitStart = [] → ∃ t, exec .startRampWindow s = .next t ∧ t.mem = s.mem ∧ t.disp = s.disp ∧
      ∀ c ∈ s.crews, c.st = .starting → (∀ d ∈ s.sameGang c, d.startWin < s.winNo) → { c with st := .running } ∈ t.crews) ∧
    (∀ c, s.disp.waitStart = [c.cid] → s.crew? c.cid = some c → (∀ d ∈ s.sameGang c, d.cid = c.cid ∨ d.startWin < s.winNo) →
      ∃ t e, exec .startRampWindow s = .next t ∧ t.crew? c.cid = some e ∧ e.st = c.st ∧ t.mem = s.mem ∧
        (s.rampFits c.bundles.length = true → t.disp.waitStart = [] ∧ e.startWin = s.winNo ∧ t.winStarts = s.winStarts + 1) ∧
        (s.rampFits c.bundles.length = false → t.disp = s.disp ∧ e.startWin = c.startWin)) ∧
    (∀ n, n < 16 → s.host.blob.idleNs ≠ 0 → (∀ c ∈ s.crews, c.usesColumn n = false) → s.columnAwake n = true →
      (s.disp.idleFrom.getD n 0 + s.host.blob.idleNs ≤ s.ns →
        exec (.columnSleep n) s = .next { s with disp := { s.disp with asleep := s.disp.asleep ++ [n] } }) ∧
      (s.ns < s.disp.idleFrom.getD n 0 + s.host.blob.idleNs → exec (.columnSleep n) s = .next s)) ∧
    (∀ n, n < 16 → s.host.blob.idleNs ≠ 0 → s.disp.cacheAsleep.contains n = false → (∀ w ∈ s.disp.cacheWake, w.1 ≠ n) →
      (s.cacheIdle = true → exec (.columnSleep (16 + n)) s =
        .next { s with mem := s.mem.flushColumn n, disp := { s.disp with cacheAsleep := s.disp.cacheAsleep ++ [n] } }) ∧
      (s.cacheIdle = false → exec (.columnSleep (16 + n)) s = .next s)) ∧
    (∀ w, s.disp.waking.find? (fun u => u.1 == w.1) = some w → w.2 ≤ s.ns → w.1 ∉ s.disp.asleep → w.1 < 16 →
      ∃ t, exec (.columnWake w.1) s = .next t ∧ t.columnAwake w.1 = true ∧ t.crews = s.crews ∧ t.mem = s.mem) ∧
    (∀ n, (∀ w ∈ s.disp.cacheWake, w.2 ≤ s.ns) → ∃ t, exec (.columnWake (16 + n)) s = .next t ∧ (∀ w ∈ t.disp.cacheWake, w.1 ≠ n) ∧
      t.crews = s.crews ∧ t.mem = s.mem)

/-- R314, R344, R347, R353: a crew whose strands and engines have ended retires: it is gone and its cast has its FLAGS, FMASK and count; a cast whose work
is over is done, its record written and its journal entry DONE. -/
def Claims.CrewsAndCastsEnd : Prop :=
  (∀ (s : State) (c : Crew) (a : Cast), s.crew? c.cid = some c → s.cast? c.castId = some a →
    (s.mayRetire c = true → s.stopFits c.bundles.length = true → c.gangW * c.gangH = 1 → c.records = [] → a.done = false →
      ∃ t e, exec (.crewRetire c.cid) s = .next t ∧ (∀ d ∈ t.crews, d.cid ≠ c.cid) ∧ (∀ d ∈ s.crews, d.cid ≠ c.cid → d ∈ t.crews) ∧
        t.cast? c.castId = some e ∧ e.retired = a.retired + 1 ∧ e.flags = a.flags ||| c.allFlags ∧ e.fmask = a.fmask ||| c.allFaults ∧
        e.done = false ∧ t.winUnits = s.winUnits + startUnits c.bundles.length) ∧
    (s.mayRetire c = false → exec (.crewRetire c.cid) s = .next s)) ∧
  (∀ (s : State) (a : Cast), s.cast? a.castId = some a → a.kind ≠ 2 → a.done = false →
    (s.castOver a = true → ∃ t e, exec (.castComplete a.castId) s = .next t ∧ t.cast? a.castId = some e ∧ e = { a with done := true } ∧
      t.crews = s.crews ∧ (∀ j ∈ s.host.journal, j.seq = a.seq → ∃ k ∈ t.host.journal, k.seq = a.seq ∧ k.kind = j.kind ∧ k.st = .done ∧
        (a.done? = 0 → k.code = 0)) ∧ (a.done? = 0 → t.mem = s.mem) ∧
      ∀ m, a.done? ≠ 0 → writeVirt s.mem s.step (s.rootHost a.region).2 (s.rootHost a.region).1 a.done? (a.record 1 0 s.ns) = some m →
        (∀ p, physFor s.mem s.step (s.rootHost a.region).2 (s.rootHost a.region).1 pteW a.done? = some p → s.lostAt p = false) →
        t.mem.gddr = m.gddr ∧ t.mem.l2 = m.l2 ∧ t.mem.host = m.host ∧ t.mem.peerMem = m.peerMem) ∧
    (s.castOver a = false → exec (.castComplete a.castId) s = .next s))

/-- The Runner fills, the dispatcher admits, starts and ends crews and casts (R314, R323 to R325, R328, R344, R347, R349 to R355). -/
def Obligations.CrewLife : Prop := Claims.RunnerFills ∧ Claims.DispatcherActs ∧ Claims.CrewsAndCastsEnd

/-- R357 to R361: when the first candidate finds no room, the victims that make some are halted, with the lower priority; a halted crew whose begun
work is done is saved to context slots, registers and memories with it; a saved context that fits comes back as it was. The model's choice: the points of log entries 51 and 52. -/
def Obligations.CrewsAreSavedAndResume : Prop :=
  ∀ (s : State),
    (∀ p k rest victims, s.candidateList = (p, k) :: rest → s.disp.passed = [] → s.tryPlace k = none → (∀ c ∈ s.crews, c.st ≠ .halted) →
      (s.crews.map (·.cid)).Nodup → s.chooseVictims k [] (s.victimOrder p) = some victims → (∀ c ∈ victims, c ∈ s.crews) → (victims.map (·.cid)).Nodup →
      ∃ t, exec .preemptRequest s = .next t ∧ t.mem = s.mem ∧ (∀ c ∈ victims, ∃ d, t.crew? c.cid = some d ∧ d.st = .halted ∧
        d.plain = c.plain ∧ d.bundles.map (·.v) = c.bundles.map (·.v) ∧ ∀ b ∈ d.bundles, ∀ y ∈ b.subs, y.stall = none) ∧
        ∀ c ∈ s.crews, c ∉ victims → c ∈ t.crews) ∧
    (s.candidateList = [] → exec .preemptRequest s = .next s) ∧
    (∀ c bank, s.crew? c.cid = some c → s.maySave c = true → s.mayRetire c = false → s.stopFits c.bundles.length = true →
      let n := ctxSlotsFor (s.saveBytes c)
      s.ctxFits c.region (n - c.spillSlots.length) = true → s.bankFor c.core n = some bank → s.bankAwake bank = true → (∀ b ∈ c.bundles, b.pend = []) →
      ∃ t x, exec (.contextSave c.cid) s = .next t ∧ t.disp.contexts = s.disp.contexts ++ [x] ∧ x.id = s.disp.nextCtx ∧ x.bank = bank ∧ x.slots.length = n ∧
        x.crew.cid = c.cid ∧ x.crew.bundles = c.bundles ∧ x.crew.plain = c.plain ∧ x.crew.ringMem = c.ringMem ∧ x.crew.live = c.live ∧
        x.crew.shadow = c.shadow ∧ x.crew.tiles = c.tiles ∧ x.crew.wdata = c.wdata ∧ x.crew.consts = c.consts ∧ x.lt = s.ltOf c.core ∧
        (∀ d ∈ t.crews, d.cid ≠ c.cid) ∧ t.mem = s.mem) ∧
    (∀ x p rest core, s.disp.contexts.find? (fun y => y.id == x.id) = some x → s.candidateList = (p, .saved x.id) :: rest → s.disp.passed = [] →
      x.crew.gangW * x.crew.gangH = 1 → s.rampFits (x.need s).slots = true → s.budgetFits x.crew.region [x.need s] = true → s.bankAwake x.bank = true →
      core < 128 → s.coreFits (x.need s) core = true → (x.need s).reserve = 0 → s.ovcOf x.crew.region = 0 → x.crew.bundles ≠ [] →
      (∀ b ∈ x.crew.bundles, b.owed = [] ∧ b.live ≠ 0 ∧ ∃ y ∈ b.subs, y.atJoin = false ∧ ∀ n, y.park ≠ .bar n) →
      ∃ t c, exec (.contextResume x.id) s = .next t ∧ t.crews = s.crews ++ [c] ∧ c.cid = x.crew.cid ∧ c.st = .running ∧ s.coreFits (x.need s) c.core = true ∧
        c.bundles.map (fun b => (b.v.map (·.shape), b.p, b.s, b.k, b.flags, b.subs.map fun y => (y.mask, y.pc, y.park))) =
          x.crew.bundles.map (fun b => (b.v.map (·.shape), b.p, b.s, b.k, b.flags, b.subs.map fun y => (y.mask, y.pc, y.park))) ∧
        c.plain = x.crew.plain ∧ c.ringMem = x.crew.ringMem ∧ c.live = x.crew.live ∧ c.shadow = x.crew.shadow ∧ c.tiles = x.crew.tiles ∧
        (∀ y ∈ t.disp.contexts, y.id ≠ x.id) ∧ x.lt ≤ t.ltOf c.core ∧ t.mem = s.mem)

/-! ## Answers, the debugger, the hosts' queues (R208 to R210, R373, R379 to R392) -/

/-- R207, R209, R385: a resolved request is gone, its page's translations are invalidated and the stores parked behind it may translate afresh. -/
def Claims.RequestsResolve : Prop :=
  ∀ (s : State) (port : Nat) (q : PageReq), s.host.bring = .ready → s.requestOf port q.id = some q →
    ∃ t, exec (.faultackResolve port q.id) s = .next t ∧ (∀ p ∈ t.mem.pageReqs, p.id ≠ q.id) ∧
      (∀ e ∈ t.mem.tlb, e.covers q.root (q.vpage * 8192) = false) ∧
      (∀ e ∈ t.mem.tlb2, (TlbEntry.mk 0 e.root e.vpage e.pte).covers q.root (q.vpage * 8192) = false) ∧
      (∀ n r, r ∈ (s.core n).replay → r.request = some q.id → { r with request := none } ∈ (t.core n).replay) ∧ t.crews = s.crews ∧ SameBytes s t

/-- R208 to R210, R262, R385: a rejected request, or one unanswered past the blob's timeout, is gone; a stalled access learns that its page was
rejected, a copy that waited for it stops, and stores parked behind it are discarded. -/
def Claims.RequestsReject : Prop :=
  ∀ (s : State) (q : PageReq), s.mem.pageReqs.find? (fun p => p.id == q.id) = some q →
    let rejected := fun i : Instr => ∃ t, exec i s = .next t ∧ (∀ p ∈ t.mem.pageReqs, p.id ≠ q.id) ∧
      (∀ n, ∀ r ∈ (t.core n).replay, r.request ≠ some q.id) ∧
      ((∀ n, ∀ r ∈ (s.core n).replay, r.request ≠ some q.id) →
        (∀ c ∈ s.crews, ∀ b ∈ c.bundles, ∀ y ∈ b.subs, ∀ st, y.stall = some st → q.id ∈ st.requests →
          ∃ d ∈ t.crews, d.cid = c.cid ∧ ∃ e ∈ d.bundles, e.index = b.index ∧ e.v = b.v ∧ e.flags = b.flags ∧
            ∃ z ∈ e.subs, z.mask = y.mask ∧ z.pc = y.pc ∧ ∃ u, z.stall = some u ∧ q.vpage ∈ u.rejected) ∧
        (∀ n, ∀ e ∈ (s.core n).entries, q.id ∈ e.requests → ∃ f ∈ (t.core n).entries, f.id = e.id ∧ ∃ d va, f.st = .stopped d va) ∧ SameBytes s t)
    (s.host.bring = .ready → rejected (.faultackReject q.host q.id)) ∧
    (q.time + s.host.blob.faultTimeoutNs ≤ s.ns → rejected (.faultTimeout q.id)) ∧
    (s.ns < q.time + s.host.blob.faultTimeoutNs → exec (.faultTimeout q.id) s = .next s)

/-- The answers to page-fault requests. -/
def Claims.FaultsAreAnswered : Prop := Claims.RequestsResolve ∧ Claims.RequestsReject

/-- R373: a debugger attaches to a cast that runs and detaches; a slot it halts stands in trap mode with cause BREAK and TRAPINFO [8] at its PC, its
registers as they were, a parked sub-bundle still parked, and a slot that stands at a pair is known as one; it goes on, with what the debugger wrote,
as `tret` and `tret.next` do. A slot halted while its handler runs keeps its trap registers and goes on in trap mode. The model's choice: that a slot in trap mode keeps its trap registers (log entry 14) and that a slot already halted stays so when the debugger detaches (log entry 58). -/
def Claims.DebuggersHaltAndResume : Prop :=
  (∀ (s : State) (a : Cast) (causes : BitVec 32), s.cast? a.castId = some a → a.done = false →
    ∃ t, exec (.debugAttach a.castId causes) s = .next t ∧ { castId := a.castId, causes := causes } ∈ t.host.debuggers ∧
      (∀ d ∈ s.host.debuggers, d.castId ≠ a.castId → d ∈ t.host.debuggers) ∧ t.crews = s.crews ∧ t.mem = s.mem) ∧
  (∀ (s : State) (id : Nat), ∃ t, exec (.debugDetach id) s = .next t ∧ (∀ d ∈ t.host.debuggers, d.castId ≠ id) ∧ t.crews = s.crews ∧ t.mem = s.mem) ∧
  (∀ (s : State) (c : Crew) (b : Bundle), s.bundle? c.cid b.index = some (c, b) → s.debugged c.castId = true →
    (∀ x l, b.halted = false → b.trap = none → b.subs = x :: l →
      ∃ e tr, exec (.debugHaltRequest c.cid b.index) s = .next (s.setBundle c e) ∧ e.halted = true ∧ e.trap = some tr ∧ tr.cause = 19 ∧ tr.info = 256 ∧
        (x.park ≠ .marker ∨ x.rep = 0 → tr.pc = x.pc) ∧ (x.awaits = false → tr.mask = x.mask &&& b.live) ∧
        (x.awaits = false → x.park ≠ .marker → tr.pair = s.atPair c.core c.region x) ∧ (x.awaits = true → tr.mask = 0 ∧ { x with stall := none } ∈ tr.others) ∧ e.v = b.v ∧ e.p = b.p ∧ e.s = b.s ∧ e.k = b.k ∧ e.flags = b.flags) ∧
    (∀ tr, b.halted = false → b.trap = some tr → b.subs ≠ [] → ∃ e, exec (.debugHaltRequest c.cid b.index) s = .next (s.setBundle c e) ∧
      e.halted = true ∧ e.trap = some tr ∧ e.v = b.v ∧ e.p = b.p ∧ e.s = b.s ∧ e.k = b.k ∧ e.flags = b.flags) ∧
    (∀ tr form, b.halted = true → b.pend = [] → b.trap = some tr → tr.debug = false → ∃ e, exec (.debugResume c.cid b.index [] form) s =
      .next (s.setBundle c e) ∧ e.halted = false ∧ e.trap = some tr ∧ e.subs = b.subs ∧ e.v = b.v ∧ e.p = b.p ∧ e.s = b.s ∧ e.flags = b.flags) ∧
    (∀ tr, b.halted = true → b.pend = [] → b.trap = some tr → tr.debug = true → tr.mask &&& b.live ≠ 0 →
      let past := if tr.pair then skipPc tr.pc 2 else nextPc tr.pc
      let goes := fun edits form pc (more : Bundle → Prop) => ∃ t e, exec (.debugResume c.cid b.index edits form) s = .next t ∧
        (∃ d, t.bundle? c.cid b.index = some (d, e)) ∧ e.trap = none ∧ e.halted = false ∧ (∃ y ∈ e.subs, y.mask = tr.mask &&& b.live ∧
          y.pc = pc) ∧ e.p = b.p ∧ e.s = b.s ∧ more e
      let after := fun edits more => goes edits .restart (if returnsNext tr then past else tr.pc) more
      after [] (fun e => e.v.map (·.shape) = b.v.map (·.shape) ∧ e.flags = b.flags) ∧
      goes [] .next past (fun e => e.v.map (·.shape) = b.v.map (·.shape) ∧ e.flags = b.flags) ∧
      (∀ n L v, n < b.v.length → n < 640 → L < 32 → after [.operand n L v] fun e => (e.vreg n).shape.lane L = v.setWidth 32 ∧
        (∀ M, M < 32 → M ≠ L → (e.vreg n).shape.lane M = (b.vreg n).shape.lane M) ∧ ∀ m, m ≠ n → (e.vreg m).shape = (b.vreg m).shape) ∧
      (∀ v, after [.special 13 v] fun e => e.v.map (·.shape) = b.v.map (·.shape) ∧ e.flags = v.setWidth 5)))

/-- Page-fault requests are answered; debuggers halt and resume slots (R207 to R210, R262, R373, R385). -/
def Obligations.FaultsAndDebuggers : Prop := Claims.FaultsAreAnswered ∧ Claims.DebuggersHaltAndResume

/-- R380, R381, R387: a write of QTAIL accepts the commands up to it, here one: its journal entry holds its words, and is FAILED at once where a rule
of R381 says so; a value of QSIZE or more sets ERROR, of a queue that is not enabled too; an enabled queue starts at head 0 without ERROR; ABORT fails the ACCEPTED commands and clears ENABLE. -/
def Claims.QueuesAccept : Prop :=
  ∀ (s : State) (port q : Nat), s.barOn port = true → q < 64 → q < (s.port port).queues.length →
    let c := (s.port port).queue q
    (∀ tail writes, c.enable = true → c.error = false → tail < c.size → c.head ≠ tail → (c.head + 1) % c.size = tail → s.host.journal.length < journalKept →
        let m := (s.hostWrites port writes).mem.host.getD port []
        ∃ t e, exec (.qtailWrite port q tail writes) s = .next t ∧ t.host.journal = s.host.journal ++ [e] ∧ e.seq = s.host.nextSeq ∧ e.host = port ∧
          e.queue = q ∧ (∀ i, i < 8 → e.word i = BitVec.ofNat 64 (leNat (m.read (c.base.toNat + 64 * c.head + 8 * i) 8))) ∧
          e.kind = bitsOf (e.word 0) 7 0 ∧ (s.refuseCode port e.cmd = 0 → e.st = .accepted) ∧
          (s.refuseCode port e.cmd ≠ 0 → e.st = .failed ∧ e.code = s.refuseCode port e.cmd) ∧ ((t.port port).queue q).head = tail ∧
          ((t.port port).queue q).tail = tail ∧ t.host.nextSeq = s.host.nextSeq + 1 ∧ t.mem.gddr = s.mem.gddr ∧ t.crews = s.crews) ∧
    (∀ tail writes, c.size ≤ tail → ∃ t, exec (.qtailWrite port q tail writes) s = .next t ∧ (t.port port).queue q = { c with error := true } ∧
      t.host.journal = s.host.journal) ∧
    (∀ tail writes, tail < c.size → c.enable = false → ∃ t, exec (.qtailWrite port q tail writes) s = .next t ∧
      (t.port port).queue q = { c with tail := tail } ∧ t.host.journal = s.host.journal) ∧
    (c.enable = false → ∃ t, exec (.qctlEnable port q) s = .next t ∧ (t.port port).queue q = { c with head := 0, error := false, enable := true } ∧
      t.host.journal = s.host.journal ∧ t.mem = s.mem) ∧
    (c.enable = true → exec (.qctlEnable port q) s = .next s) ∧
    (∃ t, exec (.qctlAbort port q) s = .next t ∧ ((t.port port).queue q).enable = false ∧ t.mem = s.mem ∧ t.crews = s.crews ∧
      (∀ j ∈ s.host.journal, j.host = port → j.queue = q → j.st = .accepted → ∃ k ∈ t.host.journal, k.seq = j.seq ∧ k.cmd = j.cmd ∧ k.st = .failed ∧
        k.code = 7) ∧
      ((∀ j ∈ s.host.journal, j.host ≠ port ∨ j.queue ≠ q ∨ j.st ≠ .accepted) → t.host.journal = s.host.journal))

/-- R339, R340, R379, R385, R392: the queue registers take values while the queue is disabled, and read as written; reserved offsets take none; the
region window shows the control blocks of the host's own regions; FAULTBASE sets the fault ring up anew and opens it;
a recovery image that verifies lets the bring-up go on with the configuration blob, and the mailbox takes what is written to it. The model's choice: where FAULTBASE and FAULTSIZE lie (log entry 20), and the mailbox's status and image (log entry 82). -/
def Claims.RegistersAreWritten : Prop :=
  ∀ (s : State) (port q : Nat) (v : DWord),
    (s.barOn port = true → q < 64 → q < (s.port port).queues.length →
      let c := (s.port port).queue q
      (c.enable = false → (∃ t, exec (.registerWrite port (0x1000 + 32 * q) 8 v) s = .next t ∧ (t.port port).queue q = { c with base := v } ∧ t.mem = s.mem) ∧
        ∃ t, exec (.registerWrite port (0x1000 + 32 * q + 8) 4 v) s = .next t ∧ (t.port port).queue q = { c with size := v.toNat % 2 ^ 32 } ∧
          t.mem = s.mem) ∧
      (c.enable = true → exec (.registerWrite port (0x1000 + 32 * q) 8 v) s = .next s ∧ exec (.registerWrite port (0x1000 + 32 * q + 8) 4 v) s = .next s)) ∧
    (q < 64 → s.barRead port (0x1000 + 32 * q) = ((s.port port).queue q).base ∧
      s.barRead port (0x1000 + 32 * q + 8) = BitVec.ofNat 64 ((s.port port).queue q).size) ∧
    (∀ n k, n < 4096 → k < 16 → s.barRead port (0x100000 + 128 * n + 8 * k) = if s.inHost port n then ((s.region? n).map Region.block).elim 0 (·.getD k 0) else 0) ∧
    (s.barOn port = true → ∀ n k, n < 0x1000 → exec (.registerWrite port n k v) s = .next s) ∧
    (s.barOn port = true → ∀ base size, ∃ t, exec (.faultbaseWrite port base size) s = .next t ∧ (t.port port).faultBase = BitVec.ofNat 64 base ∧
      (t.port port).faultSize = size ∧ (t.port port).faultNext = 0 ∧ (t.port port).faultPhase = true ∧ (t.port port).faultOpen = true ∧
      (t.port port).queues = (s.port port).queues ∧ t.mem = s.mem) ∧
    ((s.host.bring = .recovery ∨ s.host.bring = .ready) → port < s.host.ports.length →
      (∃ t, exec (.registerWrite port 0x400000 4 v) s = .next t ∧ (t.port port).mailboxStatus = v.setWidth 32 ∧
        (t.port port).mailbox = (s.port port).mailbox ∧ t.mem = s.mem) ∧
      ∀ n, 8 ≤ n → n + 8 ≤ 0x400000 → ∃ t, exec (.registerWrite port (0x400000 + n) 8 v) s = .next t ∧
        (∀ i, i < 8 → (t.port port).mailbox.getD (n - 8 + i) 0 = (leBytes 8 v.toNat).getD i 0) ∧
        (∀ i, i < n - 8 ∨ n ≤ i → (t.port port).mailbox.getD i 0 = (s.port port).mailbox.getD i 0) ∧
        (t.port port).mailboxStatus = (s.port port).mailboxStatus ∧ t.mem = s.mem) ∧
    (∀ image ok, s.host.bring = .recovery → port < s.host.ports.length → ∃ t, exec (.recoveryImageSubmit port image ok) s = .next t ∧
      (t.port port).mailbox = image ∧ (t.port port).mailboxStatus = (if ok then 2 else 1) ∧ t.host.bring = (if ok then .ready else .recovery) ∧
      t.regions = (if ok then rootRegions s.host.blob else s.regions) ∧ t.mem = s.mem) ∧
    (∀ image ok, s.host.bring ≠ .recovery → exec (.recoveryImageSubmit port image ok) s = .next s)

/-! ## Commands (R381 to R386) -/

/-- The journal entry of a command stands at a state with a code; every other entry is as it was. -/
def Journals (s t : State) (seq : Nat) (st : JState) (code : Nat) : Prop :=
  t.host.journal.length = s.host.journal.length ∧
  (∀ j ∈ s.host.journal, j.seq = seq → ∃ k ∈ t.host.journal, k.seq = seq ∧ k.cmd = j.cmd ∧ k.kind = j.kind ∧ k.st = st ∧ k.code = code) ∧
  ∀ j ∈ s.host.journal, j.seq ≠ seq → j ∈ t.host.journal

/-- R219, R241, R381, R386: SIGNAL writes its value as a release of what its host's commands have done, or fails; WAITSIGNAL reads its n64 and is DONE
once it has reached its value, and STARTED until then; JOURNALREAD copies the host's own entries, its own as STARTED, and zeros for others. The tables
are read after update-only lines of them have been recalled. The model's choice: the codes (log entry 53). -/
def Claims.SignalsAndJournal : Prop :=
  ∀ (s : State) (seq : Nat) (e : JEntry),
    let rh := s.rootHost e.region
    let va := (e.word 1).toNat
    let u := s.recallTables rh.2 rh.1 [va]
    (s.starting seq 5 = some e →
      (∀ p m, va % 8 = 0 → physFor u.mem s.step rh.2 rh.1 pteW va = some p → u.lostAt p = false →
        writeVirt u.mem s.step rh.2 rh.1 va (leBytes 8 (e.word 2).toNat) = some m →
        ∃ t, exec (.signal seq) s = .next t ∧ Journals s t seq .done 0 ∧ t.mem.gddr = m.gddr ∧ t.mem.l2 = m.l2 ∧ t.mem.host = m.host ∧
          t.mem.peerMem = m.peerMem ∧ (s.port e.host).lt ≤ (t.mem.timeOf (lineOf (u.mem.place p))).wt ∧ t.crews = s.crews) ∧
      (va % 8 ≠ 0 ∨ physFor u.mem s.step rh.2 rh.1 pteW va = none ∨ (∃ p, physFor u.mem s.step rh.2 rh.1 pteW va = some p ∧ u.lostAt p = true) →
        ∃ t, exec (.signal seq) s = .next t ∧ Journals s t seq .failed 3 ∧ t.mem = s.mem)) ∧
    let unread := va % 8 ≠ 0 ∨ s.homeReadVirt rh.2 rh.1 va 8 = none
    (s.starting seq 6 = some e →
      (unread → ∃ t, exec (.waitsignal seq) s = .next t ∧ Journals s t seq .failed 3 ∧ t.mem = s.mem ∧ t.crews = s.crews) ∧
      ∀ y bs, va % 8 = 0 → s.homeReadVirt rh.2 rh.1 va 8 = some (y, bs) → ∃ t, exec (.waitsignal seq) s = .next t ∧ t.mem = y.mem ∧ t.crews = y.crews ∧
        Journals s t seq (if (e.word 2).toNat ≤ leNat bs then .done else .started) 0) ∧
    (s.jentry? seq = some e → e.kind = 6 → e.st = .started →
      (unread → ∃ t, exec (.waitsignalSatisfied seq) s = .next t ∧ Journals s t seq .failed 3 ∧ t.mem = s.mem) ∧
      ∀ y bs, va % 8 = 0 → s.homeReadVirt rh.2 rh.1 va 8 = some (y, bs) →
        ((e.word 2).toNat ≤ leNat bs → ∃ t, exec (.waitsignalSatisfied seq) s = .next t ∧ Journals s t seq .done 0 ∧ t.mem = y.mem) ∧
        (leNat bs < (e.word 2).toNat → ∃ t, exec (.waitsignalSatisfied seq) s = .next t ∧ t.mem = y.mem ∧ t.crews = y.crews ∧
          t.host.journal = s.host.journal)) ∧
    (s.starting seq 7 = some e →
      let n := (e.word 2).toNat
      (n = 0 ∨ 65536 < n → ∃ t, exec (.journalread seq) s = .next t ∧ Journals s t seq .failed 2 ∧ t.mem = s.mem) ∧
      let dst := (e.word 3).toNat
      let begun := s.journalTo seq .started 0 none
      let w := begun.recallTables rh.2 rh.1 ((linesOf dst (32 * n)).map fun a => max a dst)
      (0 < n → n ≤ 65536 → ∀ m l, spanPhys w.mem s.step rh.2 rh.1 pteW dst (32 * n) = some l →
        writeVirt w.mem s.step rh.2 rh.1 dst ((List.range n).map fun i => match begun.jentry? (va + i) with
          | some d => if d.host == e.host then d.bytes else List.replicate 32 0
          | none => List.replicate 32 0).flatten = some m →
        ((∀ p ∈ l, w.lostAt p = false) → ∃ t, exec (.journalread seq) s = .next t ∧ Journals s t seq .done 0 ∧ t.mem.gddr = m.gddr ∧
          t.mem.l2 = m.l2 ∧ t.mem.host = m.host ∧ t.mem.peerMem = m.peerMem) ∧
        ((∃ p ∈ l, w.lostAt p = true) → ∃ t, exec (.journalread seq) s = .next t ∧ Journals s t seq .failed 3 ∧ SameBytes w t)))

/-- R381, R384: FILL and COPY join the firmware Ladle's queue, a FILL whose length is no multiple of 8 fails; the Ladle moves a command's bytes, here
within a line, once the homes have served its requests; its entry is DONE and the bytes are counted; one that meets a poisoned unit which it does not
overwrite whole fails with POISON, and a rejected page request fails it. The model's choice: that a COPY counts its bytes read and written (log entry 39) and that the homes serve its requests first (log entry 86). -/
def Claims.FirmwareLadleMoves : Prop :=
  ∀ (s : State) (seq : Nat) (e : JEntry),
    let starts := fun i => ∃ t, exec i s = .next t ∧ Journals s t seq .started 0 ∧ (t.port e.host).fw = (s.port e.host).fw ++ [seq] ∧ t.mem = s.mem
    (s.starting seq 3 = some e → e.seq = seq → e.host < s.host.ports.length →
      ((e.word 2).toNat % 8 = 0 → starts (.fill seq)) ∧
      ((e.word 2).toNat % 8 ≠ 0 → ∃ t, exec (.fill seq) s = .next t ∧ Journals s t seq .failed 2 ∧ t.mem = s.mem)) ∧
    (s.starting seq 4 = some e → e.seq = seq → e.host < s.host.ports.length → starts (.copy seq)) ∧
    (∀ l n r y z, e.host < s.host.ports.length → (s.port e.host).fw = seq :: l → s.jentry? seq = some e → (s.port e.host).fwReqs = [] →
      (s.port e.host).fwLine = 0 → s.region? e.region = some r → 0 < n → (∀ k, (s.core k).upd = []) →
      DeviceMemWf s.mem → r.host < s.mem.host.length →
      let a := (e.word 1).toNat
      let dst := if e.kind = 3 then a else (e.word 2).toNat
      let moved := fun (bytes : Nat → Byte) => ∃ t q, exec (.firmwareLadleComplete e.host) s = .next t ∧ Journals s t seq .done 0 ∧
        (t.port e.host).fw = l ∧ t.mem.read r.host z.2.2.2 n = (List.range n).map bytes ∧ t.crews = s.crews ∧
        t.region? e.region = some q ∧ q.ldcnt = r.ldcnt + BitVec.ofNat 64 (if e.kind = 3 then n else 2 * n)
      let whole := fun k => k % 64 = 0 ∧ z.2.2.2 ≤ k ∧ k + 64 ≤ z.2.2.2 + n
      let apart := ∀ k ∈ s.mem.poison, k + 64 ≤ z.2.2.2 ∨ z.2.2.2 + n ≤ k ∨ whole k
      let fails := ∃ t, exec (.firmwareLadleComplete e.host) s = .next t ∧ Journals s t seq .failed 4 ∧ (t.port e.host).fw = l ∧ SameBytes s t
      (s.port e.host).fwRejected = false → dst % 128 + n ≤ 128 → s.engineAccess (.ladle e.host true) r.demand e.region true [(dst, n)] = .ok s [z] →
      z.2.2.2 % 128 + n ≤ 128 → z.1 = dst → z.2.1 = n → s.engineMeets (.firmware e.host) true [z] = none →
      (e.kind = 3 → (e.word 2).toNat = n → (apart → moved fun i => (leBytes 8 (e.word 3).toNat).getD (i % 8) 0) ∧ (¬apart → fails)) ∧
      (e.kind = 4 → (e.word 3).toNat = n → a % 128 + n ≤ 128 → s.engineAccess (.ladle e.host false) r.demand e.region false [(a, n)] = .ok s [y] →
        y.1 = a → y.2.1 = n → s.engineMeets (.firmware e.host) false [y] = none →
        (apart → moved fun i => (s.mem.read r.host y.2.2.2 n).getD i 0) ∧ (¬apart → fails))) ∧
    (∀ l, e.host < s.host.ports.length → (s.port e.host).fw = seq :: l → s.jentry? seq = some e → (s.port e.host).fwRejected = true →
      ∃ t, exec (.firmwareLadleComplete e.host) s = .next t ∧ Journals s t seq .failed 3 ∧ (t.port e.host).fw = l ∧ t.mem = s.mem)

/-- The hosts' registers, queues, signals, journal and firmware moves (R219, R241, R339, R340, R379 to R381, R384 to R387, R392). -/
def Obligations.HostCommands : Prop := Claims.QueuesAccept ∧ Claims.RegistersAreWritten ∧ Claims.SignalsAndJournal ∧ Claims.FirmwareLadleMoves

/-- R345, R346, R382, R386: a CAST whose descriptor breaks no limit is accepted under the next identifier with its words, its constants and its
surface, its entry STARTED, or ACCEPTED while its surface holds a HELD tile or will; one that breaks a limit, or cannot be read, is FAILED BADARG. The model's choice: the code BADARG (log entry 53). -/
def Claims.CastsAreAccepted : Prop :=
  ∀ (s : State) (seq : Nat) (e : JEntry), s.starting seq 1 = some e → (∀ a ∈ s.casts, a.seq ≠ seq) →
    let va := (e.word 1).toNat
    (va % 64 ≠ 0 ∨ s.wordsAt e.region va 16 = none → ∃ t, exec (.cast seq) s = .next t ∧ Journals s t seq .failed 2 ∧ t.casts = s.casts) ∧
    ∀ y desc (a : Cast), va % 64 = 0 → s.wordsAt e.region va 16 = some (y, desc) →
      a = { castId := s.disp.nextCast, host := e.host, region := e.region, seq := seq, descVa := va, desc := desc, consts := Vector.replicate 32 0,
            surf := none, nextCrew := 0, admitted := 0, retired := 0, mcrews := 0, flags := 0, fmask := 0, off := 0, dropped := 0, prodFail := false,
            geomEnded := false, done := false, killed := none, trigged := [], trigLT := 0 } →
      (a.bad (s.ovcOf e.region) = true → ∃ t, exec (.cast seq) s = .next t ∧ Journals s t seq .failed 2 ∧ t.casts = s.casts) ∧
      (a.bad (s.ovcOf e.region) = false → a.deps = [] →
        let const := bitsOf (a.word 10) 47 0
        let surfd := bitsOf (a.word 11) 47 0
        (const ≠ 0 → y.wordsAt e.region const 32 = none → ∃ t, exec (.cast seq) s = .next t ∧ Journals s t seq .failed 2 ∧ t.casts = s.casts) ∧
        ∀ z cs w n, (if const = 0 then (z, cs) = (y, Vector.replicate 32 0)
            else ∃ l, y.wordsAt e.region const 32 = some (z, l) ∧ cs = Vector.ofFn fun i => l.getD i 0) →
          (if surfd = 0 then (w, n) = (z, none) else ∃ m, z.nameSurface e.region surfd = some (w, m) ∧ n = some m) →
          ∃ t, exec (.cast seq) s = .next t ∧ t.casts = s.casts ++ [{ a with consts := cs, surf := n }] ∧ t.disp.nextCast = s.disp.nextCast + 1 ∧
            Journals s t seq (if a.kind = 1 ∧ w.surfaceHeld a.castId n = true then .accepted else .started) 0 ∧
            (∀ k ∈ t.host.journal, k.seq = seq → k.value = BitVec.ofNat 32 a.castId) ∧ t.crews = w.crews ∧ t.mem = w.mem)

/-- R339 to R343, R381: REGION create makes a region under its parent, a field whose OVR bit is set as given and else the parent's; modify sets such
fields and the parent; destroy kills the subtree's casts and takes its regions away; RESET_REGION kills them and zeroes the subtree's counters. The model's choice: the points of log entry 54. -/
def Claims.RegionsAreManaged : Prop :=
  ∀ (s : State) (seq : Nat) (e : JEntry),
    let w := e.block
    let parent := bitsOf (w 0) 63 52
    let fields := fun (r p : Region) => r.priority = (if bitOf (w 0) 36 then bitsOf (w 0) 47 44 else p.priority) ∧
      r.demand = (if bitOf (w 0) 34 then bitOf (w 0) 42 else p.demand) ∧ r.ovc = (if bitOf (w 0) 33 then bitsOf (w 0) 41 37 else p.ovc) ∧
      r.root = (if bitOf (w 0) 32 then bitsOf (w 1) 45 8 * 256 else p.root) ∧
      r.handler = (if bitOf (w 0) 31 then BitVec.ofNat 64 (bitsOf (w 2) 47 0) else p.handler) ∧
      r.ctxb = (if bitOf (w 0) 30 then bitsOf (w 3) 48 32 else p.ctxb)
    (∀ p, s.regionStarting seq 0 = some e → s.region? parent = some p → s.inHost e.host parent = true → blockBad w = false → p.depth < 7 →
      3 ≤ e.target → s.region? e.target = none →
      ∃ t r, exec (.regionCreate seq) s = .next t ∧ t.regions = s.regions ++ [r] ∧ r.num = e.target ∧ r.parent = parent ∧ r.host = p.host ∧
        r.depth = p.depth + 1 ∧ fields r p ∧ r.rootUsed = r.root ∧ r.instcnt = 0 ∧ r.poolcnt = 0 ∧ Journals s t seq .done 0 ∧ t.mem = s.mem ∧
        t.crews = s.crews) ∧
    (s.regionStarting seq 0 = some e → (∃ p, s.region? parent = some p ∧ s.inHost e.host parent = true) → blockBad w = true →
      ∃ t, exec (.regionCreate seq) s = .next t ∧ t.regions = s.regions ∧ Journals s t seq .failed 2) ∧
    (∀ r p, s.regionStarting seq 1 = some e → s.region? e.target = some r → s.region? parent = some p → s.inHost e.host e.target = true →
      3 ≤ e.target → s.inHost e.host parent = true → blockBad w = false → s.inSubtree 8 parent e.target = false →
      (((s.setRegion { (r.given w) with parent := parent }).inheritAll).regions.all fun d => decide (d.depth ≤ 7)) = true →
      ∃ t q, exec (.regionModify seq) s = .next t ∧ t.region? e.target = some q ∧ q.parent = parent ∧ q.rootUsed = r.rootUsed ∧
        (bitOf (w 0) 36 = true → q.priority = bitsOf (w 0) 47 44) ∧ (bitOf (w 0) 34 = true → q.demand = bitOf (w 0) 42) ∧
        (bitOf (w 0) 32 = true → q.root = bitsOf (w 1) 45 8 * 256) ∧ (bitOf (w 0) 31 = true → q.handler = BitVec.ofNat 64 (bitsOf (w 2) 47 0)) ∧
        q.instcnt = r.instcnt ∧ Journals s t seq .done 0 ∧ t.mem = s.mem ∧ t.crews = s.crews) ∧
    (s.regionStarting seq 2 = some e → 3 ≤ e.target → s.inHost e.host e.target = true → (s.casts.map (·.castId)).Nodup →
      ∃ t, exec (.regionDestroy seq) s = .next t ∧ (∀ r ∈ t.regions, s.inSubtree 8 r.num e.target = false) ∧
        ∀ a ∈ s.casts, s.inSubtree 8 a.region e.target = true → ∃ b, t.cast? a.castId = some b ∧ b.done = true) ∧
    (s.starting seq 8 = some e → s.inHost e.host (e.word 1).toNat = true → (s.casts.map (·.castId)).Nodup →
      ∃ t, exec (.resetRegion seq) s = .next t ∧
        (∀ r ∈ t.regions, s.inSubtree 8 r.num (e.word 1).toNat = true → r.instcnt = 0 ∧ r.poolcnt = 0 ∧ r.mxcnt = 0 ∧ r.ldcnt = 0 ∧
          r.fcnt = List.replicate 8 0) ∧
        ∀ a ∈ s.casts, s.inSubtree 8 a.region (e.word 1).toNat = true → ∃ b, t.cast? a.castId = some b ∧ b.done = true)

/-- Casts are accepted or refused; regions are created, changed, reset and destroyed (R339 to R343, R345, R346, R381, R382, R386). -/
def Obligations.CastsAndRegions : Prop := Claims.CastsAreAccepted ∧ Claims.RegionsAreManaged

/-! ## Bring-up, links, vertical buses (R364, R365, R388, R389, R392) -/

/-- R388, R389, R392: bring-up with a verified image leaves the blob's regions 0 to 2, an empty journal and no crews, and one that fails leaves the
mailbox waiting; a failed link takes the window away and its lines with it, the last one back gives it again; an invalidation drops a line. The model's choice: that the blob's contents come with the event (log entry 65) and memory starts empty (log entry 55). -/
def Claims.BringUpAndLinks : Prop :=
  ∀ (s : State),
    (∀ blob, ∃ t, exec (.deviceReset true blob) s = .next t ∧ t.host.bring = .ready ∧ t.regions = rootRegions blob ∧ t.host.blob = blob ∧
      t.regions.map (·.num) = [0, 1, 2] ∧ t.host.journal = [] ∧ t.host.nextSeq = 1 ∧ t.crews = [] ∧ t.casts = [] ∧ t.vis.surfaces = [] ∧
      t.mem.host = s.mem.host) ∧
    (∀ blob, ∃ t, exec (.deviceReset false blob) s = .next t ∧ t.host.bring = .recovery ∧ t.regions = [] ∧ t.crews = [] ∧
      t.host.blob = blob ∧ ∀ p ∈ t.host.ports, p.mailboxStatus = 1) ∧
    (∀ n, ∃ t, exec (.linkDown n) s = .next t ∧ t.host.windowLost = true ∧ n ∈ t.host.linksDown ∧ t.mem.window = [] ∧ t.mem.gddr = s.mem.gddr ∧
      t.mem.l2 = s.mem.l2 ∧ t.mem.host = s.mem.host ∧ t.crews = s.crews ∧
      ∀ e ∈ t.mem.sharers, ∀ p ∈ e.2, s.host.blob.peerLinks.getD p 0 ≠ n) ∧
    (∀ n, n ∈ s.host.linksDown → ∃ t, exec (.linkRejoin n) s = .next t ∧ n ∉ t.host.linksDown ∧
      (t.host.windowLost = true ↔ ∃ m ∈ s.host.linksDown, m ≠ n) ∧ .rejoined n ∈ t.host.notes ∧ t.mem = s.mem ∧ t.crews = s.crews) ∧
    (∀ n, n ∉ s.host.linksDown → exec (.linkRejoin n) s = .next s) ∧
    (∀ line, s.mem.peerMem.wf = true → ∃ t, exec (.sharerInvalidation line) s = .next t ∧ line ∉ t.mem.window ∧ t.mem.gddr = s.mem.gddr ∧
      t.mem.l2 = s.mem.l2 ∧ t.mem.host = s.mem.host ∧ (∀ a, a < line ∨ line + 128 ≤ a → t.mem.peerMem.get a = s.mem.peerMem.get a) ∧ t.crews = s.crews)

/-- R364, R365: a vertical bus whose corrected errors have not passed the blob's threshold is not retired as planned; one retired so takes nothing any
more, and a context in its bank moves to a live one; once retired it stays so;
by force, the casts with state in the bank are killed with CONTEXT_LOST. The model's choice: that a planned retirement without room waits, and which bus is a bank's (log entry 57). -/
def Claims.BusesRetire : Prop :=
  ∀ (s : State) (bank : Nat),
    let retired := fun t : State => bank ∈ t.disp.retiredBanks ∧ t.freeSlots bank = [] ∧ ∀ e ∈ t.disp.ctxUsed, e.1 ≠ bank
    (s.host.vbusPast bank = false → exec (.vbusPlannedRetire bank) s = .next s) ∧
    (s.host.vbusPast bank = true → (s.crews.map (·.cid)).Nodup → (∀ x ∈ s.disp.contexts, x.bank ≠ bank ∧ x.crew.areaIn bank = false) → (∀ c ∈ s.crews, c.spillBank ≠ bank ∧ c.areaIn bank = false) →
      bank < 128 → .planned bank ∉ s.host.notes → .forced bank ∉ s.host.notes → ∃ t, exec (.vbusPlannedRetire bank) s = .next t ∧ retired t ∧
        (∀ n, t.crew? n = s.crew? n) ∧ t.disp.contexts.map (·.id) = s.disp.contexts.map (·.id) ∧ .planned bank ∈ t.host.notes ∧ t.mem = s.mem) ∧
    (∀ x b, s.disp.contexts = [x] → x.bank = bank → x.crew.areaIn bank = false → s.crews = [] → s.host.vbusPast bank = true →
      (s.closeBank bank).bankFor bank x.slots.length = some b → s.bankAwake bank = true → s.bankAwake b = true → bank < 128 → .planned bank ∉ s.host.notes → .forced bank ∉ s.host.notes →
      ∃ t l, exec (.vbusPlannedRetire bank) s = .next t ∧ retired t ∧ t.disp.contexts = [{ x with bank := b, slots := l }] ∧ l.length = x.slots.length ∧
        b ≠ bank ∧ t.mem = s.mem) ∧
    (.planned bank ∈ s.host.notes → exec (.vbusPlannedRetire bank) s = .next s) ∧
    (∃ t, exec (.vbusForcedRetire bank) s = .next t ∧ retired t ∧ .forced bank ∈ t.host.notes ∧
      ∀ id a, id ∈ s.castsIn bank → s.cast? id = some a → a.done = false → ∃ e, t.cast? id = some e ∧ e.done = true ∧ e.killed = some 20)

/-- Bring-up, links and vertical buses (R364, R365, R388, R389, R392). -/
def Obligations.DeviceUpkeep : Prop := Claims.BringUpAndLinks ∧ Claims.BusesRetire

/-! ## The whole machine -/

/-- What issues once R53 and R54 have settled on a bundle of `w`, whose current sub-bundle has entered its line and which passes R18 and R21: the
instruction that the slot at its PC decodes to, with the bundle named as issuing and the crew constants it names seen; an unassigned OPCODE traps
ILLEGAL_OP, at a pair where the slot is the first of one. No FP_INVALID is due. -/
def Claims.Issued (w : State) (cid bi : Nat) (o : Host.Outcome State Fault Refusal) : Prop :=
  ∀ x d, w.ctx? cid bi 0b11110 = some x → x.b.ready x.c w.coreClock = true → x.b.runnerTrap = none → x.b.fpOwed x.sub = false →
    (x.b.atEntry = true → pcWellFormed x.sub.pc = true ∧ targetBit d (pcSlot x.sub.pc) = true) → x.sub.lineData = some d → lineWordBad d = false →
    let u := { x with b := { x.b with atEntry := false } }.commit
    (∀ i, decode (slotBits d (pcSlot x.sub.pc)) = .ok i → o = exec i { (u.seeConsts cid bi i) with cur := some (cid, bi) }) ∧
    (∀ e, decode (slotBits d (pcSlot x.sub.pc)) = .error e → o = .next (u.takeTrap cid bi 1 86 x.sub.pc (x.sub.rep != 0 || pairSlot d x.sub.pc) x.sub.rep x.sub.cst))

/-- What a step does: with an issue from a partition at the head of the agenda, the bundles that want their line look for it, and it is `exec` of the
instruction that the slot at the PC of the bundle R54 picks decodes to, the partition's pointer moved past the bundle's slot; an issue from a named
slot likewise; an event of the agenda is `exec` of it with no issuing bundle; a tick, or an empty agenda, lets time pass. `t` is the state with the
step counted and the agenda's head taken. A corrected error raises its structure's counter, and a mismatch poisons its 64-byte unit, in memory or in a
crew's scratchpad. The model's choice: the agenda that says what happens next (log entries 1 and 88). -/
def Obligations.StepRunsDecoded : Prop :=
  ∀ (s : State) (rest : List Act), let t := { s with step := s.step + 1, agenda := rest }
    (∀ core part, s.agenda = .issue core part :: rest →
      let w := t.beginFetches core part
      ((∀ c ∈ s.crews, c.core = core → ∀ b ∈ c.bundles, b.slot / 8 = part → b.ready c s.coreClock = true → b.fetched = true) → w = t) ∧
      (∀ slot since cid bi, w.pick core part = some (slot, since, cid, bi) → Claims.Issued (w.rotated core slot) cid bi (step s)) ∧
      (w.pick core part = none → step s = .next w)) ∧
    (∀ core slot, s.agenda = .issueSlot core slot :: rest →
      let w := t.beginFetches core (slot / 8)
      ∀ q since cid bi, (w.candidates core (slot / 8)).find? (fun c => c.1 == slot) = some (q, since, cid, bi) →
        Claims.Issued (w.rotated core slot) cid bi (step s)) ∧
    (∀ i, s.agenda = .event i :: rest → opcodeOf i = none → step s = exec i { t with cur := none }) ∧
    (∀ n, s.agenda = .corrected n :: rest → n < errorCounters → ∃ w, step s = .next w ∧ w.host.errors.getD n 0 = s.host.errors.getD n 0 + 1 ∧
      (∀ m, m ≠ n → w.host.errors.getD m 0 = s.host.errors.getD m 0) ∧ w.crews = s.crews ∧ w.mem = s.mem) ∧
    (∀ unit, s.agenda = .mismatch none unit :: rest → ∃ w, step s = .next w ∧ unit / 64 * 64 ∈ w.mem.poison ∧ (∀ u ∈ s.mem.poison, u ∈ w.mem.poison) ∧
      w.mem.gddr = s.mem.gddr ∧ w.mem.l2 = s.mem.l2 ∧ w.crews = s.crews) ∧
    (∀ c area unit, s.agenda = .mismatch (some (c.cid, area)) unit :: rest → s.crew? c.cid = some c → ∃ w d, step s = .next w ∧
      w.crew? c.cid = some d ∧ (area, unit / 64 * 64) ∈ d.poison ∧ (∀ p ∈ c.poison, p ∈ d.poison) ∧ d.bundles = c.bundles ∧ w.mem = s.mem) ∧
    (∀ n, s.agenda = .tick n :: rest → step s = .next (t.pass n)) ∧
    (s.agenda = [] → step s = .next ({ s with step := s.step + 1 }.pass 1))

/-- The OPCODEs of R41. -/
def Claims.assigned (op : Nat) : Bool :=
  [(0x001, 0x013), (0x040, 0x04D), (0x080, 0x09E), (0x100, 0x115), (0x160, 0x169), (0x180, 0x184), (0x1A0, 0x1A7), (0x1C0, 0x1C4), (0x1D0, 0x1D4),
   (0x1E0, 0x1E5), (0x1F0, 0x1F7)].any fun r => decide (r.1 ≤ op) && decide (op ≤ r.2)

/-- Decode and encode agree: every instruction of R41, with every field at every value, has a slot with its OPCODE that decodes to it, alone and as
the first slot of any bytes; an event has none. -/
def Obligations.DecodeEncode : Prop :=
  ∀ i : Instr,
    (∀ op, opcodeOf i = some op → ∃ b, encode i = some b ∧ slotOpcode b = op ∧ Claims.assigned op.toNat = true ∧ decode b = .ok i ∧
      ∀ rest, decodeBytes (leBytes 12 b.toNat ++ rest) = .ok (i, rest)) ∧
    (opcodeOf i = none → encode i = none)

/-- R41: a slot decodes exactly when its OPCODE is in the map, and then encodes back to the same 96 bits; every other slot is refused by name. -/
def Obligations.EncodeDecode : Prop :=
  ∀ b : BitVec 96,
    (Claims.assigned (slotOpcode b).toNat = true → ∃ i, decode b = .ok i ∧ encode i = some b) ∧
    (Claims.assigned (slotOpcode b).toNat = false → decode b = .error (.unassignedOpcode (slotOpcode b)))

/-- R22, R25, R32, R33, R35 to R37: words written out from the manual's field tables decode to the instructions they stand for: the worked encoding of
chapter 2 (`?~p3 ffma.f32 v12, v4.b2, -v5, #0.5 !`), `movi.b32 v7, #0x1234_5678`, `ld.b128.acq.device v8, [s4 + v2*4 - 16]`, `?~p3 bra` four slots
back, a `rep` of 16 repeats, `lcopy.q0 s4` with stamp s8; a slot of zeros is refused. -/
def Obligations.WorkedWords : Prop :=
  decode 0xC080C01005D401A000670000 = .ok (.ffma
    { m := 1, dst := 12, opa := 4, opb := 5, opc := 848, moda := 3, modb := 32, modc := 0, ty := 3, guard := 7, dsub := 0, round := 0, func := 0 }) ∧
  decode 0x1040700000123456781E0000 = .ok (.movi
    { m := 0, dst := 7, opa := 0, opb := 0, imm := 305419896, round := 0, guard := 30, ty := 0, func := 0, rsv := 0 }) ∧
  decode 0x68008A1002FFFFFFF09EC600 = .ok (.ld
    { m := 0, data := 8, base := 644, index := 2, aux := 1023, offset := 4194288, scale := 2, rsvHi := 0, guard := 30, width := 6, order := 1, scope := 4, func := 0, rsvLo := 0 }) ∧
  decode 0x00BFFFFC00FFFFFFFC070000 = .ok (.bra
    { m := 0, reg := 1023, aux := 1023, rsvHi := 0, offset := 4294967292, rsvMid := 0, guard := 7, func := 0, rsvLo := 0 }) ∧
  decode 0x04CF1F2800000000001E0000 = .ok (.rep
    { m := 0, count := 15, dstep := 1, astep := 15, bstep := 2, cstep := 8, rsvHi := 0, guard := 30, rsvLo := 0 }) ∧
  decode 0x74284A23FF000000001E0000 = .ok (.lcopy
    { m := 0, recd := 644, stamp := 648, aux := 1023, queue := 0, rsvHi := 0, guard := 30, func := 0, rsvLo := 0 }) ∧
  decode 0 = .error (.unassignedOpcode 0)

/-- The memories outside the cores (device memory, the peers' lines, the hosts' memory, the L2 lines) stay in their canonical form. The model's choice: the canonical form (log entry 2). -/
def Obligations.DeviceMemoryStaysCanonical : Prop :=
  ∀ s t : State, DeviceMemWf s.mem → step s = .next t → DeviceMemWf t.mem

/-- The memories of the cores (scratch, weight buffers, accumulator tiles, codebook tables, those of saved contexts) stay in their canonical form. The model's choice: the canonical form (log entry 2). -/
def Obligations.CoreMemoryStaysCanonical : Prop :=
  ∀ s t : State, CoreMemWf s → step s = .next t → CoreMemWf t

/-- The device right after reset: bring-up has not begun, no region, cast, crew or journal entry exists, every core has no crew's state, every queue
register reads 0, the fault rings' phase is 1 and SEQ starts at 1; memory lists nothing and is in canonical form. The model's choice: that memory reads 0 (log entry 2) and the values that the manual does not give (log entry 3). -/
def Obligations.ResetState : Prop :=
  let s := State.reset
  s.crews = [] ∧ s.casts = [] ∧ s.regions = [] ∧ s.host.journal = [] ∧ s.host.nextSeq = 1 ∧ s.host.bring = .off ∧ s.vis.surfaces = [] ∧
  (∀ n, n < 128 → s.core n = CoreSt.init) ∧ s.cores.length = 128 ∧
  (∀ p q, p < 2 → q < 64 → let c := (s.port p).queue q
    c.base = 0 ∧ c.size = 0 ∧ c.head = 0 ∧ c.tail = 0 ∧ c.enable = false ∧ c.error = false) ∧
  (∀ p, p < 2 → (s.port p).faultBase = 0 ∧ (s.port p).faultNext = 0 ∧ (s.port p).faultPhase = true) ∧
  (∀ h a, s.mem.read h a 1 = [0]) ∧ DeviceMemWf s.mem ∧ CoreMemWf s ∧ (∃ t, step s = .next t ∧ t = { s with time := 1, step := 1 })

/-- Memory holds what is written: bytes written at a physical address read back, and every other byte of the device, of the peers' lines and of the
hosts reads as before; two memories in canonical form that read alike are equal. The model's choice: where a line of the coherent window lies (log entry 8). -/
def Obligations.MemoryReadsBack : Prop :=
  (∀ (m : MemSys) (h a : Nat) (bs : List Byte), DeviceMemWf m → isHost a = false → (m.place a + bs.length ≤ sharedMark ∨ sharedMark ≤ m.place a) →
    (∀ i, i < bs.length → (m.write h a bs).byte (m.place a + i) = bs.getD i 0) ∧
    (∀ b, (b < m.place a ∨ m.place a + bs.length ≤ b) → (m.write h a bs).byte b = m.byte b) ∧ (m.write h a bs).host = m.host) ∧
  (∀ (m : MemSys) (h a : Nat) (bs : List Byte), DeviceMemWf m → isHost a = true → h < m.host.length →
    (m.write h a bs).read h a bs.length = bs ∧ (∀ b, (m.write h a bs).byte b = m.byte b) ∧
    (∀ g b, b < 2 ^ 45 → (g ≠ h ∨ b < a % 2 ^ 45 ∨ a % 2 ^ 45 + bs.length ≤ b) →
      ((m.write h a bs).host.getD g []).get b = (m.host.getD g []).get b)) ∧
  (∀ m n : Mem, m.wf = true → n.wf = true → (∀ a, m.get a = n.get a) → m = n)

/-- Every state has a next one: no instruction, operand or ordinary data ends a run. -/
def Obligations.StepGoesOn : Prop := ∀ s : State, Goes s
end

