-- ==== Sys2Proof/Laws/Agents.lean ====
section
/-! SUPPORT. What the shared operations of the agents at the homes can do: recalls, requests to the homes, accesses of the copy queues. -/

namespace Sys2Proof.Machine

/-- While no core holds an update-only line of a line, nothing is recalled (R241). -/
theorem State.recall_of_holders {s : State} {line : Nat} (h : s.holders line = []) : s.recall line = s := by
  simp [State.recall, h]

/-- No core holds an update-only line of any line. -/
theorem State.holders_of_noUpd {s : State} (h : s.cores.all (fun k => k.upd.isEmpty) = true) (line : Nat) : s.holders line = [] := by
  simp only [State.holders, h, if_true]

theorem State.recall_of_noUpd {s : State} (h : s.cores.all (fun k => k.upd.isEmpty) = true) (line : Nat) : s.recall line = s :=
  State.recall_of_holders (State.holders_of_noUpd h line)

/-- A read at the home then only finds its line (R295). -/
theorem State.openLine_of_noUpd {s : State} (h : s.cores.all (fun k => k.upd.isEmpty) = true) (line cache : Nat) :
    s.openLine line cache = s.touchLine line cache := by
  rw [State.openLine, State.recall_of_noUpd h]

theorem State.recallTables_of_noUpd {s : State} (h : s.cores.all (fun k => k.upd.isEmpty) = true) (host root : Nat) (vas : List Nat) :
    s.recallTables host root vas = s := by
  have walk : ∀ l : List Nat, l.foldl (fun s a => s.recall (lineOf (s.mem.place a))) s = s := fun l => by
    induction l with
    | nil => rfl
    | cons a l ih => rw [List.foldl_cons, State.recall_of_noUpd h, ih]
  induction vas with
  | nil => rfl
  | cons va vas ih =>
    simp only [State.recallTables, List.foldl_cons] at ih ⊢
    rw [walk, ih]

/-- An access that goes through has changed nothing but what its recalls did (R241, R295). -/
theorem State.engineAccess_ok {s t : State} {a : Agent} {demand write : Bool} {region : Nat} {l : List (Nat × Nat)} {z : List (Nat × Nat × DWord × Nat)}
    (h : s.engineAccess a demand region write l = .ok t z) :
    t = s.recallTables (s.rootHost region).2 (s.rootHost region).1 (l.map (·.1)) := by
  simp only [State.engineAccess] at h
  split at h
  · cases h
  · split at h
    · split at h
      · cases h
      · split at h
        · cases h; rfl
        · cases h
    · split at h <;> cases h

/-- With no update-only line about, it has changed nothing. -/
theorem State.engineAccess_ok_same {s t : State} {a : Agent} {demand write : Bool} {region : Nat} {l : List (Nat × Nat)}
    {z : List (Nat × Nat × DWord × Nat)} (h : s.engineAccess a demand region write l = .ok t z) (none : s.cores.all (fun k => k.upd.isEmpty) = true) : t = s := by
  rw [State.engineAccess_ok h, State.recallTables_of_noUpd none]

/-- An agent that has acted has no request left. -/
theorem MemSys.leave_requests (m : MemSys) (a : Agent) : ∀ q ∈ (m.leave a).requests, q.agent ≠ some a := by
  intro q hq
  simpa [MemSys.leave] using (List.mem_filter.mp hq).2

/-- Other requests stand. -/
theorem MemSys.mem_leave {m : MemSys} {a : Agent} {q : Request} (hq : q ∈ m.requests) (h : q.agent ≠ some a) : q ∈ (m.leave a).requests :=
  List.mem_filter.mpr ⟨hq, by simpa using h⟩

end Sys2Proof.Machine
end

