-- ==== Sys2Proof/Laws/State.lean ====
section
/-! SUPPORT. One lemma per field per update, true by rfl: the updates of the state, of a crew and of a bundle that the operations use. -/

namespace Sys2Proof.Laws

open Machine

/-! ## Updates of the state -/

@[simp] theorem setCrew_time (s : State) (c : Crew) : (s.setCrew c).time = s.time := rfl
@[simp] theorem setCrew_cores (s : State) (c : Crew) : (s.setCrew c).cores = s.cores := rfl
@[simp] theorem setCrew_mem (s : State) (c : Crew) : (s.setCrew c).mem = s.mem := rfl
@[simp] theorem setCrew_vis (s : State) (c : Crew) : (s.setCrew c).vis = s.vis := rfl
@[simp] theorem setCrew_regions (s : State) (c : Crew) : (s.setCrew c).regions = s.regions := rfl
@[simp] theorem setCrew_casts (s : State) (c : Crew) : (s.setCrew c).casts = s.casts := rfl
@[simp] theorem setCrew_disp (s : State) (c : Crew) : (s.setCrew c).disp = s.disp := rfl
@[simp] theorem setCrew_host (s : State) (c : Crew) : (s.setCrew c).host = s.host := rfl
@[simp] theorem setCrew_agenda (s : State) (c : Crew) : (s.setCrew c).agenda = s.agenda := rfl
@[simp] theorem setCrew_step (s : State) (c : Crew) : (s.setCrew c).step = s.step := rfl
@[simp] theorem setCrew_cur (s : State) (c : Crew) : (s.setCrew c).cur = s.cur := rfl
@[simp] theorem setCore_time (s : State) (n : Nat) (k : CoreSt) : (s.setCore n k).time = s.time := rfl
@[simp] theorem setCore_crews (s : State) (n : Nat) (k : CoreSt) : (s.setCore n k).crews = s.crews := rfl
@[simp] theorem setCore_mem (s : State) (n : Nat) (k : CoreSt) : (s.setCore n k).mem = s.mem := rfl
@[simp] theorem setCore_vis (s : State) (n : Nat) (k : CoreSt) : (s.setCore n k).vis = s.vis := rfl
@[simp] theorem setCore_regions (s : State) (n : Nat) (k : CoreSt) : (s.setCore n k).regions = s.regions := rfl
@[simp] theorem setCore_casts (s : State) (n : Nat) (k : CoreSt) : (s.setCore n k).casts = s.casts := rfl
@[simp] theorem setCore_disp (s : State) (n : Nat) (k : CoreSt) : (s.setCore n k).disp = s.disp := rfl
@[simp] theorem setCore_host (s : State) (n : Nat) (k : CoreSt) : (s.setCore n k).host = s.host := rfl
@[simp] theorem setCore_agenda (s : State) (n : Nat) (k : CoreSt) : (s.setCore n k).agenda = s.agenda := rfl
@[simp] theorem setCore_step (s : State) (n : Nat) (k : CoreSt) : (s.setCore n k).step = s.step := rfl
@[simp] theorem setCore_cur (s : State) (n : Nat) (k : CoreSt) : (s.setCore n k).cur = s.cur := rfl
@[simp] theorem setCast_time (s : State) (a : Cast) : (s.setCast a).time = s.time := rfl
@[simp] theorem setCast_crews (s : State) (a : Cast) : (s.setCast a).crews = s.crews := rfl
@[simp] theorem setCast_cores (s : State) (a : Cast) : (s.setCast a).cores = s.cores := rfl
@[simp] theorem setCast_mem (s : State) (a : Cast) : (s.setCast a).mem = s.mem := rfl
@[simp] theorem setCast_vis (s : State) (a : Cast) : (s.setCast a).vis = s.vis := rfl
@[simp] theorem setCast_regions (s : State) (a : Cast) : (s.setCast a).regions = s.regions := rfl
@[simp] theorem setCast_disp (s : State) (a : Cast) : (s.setCast a).disp = s.disp := rfl
@[simp] theorem setCast_host (s : State) (a : Cast) : (s.setCast a).host = s.host := rfl
@[simp] theorem setCast_agenda (s : State) (a : Cast) : (s.setCast a).agenda = s.agenda := rfl
@[simp] theorem setCast_step (s : State) (a : Cast) : (s.setCast a).step = s.step := rfl
@[simp] theorem setCast_cur (s : State) (a : Cast) : (s.setCast a).cur = s.cur := rfl
@[simp] theorem setRegion_time (s : State) (r : Region) : (s.setRegion r).time = s.time := rfl
@[simp] theorem setRegion_crews (s : State) (r : Region) : (s.setRegion r).crews = s.crews := rfl
@[simp] theorem setRegion_cores (s : State) (r : Region) : (s.setRegion r).cores = s.cores := rfl
@[simp] theorem setRegion_mem (s : State) (r : Region) : (s.setRegion r).mem = s.mem := rfl
@[simp] theorem setRegion_vis (s : State) (r : Region) : (s.setRegion r).vis = s.vis := rfl
@[simp] theorem setRegion_casts (s : State) (r : Region) : (s.setRegion r).casts = s.casts := rfl
@[simp] theorem setRegion_disp (s : State) (r : Region) : (s.setRegion r).disp = s.disp := rfl
@[simp] theorem setRegion_host (s : State) (r : Region) : (s.setRegion r).host = s.host := rfl
@[simp] theorem setRegion_agenda (s : State) (r : Region) : (s.setRegion r).agenda = s.agenda := rfl
@[simp] theorem setRegion_step (s : State) (r : Region) : (s.setRegion r).step = s.step := rfl
@[simp] theorem setRegion_cur (s : State) (r : Region) : (s.setRegion r).cur = s.cur := rfl
@[simp] theorem setBundle_time (s : State) (c : Crew) (b : Bundle) : (s.setBundle c b).time = s.time := rfl
@[simp] theorem setBundle_cores (s : State) (c : Crew) (b : Bundle) : (s.setBundle c b).cores = s.cores := rfl
@[simp] theorem setBundle_mem (s : State) (c : Crew) (b : Bundle) : (s.setBundle c b).mem = s.mem := rfl
@[simp] theorem setBundle_vis (s : State) (c : Crew) (b : Bundle) : (s.setBundle c b).vis = s.vis := rfl
@[simp] theorem setBundle_regions (s : State) (c : Crew) (b : Bundle) : (s.setBundle c b).regions = s.regions := rfl
@[simp] theorem setBundle_casts (s : State) (c : Crew) (b : Bundle) : (s.setBundle c b).casts = s.casts := rfl
@[simp] theorem setBundle_disp (s : State) (c : Crew) (b : Bundle) : (s.setBundle c b).disp = s.disp := rfl
@[simp] theorem setBundle_host (s : State) (c : Crew) (b : Bundle) : (s.setBundle c b).host = s.host := rfl
@[simp] theorem setBundle_agenda (s : State) (c : Crew) (b : Bundle) : (s.setBundle c b).agenda = s.agenda := rfl
@[simp] theorem setBundle_step (s : State) (c : Crew) (b : Bundle) : (s.setBundle c b).step = s.step := rfl
@[simp] theorem setBundle_cur (s : State) (c : Crew) (b : Bundle) : (s.setBundle c b).cur = s.cur := rfl
@[simp] theorem setSurface_time (s : State) (n : Nat) (f : Surface) : (s.setSurface n f).time = s.time := rfl
@[simp] theorem setSurface_crews (s : State) (n : Nat) (f : Surface) : (s.setSurface n f).crews = s.crews := rfl
@[simp] theorem setSurface_cores (s : State) (n : Nat) (f : Surface) : (s.setSurface n f).cores = s.cores := rfl
@[simp] theorem setSurface_mem (s : State) (n : Nat) (f : Surface) : (s.setSurface n f).mem = s.mem := rfl
@[simp] theorem setSurface_regions (s : State) (n : Nat) (f : Surface) : (s.setSurface n f).regions = s.regions := rfl
@[simp] theorem setSurface_casts (s : State) (n : Nat) (f : Surface) : (s.setSurface n f).casts = s.casts := rfl
@[simp] theorem setSurface_disp (s : State) (n : Nat) (f : Surface) : (s.setSurface n f).disp = s.disp := rfl
@[simp] theorem setSurface_host (s : State) (n : Nat) (f : Surface) : (s.setSurface n f).host = s.host := rfl
@[simp] theorem setSurface_agenda (s : State) (n : Nat) (f : Surface) : (s.setSurface n f).agenda = s.agenda := rfl
@[simp] theorem setSurface_step (s : State) (n : Nat) (f : Surface) : (s.setSurface n f).step = s.step := rfl
@[simp] theorem setSurface_cur (s : State) (n : Nat) (f : Surface) : (s.setSurface n f).cur = s.cur := rfl
@[simp] theorem commit_time (x : Ctx) : x.commit.time = x.s.time := rfl
@[simp] theorem commit_cores (x : Ctx) : x.commit.cores = x.s.cores := rfl
@[simp] theorem commit_mem (x : Ctx) : x.commit.mem = x.s.mem := rfl
@[simp] theorem commit_vis (x : Ctx) : x.commit.vis = x.s.vis := rfl
@[simp] theorem commit_regions (x : Ctx) : x.commit.regions = x.s.regions := rfl
@[simp] theorem commit_casts (x : Ctx) : x.commit.casts = x.s.casts := rfl
@[simp] theorem commit_disp (x : Ctx) : x.commit.disp = x.s.disp := rfl
@[simp] theorem commit_host (x : Ctx) : x.commit.host = x.s.host := rfl
@[simp] theorem commit_agenda (x : Ctx) : x.commit.agenda = x.s.agenda := rfl
@[simp] theorem commit_step (x : Ctx) : x.commit.step = x.s.step := rfl
@[simp] theorem commit_cur (x : Ctx) : x.commit.cur = x.s.cur := rfl

/-! ## Traffic, replies and wakes -/

@[simp] theorem bankTraffic_time (s : State) (n : Nat) : (s.bankTraffic n).time = s.time := rfl
@[simp] theorem wake_time (s : State) (l : List Nat) : (s.wake l).time = s.time := rfl
@[simp] theorem bankTraffic_crews (s : State) (n : Nat) : (s.bankTraffic n).crews = s.crews := rfl
@[simp] theorem wake_crews (s : State) (l : List Nat) : (s.wake l).crews = s.crews := rfl
@[simp] theorem bankTraffic_cores (s : State) (n : Nat) : (s.bankTraffic n).cores = s.cores := rfl
@[simp] theorem wake_cores (s : State) (l : List Nat) : (s.wake l).cores = s.cores := rfl
@[simp] theorem bankTraffic_mem (s : State) (n : Nat) : (s.bankTraffic n).mem = s.mem := rfl
@[simp] theorem wake_mem (s : State) (l : List Nat) : (s.wake l).mem = s.mem := rfl
@[simp] theorem bankTraffic_vis (s : State) (n : Nat) : (s.bankTraffic n).vis = s.vis := rfl
@[simp] theorem wake_vis (s : State) (l : List Nat) : (s.wake l).vis = s.vis := rfl
@[simp] theorem bankTraffic_regions (s : State) (n : Nat) : (s.bankTraffic n).regions = s.regions := rfl
@[simp] theorem wake_regions (s : State) (l : List Nat) : (s.wake l).regions = s.regions := rfl
@[simp] theorem bankTraffic_casts (s : State) (n : Nat) : (s.bankTraffic n).casts = s.casts := rfl
@[simp] theorem wake_casts (s : State) (l : List Nat) : (s.wake l).casts = s.casts := rfl
@[simp] theorem bankTraffic_host (s : State) (n : Nat) : (s.bankTraffic n).host = s.host := rfl
@[simp] theorem wake_host (s : State) (l : List Nat) : (s.wake l).host = s.host := rfl
@[simp] theorem bankTraffic_agenda (s : State) (n : Nat) : (s.bankTraffic n).agenda = s.agenda := rfl
@[simp] theorem wake_agenda (s : State) (l : List Nat) : (s.wake l).agenda = s.agenda := rfl
@[simp] theorem bankTraffic_step (s : State) (n : Nat) : (s.bankTraffic n).step = s.step := rfl
@[simp] theorem wake_step (s : State) (l : List Nat) : (s.wake l).step = s.step := rfl
@[simp] theorem bankTraffic_cur (s : State) (n : Nat) : (s.bankTraffic n).cur = s.cur := rfl
@[simp] theorem wake_cur (s : State) (l : List Nat) : (s.wake l).cur = s.cur := rfl
@[simp] theorem reply_time (s : State) (r : Nat) (k : ReplyKind) : (s.reply r k).time = s.time := rfl
@[simp] theorem reply_crews (s : State) (r : Nat) (k : ReplyKind) : (s.reply r k).crews = s.crews := rfl
@[simp] theorem reply_cores (s : State) (r : Nat) (k : ReplyKind) : (s.reply r k).cores = s.cores := rfl
@[simp] theorem reply_vis (s : State) (r : Nat) (k : ReplyKind) : (s.reply r k).vis = s.vis := rfl
@[simp] theorem reply_regions (s : State) (r : Nat) (k : ReplyKind) : (s.reply r k).regions = s.regions := rfl
@[simp] theorem reply_casts (s : State) (r : Nat) (k : ReplyKind) : (s.reply r k).casts = s.casts := rfl
@[simp] theorem reply_disp (s : State) (r : Nat) (k : ReplyKind) : (s.reply r k).disp = s.disp := rfl
@[simp] theorem reply_host (s : State) (r : Nat) (k : ReplyKind) : (s.reply r k).host = s.host := rfl
@[simp] theorem reply_agenda (s : State) (r : Nat) (k : ReplyKind) : (s.reply r k).agenda = s.agenda := rfl
@[simp] theorem reply_step (s : State) (r : Nat) (k : ReplyKind) : (s.reply r k).step = s.step := rfl
@[simp] theorem reply_cur (s : State) (r : Nat) (k : ReplyKind) : (s.reply r k).cur = s.cur := rfl
@[simp] theorem reply_mem_gddr (s : State) (r : Nat) (k : ReplyKind) : (s.reply r k).mem.gddr = s.mem.gddr := rfl
@[simp] theorem reply_mem_poison (s : State) (r : Nat) (k : ReplyKind) : (s.reply r k).mem.poison = s.mem.poison := rfl
@[simp] theorem reply_mem_l2 (s : State) (r : Nat) (k : ReplyKind) : (s.reply r k).mem.l2 = s.mem.l2 := rfl
@[simp] theorem reply_mem_times (s : State) (r : Nat) (k : ReplyKind) : (s.reply r k).mem.times = s.mem.times := rfl
@[simp] theorem reply_mem_lists (s : State) (r : Nat) (k : ReplyKind) : (s.reply r k).mem.lists = s.mem.lists := rfl
@[simp] theorem reply_mem_reserves (s : State) (r : Nat) (k : ReplyKind) : (s.reply r k).mem.reserves = s.mem.reserves := rfl
@[simp] theorem reply_mem_requests (s : State) (r : Nat) (k : ReplyKind) : (s.reply r k).mem.requests = s.mem.requests := rfl
@[simp] theorem reply_mem_tlb (s : State) (r : Nat) (k : ReplyKind) : (s.reply r k).mem.tlb = s.mem.tlb := rfl
@[simp] theorem reply_mem_tlb2 (s : State) (r : Nat) (k : ReplyKind) : (s.reply r k).mem.tlb2 = s.mem.tlb2 := rfl
@[simp] theorem reply_mem_walks (s : State) (r : Nat) (k : ReplyKind) : (s.reply r k).mem.walks = s.mem.walks := rfl
@[simp] theorem reply_mem_pageReqs (s : State) (r : Nat) (k : ReplyKind) : (s.reply r k).mem.pageReqs = s.mem.pageReqs := rfl
@[simp] theorem reply_mem_host (s : State) (r : Nat) (k : ReplyKind) : (s.reply r k).mem.host = s.mem.host := rfl
@[simp] theorem reply_mem_window (s : State) (r : Nat) (k : ReplyKind) : (s.reply r k).mem.window = s.mem.window := rfl
@[simp] theorem reply_mem_peerMem (s : State) (r : Nat) (k : ReplyKind) : (s.reply r k).mem.peerMem = s.mem.peerMem := rfl
@[simp] theorem reply_mem_noon (s : State) (r : Nat) (k : ReplyKind) : (s.reply r k).mem.noon = s.mem.noon := rfl

/-! ## Updates of a bundle and of a crew -/

@[simp] theorem setCurrent_index (b : Bundle) (x : SubB) : (b.setCurrent x).index = b.index := rfl
@[simp] theorem setCurrent_slot (b : Bundle) (x : SubB) : (b.setCurrent x).slot = b.slot := rfl
@[simp] theorem setCurrent_stage (b : Bundle) (x : SubB) : (b.setCurrent x).stage = b.stage := rfl
@[simp] theorem setCurrent_v (b : Bundle) (x : SubB) : (b.setCurrent x).v = b.v := rfl
@[simp] theorem setCurrent_s (b : Bundle) (x : SubB) : (b.setCurrent x).s = b.s := rfl
@[simp] theorem setCurrent_p (b : Bundle) (x : SubB) : (b.setCurrent x).p = b.p := rfl
@[simp] theorem setCurrent_k (b : Bundle) (x : SubB) : (b.setCurrent x).k = b.k := rfl
@[simp] theorem setCurrent_present (b : Bundle) (x : SubB) : (b.setCurrent x).present = b.present := rfl
@[simp] theorem setCurrent_exited (b : Bundle) (x : SubB) : (b.setCurrent x).exited = b.exited := rfl
@[simp] theorem setCurrent_strands (b : Bundle) (x : SubB) : (b.setCurrent x).strands = b.strands := rfl
@[simp] theorem setCurrent_fmask (b : Bundle) (x : SubB) : (b.setCurrent x).fmask = b.fmask := rfl
@[simp] theorem setCurrent_helper (b : Bundle) (x : SubB) : (b.setCurrent x).helper = b.helper := rfl
@[simp] theorem setCurrent_flags (b : Bundle) (x : SubB) : (b.setCurrent x).flags = b.flags := rfl
@[simp] theorem setCurrent_hintDrop (b : Bundle) (x : SubB) : (b.setCurrent x).hintDrop = b.hintDrop := rfl
@[simp] theorem setCurrent_pixel (b : Bundle) (x : SubB) : (b.setCurrent x).pixel = b.pixel := rfl
@[simp] theorem setCurrent_material (b : Bundle) (x : SubB) : (b.setCurrent x).material = b.material := rfl
@[simp] theorem setCurrent_hitid (b : Bundle) (x : SubB) : (b.setCurrent x).hitid = b.hitid := rfl
@[simp] theorem setCurrent_drawn (b : Bundle) (x : SubB) : (b.setCurrent x).drawn = b.drawn := rfl
@[simp] theorem setCurrent_pend (b : Bundle) (x : SubB) : (b.setCurrent x).pend = b.pend := rfl
@[simp] theorem setCurrent_nextPend (b : Bundle) (x : SubB) : (b.setCurrent x).nextPend = b.nextPend := rfl
@[simp] theorem setCurrent_trap (b : Bundle) (x : SubB) : (b.setCurrent x).trap = b.trap := rfl
@[simp] theorem setCurrent_area (b : Bundle) (x : SubB) : (b.setCurrent x).area = b.area := rfl
@[simp] theorem setCurrent_repCount (b : Bundle) (x : SubB) : (b.setCurrent x).repCount = b.repCount := rfl
@[simp] theorem setCurrent_cstDone (b : Bundle) (x : SubB) : (b.setCurrent x).cstDone = b.cstDone := rfl
@[simp] theorem setCurrent_prim (b : Bundle) (x : SubB) : (b.setCurrent x).prim = b.prim := rfl
@[simp] theorem setCurrent_primTicket (b : Bundle) (x : SubB) : (b.setCurrent x).primTicket = b.primTicket := rfl
@[simp] theorem setCurrent_owed (b : Bundle) (x : SubB) : (b.setCurrent x).owed = b.owed := rfl
@[simp] theorem setCurrent_spans (b : Bundle) (x : SubB) : (b.setCurrent x).spans = b.spans := rfl
@[simp] theorem setCurrent_seen (b : Bundle) (x : SubB) : (b.setCurrent x).seen = b.seen := rfl
@[simp] theorem setCurrent_seenAt (b : Bundle) (x : SubB) : (b.setCurrent x).seenAt = b.seenAt := rfl
@[simp] theorem setCurrent_fpDue (b : Bundle) (x : SubB) : (b.setCurrent x).fpDue = b.fpDue := rfl
@[simp] theorem setCurrent_halted (b : Bundle) (x : SubB) : (b.setCurrent x).halted = b.halted := rfl
@[simp] theorem setCurrent_runnerTrap (b : Bundle) (x : SubB) : (b.setCurrent x).runnerTrap = b.runnerTrap := rfl
@[simp] theorem setCurrent_atEntry (b : Bundle) (x : SubB) : (b.setCurrent x).atEntry = b.atEntry := rfl
@[simp] theorem setCurrent_subs (b : Bundle) (x : SubB) : (b.setCurrent x).subs = x :: b.subs.tail := rfl
@[simp] theorem setBundle_cid' (c : Crew) (b : Bundle) : (c.setBundle b).cid = c.cid := rfl
@[simp] theorem setBundle_castId' (c : Crew) (b : Bundle) : (c.setBundle b).castId = c.castId := rfl
@[simp] theorem setBundle_region' (c : Crew) (b : Bundle) : (c.setBundle b).region = c.region := rfl
@[simp] theorem setBundle_core' (c : Crew) (b : Bundle) : (c.setBundle b).core = c.core := rfl
@[simp] theorem setBundle_adm' (c : Crew) (b : Bundle) : (c.setBundle b).adm = c.adm := rfl
@[simp] theorem setBundle_st' (c : Crew) (b : Bundle) : (c.setBundle b).st = c.st := rfl
@[simp] theorem setBundle_x' (c : Crew) (b : Bundle) : (c.setBundle b).x = c.x := rfl
@[simp] theorem setBundle_y' (c : Crew) (b : Bundle) : (c.setBundle b).y = c.y := rfl
@[simp] theorem setBundle_z' (c : Crew) (b : Bundle) : (c.setBundle b).z = c.z := rfl
@[simp] theorem setBundle_gangId' (c : Crew) (b : Bundle) : (c.setBundle b).gangId = c.gangId := rfl
@[simp] theorem setBundle_gangIdx' (c : Crew) (b : Bundle) : (c.setBundle b).gangIdx = c.gangIdx := rfl
@[simp] theorem setBundle_gangW' (c : Crew) (b : Bundle) : (c.setBundle b).gangW = c.gangW := rfl
@[simp] theorem setBundle_gangH' (c : Crew) (b : Bundle) : (c.setBundle b).gangH = c.gangH := rfl
@[simp] theorem setBundle_launch' (c : Crew) (b : Bundle) : (c.setBundle b).launch = c.launch := rfl
@[simp] theorem setBundle_base' (c : Crew) (b : Bundle) : (c.setBundle b).base = c.base := rfl
@[simp] theorem setBundle_consts' (c : Crew) (b : Bundle) : (c.setBundle b).consts = c.consts := rfl
@[simp] theorem setBundle_constLog' (c : Crew) (b : Bundle) : (c.setBundle b).constLog = c.constLog := rfl
@[simp] theorem setBundle_flagAcc' (c : Crew) (b : Bundle) : (c.setBundle b).flagAcc = c.flagAcc := rfl
@[simp] theorem setBundle_faultAcc' (c : Crew) (b : Bundle) : (c.setBundle b).faultAcc = c.faultAcc := rfl
@[simp] theorem setBundle_off' (c : Crew) (b : Bundle) : (c.setBundle b).off = c.off := rfl
@[simp] theorem setBundle_plain' (c : Crew) (b : Bundle) : (c.setBundle b).plain = c.plain := rfl
@[simp] theorem setBundle_ringMem' (c : Crew) (b : Bundle) : (c.setBundle b).ringMem = c.ringMem := rfl
@[simp] theorem setBundle_live' (c : Crew) (b : Bundle) : (c.setBundle b).live = c.live := rfl
@[simp] theorem setBundle_shadow' (c : Crew) (b : Bundle) : (c.setBundle b).shadow = c.shadow := rfl
@[simp] theorem setBundle_regGranules' (c : Crew) (b : Bundle) : (c.setBundle b).regGranules = c.regGranules := rfl
@[simp] theorem setBundle_ovc' (c : Crew) (b : Bundle) : (c.setBundle b).ovc = c.ovc := rfl
@[simp] theorem setBundle_priority' (c : Crew) (b : Bundle) : (c.setBundle b).priority = c.priority := rfl
@[simp] theorem setBundle_demand' (c : Crew) (b : Bundle) : (c.setBundle b).demand = c.demand := rfl
@[simp] theorem setBundle_startWin' (c : Crew) (b : Bundle) : (c.setBundle b).startWin = c.startWin := rfl
@[simp] theorem setBundle_rings' (c : Crew) (b : Bundle) : (c.setBundle b).rings = c.rings := rfl
@[simp] theorem setBundle_tiles' (c : Crew) (b : Bundle) : (c.setBundle b).tiles = c.tiles := rfl
@[simp] theorem setBundle_spillSlots' (c : Crew) (b : Bundle) : (c.setBundle b).spillSlots = c.spillSlots := rfl
@[simp] theorem setBundle_inst' (c : Crew) (b : Bundle) : (c.setBundle b).inst = c.inst := rfl
@[simp] theorem setBundle_faults' (c : Crew) (b : Bundle) : (c.setBundle b).faults = c.faults := rfl
@[simp] theorem setBundle_records' (c : Crew) (b : Bundle) : (c.setBundle b).records = c.records := rfl

end Sys2Proof.Laws
end

