-- ==== Sys2Proof/Laws/Lookup.lean ====
section
/-! SUPPORT. Looking up what an update put there: crews, bundles and the issuing context. -/

namespace Sys2Proof.Laws

open Machine

/-! ## Lists replaced by key -/

theorem find_replace {α : Type} (key : α → Nat) (l : List α) (k : Nat) (a : α) (h : key a = k) :
    ((l.map fun d => if key d == k then a else d).find? fun d => key d == k) = (l.find? fun d => key d == k).map fun _ => a := by
  induction l with
  | nil => rfl
  | cons d t ih =>
    rw [List.map_cons, List.find?_cons, List.find?_cons, ih]
    cases hd : key d == k
    · simp [hd]
    · simp [h]

theorem find_replace_other {α : Type} (key : α → Nat) (l : List α) (k j : Nat) (a : α) (h : key a = k) (hj : j ≠ k) :
    ((l.map fun d => if key d == k then a else d).find? fun d => key d == j) = l.find? fun d => key d == j := by
  induction l with
  | nil => rfl
  | cons d t ih =>
    rw [List.map_cons, List.find?_cons, List.find?_cons, ih]
    have hk : (key a == j) = false := by simp [h, Ne.symm hj]
    cases hd : key d == k
    · simp
    · have hd' : (key d == j) = false := by
        have : key d = k := by simpa using hd
        simp [this, Ne.symm hj]
      simp [hk, hd']

/-! ## Crews and bundles -/

theorem crew?_cid {s : State} {cid : Nat} {c : Crew} (h : s.crew? cid = some c) : c.cid = cid := by
  have := List.find?_some h
  simpa using this

theorem bundle?_index {c : Crew} {i : Nat} {b : Bundle} (h : c.bundle? i = some b) : b.index = i := by
  have := List.find?_some h
  simpa using this

@[simp] theorem crew?_setCrew (s : State) (c : Crew) : (s.setCrew c).crew? c.cid = (s.crew? c.cid).map fun _ => c :=
  find_replace Crew.cid s.crews c.cid c rfl

theorem crew?_setCrew_other (s : State) (c : Crew) (j : Nat) (h : j ≠ c.cid) : (s.setCrew c).crew? j = s.crew? j :=
  find_replace_other Crew.cid s.crews c.cid j c rfl h

@[simp] theorem bundle?_setBundle (c : Crew) (b : Bundle) : (c.setBundle b).bundle? b.index = (c.bundle? b.index).map fun _ => b :=
  find_replace Bundle.index c.bundles b.index b rfl

theorem bundle?_setBundle_other (c : Crew) (b : Bundle) (j : Nat) (h : j ≠ b.index) : (c.setBundle b).bundle? j = c.bundle? j :=
  find_replace_other Bundle.index c.bundles b.index j b rfl h

/-- What the state's lookup of a bundle says. -/
theorem bundle?_some {s : State} {cid bi : Nat} {c : Crew} {b : Bundle} (h : s.bundle? cid bi = some (c, b)) :
    s.crew? cid = some c ∧ c.bundle? bi = some b := by
  unfold State.bundle? at h
  split at h
  · cases h
  · split at h
    · cases h
    · simp_all

/-- A bundle put back into a resident crew is found there. -/
theorem state_bundle?_setBundle {s : State} {c c0 : Crew} {b b0 : Bundle} (hc : s.crew? c.cid = some c0) (hb : c.bundle? b.index = some b0) :
    (s.setBundle c b).bundle? c.cid b.index = some (c.setBundle b, b) := by
  have h1 : (s.setCrew (c.setBundle b)).crew? c.cid = some (c.setBundle b) := by
    have := crew?_setCrew s (c.setBundle b)
    simp only [setBundle_cid'] at this
    rw [this, hc]; rfl
  have h2 : (c.setBundle b).bundle? b.index = some b := by rw [bundle?_setBundle, hb]; rfl
  simp only [State.bundle?, State.setBundle, h1, h2]

/-! ## The issuing context -/

/-- What the context of a bundle holds. -/
theorem ctx?_some {s : State} {cid bi : Nat} {g : BitVec 5} {x : Ctx} (h : s.ctx? cid bi g = some x) :
    x.s = s ∧ s.crew? cid = some x.c ∧ x.c.bundle? bi = some x.b ∧ (∃ t, x.b.subs = x.sub :: t) ∧
      x.act = x.sub.mask &&& x.b.live &&& x.b.guardLanes s.step g ∧ x.cast = s.castOf x.c := by
  unfold State.ctx? at h
  split at h
  · cases h
  · rename_i c b hb
    split at h
    · cases h
    · rename_i y t hs
      injection h with h
      subst h
      exact ⟨rfl, (bundle?_some hb).1, (bundle?_some hb).2, ⟨t, hs⟩, rfl, rfl⟩

/-- The device that a context commits holds its bundle. -/
theorem commit_bundle? {x : Ctx} {c0 : Crew} {b0 : Bundle} (hc : x.s.crew? x.c.cid = some c0) (hb : x.c.bundle? x.b.index = some b0) :
    x.commit.bundle? x.c.cid x.b.index = some (x.c.setBundle (x.b.setCurrent x.sub), x.b.setCurrent x.sub) :=
  state_bundle?_setBundle (s := x.s) (c := x.c) (b := x.b.setCurrent x.sub) hc hb

end Sys2Proof.Laws
end

