-- ==== Sys2Proof/Laws/Mem.lean ====
section
/-! SUPPORT. Laws of sparse memories: reads after writes, and that every memory operation keeps the canonical form. -/

namespace Sys2Proof.Machine

/-- Every listed address lies above `a`. -/
def Mem.above (a : Nat) (m : Mem) : Prop := ∀ c ∈ m, a < c.1

theorem Mem.wf_cons (x : Nat) (w : Byte) (t : Mem) :
    Mem.wf ((x, w) :: t) = true ↔ w ≠ 0 ∧ Mem.above x t ∧ Mem.wf t = true := by
  induction t generalizing x w with
  | nil => simp [Mem.wf, Mem.above]
  | cons c t ih =>
    obtain ⟨y, u⟩ := c
    have h := ih y u
    simp only [Mem.wf, Bool.and_eq_true, decide_eq_true_eq, bne_iff_ne, ne_eq, h, Mem.above, List.mem_cons, forall_eq_or_imp]
    constructor
    · rintro ⟨⟨a, b⟩, c, d, e⟩
      exact ⟨a, ⟨b, fun z hz => lt_trans b (d z hz)⟩, c, d, e⟩
    · rintro ⟨a, ⟨b, -⟩, c, d, e⟩
      exact ⟨⟨a, b⟩, c, d, e⟩

theorem Mem.above_set (m : Mem) (b a : Nat) (v : Byte) (h : Mem.above b m) (hb : b < a) : Mem.above b (m.set a v) := by
  induction m with
  | nil => simp only [Mem.set]; split <;> simp [Mem.above, hb]
  | cons c t ih =>
    obtain ⟨x, w⟩ := c
    have ht : Mem.above b t := fun z hz => h z (List.mem_cons_of_mem _ hz)
    have hx : b < x := h (x, w) List.mem_cons_self
    have hs := ih ht
    unfold Mem.above at h ht hs ⊢
    simp only [Mem.set]
    split_ifs <;> intro z hz <;> try simp only [List.mem_cons] at hz
    all_goals first
      | exact hs z hz
      | (rcases hz with rfl | hz
         · first | exact hb | exact hx
         · first | exact ht z hz | exact hs z hz | (rcases hz with rfl | hz; exacts [hx, ht z hz]))
      | exact ht z hz

/-- Writing a byte keeps the canonical form. -/
theorem Mem.wf_set (m : Mem) (a : Nat) (v : Byte) (h : m.wf = true) : (m.set a v).wf = true := by
  induction m with
  | nil => simp only [Mem.set]; split <;> simp_all [Mem.wf]
  | cons c t ih =>
    obtain ⟨x, w⟩ := c
    obtain ⟨hw, ha, ht⟩ := (Mem.wf_cons x w t).1 h
    simp only [Mem.set]
    split_ifs with h1 h2 h3 h4
    · exact h
    · refine (Mem.wf_cons _ _ _).2 ⟨h2, ?_, h⟩
      intro z hz
      rcases List.mem_cons.1 hz with rfl | hz
      · exact h1
      · exact lt_trans h1 (ha z hz)
    · exact ht
    · exact (Mem.wf_cons _ _ _).2 ⟨h4, h3 ▸ ha, ht⟩
    · exact (Mem.wf_cons _ _ _).2 ⟨hw, Mem.above_set t x a v ha (by omega), ih ht⟩

/-- Writing bytes keeps the canonical form. -/
theorem Mem.wf_write (m : Mem) (a : Nat) (bs : List Byte) (h : m.wf = true) : (m.write a bs).wf = true := by
  induction bs generalizing m a with
  | nil => exact h
  | cons b t ih => exact ih _ _ (Mem.wf_set m a b h)

theorem Mem.get_above (m : Mem) (b : Nat) (h : Mem.above b m) : m.get b = 0 := by
  induction m with
  | nil => rfl
  | cons c t ih =>
    obtain ⟨x, w⟩ := c
    have hx : b < x := h (x, w) List.mem_cons_self
    simp only [Mem.get]
    rw [if_neg (by omega)]
    exact ih fun z hz => h z (List.mem_cons_of_mem _ hz)

/-- A byte reads as what was written to it; every other address reads as before. -/
theorem Mem.get_set (m : Mem) (a b : Nat) (v : Byte) (h : m.wf = true) : (m.set a v).get b = if b = a then v else m.get b := by
  induction m with
  | nil =>
    simp only [Mem.set]
    split
    · next hv => subst hv; simp [Mem.get]
    · by_cases hb : b = a
      · subst hb; simp [Mem.get]
      · simp [Mem.get, hb, Ne.symm hb]
  | cons c t ih =>
    obtain ⟨x, w⟩ := c
    obtain ⟨hw, ha, ht⟩ := (Mem.wf_cons x w t).1 h
    have below : a < x → Mem.get ((x, w) :: t) a = 0 := fun hlt => by
      refine Mem.get_above _ _ fun z hz => ?_
      rcases List.mem_cons.1 hz with rfl | hz
      · exact hlt
      · exact lt_trans hlt (ha z hz)
    have low := Mem.get_above t x ha
    simp only [Mem.set]
    by_cases hb : b = a
    · subst hb
      rw [if_pos rfl]
      split_ifs with h1 h2 h2 h3
      · rw [below h1, h2]
      · simp [Mem.get]
      · rw [h2, low, h3]
      · simp [Mem.get]
      · simp only [Mem.get]
        rw [if_neg (Ne.symm h2), ih ht, if_pos rfl]
    · rw [if_neg hb]
      split_ifs with h1 h2 h2 h3
      · rfl
      · simp only [Mem.get]; rw [if_neg (Ne.symm hb)]
      · simp only [Mem.get]; rw [if_neg (by omega)]
      · simp only [Mem.get]; rw [if_neg (by omega), if_neg (by omega)]
      · simp only [Mem.get]; rw [ih ht, if_neg hb]

/-- Two memories in canonical form that read alike everywhere are equal. -/
theorem Mem.ext_get (m n : Mem) (hm : m.wf = true) (hn : n.wf = true) (h : ∀ a, m.get a = n.get a) : m = n := by
  induction m generalizing n with
  | nil =>
    cases n with
    | nil => rfl
    | cons c t =>
      obtain ⟨x, w⟩ := c
      have := h x
      simp only [Mem.get, if_true] at this
      exact absurd this.symm ((Mem.wf_cons x w t).1 hn).1
  | cons c t ih =>
    obtain ⟨x, w⟩ := c
    obtain ⟨hw, ha, ht⟩ := (Mem.wf_cons x w t).1 hm
    cases n with
    | nil =>
      have := h x
      simp only [Mem.get, if_true] at this
      exact absurd this hw
    | cons d u =>
      obtain ⟨y, v⟩ := d
      obtain ⟨hv, hb, hu⟩ := (Mem.wf_cons y v u).1 hn
      have hxy : x = y := by
        rcases lt_trichotomy x y with hlt | heq | hlt
        · have := h x
          simp only [Mem.get, if_true] at this
          rw [if_neg (by omega), Mem.get_above u x fun z hz => lt_trans hlt (hb z hz)] at this
          exact absurd this hw
        · exact heq
        · have := h y
          simp only [Mem.get, if_true] at this
          rw [if_neg (by omega), Mem.get_above t y fun z hz => lt_trans hlt (ha z hz)] at this
          exact absurd this.symm hv
      subst hxy
      have hwv : w = v := by simpa [Mem.get] using h x
      subst hwv
      congr 1
      refine ih u ht hu fun a => ?_
      by_cases hax : a = x
      · subst hax; rw [Mem.get_above t a ha, Mem.get_above u a hb]
      · have := h a
        simpa [Mem.get, Ne.symm hax] using this

/-- Bytes read as what was written to them; every other address reads as before. -/
theorem Mem.get_write (m : Mem) (a b : Nat) (bs : List Byte) (h : m.wf = true) :
    (m.write a bs).get b = if a ≤ b ∧ b < a + bs.length then bs.getD (b - a) 0 else m.get b := by
  induction bs generalizing m a with
  | nil => rw [if_neg (by simp only [List.length_nil]; omega)]; rfl
  | cons c t ih =>
    simp only [Mem.write, List.length_cons]
    rw [ih _ _ (Mem.wf_set m a c h), Mem.get_set m a b c h]
    by_cases h1 : b = a
    · subst h1; rw [if_neg (by omega), if_pos rfl, if_pos (by omega)]; simp
    · by_cases h2 : a ≤ b ∧ b < a + (t.length + 1)
      · rw [if_pos (by omega), if_pos h2]
        obtain ⟨k, hk⟩ : ∃ k, b - a = k + 1 := ⟨b - a - 1, by omega⟩
        rw [hk, show b - (a + 1) = k by omega]; simp
      · rw [if_neg (by omega), if_neg h1, if_neg h2]

/-- Every index of the table lies above `a`. -/
def Mem32.above (a : Nat) (m : Mem32) : Prop := ∀ c ∈ m, a < c.1

theorem Mem32.wf_cons (x : Nat) (w : Word) (t : Mem32) :
    Mem32.wf ((x, w) :: t) = true ↔ w ≠ 0 ∧ Mem32.above x t ∧ Mem32.wf t = true := by
  induction t generalizing x w with
  | nil => simp [Mem32.wf, Mem32.above]
  | cons c t ih =>
    obtain ⟨y, u⟩ := c
    have h := ih y u
    simp only [Mem32.wf, Bool.and_eq_true, decide_eq_true_eq, bne_iff_ne, ne_eq, h, Mem32.above, List.mem_cons, forall_eq_or_imp]
    constructor
    · rintro ⟨⟨a, b⟩, c, d, e⟩
      exact ⟨a, ⟨b, fun z hz => lt_trans b (d z hz)⟩, c, d, e⟩
    · rintro ⟨a, ⟨b, -⟩, c, d, e⟩
      exact ⟨⟨a, b⟩, c, d, e⟩

theorem Mem32.above_set (m : Mem32) (b a : Nat) (v : Word) (h : Mem32.above b m) (hb : b < a) : Mem32.above b (m.set a v) := by
  induction m with
  | nil => simp only [Mem32.set]; split <;> simp [Mem32.above, hb]
  | cons c t ih =>
    obtain ⟨x, w⟩ := c
    have ht : Mem32.above b t := fun z hz => h z (List.mem_cons_of_mem _ hz)
    have hx : b < x := h (x, w) List.mem_cons_self
    have hs := ih ht
    unfold Mem32.above at h ht hs ⊢
    simp only [Mem32.set]
    split_ifs <;> intro z hz <;> try simp only [List.mem_cons] at hz
    all_goals first
      | exact hs z hz
      | (rcases hz with rfl | hz
         · first | exact hb | exact hx
         · first | exact ht z hz | exact hs z hz | (rcases hz with rfl | hz; exacts [hx, ht z hz]))
      | exact ht z hz

/-- Writing an element keeps the canonical form. -/
theorem Mem32.wf_set (m : Mem32) (a : Nat) (v : Word) (h : m.wf = true) : (m.set a v).wf = true := by
  induction m with
  | nil => simp only [Mem32.set]; split <;> simp_all [Mem32.wf]
  | cons c t ih =>
    obtain ⟨x, w⟩ := c
    obtain ⟨hw, ha, ht⟩ := (Mem32.wf_cons x w t).1 h
    simp only [Mem32.set]
    split_ifs with h1 h2 h3 h4
    · exact h
    · refine (Mem32.wf_cons _ _ _).2 ⟨h2, ?_, h⟩
      intro z hz
      rcases List.mem_cons.1 hz with rfl | hz
      · exact h1
      · exact lt_trans h1 (ha z hz)
    · exact ht
    · exact (Mem32.wf_cons _ _ _).2 ⟨h4, h3 ▸ ha, ht⟩
    · exact (Mem32.wf_cons _ _ _).2 ⟨hw, Mem32.above_set t x a v ha (by omega), ih ht⟩

theorem Mem32.get_above (m : Mem32) (b : Nat) (h : Mem32.above b m) : m.get b = 0 := by
  induction m with
  | nil => rfl
  | cons c t ih =>
    obtain ⟨x, w⟩ := c
    have hx : b < x := h (x, w) List.mem_cons_self
    simp only [Mem32.get]
    rw [if_neg (by omega)]
    exact ih fun z hz => h z (List.mem_cons_of_mem _ hz)

/-! ## The memory system -/

/-- A device byte written at its home keeps the canonical forms. -/
theorem MemSys.setDevByte_wf (m : MemSys) (a : Nat) (v : Byte) (h : Safety.DeviceMemWf m) : Safety.DeviceMemWf (m.setDevByte a v) := by
  unfold MemSys.setDevByte
  split
  · refine ⟨h.gddr, h.peers, h.hosts, ?_⟩
    intro l hl
    obtain ⟨l', hl', rfl⟩ := List.mem_map.1 hl
    split
    · simpa using h.lines l' hl'
    · exact h.lines l' hl'
  · exact ⟨Mem.wf_set _ _ _ h.gddr, h.peers, h.hosts, h.lines⟩

/-- Device bytes written keep the canonical forms. -/
theorem MemSys.writeDev_wf (m : MemSys) (a : Nat) (bs : List Byte) (h : Safety.DeviceMemWf m) : Safety.DeviceMemWf (m.writeDev a bs) := by
  induction bs generalizing m a with
  | nil => exact h
  | cons b t ih => exact ih _ _ (MemSys.setDevByte_wf m a b h)

/-- A write at a physical address keeps the canonical forms. -/
theorem MemSys.write_wf (m : MemSys) (host a : Nat) (bs : List Byte) (h : Safety.DeviceMemWf m) :
    Safety.DeviceMemWf (m.write host a bs) := by
  have hg : (m.host.getD host []).wf = true := by
    rw [List.getD_eq_getElem?_getD]
    cases hh : m.host[host]? with
    | none => rfl
    | some x => exact h.hosts x (List.mem_of_getElem? hh)
  simp only [MemSys.write]
  split
  · refine ⟨h.gddr, h.peers, ?_, h.lines⟩
    intro x hx
    rcases List.mem_or_eq_of_mem_set hx with hx | rfl
    · exact h.hosts x hx
    · exact Mem.wf_write _ _ _ hg
  · split
    · exact ⟨h.gddr, Mem.wf_write _ _ _ h.peers, h.hosts, h.lines⟩
    · exact MemSys.writeDev_wf _ _ _ ⟨h.gddr, h.peers, h.hosts, h.lines⟩

/-- A crew's scratch area replaced by one in canonical form. -/
theorem Crew.setAreaMem_wf (c : Crew) (a : Area) (m : Mem) (h : Safety.CrewMemWf c) (hm : m.wf = true) : Safety.CrewMemWf (c.setAreaMem a m) := by
  cases a
  · exact ⟨hm, h.ring, h.live, h.shadow, h.wdata, h.wside, h.tiles⟩
  · exact ⟨h.plain, hm, h.live, h.shadow, h.wdata, h.wside, h.tiles⟩
  · exact ⟨h.plain, h.ring, hm, h.shadow, h.wdata, h.wside, h.tiles⟩
  · exact ⟨h.plain, h.ring, h.live, hm, h.wdata, h.wside, h.tiles⟩

end Sys2Proof.Machine
end

