-- ==== Sys2Proof/Laws/Run.lean ====
section
/-! SUPPORT. What carrying out an instruction comes to when its checks pass, and what the end of a short instruction leaves. -/

namespace Sys2Proof.Laws

open Machine Safety

/-! ## The carrier -/

/-- A counted issue changes the crew's instruction count and watchdog notes only. -/
theorem counted_eq (x : Ctx) :
    x.counted = x ∨ x.counted = { x with c := { x.c with inst := x.c.inst + popMask x.act, stuck := none, gangStuck := none } } := by
  unfold Ctx.counted
  cases x.again
  · exact .inr rfl
  · exact .inl rfl

@[simp] theorem counted_s (x : Ctx) : x.counted.s = x.s := by rcases counted_eq x with h | h <;> rw [h]
@[simp] theorem counted_b (x : Ctx) : x.counted.b = x.b := by rcases counted_eq x with h | h <;> rw [h]
@[simp] theorem counted_sub (x : Ctx) : x.counted.sub = x.sub := by rcases counted_eq x with h | h <;> rw [h]
@[simp] theorem counted_act (x : Ctx) : x.counted.act = x.act := by rcases counted_eq x with h | h <;> rw [h]
@[simp] theorem counted_cast (x : Ctx) : x.counted.cast = x.cast := by rcases counted_eq x with h | h <;> rw [h]
@[simp] theorem counted_cid (x : Ctx) : x.counted.c.cid = x.c.cid := by rcases counted_eq x with h | h <;> rw [h]
@[simp] theorem counted_bundles (x : Ctx) : x.counted.c.bundles = x.c.bundles := by rcases counted_eq x with h | h <;> rw [h]

theorem owedTrap_none {x : Ctx} {i : Instr} (h : isSync i = true → x.b.owed = []) : x.owedTrap i = none := by
  unfold Ctx.owedTrap
  by_cases hs : isSync i = true
  · simp [hs, h hs]
  · simp [hs]

/-- The merges a release forces change the device around the bundle only. -/
theorem forceReds_eq (i : Instr) (x : Ctx) : ∃ s, x.forceReds i = { x with s := s } := by
  unfold Ctx.forceReds
  split
  · exact ⟨x.s, rfl⟩
  · exact ⟨_, rfl⟩

/-- What is no release forces none. -/
theorem forceReds_other {i : Instr} (x : Ctx) (h : isRelease i = false) : x.forceReds i = x := by
  unfold Ctx.forceReds
  simp [h]

/-- With its checks passed and nothing to wait for, an instruction is its effect, settled; a release first forces the merges of R242. -/
theorem perform_settles {i : Instr} {x : Ctx} (eff : Ctx → Eff) (hz : x.cast.hazards = true → x.inTrap = false → x.hazard i = none)
    (ho : isSync i = true → x.b.owed = []) (hd : implicitMarker i = true → x.b.pend = []) (hr : x.c.ovc = 0) :
    perform i none eff x = settle i none (eff (x.forceReds i)) := by
  have h1 : (if x.cast.hazards && !x.inTrap then x.hazard i else none) = none := by
    by_cases h : x.cast.hazards = true
    · cases ht : x.inTrap
      · simp [hz h ht]
      · simp
    · simp [h]
  have h3 : withRows i none eff (x.forceReds i) = settle i none (eff (x.forceReds i)) := by
    obtain ⟨s, hs⟩ := forceReds_eq i x
    unfold withRows Ctx.takeRows
    simp [hs, hr]
  have h2 : ∀ k : Bool, (implicitMarker i && k && !x.b.pend.isEmpty) = false := by
    intro k
    cases hm : implicitMarker i
    · rfl
    · simp [hd hm]
  unfold perform
  simp only [h1, owedTrap_none ho]
  rw [if_neg (by rw [h2]; decide), h3]

/-- The checks against what the cast declares are those of six instructions only. -/
theorem castChecks_none {i : Instr} (x : Ctx) (h : match i with
    | .stbar _ | .ringq _ | .vemit _ | .pemit _ | .mcommit _ | .hitbin _ => False
    | _ => True) : x.castChecks i = [] := by
  cases i <;> first | rfl | exact h.elim

/-- An instruction that issues and fails no check of its cast answers its effect, settled; a release first forces the merges of R242. -/
theorem run_issues {i : Instr} {s : State} {x : Ctx} (eff : Ctx → Eff) (h : Issues i s x) (hc : x.castChecks i = []) :
    run i eff s = .next (settle i none (eff (x.forceReds i))) := by
  obtain ⟨x0, hx0, rfl⟩ := h.ctx
  unfold run
  rw [h.cur]
  simp only [hx0]
  rw [hc, List.append_nil, show firstFailure (checks x0.counted.env i) = none from h.legal]
  simp only [perform_settles eff h.clear h.owed h.drained h.rows]

/-- Where an issuing bundle lives. -/
theorem issues_home {i : Instr} {s : State} {x : Ctx} (h : Issues i s x) :
    x.s = s ∧ (∃ c0, s.crew? x.c.cid = some c0 ∧ c0.bundles = x.c.bundles) ∧ x.c.bundle? x.b.index = some x.b ∧
      (∃ t, x.b.subs = x.sub :: t) ∧ x.act = x.sub.mask &&& x.b.live &&& x.b.guardLanes s.step (guardOf i) := by
  obtain ⟨x0, hx0, rfl⟩ := h.ctx
  obtain ⟨h1, h2, h3, h4, h5, -⟩ := ctx?_some hx0
  refine ⟨by simpa using h1, ⟨x0.c, by simpa using h2, by simp⟩, ?_, by simpa using h4, by simpa using h5⟩
  simp only [counted_b]
  rw [counted_b] at h3
  rw [Crew.bundle?, counted_bundles]
  exact h3

/-! ## Rotation -/

theorem mem_turnFrom (y : SubB) (n : Nat) : ∀ l : List SubB, y ∈ turnFrom l n ↔ y ∈ l := by
  induction n with
  | zero => intro l; rfl
  | succ n ih =>
    intro l
    cases l with
    | nil => simp [turnFrom]
    | cons x t =>
      simp only [turnFrom]
      split
      · rfl
      · rw [ih]; simp [or_comm]

/-- A rotation keeps every sub-bundle's lanes and PC. -/
theorem rotate_keeps {b : Bundle} {y : SubB} (clock : Nat) (h : y ∈ b.subs) :
    ∃ z ∈ (b.rotate clock).subs, z.mask = y.mask ∧ z.pc = y.pc := by
  unfold Bundle.rotate
  split
  · exact ⟨y, h, rfl, rfl⟩
  · rename_i x t hs
    rw [hs] at h
    have hm : ∃ z ∈ t ++ [{ x with issued := 0 }], z.mask = y.mask ∧ z.pc = y.pc := by
      rcases List.mem_cons.mp h with rfl | h
      · exact ⟨{ y with issued := 0 }, by simp, rfl, rfl⟩
      · exact ⟨y, by simp [h], rfl, rfl⟩
    obtain ⟨z, hz, h1, h2⟩ := hm
    split
    · rename_i hn
      rw [← mem_turnFrom z b.subs.length, hn] at hz
      cases hz
    · rename_i w t' hw
      rw [← mem_turnFrom z b.subs.length, hw] at hz
      rcases List.mem_cons.mp hz with rfl | hz
      · exact ⟨{ z with ready := clock }, by simp, h1, h2⟩
      · exact ⟨z, by simp [hz], h1, h2⟩

/-- What a rotation leaves of a bundle: all but its sub-bundles. -/
theorem rotate_eq (b : Bundle) (clock : Nat) : ∃ l, b.rotate clock = { b with subs := l } := by
  unfold Bundle.rotate
  split
  · exact ⟨b.subs, rfl⟩
  · split
    · exact ⟨b.subs, rfl⟩
    · exact ⟨_, rfl⟩

/-! ## The end of an instruction -/

/-- The context's bundle is resident. -/
def Resident (x : Ctx) : Prop := (∃ c0, x.s.crew? x.c.cid = some c0) ∧ ∃ b0, x.c.bundle? x.b.index = some b0

theorem issues_resident {i : Instr} {s : State} {x : Ctx} (h : Issues i s x) : Resident x := by
  obtain ⟨h1, ⟨c0, h2, -⟩, h3, -⟩ := issues_home h
  exact ⟨⟨c0, by rw [h1]; exact h2⟩, x.b, h3⟩

/-- The marker leaves the bundle as it is, but for its sub-bundles, of which one has the lanes and PC of the context's. -/
theorem mark_holds {x : Ctx} (m : Bool) (h : Resident x) (hq : m = true → x.inTrap = false → x.b.fpDue = none) :
    ∃ c l, (x.mark m).bundle? x.c.cid x.b.index = some (c, { x.b with subs := l }) ∧ ∃ y ∈ l, y.mask = x.sub.mask ∧ y.pc = x.sub.pc := by
  obtain ⟨⟨c0, hc⟩, b0, hb⟩ := h
  have hk := commit_bundle? hc hb
  unfold Ctx.mark
  split
  · exact ⟨_, x.sub :: x.b.subs.tail, hk, x.sub, List.mem_cons_self, rfl, rfl⟩
  · split
    · obtain ⟨l, hl⟩ := rotate_eq (x.b.setCurrent x.sub) x.commit.coreClock
      have e : (x.b.setCurrent x.sub).rotate x.commit.coreClock = { x.b with subs := l } := hl
      obtain ⟨z, hz, h1, h2⟩ := rotate_keeps (b := x.b.setCurrent x.sub) (y := x.sub) x.commit.coreClock List.mem_cons_self
      rw [e] at hz
      have hc' : x.commit.crew? x.c.cid = some (x.c.setBundle (x.b.setCurrent x.sub)) := by
        have := crew?_setCrew x.s (x.c.setBundle (x.b.setCurrent x.sub))
        simp only [setBundle_cid'] at this
        rw [Ctx.commit, this, hc]; rfl
      refine ⟨x.c.setBundle { x.b with subs := l }, l, ?_, z, hz, h1, h2⟩
      simp only [e]
      exact state_bundle?_setBundle (s := x.commit) (c := x.c) (b := { x.b with subs := l }) hc' hb
    · split
      · rename_i hm h1 h2
        have hd : x.inTrap = false → x.b.fpDue = none := hq (by simpa using hm)
        have hf : x.b.fpOwed x.sub = false := by
          unfold Bundle.fpOwed
          cases ht : x.b.trap
          · simp [hd (by simp [Ctx.inTrap, ht])]
          · rfl
        simp [h2, hf] at h1
      · exact ⟨_, { x.sub with park := .marker } :: x.b.subs.tail,
          commit_bundle? (x := { x with sub := { x.sub with park := .marker } }) hc hb, _, List.mem_cons_self, rfl, rfl⟩

/-- What a short instruction writes into its bundle: registers, and outside trap mode FLAGS (R59, R367). -/
def shortBundle (x : Ctx) (r : RegResult) : Bundle :=
  let b := x.b.writeShort x.s.coreClock r
  if x.inTrap then b else { b with flags := b.flags ||| r.flags }

@[simp] theorem shortBundle_index (x : Ctx) (r : RegResult) : (shortBundle x r).index = (x.b.writeShort x.s.coreClock r).index := by
  unfold shortBundle; simp only []; split <;> rfl

/-- A short instruction that raises no FP_INVALID leaves its bundle with its results, past the instruction. -/
theorem endShort_holds {x : Ctx} (i : Instr) (r : RegResult) (h : Resident x)
    (hi : (x.b.writeShort x.s.coreClock r).index = x.b.index) (hv : x.cast.fpinv = true → x.inTrap = false → r.iv = 0)
    (ht : (x.b.writeShort x.s.coreClock r).trap = x.b.trap) (hf : (x.b.writeShort x.s.coreClock r).fpDue = x.b.fpDue)
    (hm : (markOf i || x.asMarked i) = true → x.inTrap = false → x.b.fpDue = none) :
    ∃ c l, (x.endShort i none r).bundle? x.c.cid x.b.index = some (c, { shortBundle x r with subs := l }) ∧
      ∃ y ∈ l, y.mask = x.sub.mask ∧ y.pc = nextPc x.sub.pc := by
  have hq : (x.cast.fpinv && !x.inTrap && r.iv != 0) = false := by
    cases hf : x.cast.fpinv
    · rfl
    · cases ht : x.inTrap
      · simp [hv hf ht]
      · rfl
  have hi' : (shortBundle x r).index = x.b.index := by rw [shortBundle_index, hi]
  have hr : Resident { x with b := shortBundle x r, sub := x.advance none } := by
    obtain ⟨h1, b0, h2⟩ := h
    exact ⟨h1, b0, by simpa only [hi'] using h2⟩
  have hd : (shortBundle x r).fpDue = (x.b.writeShort x.s.coreClock r).fpDue := by
    unfold shortBundle; simp only []; split <;> rfl
  have ht' : (shortBundle x r).trap = (x.b.writeShort x.s.coreClock r).trap := by
    unfold shortBundle; simp only []; split <;> rfl
  obtain ⟨c, l, h1, y, hy, h2, h3⟩ := mark_holds (markNow (markOf i) none || x.asMarked i) hr fun hm' hn => by
    simp only [hd, hf]
    exact hm hm' (by simpa only [Ctx.inTrap, ht', ht] using hn)
  refine ⟨c, l, ?_, y, hy, h2, h3⟩
  have e : x.endShort i none r = Ctx.mark { x with b := shortBundle x r, sub := x.advance none } (markNow (markOf i) none || x.asMarked i) := by
    unfold Ctx.endShort
    simp only [hq]
    rfl
  rw [e]
  rw [← hi']
  exact h1

end Sys2Proof.Laws
end

