-- ==== Sys2Proof/Laws/Regs.lean ====
section
/-! SUPPORT. Writing registers: what a lane holds after a result is written (R29, R59, R91 to R94), and what a write leaves alone. -/

namespace Sys2Proof.Laws

open Machine Safety

/-! ## Lane lists -/

theorem getD_lanesOf {α : Type} (f : Nat → α) (d : α) {L : Nat} (h : L < 32) : (lanesOf f).getD L d = f L := by
  simp [lanesOf, h]

theorem getD_lanesOf_map {α β : Type} (f : Nat → α) (g : α → β) (d : β) {L : Nat} (h : L < 32) :
    ((lanesOf f).map g).getD L d = g (f L) := by
  simp [lanesOf, h]

theorem getLsbD_maskOf_aux (p : Nat → Bool) (n : Nat) (hn : n ≤ 32) {L : Nat} (h : L < 32) :
    ((List.range n).foldl (fun m K => if p K then m ||| (1#32 <<< K) else m) 0#32).getLsbD L = (decide (L < n) && p L) := by
  induction n with
  | zero => simp
  | succ n ih =>
    rw [List.range_succ, List.foldl_append]
    simp only [List.foldl_cons, List.foldl_nil]
    have ih' := ih (by omega)
    by_cases hp : p n = true
    · simp only [hp, if_true, BitVec.getLsbD_or, ih', BitVec.getLsbD_shiftLeft, BitVec.getLsbD_one]
      by_cases hL : L = n
      · subst hL; simp [hp, h]
      · rcases Nat.lt_or_gt_of_ne hL with hlt | hlt
        · simp [hlt, Nat.lt_succ_of_lt hlt]
        · have h1 : ¬ L < n + 1 := by omega
          have h2 : L - n ≠ 0 := by omega
          have h3 : ¬ L < n := by omega
          simp [h1, h2, h3]
    · simp only [hp, if_false, ih', Bool.false_eq_true]
      by_cases hL : L = n
      · subst hL; simp [hp]
      · rcases Nat.lt_or_gt_of_ne hL with hlt | hlt
        · simp [hlt, Nat.lt_succ_of_lt hlt]
        · have h1 : ¬ L < n + 1 := by omega
          have h3 : ¬ L < n := by omega
          simp [h1, h3]

/-- Bit L of the mask of a predicate. -/
theorem getLsbD_maskOf (p : Nat → Bool) {L : Nat} (h : L < 32) : (maskOf p).getLsbD L = p L := by
  unfold maskOf
  rw [getLsbD_maskOf_aux p W (by decide) h]
  simp [h]

theorem mem_lanes (m : LaneMask) (L : Nat) : L ∈ m.lanes ↔ L < 32 ∧ m.getLsbD L = true := by
  simp [LaneMask.lanes]

/-- The lowest lane of a mask with a lane is one of its lanes. -/
theorem lowLane_mem {m : LaneMask} {L : Nat} (hL : L < 32) (h : m.getLsbD L = true) : lowLane m < 32 ∧ m.getLsbD (lowLane m) = true := by
  rw [← mem_lanes]
  have : L ∈ m.lanes := (mem_lanes m L).2 ⟨hL, h⟩
  unfold lowLane
  cases hl : m.lanes with
  | nil => rw [hl] at this; cases this
  | cons a t => simp

/-! ## One write of a v register -/

/-- The shape a write stores agrees with its value in a lane. -/
def Agrees (w : VWrite) (L : Nat) : Prop := ∀ sh, w.full = some sh → sh.code ≠ 2 → sh.lane L = w.vals.getD L 0

theorem written_lane {old : Shape} {w : VWrite} {L : Nat} (hL : L < 32) (hm : w.mask.getLsbD L = true) (ha : Agrees w L) :
    (old.written w).lane L = w.vals.getD L 0 := by
  have hg : (Shape.g (lanesOf fun L => if w.mask.getLsbD L then w.vals.getD L 0 else old.lane L)).lane L = w.vals.getD L 0 := by
    simp only [Shape.lane, getD_lanesOf _ _ hL, hm, if_true]
  unfold Shape.written
  cases hf : w.full with
  | none => exact hg
  | some sh =>
    cases sh with
    | u v => exact ha _ hf (by simp [Shape.code])
    | a b s => exact ha _ hf (by simp [Shape.code])
    | g l => exact hg

/-- A partial write keeps the lanes it does not write. -/
theorem written_keeps {old : Shape} {w : VWrite} {L : Nat} (hL : L < 32) (hm : w.mask.getLsbD L = false) (hf : w.full = none) :
    (old.written w).lane L = old.lane L := by
  unfold Shape.written
  rw [hf]
  simp only [Shape.lane, getD_lanesOf _ _ hL, hm]
  rfl

/-! ## What the file holds after a result is stored -/

theorem noteWrite_eq (b : Bundle) (ok : Pending → Bool) (sh : Bool) (code : Nat) (m : LaneMask) :
    ∃ l, b.noteWrite ok sh code m = { b with pend := l } := by
  unfold Bundle.noteWrite
  split
  · exact ⟨b.pend, rfl⟩
  · exact ⟨_, rfl⟩

theorem noteWrites_eq (ok : Pending → Bool) (sh : Bool) (ws : List (Nat × LaneMask)) :
    ∀ b : Bundle, ∃ l, ws.foldl (fun b w => b.noteWrite ok sh w.1 w.2) b = { b with pend := l } := by
  induction ws with
  | nil => intro b; exact ⟨b.pend, rfl⟩
  | cons w t ih =>
    intro b
    obtain ⟨l, h⟩ := noteWrite_eq b ok sh w.1 w.2
    obtain ⟨l', h'⟩ := ih (b.noteWrite ok sh w.1 w.2)
    exact ⟨l', by rw [List.foldl_cons, h', h]⟩

/-- The v registers after writes. -/
def vAfter (v : List VReg) (clock : Nat) (ws : List VWrite) : List VReg :=
  ws.foldl (fun v w => if w.mask = 0 then v else v.set w.name { shape := (v.getD w.name VReg.zero).shape.written w, fmt := 0, last := clock }) v

/-- The predicates after writes. -/
def pAfter (p : Vector LaneMask 15) (ws : List PWrite) : Vector LaneMask 15 :=
  ws.foldl (fun p w => if w.name < 15 then p.setIfInBounds w.name ((p.getD w.name 0 &&& ~~~w.mask) ||| (w.vals &&& w.mask)) else p) p

/-- The s registers after writes. -/
def sAfter (s : Vector DWord 128) (ws : List (Nat × DWord)) : Vector DWord 128 := ws.foldl (fun s w => s.setIfInBounds w.1 w.2) s

/-- The k registers after writes, which are numbered from 240 among those of the s registers (R30). -/
def kAfter (k : Vector DWord 8) (ws : List (Nat × DWord)) : Vector DWord 8 :=
  ws.foldl (fun k w => if w.1 < 240 then k else k.setIfInBounds (w.1 - 240) w.2) k

theorem storeVs_eq (clock : Nat) (ws : List VWrite) :
    ∀ b : Bundle, ws.foldl (fun b w => b.storeV clock w) b = { b with v := vAfter b.v clock ws } := by
  induction ws with
  | nil => intro b; rfl
  | cons w t ih =>
    intro b
    have e : b.storeV clock w = { b with v := if w.mask = 0 then b.v else b.v.set w.name { shape := (b.v.getD w.name VReg.zero).shape.written w, fmt := 0, last := clock } } := by
      unfold Bundle.storeV
      split <;> rfl
    rw [List.foldl_cons, e, ih]
    rfl

theorem storePs_eq (ws : List PWrite) :
    ∀ b : Bundle, ws.foldl (fun b w => b.storeP w) b = { b with p := pAfter b.p ws } := by
  induction ws with
  | nil => intro b; rfl
  | cons w t ih =>
    intro b
    have e : b.storeP w = { b with p := if w.name < 15 then b.p.setIfInBounds w.name ((b.p.getD w.name 0 &&& ~~~w.mask) ||| (w.vals &&& w.mask)) else b.p } := by
      unfold Bundle.storeP Bundle.predOf
      split <;> rfl
    rw [List.foldl_cons, e, ih]
    rfl

theorem storeSs_eq (ws : List (Nat × DWord)) :
    ∀ b : Bundle, ws.foldl (fun b w => b.storeS w) b = { b with s := sAfter b.s ws, k := kAfter b.k ws } := by
  induction ws with
  | nil => intro b; rfl
  | cons w t ih => intro b; rw [List.foldl_cons, ih]; rfl

/-- A result that names no k register leaves them. -/
theorem kAfter_none (k : Vector DWord 8) (ws : List (Nat × DWord)) (h : ∀ w ∈ ws, w.1 < 240) : kAfter k ws = k := by
  induction ws with
  | nil => rfl
  | cons w t ih =>
    have hw : w.1 < 240 := h w List.mem_cons_self
    have e : kAfter k (w :: t) = kAfter k t := by simp [kAfter, hw]
    rw [e, ih fun u hu => h u (List.mem_cons_of_mem _ hu)]

/-- Storing a result changes the v, p, s and k registers only. -/
theorem store_eq (b : Bundle) (clock : Nat) (r : RegResult) :
    b.store clock r = { b with v := vAfter b.v clock r.v, p := pAfter b.p r.p, s := sAfter b.s r.s, k := kAfter b.k r.s } := by
  unfold Bundle.store
  simp only [storeVs_eq, storePs_eq, storeSs_eq]

/-- The result of a short instruction changes the v, p, s and k registers, and what is noted with pending results. -/
theorem writeShort_eq (b : Bundle) (clock : Nat) (r : RegResult) :
    ∃ l, b.writeShort clock r =
      { b with pend := l, v := vAfter b.v clock r.v, p := pAfter b.p r.p, s := sAfter b.s r.s, k := kAfter b.k r.s } := by
  obtain ⟨l, h⟩ := noteWrites_eq (fun _ => true) true r.writes (b.store clock r)
  refine ⟨l, ?_⟩
  unfold Bundle.writeShort
  rw [h, store_eq]

@[simp] theorem writeShort_index (b : Bundle) (clock : Nat) (r : RegResult) : (b.writeShort clock r).index = b.index := by
  obtain ⟨l, h⟩ := writeShort_eq b clock r
  rw [h]

/-- The bundle of a short instruction that raises no FP_INVALID: registers by `vAfter`, `pAfter`, `sAfter` and `kAfter`, FLAGS raised outside trap
mode, past the instruction, nothing else changed. -/
theorem endShort_eq {x : Ctx} (i : Instr) (r : RegResult) (h : Resident x) (hv : x.cast.fpinv = true → x.inTrap = false → r.iv = 0)
    (hm : (markOf i || x.asMarked i) = true → x.inTrap = false → x.b.fpDue = none) :
    ∃ c l pd, (x.endShort i none r).bundle? x.c.cid x.b.index =
        some (c, { x.b with pend := pd, v := vAfter x.b.v x.s.coreClock r.v, p := pAfter x.b.p r.p, s := sAfter x.b.s r.s,
                            k := kAfter x.b.k r.s,
                            flags := if x.inTrap then x.b.flags else x.b.flags ||| r.flags, subs := l }) ∧
      ∃ y ∈ l, y.mask = x.sub.mask ∧ y.pc = nextPc x.sub.pc := by
  obtain ⟨pd, h3⟩ := writeShort_eq x.b x.s.coreClock r
  obtain ⟨c, l, h1, h2⟩ := endShort_holds i r h (writeShort_index _ _ _) hv (by rw [h3]) (by rw [h3]) hm
  refine ⟨c, l, pd, ?_, h2⟩
  rw [h1]
  unfold shortBundle
  simp only [h3]
  cases x.inTrap <;> rfl

/-! ## Lanes after one write or a pair -/

theorem vAfter_one {v : List VReg} {clock : Nat} {w : VWrite} {L : Nat} (hn : w.name < v.length) (hL : L < 32)
    (hm : w.mask.getLsbD L = true) (ha : Agrees w L) : ((vAfter v clock [w]).getD w.name VReg.zero).shape.lane L = w.vals.getD L 0 := by
  have h0 : ¬ w.mask = 0 := by
    intro h; rw [h] at hm; simp at hm
  simp only [vAfter, List.foldl_cons, List.foldl_nil, h0, if_false]
  rw [List.getD_eq_getElem?_getD, List.getElem?_set_self hn]
  exact written_lane hL hm ha

theorem vAfter_pair {v : List VReg} {clock : Nat} {w1 w2 : VWrite} {L : Nat} (h1 : w1.name < v.length) (h2 : w2.name < v.length)
    (hne : w1.name ≠ w2.name) (hL : L < 32) (hm1 : w1.mask.getLsbD L = true) (hm2 : w2.mask.getLsbD L = true) (ha1 : Agrees w1 L)
    (ha2 : Agrees w2 L) :
    ((vAfter v clock [w1, w2]).getD w1.name VReg.zero).shape.lane L = w1.vals.getD L 0 ∧
      ((vAfter v clock [w1, w2]).getD w2.name VReg.zero).shape.lane L = w2.vals.getD L 0 := by
  have e1 : ¬ w1.mask = 0 := by intro h; rw [h] at hm1; simp at hm1
  have e2 : ¬ w2.mask = 0 := by intro h; rw [h] at hm2; simp at hm2
  simp only [vAfter, List.foldl_cons, List.foldl_nil, e1, e2, if_false]
  constructor
  · rw [List.getD_eq_getElem?_getD, List.getElem?_set_ne (Ne.symm hne), List.getElem?_set_self h1]
    exact written_lane hL hm1 ha1
  · rw [List.getD_eq_getElem?_getD, List.getElem?_set_self (by simpa using h2)]
    exact written_lane hL hm2 ha2

/-- Names not written keep their registers. -/
theorem vAfter_other {clock n : Nat} (ws : List VWrite) :
    ∀ v : List VReg, (∀ w ∈ ws, w.name ≠ n) → (vAfter v clock ws).getD n VReg.zero = v.getD n VReg.zero := by
  induction ws with
  | nil => intro v _; rfl
  | cons w t ih =>
    intro v h
    have hw : w.name ≠ n := h w List.mem_cons_self
    have ht : ∀ u ∈ t, u.name ≠ n := fun u hu => h u (List.mem_cons_of_mem _ hu)
    have := ih (if w.mask = 0 then v else v.set w.name { shape := (v.getD w.name VReg.zero).shape.written w, fmt := 0, last := clock }) ht
    rw [vAfter, List.foldl_cons]
    rw [vAfter] at this
    rw [this]
    split
    · rfl
    · rw [List.getD_eq_getElem?_getD, List.getElem?_set_ne hw, ← List.getD_eq_getElem?_getD]

/-! ## Lanes a result forms -/

theorem gatherFlags_lane (m h : LaneMask) (f : Nat → Word × Flags) {L : Nat} (hL : L < 32) (hm : m.getLsbD L = true) :
    (gatherFlags m h f).1.getD L 0 = (f L).1 := by
  simp only [gatherFlags, gatherLanes]
  rw [getD_lanesOf_map _ _ _ hL]
  simp [hm]

theorem gatherLanes_lane (m : LaneMask) (f : Nat → Word × Flags) {L : Nat} (hL : L < 32) (hm : m.getLsbD L = true) :
    (gatherLanes m f).1.getD L 0 = (f L).1 := by
  simp only [gatherLanes]
  rw [getD_lanesOf_map _ _ _ hL]
  simp [hm]

end Sys2Proof.Laws
end

