-- ==== Sys2Proof/WellFormed.lean ====
section
/-! DEFINITION. Well-formed instructions: those whose encoding passes every check of R42 in a bundle that owns all 640 names and has the
largest base block, in or outside trap mode; and events whose parameters lie in their ranges. -/

namespace Sys2Proof

/-- The most permissive bundle for the checks. -/
def anyBundle (inTrap : Bool) : Machine.CheckEnv := { owned := 640, inTrap := inTrap, base := 256 }

/-- The parameters of an event lie in their ranges: cores, bins, links and units the device has, columns 0 to 15 of its compute dies and 16 to
31 of its cache dies (log entry 51). -/
def eventInRange (i : Instr) : Bool :=
  match i with
  | .reformBinTimeout core bin => decide (core < Config.nCores) && decide (bin < Config.nBins)
  | .ltIdleTick core => decide (core < Config.nCores)
  | .updateLineMerge core _ => decide (core < Config.nCores)
  | .copyUnitPerform core _ => decide (core < Config.nCores)
  | .copyComplete core _ => decide (core < Config.nCores)
  | .codebookFill core _ => decide (core < Config.nCores)
  | .qfenceComplete core _ => decide (core < Config.nCores)
  | .taskStart core engine => decide (core < Config.nCores) && decide (engine < 4)
  | .taskComplete core engine => decide (core < Config.nCores) && decide (engine < 4)
  | .riddleSieve unit _ _ => decide (unit < 16)
  | .riddleBinTimeout unit _ => decide (unit < 16)
  | .riddleBinLaunch unit _ => decide (unit < 16)
  | .columnSleep column => decide (column < 32)
  | .columnWake column => decide (column < 32)
  | .counterFlush core => decide (core < Config.nCores)
  | .qtailWrite port queue _ _ => decide (port < 2) && decide (queue < 64)
  | .qctlEnable port queue => decide (port < 2) && decide (queue < 64)
  | .qctlAbort port queue => decide (port < 2) && decide (queue < 64)
  | .faultbaseWrite port _ size => decide (port < 2) && decide (2 ≤ size) && decide (size ≤ 4096)
  | .faultackResolve port _ => decide (port < 2)
  | .faultackReject port _ => decide (port < 2)
  | .registerWrite port _ bytes _ => decide (port < 2) && (bytes == 4 || bytes == 8)
  | .recoveryImageSubmit port _ _ => decide (port < 2)
  | .linkDown link => decide (link < Config.nLinks)
  | .linkRejoin link => decide (link < Config.nLinks)
  | .vbusPlannedRetire bank => decide (bank < 128)
  | .vbusForcedRetire bank => decide (bank < 128)
  | .firmwareLadleComplete port => decide (port < 2)
  | _ => true

/-- An instruction is well formed: some bundle may issue it without failing a check. -/
def WellFormed (i : Instr) : Bool :=
  ((Machine.failing (anyBundle false) i).isNone || (Machine.failing (anyBundle true) i).isNone) && eventInRange i

end Sys2Proof
end

