-- ==== Sys2Proof/Tests/Slice0.lean ====
section
/-! SUPPORT. The model's own tests: worked words, ill-formed terms, small steps, and witnesses for the statements' hypotheses. -/

namespace Sys2Proof.Tests

open Machine Safety

set_option Elab.async false

/-! ## Helpers -/

/-- What `Issues` asks of a context of the bundle named. -/
abbrev IssuesHere (i : Instr) (cid bi : Nat) (x : Ctx) : Prop :=
  (x.c.cid = cid ∧ x.b.index = bi) ∧ failing x.env i = none ∧ (x.cast.hazards = true → x.inTrap = false → x.hazard i = none) ∧
  (isSync i = true → x.b.owed = []) ∧ ((markOf i || x.asMarked i) = true → x.inTrap = false → x.b.fpDue = none) ∧ (implicitMarker i = true → x.b.pend = []) ∧ x.c.ovc = 0

/-- The context of `Issues`, when its conditions hold. -/
def issuesCtx (i : Instr) (s : State) : Option Ctx :=
  s.cur.bind fun at_ => ((s.ctx? at_.1 at_.2 (guardOf i)).map Ctx.counted).filter fun x => decide (IssuesHere i at_.1 at_.2 x)

theorem issues_of_ctx (i : Instr) (s : State) (x : Ctx) (h : issuesCtx i s = some x) : Issues i s x := by
  simp only [issuesCtx, Option.bind_eq_some_iff, Option.filter_eq_some_iff, Option.map_eq_some_iff, decide_eq_true_eq] at h
  obtain ⟨⟨_, _⟩, hc, ⟨x0, h0, rfl⟩, ⟨rfl, rfl⟩, legal, clear, owed, due, drained, rows⟩ := h
  exact { cur := hc, ctx := ⟨x0, h0, rfl⟩, legal, clear, owed, due, drained, rows }

/-- A boolean condition on the context with which `i` issues in `s`. -/
def issuesAnd (i : Instr) (s : State) (p : Ctx → Bool) : Bool :=
  match issuesCtx i s with
  | some x => p x
  | none => false

theorem of_issuesAnd {i : Instr} {s : State} {p : Ctx → Bool} (h : issuesAnd i s p = true) : ∃ x, Issues i s x ∧ p x = true := by
  unfold issuesAnd at h
  split at h
  · rename_i x hx; exact ⟨x, issues_of_ctx i s x hx, h⟩
  · cases h

/-- `i` issues in `s` as a context that has `P`. -/
def Meets (i : Instr) (s : State) (P : Ctx → Prop) : Prop := ∃ x, Issues i s x ∧ P x

theorem meets {i : Instr} {s : State} {P : Ctx → Prop} [DecidablePred P] (h : issuesAnd i s (fun x => decide (P x)) = true) : Meets i s P :=
  let ⟨x, hx, hp⟩ := of_issuesAnd h
  ⟨x, hx, of_decide_eq_true hp⟩

theorem Meets.imp {i : Instr} {s : State} {P Q : Ctx → Prop} (h : Meets i s P) (hpq : ∀ x, P x → Q x) : Meets i s Q :=
  let ⟨x, hx, hp⟩ := h
  ⟨x, hx, hpq x hp⟩

/-- The instruction issues. -/
def Can (i : Instr) (s : State) : Prop := Meets i s fun _ => True

theorem can {i : Instr} {s : State} (h : issuesAnd i s (fun _ => true) = true) : Can i s :=
  let ⟨x, hx, _⟩ := of_issuesAnd h
  ⟨x, hx, trivial⟩

/-- It issues, and no FP_INVALID can come of it (the option is off). -/
def CanQuiet (i : Instr) (s : State) : Prop := Meets i s fun x => ∀ fl, Quiet x fl

theorem canQuiet {i : Instr} {s : State} (h : issuesAnd i s (fun x => !x.cast.fpinv) = true) : CanQuiet i s :=
  let ⟨x, hx, hp⟩ := of_issuesAnd h
  ⟨x, hx, fun fl a => by rw [a] at hp; cases hp⟩

/-- FmtA fields, all others zero, guard always true. -/
def fA (ty dst a b c func : Nat) : FmtA :=
  { m := 0, dst := BitVec.ofNat 10 dst, opa := BitVec.ofNat 10 a, opb := BitVec.ofNat 10 b, opc := BitVec.ofNat 10 c, moda := 0, modb := 0, modc := 0,
    ty := BitVec.ofNat 4 ty, guard := 30, dsub := 0, round := 0, func := BitVec.ofNat 8 func }
/-- The same under the guard p0. -/
def fAp0 (ty dst a b c func : Nat) : FmtA := { fA ty dst a b c func with guard := 0 }
/-- FmtI fields. -/
def fI (ty dst imm func : Nat) : FmtI :=
  { m := 0, dst := BitVec.ofNat 10 dst, opa := 0, opb := 0, imm := BitVec.ofNat 32 imm, round := 0, guard := 30, ty := BitVec.ofNat 4 ty, func := BitVec.ofNat 8 func, rsv := 0 }
/-- FmtM fields. -/
def fM (data base index aux width order scope func : Nat) : FmtM :=
  { m := 0, data := BitVec.ofNat 10 data, base := BitVec.ofNat 10 base, index := BitVec.ofNat 10 index, aux := BitVec.ofNat 10 aux, offset := 0, scale := if index = 1023 then 0 else 2,
    rsvHi := 0, guard := 30, width := BitVec.ofNat 3 width, order := BitVec.ofNat 3 order, scope := BitVec.ofNat 3 scope, func := BitVec.ofNat 4 func, rsvLo := 0 }
/-- FmtB fields. -/
def fB (reg aux offset : Nat) : FmtB :=
  { m := 0, reg := BitVec.ofNat 10 reg, aux := BitVec.ofNat 10 aux, rsvHi := 0, offset := BitVec.ofNat 32 offset, rsvMid := 0, guard := 30, func := 0, rsvLo := 0 }
/-- FmtE fields. -/
def fE (recd stamp aux queue func : Nat) : FmtE :=
  { m := 0, recd := BitVec.ofNat 10 recd, stamp := BitVec.ofNat 10 stamp, aux := BitVec.ofNat 10 aux, queue := BitVec.ofNat 5 queue, rsvHi := 0, guard := 30,
    func := BitVec.ofNat 8 func, rsvLo := 0 }

/-- A device in which bundle 0 of the only crew issues: the placed program's, edited by `e` (crew and bundle) and then by `g`. -/
def bed (e : Crew → Bundle → Crew × Bundle) (g : State → State := id) : State :=
  let s := State.reset.placeSlot 0x00400000_00000000_001E0000
  match s.crews with
  | c :: _ =>
    match c.bundles with
    | b :: _ =>
      let r := e { c with runnerDone := true } b
      g { s with crews := [r.1.setBundle r.2], cur := some (c.cid, 0), agenda := [] }
    | [] => s
  | [] => s
/-- The plain bed. -/
def bed0 : State := bed fun c b => (c, b)
/-- A bed whose bundle is edited. -/
def bedB (e : Bundle → Bundle) : State := bed fun c b => (c, e b)
/-- The v register n made U. -/
def putV (b : Bundle) (n v : Nat) : Bundle := { b with v := b.v.set n { shape := .u (BitVec.ofNat 32 v), fmt := 0, last := 0 } }

theorem witness_IntegerSums :
    Can (.add (fA 1 4 6 8 0 0)) bed0 ∧
    Can (.add (fA 5 4 6 8 0 0)) bed0 ∧
    Can (.sub (fA 1 4 6 8 0 0)) bed0 ∧
    Can (.sub (fA 5 4 6 8 0 0)) bed0 ∧
    Can (.mul (fA 1 4 6 8 0 0)) bed0 ∧
    Can (.mulh (fA 1 4 6 8 0 0)) bed0 ∧
    Can (.mad (fA 1 4 6 8 10 0)) bed0 ∧
    Can (.madw (fA 5 4 6 8 10 0)) bed0 ∧
    Can (.min (fA 1 4 6 8 0 0)) bed0 ∧
    Can (.max (fA 2 4 6 8 0 0)) bed0 ∧
    Can (.sadd (fA 1 4 6 8 0 0)) bed0 ∧
    Can (.ssub (fA 2 4 6 8 0 0)) bed0 := by
  and_intros <;> exact can (by decide +kernel)

theorem witness_CarriesAndCompares :
    Can (.addc (fA 2 4 6 8 864 1)) bed0 ∧
    Can (.addc (fA 6 4 6 8 864 1)) bed0 ∧
    Can (.subb (fA 2 4 6 8 864 1)) bed0 ∧
    Can (.subb (fA 6 4 6 8 864 1)) bed0 ∧
    Can (.cmp (fA 1 865 6 8 0 2)) bed0 ∧
    CanQuiet (.fcmp (fA 3 865 6 8 0 2)) bed0 := by
  and_intros <;> first | exact can (by decide +kernel) | exact canQuiet (by decide +kernel)

theorem witness_BitOperations :
    Can (.and (fA 0 4 6 8 0 0)) bed0 ∧
    Can (.or (fA 4 4 6 8 0 0)) bed0 ∧
    Can (.xor (fA 0 4 6 8 0 0)) bed0 ∧
    Can (.andn (fA 0 4 6 8 0 0)) bed0 ∧
    Can (.shl (fA 0 4 6 8 0 0)) bed0 ∧
    Can (.shr (fA 4 4 6 8 0 0)) bed0 ∧
    Can (.sar (fA 1 4 6 8 0 0)) bed0 ∧
    Can (.rot (fA 0 4 6 8 0 0)) bed0 ∧
    Can (.bfe (fA 1 4 6 8 0 0)) bed0 ∧
    Can (.bfi (fA 0 4 6 8 10 0)) bed0 ∧
    Can (.popc (fA 0 4 6 0 0 0)) bed0 ∧
    Can (.clz (fA 4 4 6 0 0 0)) bed0 ∧
    Can (.ctz (fA 0 4 6 0 0 0)) bed0 ∧
    Can (.brev (fA 0 4 6 0 0 0)) bed0 ∧
    Can (.lea (fA 4 4 6 8 802 0)) bed0 ∧
    Can (.dp4 (fA 1 4 6 8 10 1)) bed0 ∧
    Can (.dp2 (fA 1 4 6 8 10 0)) bed0 ∧
    Can (.prmt (fA 0 4 6 8 10 0)) bed0 := by
  and_intros <;> exact can (by decide +kernel)

theorem witness_FloatResults :
    CanQuiet (.fadd (fA 3 4 6 8 0 0)) bed0 ∧
    CanQuiet (.fmul (fA 3 4 6 8 0 0)) bed0 ∧
    CanQuiet (.fmin (fA 3 4 6 8 0 0)) bed0 ∧
    CanQuiet (.fmax (fA 3 4 6 8 0 0)) bed0 ∧
    CanQuiet (.fscale (fA 3 4 6 8 0 0)) bed0 ∧
    CanQuiet (.ffma (fA 3 4 6 8 10 0)) bed0 ∧
    CanQuiet (.fdot2 (fA 3 4 6 8 10 9)) bed0 ∧
    CanQuiet (.frnd (fA 3 4 6 0 0 0)) bed0 ∧
    CanQuiet (.fexp (fA 3 4 6 0 0 0)) bed0 ∧
    CanQuiet (.fexp (fA 3 4 6 0 0 1)) bed0 ∧
    CanQuiet (.fclass (fA 3 4 6 0 0 0)) bed0 := by
  and_intros <;> exact canQuiet (by decide +kernel)

theorem witness_Conversions :
    CanQuiet (.cvt (fA 5 4 6 0 0 3)) bed0 ∧
    CanQuiet (.cvt (fA 3 4 6 0 0 1)) bed0 ∧
    CanQuiet (.cvt (fA 1 4 6 0 0 3)) bed0 ∧
    CanQuiet (.cvtp (fA 8 4 6 8 0 0)) bed0 ∧
    CanQuiet (.quant (fA 1 4 6 8 10 3)) bed0 := by
  and_intros <;> exact canQuiet (by decide +kernel)

theorem witness_SpecialFunctions :
    Meets (.rcp (fA 3 4 6 0 0 0)) bed0 (fun x => x.act ≠ 0) ∧
    Meets (.rsq (fA 3 4 6 0 0 0)) bed0 (fun x => x.act ≠ 0) ∧
    Meets (.sqrt (fA 3 4 6 0 0 0)) bed0 (fun x => x.act ≠ 0) ∧
    Meets (.lg2 (fA 3 4 6 0 0 0)) bed0 (fun x => x.act ≠ 0) ∧
    Meets (.ex2 (fA 3 4 6 0 0 0)) bed0 (fun x => x.act ≠ 0) ∧
    Meets (.sinp (fA 3 4 6 0 0 0)) bed0 (fun x => x.act ≠ 0) ∧
    Meets (.cosp (fA 3 4 6 0 0 0)) bed0 (fun x => x.act ≠ 0) ∧
    Meets (.tanh (fA 3 4 6 0 0 0)) bed0 (fun x => x.act ≠ 0) := by
  and_intros <;> exact meets (by decide +kernel)

theorem witness_Copies :
    Can (.nop (fA 0 0 0 0 0 0)) bed0 ∧
    Can (.mov (fA 4 4 6 0 0 0)) bed0 ∧
    CanQuiet (.mov (fA 0 4 6 0 0 0)) bed0 ∧
    CanQuiet (.mov (fA 3 4 6 0 0 0)) bed0 ∧
    Meets (.mov (fA 4 644 646 0 0 0)) bed0 (fun x => x.actNH ≠ 0) ∧
    Meets (.mov (fAp0 4 644 646 0 0 0)) bed0 (fun x => x.actNH = 0) ∧
    Can (.sel (fA 4 4 6 8 864 0)) bed0 ∧
    CanQuiet (.sel (fA 0 4 6 8 864 0)) bed0 := by
  and_intros <;> first | exact can (by decide +kernel) | exact canQuiet (by decide +kernel) | exact meets (by decide +kernel)

theorem witness_SpecialAndScalar :
    Can (.movi (fI 4 4 7 1)) bed0 ∧
    Can (.movi (fI 4 4 7 0)) bed0 ∧
    Can (.movi (fI 6 4 7 0)) bed0 ∧
    Can (.movi (fI 0 5 7 0)) bed0 ∧
    Meets (.movi (fI 4 645 7 1)) bed0 (fun x => x.actNH ≠ 0) ∧
    Meets (.movi (fI 0 645 7 0)) bed0 (fun x => x.actNH ≠ 0) ∧
    Can (.sreg (fA 4 4 0 0 0 12)) bed0 ∧
    Can (.sreg (fA 0 4 0 0 0 0)) bed0 ∧
    Meets (.sreg (fA 0 644 0 0 0 4)) bed0 (fun x => x.actNH ≠ 0) ∧
    Meets (.sset (fA 4 644 6 0 0 0)) bed0 (fun x => x.actNH ≠ 0) ∧
    Meets (.sset (fAp0 0 768 6 0 0 0)) bed0 (fun x => x.actNH = 0) ∧
    Meets (.sset (fA 0 768 6 0 0 0)) bed0 (fun x => x.actNH ≠ 0) := by
  and_intros <;> first | exact can (by decide +kernel) | exact meets (by decide +kernel)

theorem witness_ShapeTags :
    Meets (.tag (fA 0 4 6 0 0 0)) bed0 (fun x => x.act ≠ 0 ∧ x.b.isPending 6 = false) ∧
    Meets (.expand (fA 0 4 0 0 0 0)) bed0 (fun x => x.actNH ≠ 0) ∧
    Meets (.expand (fAp0 0 4 0 0 0 0)) bed0 (fun x => x.actNH = 0) := by
  and_intros <;> exact meets (by decide +kernel)
/-- Crew and bundle found in a state, with a property. -/
def FindsBundle (s : State) (P : Crew → Bundle → Prop) : Prop := ∃ c b, s.bundle? c.cid b.index = some (c, b) ∧ P c b

theorem findsBundle {s : State} {cid bi : Nat} {P : Crew → Bundle → Prop} [∀ c b, Decidable (P c b)]
    (h : (match s.bundle? cid bi with
      | some (c, b) => c.cid == cid && b.index == bi && decide (P c b)
      | none => false) = true) : FindsBundle s P := by
  split at h
  · rename_i c b hb
    simp only [Bool.and_eq_true, beq_iff_eq, decide_eq_true_eq] at h
    obtain ⟨⟨rfl, rfl⟩, hp⟩ := h
    exact ⟨c, b, hb, hp⟩
  · cases h

/-- The line of a placed program whose slot 0 is `w`. -/
def lineOfSlot (w : Nat) : FLine := { addr := 0x10000, data := leBytes 64 (lineWith w) }
/-- The bundle's lanes in two sub-bundles, the second parked as given. -/
def halves (b : Bundle) (p : Park) : Bundle :=
  { b with subs := (b.subs.map fun y => { y with mask := 0xFFFF }) ++ [{ SubB.start 0xFFFF0000 0x10000 0 with park := p }] }
/-- A bundle in trap mode, all its lanes trapped. -/
def trapped (b : Bundle) (cause : Nat) : Bundle :=
  { b with trap := some { cause := cause, pc := 0x10000, mask := 0xFFFFFFFF, info := 5, others := [], pair := false, entering := false, debug := false } }
/-- A region handler at 0x1_0000 and further bits of word 4 of the descriptor. -/
def withCast (bits : Nat) (s : State) : State :=
  { s with
    casts := s.casts.map fun a => { a with desc := a.desc.set 4 ((a.word 4) ||| BitVec.ofNat 64 bits) }
    regions := s.regions.map fun r => { r with handler := 0x10000 } }
/-- p0 set in the low half of the lanes. -/
def p0Half (b : Bundle) : Bundle := { b with p := b.p.set 0 0xFFFF }
/-- Two sub-bundles, the second ready to run. -/
def bed2 : State := bedB fun b => halves b .run
/-- The same in a cast whose producer bundle is another. -/
def bedP : State := bed (fun c b => (c, halves b .run)) fun s => { s with casts := s.casts.map fun a => { a with desc := a.desc.set 2 (a.word 2 ||| 0x400) } }
/-- One sub-bundle in such a cast. -/
def bedFile : State := bed (fun c b => (c, b)) fun s => { s with casts := s.casts.map fun a => { a with desc := a.desc.set 2 (a.word 2 ||| 0x400) } }
/-- A bundle in trap mode under a handler. -/
def bedT : State := bed (fun c b => (c, (trapped b 1))) (withCast 0)
/-- FP_INVALID enabled, a handler, a signalling NaN in v6. -/
def bedF : State := bed (fun c b => (c, putV b 6 0x7F800001)) (withCast (2 ^ 9))
/-- v10, v11 hold the address of the placed line. -/
def bedR : State := bedB fun b => putV b 10 0x10000

/-- A bundle that owns 320 names. -/
def bedN : State := bedB fun b => { b with v := b.v ++ List.replicate 64 VReg.zero }
/-- A cast with one producer. -/
def bedD : State := bed (fun c b => (c, b)) (withCast (2 ^ 5))
/-- Trap mode, with k0 no PC. -/
def bedTk : State := bed (fun c b => (c, { (trapped b 1) with k := b.k.set 0 7 })) (withCast 0)
/-- Trap mode, with a trap area. -/
def bedTA : State := bed (fun c b => (c, { (trapped b 1) with area := some (TrapArea.zero 0 0) })) (withCast 0)

theorem witness_ResultForming : (∃ ty : Nat, ty ≤ 2) ∧ ∃ dsub i, dsub < 20 ∧ i < 32 ∧ (i < (subField dsub).1 ∨ (subField dsub).1 + (subField dsub).2 ≤ i) :=
  ⟨⟨0, by decide⟩, 1, 31, by decide⟩

/-- `i` raises FP_INVALID in `s`, its lanes setting the flags `fl`. -/
def Invalid (i : Instr) (s : State) (fl : Ctx → Nat → Flags) : Prop :=
  Meets i s fun x => x.cast.fpinv = true ∧ x.inTrap = false ∧ (maskOf fun L => x.actNH.getLsbD L && (fl x L).getLsbD 0) ≠ 0 ∧
    s.debugTakes x.c.castId 16 = false ∧ (s.region? x.c.region).any (fun r => r.handler != 0) = true

/-- Both operands v6. -/
def fNan : FmtA := fA 3 4 6 6 0 0
/-- Three operands v6. -/
def fNan3 : FmtA := fA 3 4 6 6 6 0
/-- fdot2 of f16 halves. -/
def fDot : FmtA := fA 3 4 6 8 10 9
/-- One operand v6. -/
def fOne (ty func : Nat) : FmtA := fA ty 4 6 0 0 func
/-- FP_INVALID enabled, a handler, a signalling f16 in v6. -/
def bedF16 : State := bed (fun c b => (c, putV b 6 0x7F817C01)) (withCast (2 ^ 9))

theorem witness_FpInvalidTrap :
    Invalid (.fadd fNan) bedF (fun x L => (floatLane fNan x L (addVal false (fltA fNan x L) (fltB fNan x L))).2) ∧
    Invalid (.fmul fNan) bedF (fun x L => (floatLane fNan x L (mulVal (fltA fNan x L) (fltB fNan x L))).2) ∧
    Invalid (.ffma fNan3) bedF (fun x L => (floatLane fNan3 x L (fmaVal false (fltA fNan3 x L) (fltB fNan3 x L) (fltC fNan3 x L))).2) ∧
    Invalid (.fdot2 fDot) bedF16 (fun x L => (fdot2Lane fDot x L).2) ∧
    Invalid (.frnd (fOne 3 0)) bedF (fun x L => (frndLane (fOne 3 0) x L).2) ∧
    Invalid (.fscale (fA 3 4 6 8 0 0)) bedF (fun x L => (fscaleLane (fA 3 4 6 8 0 0) x L).2) ∧
    Invalid (.fexp (fOne 3 0)) bedF (fun x L => (fexpLane (fOne 3 0) x L).2) ∧
    Invalid (.fmin fNan) bedF (fun x L => (minMaxLane fNan x false L).2) ∧ Invalid (.fmax fNan) bedF (fun x L => (minMaxLane fNan x true L).2) ∧
    Invalid (.cvtp (fA 8 4 6 8 0 0)) bedF (fun x L => (cvtpLane (fA 8 4 6 8 0 0) x L).2) ∧
    Invalid (.quant (fA 1 4 6 8 10 3)) bedF (fun x L => (quantLane (fA 1 4 6 8 10 3) x L).2) ∧
    Invalid (.cvt (fOne 1 3)) bedF (fun x L => (cvtLane (fOne 1 3) x L).2) ∧ Invalid (.cvt (fOne 5 3)) bedF (fun x L => (cvtWide (fOne 5 3) x L).2) ∧
    Invalid (.fcmp (fA 3 865 6 8 0 2)) bedF (fun x L => if (fcond 2 (fltA fNan x L) (fltB (fA 3 865 6 8 0 2) x L)).2 then flagIV else 0) ∧
    Invalid (.mov (fOne 3 0)) bedF (fun x L => (copyLane (fOne 3 0) x 6 0 L).2) ∧
    Invalid (.sel (fA 3 4 6 8 879 0)) bedF (fun x L => let f := fA 3 4 6 8 879 0; (copyLane f x (selFrom f x L).1 (selFrom f x L).2 L).2) := by
  and_intros <;> exact meets (by decide +kernel)

theorem witness_ExtendedNames :
    Meets (.xacq (fI 0 0 64 0)) bed0 (fun x => 64 ≤ x.b.v.length) ∧
    Meets (.xacq (fI 0 0 640 0)) (bed fun c b => ({ c with regGranules := 1 }, b)) (fun x => x.actNH ≠ 0 ∧ x.b.v.length < 640 ∧ x.c.bound < (x.c.bundles.length - 1) * x.c.base + 640) ∧
    Meets (.xacq (fI 0 0 384 0)) bed0 (fun x => x.actNH ≠ 0 ∧ x.b.v.length < 384 ∧ (x.c.bundles.length - 1) * x.c.base + 384 ≤ x.c.bound ∧
      x.c.claim - x.b.v.length + 384 ≤ x.c.bound ∧ x.olderXacq = false) ∧
    Meets (.xrel (fA 0 0 0 0 0 0)) bed0 (fun x => x.b.v.length ≤ x.c.base) ∧
    Meets (.xrel (fA 0 0 0 0 0 0)) bedN (fun x => x.actNH ≠ 0 ∧ x.c.base < x.b.v.length) := by
  and_intros <;> exact meets (by decide +kernel)

theorem witness_PredicatesAndFlags :
    Can (.pbool (fA 0 865 864 866 867 6)) bed0 ∧ Can (.pmov (fA 0 4 0 0 0 0)) bed0 ∧ Can (.pmov (fA 0 0 6 0 0 1)) bed0 ∧
    Meets (.fclr (fAp0 0 0 644 0 0 0)) bed0 (fun x => x.actNH = 0) ∧ Meets (.fclr (fA 0 0 644 0 0 0)) bed0 (fun x => x.actNH ≠ 0) ∧
    Meets (.fclr (fA 0 0 0 0 0 1)) bed0 (fun x => x.actNH ≠ 0) := by
  and_intros <;> first | exact can (by decide +kernel) | exact meets (by decide +kernel)

theorem witness_LanesExchange :
    Meets (.shfl (fA 0 4 6 8 10 0x11)) bed0 (fun x => x.act ≠ 0) ∧ Meets (.shfl (fA 4 4 6 8 10 1)) bed0 (fun x => x.act ≠ 0) ∧
    Meets (.shfr (fA 0 4 6 8 10 1)) bed0 (fun x => x.act ≠ 0) ∧ Meets (.qswap (fA 0 4 6 0 10 1)) bed0 (fun x => x.act ≠ 0) ∧
    Meets (.vote (fA 0 4 864 0 0 1)) bed0 (fun x => x.act ≠ 0) ∧ Meets (.ballot (fA 0 4 864 0 0 0)) bed0 (fun x => x.act ≠ 0) ∧
    Meets (.ballot (fA 4 4 864 0 0 0)) bed0 (fun x => x.act ≠ 0) ∧ Meets (.matchLanes (fA 0 4 6 0 0 0)) bed0 (fun x => x.act ≠ 0) := by
  and_intros <;> exact meets (by decide +kernel)

theorem witness_ReductionsAndDerivatives :
    Meets (.lred (fA 1 4 6 0 0 0)) bed0 (fun x => x.act ≠ 0) ∧ Meets (.lscan (fA 1 4 6 0 0 0)) bed0 (fun x => x.act ≠ 0) ∧
    Meets (.ddx (fA 3 4 6 0 0 0)) bed0 (fun x => x.act ≠ 0) ∧ Meets (.ddy (fA 3 4 6 0 0 0)) bed0 (fun x => x.act ≠ 0) := by
  and_intros <;> exact meets (by decide +kernel)

/-- Every ACTIVE lane's target of a branch is good. -/
def goodTargets (s : State) (x : Ctx) (t : Nat → DWord) : Bool :=
  (List.range 32).all fun L => !x.act.getLsbD L || (!s.targetBad x.c.core x.c.region (t L) && (s.targetBroken x.c.core x.c.region (t L)).isNone)
/-- Lane 0 is ACTIVE and its target fails. -/
def badTarget0 (s : State) (x : Ctx) (t : Nat → DWord) : Bool :=
  x.act.getLsbD 0 && s.targetBad x.c.core x.c.region (t 0) && (List.range 32).all fun L => (s.targetBroken x.c.core x.c.region (t L)).isNone
/-- The placed line fails its PARITY in memory and is in no cache. -/
def bedBroken : State := bed (fun c b => (c, b)) fun s =>
  { s with mem := s.mem.writeDev 0x10000 [1], cores := s.cores.set 0 CoreSt.init }

theorem witness_BranchesDivide :
    Meets (.bra (fB 1023 1023 0)) bed0 (fun x => goodTargets bed0 x (fun _ => pcOfLinear (pcLinear x.sub.pc)) = true) ∧
    Meets (.bra (fB 1023 1023 1)) bed0 (fun x => badTarget0 bed0 x (fun _ => pcOfLinear (pcLinear x.sub.pc + 1)) = true) ∧
    Meets (.brx (fB 10 1023 0)) bedR (fun x => goodTargets bedR x (fun L => BitVec.ofNat 64 (x.raw64 4 10 L)) = true) ∧
    Meets (.ret (fB 10 1023 0)) bedR (fun x => goodTargets bedR x (fun L => BitVec.ofNat 64 (x.raw64 4 10 L)) = true) ∧
    Meets (.call (fB 12 1023 0)) bedR (fun x => goodTargets bedR x (fun _ => pcOfLinear (pcLinear x.sub.pc)) = true) ∧
    Meets (.callx (fB 12 10 0)) bedR (fun x => goodTargets bedR x (fun L => BitVec.ofNat 64 (x.raw64 4 10 L)) = true) ∧
    Meets (.callx (fB 12 8 0)) (bedB fun b => putV b 8 0x10007) (fun x =>
      badTarget0 (bedB fun b => putV b 8 0x10007) x (fun L => BitVec.ofNat 64 (x.raw64 4 8 L)) = true) ∧
    Meets (.bra (fB 1023 1023 0)) bedBroken (fun x => x.act.getLsbD 0 = true ∧
      bedBroken.targetBroken x.c.core x.c.region (pcOfLinear (pcLinear x.sub.pc)) = some 0x10000) := by
  and_intros <;> exact meets (by decide +kernel)

/-- What `ParksAt` asks. -/
def mayPark (i : Instr) (x : Ctx) : Bool :=
  let y := x.forceReds i
  !y.releaseWaits y.subStrands 1 && x.b.live != 0 && x.b.subs.tail.any fun y => y.park == .run

theorem witness_StrandsSynchronise :
    Meets (.join (fA 0 0 0 0 0 0)) bed2 (fun x => mayPark (.join (fA 0 0 0 0 0 0)) x = true) ∧
    Meets (.reform (fB 879 0 0)) (bedB fun b => { (halves b .run) with stage := some 0 }) (fun x => x.filesNothing = true ∧ mayPark (.reform (fB 879 0 0)) x = true) ∧
    Meets (.reform (fB 879 0 0)) bedP (fun x => x.filesNothing = false ∧ mayPark (.reform (fB 879 0 0)) x = true ∧
      ∀ L, L < 32 → (x.forceReds (.reform (fB 879 0 0))).s.targetBad x.c.core x.c.region (reformTarget (fB 879 0 0) x L) = false ∧
        (x.forceReds (.reform (fB 879 0 0))).s.targetBroken x.c.core x.c.region (reformTarget (fB 879 0 0) x L) = none) ∧
    Meets (.bar (fA 0 0 0 0 0 1)) bed2 (fun x => mayPark (.bar (fA 0 0 0 0 0 1)) x = true) ∧
    Meets (.gbar (fA 0 0 0 0 0 0)) bed2 (fun x => mayPark (.gbar (fA 0 0 0 0 0 0)) x = true) ∧
    Meets (.wait (fA 0 0 0 0 0 0)) bed0 (fun x => x.spanBusy x.subStrands = false ∧ x.cast.deps = []) ∧
    Meets (.wait (fA 0 0 0 0 0 0)) bedD (fun x => x.spanBusy x.subStrands = false ∧ x.cast.deps ≠ []) ∧
    Meets (.join (fA 0 0 0 0 0 0)) (bedB fun b => halves b .join) (fun x => let j := x.forceReds (.join (fA 0 0 0 0 0 0))
      j.releaseWaits j.subStrands 1 = false ∧ x.inTrap = false ∧ x.c.st ≠ .halted ∧
      x.sub.mask &&& x.b.live ≠ 0 ∧ (x.c.bundles.map (·.index)).Nodup ∧ ∀ y ∈ x.b.subs.tail, y.park = .join ∧ y.pc = x.sub.pc) ∧
    Meets (.bar (fA 0 0 0 0 0 1)) bed0 (fun x => let r := x.forceReds (.bar (fA 0 0 0 0 0 1))
      r.releaseWaits r.subStrands 1 = false ∧ x.inTrap = false ∧ x.c.st ≠ .halted ∧
      x.sub.mask &&& x.b.live ≠ 0 ∧ (x.c.bundles.map (·.index)).Nodup ∧ x.b.subs.tail = [] ∧
      (∀ d ∈ x.c.bundles, d.index ≠ x.b.index → d.present = 0) ∧ r.s.binned x.c = false ∧ r.s.storesOpen x.c x.b.index = false ∧
      r.s.lateStores x.c.cid = false) ∧
    Meets (.reform (fB 879 2 0)) bedFile (fun x => let g := fB 879 2 0
      x.filesNothing = false ∧ x.inTrap = false ∧ x.sub.mask &&& x.b.live ≠ 0 ∧ x.b.subs.tail = [] ∧ x.c.st ≠ .halted ∧
      (x.forceReds (.reform g)).releaseWaits (x.forceReds (.reform g)).subStrands 1 = false ∧ (x.c.bundles.map (·.index)).Nodup ∧
      (∀ d ∈ x.c.bundles, d.index = x.b.index ∨ ∀ z ∈ d.subs, z.park = .run) ∧ (bedFile.core x.c.core).replay = [] ∧
      x.c.core < bedFile.cores.length ∧ 32 ≤ ((bedFile.core x.c.core).bins.filter (·.isNone)).length ∧
      ∀ L, L < 32 → (x.forceReds (.reform g)).s.targetBad x.c.core x.c.region (reformTarget g x L) = false ∧
        (x.forceReds (.reform g)).s.targetBroken x.c.core x.c.region (reformTarget g x L) = none) := by
  and_intros <;> exact meets (by decide +kernel)

theorem witness_ExitEndsStrands :
    Meets (.exit (fAp0 0 0 0 0 0 0)) (bedB p0Half) (fun x => x.sub.mask &&& x.b.live &&& ~~~x.b.helper &&& ~~~x.act ≠ 0) ∧
    Meets (.exit (fA 0 0 0 0 0 0)) bed0 (fun x => x.act = x.b.live ∧ bed0.hasParked x.c x.b.index = false ∧ x.b.present ≠ 0 ∧ x.c.st ≠ .halted) :=
  ⟨meets (by decide +kernel), meets (by decide +kernel)⟩

theorem witness_YieldSleepTrig :
    Meets (.yield (fA 0 0 0 0 0 0)) bed2 (fun x => x.act ≠ 0 ∧ x.b.subs.head? = some x.sub ∧ (x.b.subs.tail.head?).any (·.takesTurn)) ∧
    Can (.sleep (fI 0 0 0 0)) bed0 ∧ Meets (.sleep (fI 0 0 5 0)) bed0 (fun x => x.act ≠ 0) ∧
    Meets (.trig (fA 0 0 0 0 0 0)) bed0 (fun x => (x.forceReds (.trig (fA 0 0 0 0 0 0))).memWaits 2 4 = false) := by
  and_intros <;> exact meets (by decide +kernel)

/-- A bundle bound pair `rep` (two repeats) and `add v4, v6, v8`, the line entered. -/
def bedRep : State := bedB fun b => { b with subs := b.subs.map fun y => { y with line := some {
  addr := 0x10000, data := leBytes 64 (let l := 0x04C11110_00000000_001E0000 + 0x20004018_08000000_003E0000 * 2 ^ 96; l + (2 ^ 5 + parityOf l * 2 ^ 24) * 2 ^ 480) } } }
/-- `rep` of two repeats, steps 1, 1, 1 and 0. -/
def rep2 : FmtP := { m := 0, count := 1, dstep := 1, astep := 1, bstep := 1, cstep := 0, rsvHi := 0, guard := 30, rsvLo := 0 }

/-- The issuing context of a guard, counted, with a property. -/
def Finds (s : State) (guard : BitVec 5) (P : Ctx → Prop) : Prop :=
  ∃ x x0, s.cur = some (x.c.cid, x.b.index) ∧ s.ctx? x.c.cid x.b.index guard = some x0 ∧ x = x0.counted ∧ P x

theorem finds {s : State} {guard : BitVec 5} {P : Ctx → Prop} [DecidablePred P]
    (h : (match s.cur with
      | some (cid, bi) => match s.ctx? cid bi guard with
        | some x0 => x0.counted.c.cid == cid && x0.counted.b.index == bi && decide (P x0.counted)
        | none => false
      | none => false) = true) : Finds s guard P := by
  split at h
  · rename_i cid bi hc
    split at h
    · rename_i x0 hx
      simp only [Bool.and_eq_true, beq_iff_eq, decide_eq_true_eq] at h
      obtain ⟨⟨h1, h2⟩, h3⟩ := h
      exact ⟨x0.counted, x0, by rw [hc, h1, h2], by rw [h1, h2]; exact hx, rfl, h3⟩
    · cases h
  · cases h

theorem witness_RepRepeats : Finds bedRep 30 (fun x => x.boundInstr = some (.add (fA 1 4 6 8 0 0)) ∧ failing x.env (.rep rep2) = none ∧
    failing x.env (.add (fA 1 4 6 8 0 0)) = none ∧ stepChecks rep2 (.add (fA 1 4 6 8 0 0)) (fA 1 4 6 8 0 0) = [] ∧
    movedChecks x.env rep2 (.add (fA 1 4 6 8 0 0)) (fA 1 4 6 8 0 0) = [] ∧ x.sub.rep ≤ rep2.count.toNat ∧ x.cast.hazards = false ∧
    (markOf (.add (fA 1 4 6 8 0 0)) = true → x.inTrap = false → x.b.fpDue = none) ∧ x.c.ovc = 0 ∧ tyWide (fA 1 4 6 8 0 0).ty.toNat = false) := finds (by decide +kernel)

/-- A handler, outside trap mode. -/
def bedH : State := bed (fun c b => (c, b)) (withCast 0)

/-- A long instruction is pending, in a region without a handler. -/
def bedPend : State := bedB fun b => { b with pend := [{ id := 0, pc := 0x10001, names := [6], setsFlags := false, gather := none, result := none, written := false, prev := [], rivals := [] }] }

theorem witness_TakingATrap :
    FindsBundle bedH (fun c b => b.subs.head?.isSome ∧ b.trap = none ∧ bedH.debugTakes c.castId 4 = false ∧
      (bedH.region? c.region).any (fun r => r.handler != 0)) ∧
    FindsBundle bedT (fun c b => b.subs.head?.isSome ∧ b.trap ≠ none ∧ (bedT.region? c.region).isSome) ∧
    FindsBundle bed0 (fun c b => b.subs.head?.isSome ∧ bed0.debugTakes c.castId 4 = false ∧ b.pend = [] ∧
      (bed0.region? c.region).any (fun r => r.handler == 0)) ∧
    FindsBundle bedPend (fun c b => b.subs.head?.isSome ∧ b.trap = none ∧ bedPend.debugTakes c.castId 4 = false ∧ b.pend ≠ [] ∧
      (bedPend.region? c.region).isSome) := by
  and_intros <;> exact findsBundle (cid := 1) (bi := 0) (by decide +kernel)

theorem witness_KillAndReturn :
    ((bed0.cast? 1).any (fun a => a.castId == 1 && !a.done)) = true ∧
    Meets (.tret (fA 0 0 0 0 0 0)) bedT (fun x => (x.b.trap.any fun tr => tr.mask &&& x.b.live != 0) = true) ∧
    Meets (.tret (fA 0 0 0 0 0 1)) bedT (fun x => (x.b.trap.any fun tr => tr.mask &&& x.b.live != 0) = true) ∧
    Meets (.tret (fA 0 0 0 0 0 2)) bedT (fun x => (x.b.trap.any fun tr => tr.mask &&& x.b.live != 0) = true) ∧
    Meets (.tret (fA 0 0 880 0 0 3)) bedT (fun x => (x.b.trap.any fun tr => tr.mask &&& x.b.live != 0) = true ∧
      pcWellFormed (x.b.k.getD (880 - 880) 0) = true) ∧
    Meets (.tret (fA 0 0 880 0 0 3)) bedTk (fun x => pcWellFormed (x.b.k.getD (880 - 880) 0) = false) := by
  and_intros <;> first | decide +kernel | exact meets (by decide +kernel)

/-- The first failing check of an issuing instruction. -/
def Fails (i : Instr) (s : State) (cause : CheckCause) : Prop :=
  Finds s (guardOf i) fun x => carried i = true ∧ ((firstFailure (checks x.env i ++ x.castChecks i)).map (·.cause)) = some cause

/-- A long instruction that writes v6, not written yet; `fl` tells whether it sets a flag. -/
def pend6 (fl : Bool) : Pending :=
  { id := 0, pc := 0x10001, names := [6], setsFlags := fl, gather := none, result := none, written := false, prev := [], rivals := [] }
/-- HAZARDS, with that instruction pending. -/
def bedZ (fl : Bool) : State := bed (fun c b => (c, { b with pend := [pend6 fl] })) (withCast (2 ^ 11))
/-- What `HazardsTrap` asks of every case. -/
def hazardous (i : Instr) (x : Ctx) : Bool :=
  carried i && (firstFailure (checks x.env i ++ x.castChecks i)).isNone && x.cast.hazards && !x.inTrap

theorem witness_FailingChecksTrap :
    Fails (.add (fA 1 4 6 8 1 0)) bed0 .illegalOp ∧ Fails (.tret (fA 0 0 0 0 0 0)) bed0 .privilege ∧ Fails (.fadd (fA 0 4 6 8 0 0)) bed0 .illegalOp ∧
    Fails (.join (fA 0 0 0 0 0 0)) bedT .illegalOp ∧ Fails (.stbar (fA 0 0 0 0 0 2)) bed0 .illegalOp ∧ Fails (.lds (fM 700 1023 888 1023 6 0 0 0)) bed0 .illegalOperand ∧
    (∃ env i, privileged i = true ∧ env.inTrap = false ∧ (failing env i).isSome) ∧ (∃ env i, notInTrap i = true ∧ env.inTrap = true ∧ (failing env i).isSome) ∧
    Finds (bedZ false) 30 (fun x => hazardous (.add (fA 1 4 6 8 0 0)) x = true ∧
      (readNames (.add (fA 1 4 6 8 0 0)) ++ x.castReads (.add (fA 1 4 6 8 0 0))).find? x.b.isPending = some 6 ∧
      (x.b.pend.find? (fun q => q.names.contains 6)).isSome) ∧
    Finds (bedZ true) 30 (fun x => let i : Instr := .sreg (fA 0 4 0 0 0 13)
      hazardous i x = true ∧ (∀ m ∈ readNames i ++ x.castReads i, x.b.isPending m = false) ∧ readsFlags i = true ∧ (x.b.pend.find? (·.setsFlags)).isSome) ∧
    Finds (bedZ false) 30 (fun x => let i : Instr := .add (fA 1 6 4 8 0 0)
      hazardous i x = true ∧ (∀ m ∈ readNames i ++ x.castReads i, x.b.isPending m = false) ∧ readsFlags i = false ∧
      (writeNames i).find? x.b.isPending = some 6 ∧ (x.b.pend.find? (fun q => q.names.contains 6)).isSome) := by
  and_intros
  all_goals first
    | exact finds (by decide +kernel)
    | exact ⟨anyBundle false, .tret (fA 0 0 0 0 0 0), by decide +kernel⟩
    | exact ⟨anyBundle true, .join (fA 0 0 0 0 0 0), by decide +kernel⟩

theorem witness_SoftwareTraps :
    Meets (.trap (fI 0 0 0x101 0)) bed0 (fun x => x.actNH ≠ 0) ∧ Meets (.trap { fI 0 0 0x101 0 with guard := 0 }) bed0 (fun x => x.actNH = 0) ∧
    Meets (.brk (fA 0 0 0 0 0 7)) bed0 (fun x => x.actNH ≠ 0) ∧ Meets (.brk (fAp0 0 0 0 0 0 7)) bed0 (fun x => x.actNH = 0) := by
  and_intros <;> exact meets (by decide +kernel)

theorem witness_TrapAreaMoves :
    Meets (.tsave (fA 0 0 4 0 0 3)) bedTA (fun x => x.withArea.isSome ∧ bedTA.bankAwake 0 = true) ∧
    Meets (.tload (fA 0 0 4 0 0 3)) bedTA (fun x => x.act ≠ 0 ∧ x.b.area.isSome ∧ bedTA.bankAwake 0 = true) :=
  ⟨meets (by decide +kernel), meets (by decide +kernel)⟩

/-! ## Scratch and global memory -/

/-- `Reaches`, decided. -/
def reachesB (x : Ctx) (k : Reach) (f : FmtM) (m : LaneMask) : Bool :=
  !x.memWaits f.order.toNat f.scope.toNat && (List.range 32).all fun L => !m.getLsbD L ||
    ((match laneSpot x k f L with
      | .at _ _ _ => true
      | _ => false) && !x.held k (laneSpot x k f L) (widthBytes f.width.toNat))

theorem reaches_of (x : Ctx) (k : Reach) (f : FmtM) (m : LaneMask) (h : reachesB x k f m = true) : Reaches x k f m := by
  simp only [reachesB, Bool.and_eq_true, Bool.not_eq_true', List.all_eq_true, List.mem_range, Bool.or_eq_true] at h
  refine ⟨h.1, fun L hL hm => ?_⟩
  rcases h.2 L hL with h | ⟨h, h'⟩
  · rw [hm] at h; cases h
  · refine ⟨?_, h'⟩
    split at h
    · rename_i cid area o e; exact ⟨cid, area, o, e⟩
    · cases h

/-- The scratch of every crew is in canonical form, decided. -/
def scratchWfB (s : State) : Bool := s.crews.all fun d => d.plain.wf && d.ringMem.wf && d.live.wf && d.shadow.wf

theorem scratchWf_of (s : State) (h : scratchWfB s = true) : ScratchWf s := by
  simp only [scratchWfB, List.all_eq_true, Bool.and_eq_true] at h
  intro d hd area
  obtain ⟨⟨⟨h1, h2⟩, h3⟩, h4⟩ := h d hd
  cases area <;> assumption

/-- Lane 0 alone reaches a poisoned unit of plain scratch. -/
def bedQ : State := bed fun c b => ({ c with poison := [(.plain, 0)] }, b)

/-- Accesses of one word a lane at plain offset LANE: one lane in four is aligned. -/
def misF (aux : Nat) : FmtM := { fM 4 1023 888 aux 4 0 0 0 with scale := 0 }
/-- What `ScratchFaults` asks of an access of the lanes of `m`: some fault, some do not, and nothing holds it. -/
def switchesB (x : Ctx) (k : Reach) (f : FmtM) (m : LaneMask) : Bool :=
  let bad := faulting x k f m
  let n := widthBytes f.width.toNat
  bad != 0 && (x.sub.mask &&& x.b.live &&& ~~~x.b.helper &&& ~~~bad) != 0 && !x.memWaits f.order.toNat f.scope.toNat &&
    (List.range 32).all fun L => !m.getLsbD L || (!x.held k (laneSpot x k f L) n && !x.scratchPoison (laneSpot x k f L) n)
/-- A pipeline cast's bundle that holds a slot; its lanes 0 to 15 name index 200 in v6, the others 0. -/
def bedOut : State := bed (fun c b => (c, { b with
  prim := some { na := 0, verts := [], tris := [] }, v := b.v.set 6 { shape := .g (List.replicate 16 200 ++ List.replicate 16 0), fmt := 0, last := 0 } })) (withCast (2 ^ 14))

theorem witness_ScratchAccesses :
    Meets (.lds (misF 1023)) bed0 (fun x => switchesB x .load (misF 1023) x.act = true) ∧
    Meets (.sts (misF 1023)) bed0 (fun x => switchesB x .store (misF 1023) x.actNH = true) ∧
    Meets (.atoms (misF 6)) bed0 (fun x => x.cast.fpinv = false ∧ switchesB x .atom (misF 6) x.actNH = true) ∧
    Meets (.vemit (fA 0 0 6 0 0 0)) bedOut (fun x => x.cast.kind = 1 ∧ x.b.prim ≠ none ∧
      (maskOf fun L => x.act.getLsbD L && decide (96 ≤ x.raw32 0 6 L)) = 0xFFFF ∧ x.sub.mask &&& x.b.live &&& ~~~x.b.helper = 0xFFFFFFFF) ∧
    Meets (.pemit (fA 0 0 6 8 0 0)) bedOut (fun x => x.cast.kind = 1 ∧ x.b.prim ≠ none ∧
      (maskOf fun L => x.act.getLsbD L && (decide (160 ≤ x.raw32 0 6 L) || (List.range 3).any fun i => decide (96 ≤ x.raw32 0 8 L % 2 ^ 24 / 256 ^ i % 256))) = 0xFFFF) ∧
    Meets (.lds { fM 4 1023 888 1023 4 0 0 0 with guard := 0 }) bed0 (fun x => x.act = 0) ∧
    Meets (.lds (fM 4 1023 888 1023 4 0 0 0)) bed0 (fun x => reachesB x .load (fM 4 1023 888 1023 4 0 0 0) x.act = true ∧ x.act ≠ 0 ∧
      ∀ L, L < 32 → x.act.getLsbD L = true → x.scratchPoison (laneSpot x .load (fM 4 1023 888 1023 4 0 0 0) L) 4 = false) ∧
    Meets (.lds (fM 4 1023 888 1023 4 0 0 0)) bedQ (fun x => reachesB x .load (fM 4 1023 888 1023 4 0 0 0) x.act = true ∧ x.act.getLsbD 0 = true ∧
      x.scratchPoison (laneSpot x .load (fM 4 1023 888 1023 4 0 0 0) 0) 4 = true) ∧
    Meets (.sts (fM 4 1023 888 1023 4 0 0 0)) bed0 (fun x => scratchWfB bed0 = true ∧ reachesB x .store (fM 4 1023 888 1023 4 0 0 0) x.actNH = true) ∧
    Meets (.atoms (fM 4 1023 888 6 4 0 0 0)) bed0 (fun x => scratchWfB bed0 = true ∧ x.actNH ≠ 0 ∧
      reachesB x .atom (fM 4 1023 888 6 4 0 0 0) x.actNH = true ∧
      (∀ L, L < 32 → x.actNH.getLsbD L = true → x.scratchPoison (laneSpot x .atom (fM 4 1023 888 6 4 0 0 0) L) 4 = false) ∧
      ∀ L, L < 32 → laneSpot x .atom (fM 4 1023 888 6 4 0 0 0) L = .at 1 .plain (4 * L)) := by
  and_intros <;> exact meets (by decide +kernel)

/-- Spots four bytes apart agree or do not meet. -/
theorem witness_spotsApart (x : Ctx) (f : FmtM) (h : ∀ L, L < 32 → laneSpot x .atom f L = .at 1 .plain (4 * L)) :
    ∀ L M, L < 32 → M < 32 → ∀ cid area o o', laneSpot x .atom f L = .at cid area o → laneSpot x .atom f M = .at cid area o' →
      o = o' ∨ o + 4 ≤ o' ∨ o' + 4 ≤ o := by
  intro L M hL hM cid area o o' h1 h2
  rw [h L hL] at h1
  rw [h M hM] at h2
  cases h1
  cases h2
  omega

/-- Ring 0 with its stage 0 FULL. -/
def bedFull : State := bed fun c b => ({ c with rings := c.rings.map fun r => r.map fun g => { g with st := g.st.set (g.phys 0) { Stage.empty with st := .full } } }, b)

theorem witness_RingStages :
    Meets (.stbar (fA 0 0 0 0 0 2)) bed0 (fun x => x.c.ring? 1 = none) ∧
    Meets (.stbar (fA 0 0 0 0 0 0)) (bedB fun b => { b with stage := some 0 }) (fun x => (x.c.ring? 0).any (fun r => r.st.length == r.stages && decide (0 < r.stages)) ∧
      x.b.stage ≠ none) ∧
    Meets (.stbar (fAp0 0 0 0 0 0 0)) bed0 (fun x => (x.c.ring? 0).isSome ∧ x.b.stage = none ∧ x.actNH = 0) ∧
    Meets (.stbar (fA 0 0 0 0 0 0)) bed0 (fun x => x.b.stage = none ∧ x.actNH ≠ 0 ∧
      (x.c.ring? 0).any (fun r => r.st.length == r.stages && decide (0 < r.stages) && decide ((r.stage (r.phys r.dist)).issued < r.parr))) ∧
    Meets (.stbar (fA 0 0 0 0 0 1)) bedFull (fun x => x.b.stage = none ∧ x.actNH ≠ 0 ∧
      (x.c.ring? 0).any (fun r => r.st.length == r.stages && decide (0 < r.stages) && !r.spawn && (r.stage (r.phys 0)).st == .full)) ∧
    Meets (.ringq (fA 0 4 0 0 0 1)) bed0 (fun x => x.c.ring? 1 = none) ∧
    Meets (.ringq (fA 0 4 0 0 0 2)) bed0 (fun x => x.act ≠ 0 ∧ (x.c.ring? 0).any (fun r => decide (r.stages ≤ 8) && r.st.length == r.stages)) := by
  and_intros <;> exact meets (by decide +kernel)

/-- `Mapped`, decided. -/
def mappedB (x : Ctx) (right : DWord → Bool) (va n : Nat) : Bool :=
  va % n == 0 && (match x.s.translate x.c.core x.c.region va with
    | .leaf p => right p && !pteChecked p && (!pteShared p || !x.s.host.windowLost)
    | _ => false)

theorem mapped_of (x : Ctx) (right : DWord → Bool) (va n : Nat) (h : mappedB x right va n = true) : Mapped x right va n := by
  simp only [mappedB, Bool.and_eq_true, beq_iff_eq] at h
  refine ⟨h.1, ?_⟩
  split at h
  · rename_i p e
    obtain ⟨-, ⟨h2, h3⟩, h4⟩ := by simpa only [Bool.and_eq_true, Bool.or_eq_true, Bool.not_eq_true'] using h
    refine ⟨p, e, h2, h3, fun hs => ?_⟩
    rcases h4 with h4 | h4
    · rw [hs] at h4; cases h4
    · exact h4
  · cases h.2

/-- `Free`, decided; no load is performed again and L1 is empty. -/
def freeB (x : Ctx) (order scope : Nat) : Bool :=
  !x.memWaits order scope && (x.s.core x.c.core).replay.isEmpty && !x.loadsOut (fun _ => true) && x.c.nan.isEmpty && x.sub.redo.isNone && (x.s.core x.c.core).l1.isEmpty
/-- Lanes of `m` have mapped, clean, device places for n bytes at `va`. -/
def cleanB (x : Ctx) (right : DWord → Bool) (m : LaneMask) (va : Nat → Nat) (n : Nat) : Bool :=
  (List.range 32).all fun L => !m.getLsbD L || (mappedB x right (va L) n && !x.s.mem.poisoned (placeAt x (va L)) n && !isHost (placeAt x (va L)))

/-- Loads of one word a lane from 0x1_0000. -/
def ldF : FmtM := fM 4 10 888 1023 4 0 0 0
/-- The same with AUX v6. -/
def ldX : FmtM := fM 4 10 888 6 4 0 0 0
/-- 16-byte accesses of every lane at 0x1_0000. -/
def cellF (aux func : Nat) : FmtM := fM 4 10 1023 aux 6 0 0 func
/-- `xld` and `cst` from s6, s7, which hold 0x1_0000; the page after it is known to be absent. -/
def bedS (base : Nat) : State := bed (fun c b => (c, { b with s := b.s.set 6 (BitVec.ofNat 64 base) })) fun s =>
  { s with mem := { s.mem with missing := [{ core := 0, root := 0x4000, vpage := 9, malformed := false, checked := false }] } }

/-- A gather of 16 bytes into v4 to v7 whose lane 0 has its bytes. -/
def gather16 : Gather :=
  { mask := 1, bytes := 16, dst := 4, signed := false, full := false, uniform := false, got := [(0, List.replicate 16 0x81)], also := RegResult.empty, acquire := false, cell := none, limit := 640 }

theorem witness_GlobalReads :
    Meets (.ld { ldF with guard := 0 }) bedR (fun x => x.loadMask 4 = 0) ∧
    Meets (.ld ldF) bedR (fun x => x.loadMask 4 ≠ 0 ∧ freeB x 0 0 = true ∧ cleanB x pteR (x.loadMask 4) (x.globalAddr ldF) 4 = true) ∧
    (∃ (g : Gather) (n : Nat), g.cell = none ∧ g.also = RegResult.empty ∧ g.mask.getLsbD 0 = true ∧ g.dst + 4 ≤ g.limit ∧ g.limit ≤ 640 ∧
      (g.lane 0).length = g.bytes ∧ g.bytes = n ∧ n = 16) ∧
    Meets (.xld (fM 4 646 1023 1023 4 0 0 0)) (bedS 0x10000) (fun x => x.act ≠ 0 ∧ freeB x 0 0 = true ∧ x.act.lanes.length = 32 ∧
      ∀ j, j < 32 → mappedB x pteR (0x10000 + j * 4) 4 = true ∧ x.globalAddr (fM 4 646 1023 1023 4 0 0 0) (lowLane x.act) = 0x10000) ∧
    Meets (.xld (fM 4 646 1023 6 4 0 0 1)) (bedS 0x11FC0) (fun x => x.act ≠ 0 ∧ freeB x 0 0 = true ∧ x.act.lanes.length = 32 ∧
      x.globalAddr (fM 4 646 1023 6 4 0 0 1) (lowLane x.act) = 0x11FC0 ∧ (∀ j, j < 16 → mappedB x pteR (0x11FC0 + j * 4) 4 = true) ∧
      ∀ j, j < 32 → 16 ≤ j → x.s.translate x.c.core x.c.region (0x11FC0 + j * 4) = .absent false false) := by
  and_intros <;> first | exact meets (by decide +kernel) | exact ⟨gather16, 16, by decide +kernel⟩

/-- What `GlobalStores` asks of n bytes a lane. -/
def storesB (x : Ctx) (f : FmtM) (n : Nat) : Bool :=
  !x.memWaits f.order.toNat f.scope.toNat && (x.s.core x.c.core).replay.isEmpty && !x.loadsOut (fun _ => true) && x.actNH != 0 && cleanB x pteW x.actNH (x.globalAddr f) n

theorem witness_GlobalWrites :
    Meets (.st { ldF with guard := 0 }) bedR (fun x => x.actNH = 0) ∧ Meets (.st ldF) bedR (fun x => storesB x ldF 4 = true) ∧
    Meets (.xsadd (cellF 1023 0)) bedR (fun x => storesB x (cellF 1023 0) 16 = true) ∧
    Meets (.xsclr (cellF 1023 0)) bedR (fun x => storesB x (cellF 1023 0) 16 = true) ∧
    Meets (.cst { fM 4 646 1023 1023 4 0 0 0 with guard := 0 }) (bedS 0x10000) (fun x => x.actNH = 0) ∧
    Meets (.cst (fM 4 646 1023 1023 4 0 0 0)) (bedS 0x10000) (fun x => x.actNH ≠ 0 ∧ x.memWaits 0 0 = false ∧ (x.s.core x.c.core).replay = [] ∧ x.loadsOut (fun _ => true) = false ∧
      x.globalAddr (fM 4 646 1023 1023 4 0 0 0) (lowLane x.actNH) = 0x10000 ∧ x.actNH.lanes.length = 32 ∧ ∀ j, j < 32 → mappedB x pteW (0x10000 + j * 4) 4 = true) := by
  and_intros <;> exact meets (by decide +kernel)

theorem witness_AtomicsAndSums :
    Meets (.atom { ldX with guard := 0 }) bedR (fun x => x.actNH = 0) ∧
    Meets (.atom ldX) bedR (fun x => x.actNH ≠ 0 ∧ freeB x 0 0 = true ∧ cleanB x (fun p => pteR p && pteW p) x.actNH (x.globalAddr ldX) 4 = true) ∧
    Meets (.red (fM 4 10 888 1023 4 2 4 0)) bedR (fun x => storesB x (fM 4 10 888 1023 4 2 4 0) 4 = true ∧ (fM 4 10 888 1023 4 2 4 0).order ≠ 0) ∧
    Meets (.red ldF) bedR (fun x => storesB x ldF 4 = true ∧ ldF.order = 0 ∧ x.c.core < bedR.cores.length ∧ bedR.mem.requests = [] ∧
      (bedR.core x.c.core).upd = [] ∧ ∀ L, L < 32 → x.s.translate x.c.core x.c.region (x.globalAddr ldF L) = .leaf placedPte ∧
      placeAt x (x.globalAddr ldF L) = 0x10000 + 4 * L) ∧ (pteCache placedPte = 0 ∧ pteShared placedPte = false) ∧
    Meets (.xsrd { cellF 865 0 with guard := 0 }) bedR (fun x => x.act = 0) ∧
    Meets (.xsrd (cellF 865 8)) bedR (fun x => x.act ≠ 0 ∧ freeB x 0 0 = true ∧
      cleanB x (fun p => pteR p && (!true || pteW p)) x.act (x.globalAddr (cellF 865 8)) 16 = true) := by
  and_intros <;> first | exact meets (by decide +kernel) | decide +kernel

/-- Trap mode, v10 and v11 holding 0x1_0000. -/
def bedTR : State := bed (fun c b => (c, putV (trapped b 1) 10 0x10000)) (withCast 0)
/-- `pref` and `cctl` of the lanes' addresses. -/
def hintF (func : Nat) : FmtM := fM 800 10 888 1023 0 0 0 func
/-- A request of an agent of core 0 for a line, in a state. -/
def agentReq (a : Agent) (line : Nat) (wr : Bool) (st : ReqSt) : Request :=
  { id := 0, core := 0, crew := 1, bun := 0, pend := none, pc := 0, host := 0, root := 0x4000, line := line, lanes := [], order := 0, scope := 0, strands := [],
    cacheL1 := false, first := false, uncached := false, time := 0, refusals := 0, st := st, golden := none, agent := some a, wr := wr }
/-- v8, v9 hold 0x1_0100, v12, v13 hold 5, and L2 the line of 0x1_0100; the homes have served `served` requests of the bundle's `mwait`. -/
def bedW (served : Bool := true) : State := bed (fun c b => (c, putV (putV b 8 0x10100) 12 5)) fun s => let t := s.touchLine 0x10100
  { t with mem := { t.mem with requests := if served then [agentReq (.mwait 1 0) 0x10100 false .ready] else [] } }
/-- The crew asks for pages not present: of v10's addresses, whose page is known to be absent. -/
def bedAsk : State := bed (fun c b => ({ c with demand := true }, putV b 10 0x12000)) fun s =>
  { s with
    mem := { s.mem with missing := [{ core := 0, root := 0x4000, vpage := 9, malformed := false, checked := false }] }
    host := { s.host with ports := s.host.ports.map fun p => { p with faultSize := 64, faultOpen := true } } }
/-- An update-only line of 0x1_0000 in core 0. -/
def bedU1 : State := bed (fun c b => (c, putV b 10 0x10000)) fun s =>
  s.setCore 0 { (s.core 0) with upd := [{ line := 0x10000, words := [{ idx := 0, func := 0, bytes := 4, val := 1 }], users := [(1, 0, 0)] }] }
/-- The page of a lane's address holds no access. -/
def pageFree (s : State) (x : Ctx) (f : FmtM) : Bool :=
  let root := (s.rootHost x.c.region).1
  let hit := fun bits a => x.act.lanes.any fun L => samePage bits a (x.globalAddr f L)
  !x.storesOut && !s.accessHeld root hit && !s.stampHeld root hit

theorem witness_HintsAndCacheControl :
    (∀ L, L < 32 → bedR.translate 0 1 (0x10000 + 4 * L) ≠ .walk) ∧ Can (.pref (hintF 0)) bedR ∧
    Meets (.pref (hintF 2)) bedR (fun x => x.c.demand = false) ∧
    Meets (.pref (hintF 2)) bedAsk (fun x => x.c.demand = true ∧ (bedAsk.region? x.c.region).any (fun r => let port := bedAsk.host.ports.getD r.host Port.init
        port.faultOpen && decide ((bedAsk.mem.pageReqs.filter fun q => q.host == r.host).length + 32 ≤ port.faultSize)) = true ∧
      ∀ L, L < 32 → bedAsk.translate x.c.core x.c.region (x.globalAddr (hintF 2) L) = .absent false false) ∧
    Meets (.cctl (hintF 8)) bedTR (fun x => pageFree bedTR x (hintF 8) = true) ∧
    Meets (.cctl (hintF 10)) bedTR (fun x => x.act ≠ 0 ∧ x.storesOut = false ∧ bedTR.accessHeld (bedTR.rootHost x.c.region).1 (fun _ _ => true) = false ∧
      bedTR.stampHeld (bedTR.rootHost x.c.region).1 (fun _ _ => true) = false) ∧
    Meets (.cctl { hintF 10 with guard := 0 }) bedTR (fun x => x.act = 0) ∧
    Meets (.cctl (hintF 0)) bedR (fun x => x.c.core < bedR.cores.length ∧ (bedR.core x.c.core).upd = []) ∧
    Can (.cctl (hintF 1)) bedR ∧ Can (.cctl (hintF 2)) bedR ∧ Can (.cctl (hintF 3)) bedR ∧ Can (.cctl (hintF 9)) bedTR ∧
    Meets (.cctl (hintF 0)) bedU1 (fun x => ((bedU1.core x.c.core).upd.map (·.line)) = [0x10000] ∧ homeless 0x10000 = false ∧
      (∀ L, L < 32 → bedU1.translate x.c.core x.c.region (x.globalAddr (hintF 0) L) ≠ .walk) ∧ lineOf (placeAt x (x.globalAddr (hintF 0) 0)) = 0x10000) := by
  and_intros <;> first | decide +kernel | exact meets (by decide +kernel)

theorem witness_FencesGoOn :
    Meets (.fence (fAp0 0 0 0 0 0 0x24)) bed0 (fun x => x.act = 0) ∧
    Meets (.fence (fA 0 0 0 0 0 0x24)) bed0 (fun x => x.act ≠ 0 ∧ let y := x.forceReds (.fence (fA 0 0 0 0 0 0x24))
      y.memWaits 4 4 = false ∧ y.loadsOpen x.actStrands = false) := by
  and_intros <;> exact meets (by decide +kernel)

theorem witness_MemoryWait :
    Meets (.mwait { fM 800 8 1023 14 5 1 4 0 with guard := 0 }) bedW (fun x => x.act = 0) ∧
    Meets (.mwait (fM 4 8 1023 14 5 1 4 0)) (bedW false) (fun x => freeB x 1 4 = true ∧ ((bedW false).core x.c.core).entries = [] ∧
      (bedW false).mem.requests = [] ∧ (∀ L, L < 32 → mappedB x pteR (x.globalAddr (fM 4 8 1023 14 5 1 4 0) L) 8 = true) ∧ x.act.getLsbD 0 = true ∧
      homeless (lineOf (placeAt x (x.globalAddr (fM 4 8 1023 14 5 1 4 0) 0))) = false) ∧
    Meets (.mwait (fM 4 8 1023 14 5 1 4 0)) bedW (fun x => x.act ≠ 0 ∧ freeB x 1 4 = true ∧ (bedW.core x.c.core).entries = [] ∧
      (bedW.cores.all fun k => k.upd.isEmpty) = true ∧ bedW.mem.requests.map (fun q => (q.agent, q.wr, q.st, q.line)) = [(some (.mwait 1 0), false, .ready, 0x10100)] ∧
      cleanB x pteR x.act (x.globalAddr (fM 4 8 1023 14 5 1 4 0)) 8 = true ∧
      (∀ L, L < 32 → placeAt x (x.globalAddr (fM 4 8 1023 14 5 1 4 0) L) = 0x10100 ∧ (bedW.mem.l2At 0x10100).isSome = true) ∧ ∀ L, L < 32 → x.raw64 4 14 L = 0) ∧
    Meets (.mwait (fM 4 8 1023 12 5 1 4 0)) bedW (fun x => x.act ≠ 0 ∧ freeB x 1 4 = true ∧
      cleanB x pteR x.act (x.globalAddr (fM 4 8 1023 12 5 1 4 0)) 8 = true ∧ x.raw64 4 12 0 = 5 ∧ bedW.mem.read 0 0x10100 8 = List.replicate 8 0) := by
  and_intros <;> exact meets (by decide +kernel)

/-- v10, v11 hold an address that is no multiple of 4. -/
def bedMis : State := bedB fun b => putV b 10 0x10002
/-- The placed page CHECKED, and an open span of strand 64 that wrote its first sector. -/
def bedC : State := bed (fun c b => ({ c with bundles := c.bundles ++ [{ b with index := 1, strands := (List.range 32).map (64 + ·), spans :=
    [{ strand := 64, sectors := [{ sector := 0x10000 / 32, reads := 0, writes := BitVec.allOnes 32, atoms := 0 }] }] }] }, { (putV b 10 0x10000) with p := b.p.set 0 1 })) fun s =>
  { s with mem := { s.mem with tlb := s.mem.tlb.map fun e => { e with pte := e.pte ||| 0x40 }, gddr := s.mem.gddr.set (0xA000 + 64) 0x7B } }
/-- v10, v11 hold an address of a page known to be absent, in a region with a handler. -/
def bedAbs (demand : Bool) : State := bed (fun c b => ({ c with demand := demand }, putV b 10 0x12000)) fun s =>
  { s with
    mem := { s.mem with missing := [{ core := 0, root := 0x4000, vpage := 9, malformed := false, checked := false }] }
    regions := s.regions.map fun r => { r with handler := 0x10000, demand := demand }
    host := { s.host with ports := s.host.ports.map fun p => { p with faultSize := 16, faultOpen := true } } }

/-- The context an access of `GlobalFaults` is looked at with. -/
def accessAt (i : Instr) (x0 : Ctx) (p : Ctx → LaneAccess → Bool) : Bool :=
  let x := x0.forceReds i
  match laneAccess i x with
  | some k => x.sub.redo.isNone && !x.memWaits k.f.order.toNat k.f.scope.toNat && k.m.getLsbD 0 && p x k
  | none => false
/-- Lane 0 of an access fails protection. -/
def unfit0 (i : Instr) (x : Ctx) : Bool := accessAt i x fun x k =>
  let tr := fun L => x.s.translate x.c.core x.c.region (x.globalAddr k.f L)
  unfit k.right (x.globalAddr k.f 0) k.n (tr 0) && (List.range 32).all fun L => tr L != .walk
/-- Lane 0, the only ACTIVE one, races with another open span. -/
def races0 (i : Instr) (x : Ctx) : Bool := accessAt i x fun x k =>
  freeB x k.f.order.toNat k.f.scope.toNat && k.m == 1 && (x.s.core x.c.core).upd.isEmpty && (k.touch == .atom || k.f.order == 0) &&
  (match x.s.translate x.c.core x.c.region (x.globalAddr k.f 0) with
   | .leaf p => !unfit k.right (x.globalAddr k.f 0) k.n (.leaf p) && pteChecked p && !pteShared p
   | _ => false) &&
  !x.s.mem.poisoned (placeAt x (x.globalAddr k.f 0)) k.n && !isHost (placeAt x (x.globalAddr k.f 0)) &&
  (x.s.raceWith (.strand x.c.cid x.b.index (x.b.strands.getD 0 0) x.c.core x.b.slot) k.touch (placeAt x (x.globalAddr k.f 0)) k.n).isSome
/-- Lane 0, the only ACTIVE one, waits for a page that is not present. -/
def absent0 (i : Instr) (x : Ctx) : Bool := accessAt i x fun x k =>
  k.waits && x.sub.stall.isNone && !x.c.demand && k.m == 1 && x.globalAddr k.f 0 % k.n == 0 &&
  x.s.translate x.c.core x.c.region (x.globalAddr k.f 0) == .absent false false && !x.inTrap && x.s.host.debuggers.isEmpty &&
  (x.s.region? x.c.region).any (fun r => r.handler != 0)
/-- One word of lane 0; its cell to add to or clear; its cell read. -/
def oneF (order : Nat) : FmtM := { fM 4 10 1023 1023 4 order (if order = 0 then 0 else 4) 0 with guard := 0 }
def cell0 (order : Nat) : FmtM := { cellF 1023 0 with guard := 0, order := BitVec.ofNat 3 order, scope := if order = 0 then 0 else 4 }
def cellR : FmtM := { cellF 865 0 with guard := 0 }
/-- The same with AUX v6. -/
def oneX : FmtM := { fM 4 10 1023 6 4 0 0 0 with guard := 0 }
/-- `xld` and `cst` from v10. -/
def elemF : FmtM := fM 4 646 1023 1023 4 0 0 0
/-- p0 of lane 0 alone. -/
def lane0 (b : Bundle) : Bundle := { b with p := b.p.set 0 1 }
/-- A misaligned address, one ACTIVE lane under p0. -/
def bedMis0 : State := bedB fun b => lane0 (putV b 10 0x10002)
/-- The absent page, one ACTIVE lane under p0. -/
def bedAbs0 : State := let s := bedAbs false
  { s with crews := s.crews.map fun c => { c with bundles := c.bundles.map lane0 } }

theorem witness_FaultingAccesses :
    (∀ i ∈ [Instr.ld (oneF 0), .st (oneF 0), .atom oneX, .red (oneF 0), .xsadd (cell0 0), .xsclr (cell0 0), .xsrd cellR],
      Meets i bedMis0 fun x => unfit0 i x = true) ∧
    (∀ i ∈ [Instr.ld (oneF 0), .st (oneF 0), .atom oneX, .red (oneF 0), .xsadd (cell0 0), .xsclr (cell0 0), .xsrd cellR],
      Meets i bedC fun x => races0 i x = true) ∧
    (∀ i ∈ [Instr.ld (oneF 0), .st (oneF 2), .atom oneX, .red (oneF 2), .xsadd (cell0 2), .xsclr (cell0 2), .xsrd cellR],
      Meets i bedAbs0 fun x => absent0 i x = true) ∧
    Meets (.xld elemF) (bedS 0x10002) (fun x => x.memWaits 0 0 = false ∧ x.sub.redo = none ∧ unfit pteR (x.globalAddr elemF (lowLane x.act)) 4
      (x.s.translate x.c.core x.c.region (x.globalAddr elemF (lowLane x.act))) = true ∧ x.act.lanes.length = 32 ∧
      ∀ j, j < 32 → x.s.translate x.c.core x.c.region (0x10002 + 4 * j) ≠ .walk) ∧
    Meets (.cst elemF) (bedS 0x10002) (fun x => x.memWaits 0 0 = false ∧ x.sub.cst = 0 ∧ 0 < x.actNH.lanes.length ∧
      (match x.s.translate x.c.core x.c.region (x.globalAddr elemF (lowLane x.actNH)) with
        | .leaf p => unfit pteW (x.globalAddr elemF (lowLane x.actNH)) 4 (.leaf p)
        | _ => false) = true) ∧
    Meets (.st (fM 4 10 888 1023 4 0 0 0)) (bedAbs true) (fun x => freeB x 0 0 = true ∧ x.actNH ≠ 0 ∧
      x.c.core < (bedAbs true).cores.length ∧ (bedAbs true).mem.pageReqs = [] ∧
      x.c.demand = true ∧ ((bedAbs true).region? x.c.region).any (fun r => decide (r.host < (bedAbs true).host.ports.length) &&
        let port := (bedAbs true).host.ports.getD r.host Port.init
        port.faultOpen && port.faultSize != 0) ∧
      ∀ L, L < 32 → x.globalAddr (fM 4 10 888 1023 4 0 0 0) L % 4 = 0 ∧ vpageOf (x.globalAddr (fM 4 10 888 1023 4 0 0 0) L) = 9 ∧
        (bedAbs true).translate x.c.core x.c.region (x.globalAddr (fM 4 10 888 1023 4 0 0 0) L) = .absent false false) := by
  and_intros
  all_goals first
    | exact meets (by decide +kernel)
    | (simp only [List.forall_mem_cons, List.not_mem_nil, false_implies, implies_true, and_true]; and_intros <;> exact meets (by decide +kernel))

/-- An instruction that finds its rows under overcommit. -/
theorem over_of {i : Instr} {s : State} {wr : List Nat} {P : Ctx → Prop}
    (h : Finds s (guardOf i) fun x => failing x.env i = none ∧ x.cast.hazards = false ∧ x.b.owed = [] ∧ x.b.fpDue = none ∧ x.c.ovc ≠ 0 ∧
      x.fills (x.valuesRead i) = [] ∧ (x.freshRows wr).length ≤ x.s.freeRows x.c ∧ P x) : ∃ x, IssuesOver i s x wr ∧ P x := by
  obtain ⟨x, x0, hc, hx, rfl, h1, h2, h3, h4, h5, h6, h7, hp⟩ := h
  exact ⟨_, { cur := hc, ctx := ⟨x0, hx, rfl⟩, legal := h1, clear := fun e => absurd e (by rw [h2]; decide), owed := fun _ => h3, due := fun _ _ => h4,
              commits := h5, resident := h6, room := h7 }, hp⟩

/-- A crew of a region with overcommit; v10, v11 hold 0x1_0000. -/
def bedOver : State := bed fun c b => ({ c with ovc := 4 }, putV b 10 0x10000)
/-- Six names of the bundle hold rows, v6 is spilled, and the crew has no free row. -/
def bedSpilled : State := bed fun c b => ({ c with ovc := 4, regGranules := 0, spillSlots := [0] },
  { b with v := (List.range b.v.length).map fun n =>
      if n = 6 then { shape := .g (List.replicate 32 1), fmt := 1, last := 0 }
      else if 16 ≤ n ∧ n < 22 then { shape := .g (List.replicate 32 1), fmt := 0, last := 0 } else VReg.zero })

theorem witness_NamesAndRows :
    (∃ x, IssuesOver (.add (fA 1 4 6 8 0 0)) bedOver x [4] ∧ tyWide 1 = false) ∧ (∃ x, IssuesOver (.mul (fA 1 4 6 8 0 0)) bedOver x [4] ∧ True) ∧
    (∃ x, IssuesOver (.mad (fA 1 4 6 8 10 0)) bedOver x [4] ∧ True) ∧ (∃ x, IssuesOver (.popc (fA 0 4 6 0 0 0)) bedOver x [4] ∧ True) ∧
    (∃ x, IssuesOver (.ld ldF) bedOver x (writeNames (.ld ldF)) ∧ x.sub.redo = none ∧ x.loadMask 4 ≠ 0 ∧
      freeB (noted x (.ld ldF)) 0 0 = true ∧ cleanB (noted x (.ld ldF)) pteR (x.loadMask 4) ((noted x (.ld ldF)).globalAddr ldF) 4 = true) ∧
    Finds bedSpilled 30 (fun x => let i : Instr := .add (fA 1 4 6 8 0 0)
      failing x.env i = none ∧ x.cast.hazards = false ∧ x.c.ovc ≠ 0 ∧ 6 ∈ x.fills (x.valuesRead i) ∧ x.s.freeRows x.c = 0 ∧
      16 ∈ x.b.rows ∧ 4 < x.b.rows.length ∧ 16 ∉ readNames i ∧ 16 ∉ x.castReads i ∧ 16 ∉ writeNames i ∧ x.b.isPending 16 = false) := by
  and_intros <;> first | exact over_of (finds (by decide +kernel)) | exact finds (by decide +kernel)

/-! ## Copy queues and matrix engines -/

/-- s4 to s7 hold a record of one row of eight 4-byte elements from 0x1_0000 to scratch `saddr`; ARRIVE as given. -/
def copyRec (saddr : Nat) (arrive : Bool) (b : Bundle) : Bundle :=
  { b with s := (((b.s.set 4 (BitVec.ofNat 64 (1 * 2 ^ 48 + 0x10000))).set 5 (if arrive then 0x8000000000000000 else 0)).set 6
      (BitVec.ofNat 64 (16 * 2 ^ 48 + 8 * 2 ^ 32 + saddr))).set 7 (BitVec.ofNat 64 (2 * 2 ^ 53)) }
/-- The words of the record in s4 to s7. -/
def words4 (x : Ctx) : List DWord := (List.range 4).map fun j => x.sreg (4 + j) 0
/-- `MayEnqueue`, decided. -/
def mayEnqueueB (x : Ctx) (q : Nat) (board : Bool) : Bool :=
  x.actNH != 0 && x.b.stage.isNone && x.b.index == x.cast.producer && x.anyStopped.isNone && !x.enqueueWaits q board && decide (x.c.core < x.s.cores.length)
/-- A spot is a place. -/
def isAt : Spot → Bool
  | .at _ _ _ => true
  | _ => false
/-- `lcopy` and `lput` of the record in s4. -/
def copyF : FmtE := fE 644 1023 1023 0 0
/-- What `CopiesEnqueue` asks, without ARRIVE. -/
def copyOk (x : Ctx) (put : Bool) : Bool :=
  let r := CopyRec.read (words4 x)
  mayEnqueueB x 0 true && (r.bad (words4 x) put).isEmpty && decide (r.fmt < 4) && !x.stampBad 0 r.sscope (x.stampOf copyF) &&
    isAt (x.rangeSpot (if put then .load else .store) r.saddr (r.footprint put))
/-- A bundle of a cast whose producer bundle is another. -/
def bedNP : State := bed (fun c b => (c, b)) fun s => { s with casts := s.casts.map fun a => { a with desc := a.desc.set 2 (a.word 2 ||| 0x400) } }
/-- A queue entry of crew 1 in the given state. -/
def entryIn (st : QState) : QEntry :=
  { id := 0, seq := 0, crew := 1, queue := 0, kind := .lcopy, recd := [], stamp := none, scope := 0, range := none, arrive := none, unit := 0, st := st,
    mask := 0, sectors := [], requests := [] }
/-- A core 0 with that entry. -/
def bedStopped : State := bed (fun c b => (c, b)) fun s => s.setCore 0 { (s.core 0) with entries := [entryIn (.stopped 2 0x10000)] }

theorem witness_CopyQueueEntries :
    Meets (.lcopy copyF) (bedB (copyRec 0 false)) (fun x => copyOk x false = true ∧ (CopyRec.read (words4 x)).arrive = false) ∧
    Meets (.lput copyF) (bedB (copyRec 0 false)) (fun x => copyOk x true = true ∧ (CopyRec.read (words4 x)).arrive = false) ∧
    Meets (.lcopy copyF) (bedB (copyRec (2 * 2 ^ 29 + 256) true)) (fun x => copyOk x false = true ∧ (CopyRec.read (words4 x)).arrive = true ∧
      x.inStageD 0 (CopyRec.read (words4 x)).saddr = true ∧ (x.c.ring? 0).any (fun g => decide ((g.stage (g.phys g.dist)).issued < g.parr))) ∧
    Meets (.lcopy { copyF with guard := 0 }) bed0 (fun x => x.actNH = 0) ∧
    Meets (.lput copyF) bedNP (fun x => x.actNH ≠ 0 ∧ x.b.index ≠ x.cast.producer) ∧
    Meets (.lcode copyF) bedStopped (fun x => x.actNH ≠ 0 ∧ x.b.stage = none ∧ x.b.index = x.cast.producer ∧ x.anyStopped.isSome) ∧
    Meets (.qfence (fE 1023 1023 1023 1 0)) bedStopped (fun x => x.actNH ≠ 0 ∧ x.anyStopped.isSome) ∧
    Meets (.lcopy copyF) bed0 (fun x => x.actNH ≠ 0 ∧ x.b.stage = none ∧ x.b.index = x.cast.producer ∧ x.anyStopped = none ∧
      RecField.dpitch ∈ (CopyRec.read (words4 x)).bad (words4 x) false) := by
  and_intros <;> exact meets (by decide +kernel)

/-- s4 holds 0x1_0000: an `lcode` record of table 0. -/
def bedL : State := bedB fun b => { b with s := b.s.set 4 0x10000 }

theorem witness_QueueOperations :
    Meets (.lcode copyF) bedL (fun x => mayEnqueueB x 0 false = true ∧ x.sreg 4 0 = 0x10000 ∧ x.stampBad 0 0 (x.stampOf copyF) = false ∧
      (bedL.core x.c.core).tables.length = 8 ∧ ((bedL.core x.c.core).tables.getD 0 Codebook.init).owner = none) ∧
    Meets (.qfence (fE 1023 1023 1023 1 0)) bed0 (fun x => mayEnqueueB x 0 false = true ∧ x.stampBad 0 0 (x.stampOf (fE 1023 1023 1023 1 0)) = false) ∧
    Meets (.qfence (fE 1023 1023 1023 1 4)) bed0 (fun x => x.actNH ≠ 0 ∧ x.b.stage = none ∧ x.b.index = x.cast.producer ∧
      x.c.core < bed0.cores.length ∧ (bed0.core x.c.core).entries = []) ∧
    Meets (.qstat (fA 0 4 0 0 0 1)) bed0 (fun x => x.act ≠ 0) ∧ Meets (.qstat (fA 0 4 0 0 0 5)) bed0 (fun x => x.act ≠ 0) := by
  and_intros <;> exact meets (by decide +kernel)

/-- s4 to s7 hold a task record; the crew has a weight buffer. -/
def bedTask (w0 w1 : Nat) : State :=
  bed fun c b => ({ c with wbg := 32 }, { b with s := (b.s.set 4 (BitVec.ofNat 64 w0)).set 5 (BitVec.ofNat 64 w1) })
/-- The task record in s4. -/
def taskOf (k : TKind) (x : Ctx) : TaskRec := TaskRec.read k ((words4 x).getD 0 0) ((words4 x).getD 1 0)
/-- What `TasksEnqueue` asks of a task that enters the pool. -/
def taskOk (k : TKind) (x : Ctx) : Bool :=
  let r := taskOf k x
  x.actNH != 0 && (r.bad (words4 x) (x.stampOf copyF).isSome).isEmpty && r.badShape.isEmpty &&
    (!(k == .mma || k == .mwld) || decide (r.wg + r.granules ≤ x.c.wbg)) && (k == .mwld || decide (r.ct + r.nt < x.c.tiles.length)) &&
    decide (x.c.core < x.s.cores.length) && (x.s.core x.c.core).tasks.isEmpty && (x.s.core x.c.core).sboard.isEmpty &&
    !x.acqPending (x.b.strandsOf x.b.present) && (k == .mzero || isAt (x.rangeSpot (if k == .mst then .store else .load) r.saddr r.size))

/-- The task of s4 breaks no rule of its record, for ACTIVE lanes that are no helpers. -/
def taskSound (k : TKind) (x : Ctx) : Bool :=
  x.actNH != 0 && ((taskOf k x).bad (words4 x) (x.stampOf copyF).isSome).isEmpty && (taskOf k x).badShape.isEmpty
/-- Where its scratch operand lies. -/
def taskSpot (k : TKind) (x : Ctx) : Spot := x.rangeSpot (if k = .mst then .store else .load) (taskOf k x).saddr (taskOf k x).size

theorem witness_TasksEnqueue :
    Meets (.mma copyF) (bedTask (16 * 2 ^ 32 + 2 ^ 48) (2 ^ 29)) (fun x => taskOk .mma x = true) ∧
    Meets (.mwld copyF) (bedTask (16 * 2 ^ 32) 0) (fun x => taskOk .mwld x = true) ∧
    Meets (.mst copyF) (bedTask (16 * 2 ^ 32) 0) (fun x => taskOk .mst x = true) ∧
    Meets (.mzero copyF) bed0 (fun x => taskOk .mzero x = true) ∧
    Meets (.mma { copyF with guard := 0 }) bed0 (fun x => x.actNH = 0) ∧
    Meets (.mst copyF) (bedTask 0 (2 ^ 30)) (fun x => x.actNH ≠ 0 ∧ (taskOf .mst x).bad (words4 x) (x.stampOf copyF).isSome = [.rsv1]) ∧
    Meets (.mzero copyF) (bedTask 0 200) (fun x => x.actNH ≠ 0 ∧ (taskOf .mzero x).bad (words4 x) (x.stampOf copyF).isSome = [] ∧
      (taskOf .mzero x).badShape = [] ∧ x.c.tiles.length ≤ (taskOf .mzero x).ct + (taskOf .mzero x).nt) ∧
    Meets (.mst copyF) (bedTask (16 * 2 ^ 32 + 1) 0) (fun x => x.actNH ≠ 0 ∧ (taskOf .mst x).bad (words4 x) (x.stampOf copyF).isSome = [] ∧
      (taskOf .mst x).badShape = [.saddr]) ∧
    Meets (.mwld copyF) (bedTask (16 * 2 ^ 32 + 0x0FFFFF00) 0) (fun x => taskSound .mwld x = true ∧ isAt (taskSpot .mwld x) = false) ∧
    Meets (.mma copyF) (bedTask (16 * 2 ^ 32 + 2 ^ 48) (2 ^ 29 + 63 * 2 ^ 16)) (fun x => taskSound .mma x = true ∧ isAt (taskSpot .mma x) = true ∧
      x.c.wbg < (taskOf .mma x).wg + (taskOf .mma x).granules) ∧
    Meets (.mma copyF) (bedTask (16 * 2 ^ 32 + 2 ^ 48) (2 ^ 29 + 200)) (fun x => taskSound .mma x = true ∧ isAt (taskSpot .mma x) = true ∧
      (taskOf .mma x).wg + (taskOf .mma x).granules ≤ x.c.wbg ∧ x.c.tiles.length ≤ (taskOf .mma x).ct + (taskOf .mma x).nt) ∧
    Meets (.mst copyF) (bedTask (16 * 2 ^ 32) 200) (fun x => taskSound .mst x = true ∧ isAt (taskSpot .mst x) = true ∧
      x.c.tiles.length ≤ (taskOf .mst x).ct + (taskOf .mst x).nt) := by
  and_intros <;> exact meets (by decide +kernel)

/-- `free` of `TileReads`, with tile 0. -/
def tileFree (x : Ctx) (f : FmtA) : Bool := x.act != 0 && x.tileNum f == 0 && decide (0 < x.c.tiles.length) && (x.s.core x.c.core).tasks.isEmpty
/-- Tile 0 with a poisoned element 0. -/
def bedPz : State := bed fun c b => ({ c with tiles := c.tiles.map fun z => { z with poison := [0] } }, b)

theorem witness_TileReads :
    Meets (.astat (fAp0 0 4 6 0 0 0)) bed0 (fun x => x.act = 0) ∧
    Meets (.astat (fA 0 4 6 0 0 0)) (bedB fun b => putV b 6 200) (fun x => x.act ≠ 0 ∧ x.c.tiles.length ≤ x.tileNum (fA 0 4 6 0 0 0)) ∧
    Meets (.astat (fA 0 4 6 0 0 0)) bed0 (fun x => tileFree x (fA 0 4 6 0 0 0) = true) ∧
    Meets (.astat (fA 0 4 6 0 0 1)) bed0 (fun x => tileFree x (fA 0 4 6 0 0 1) = true ∧ x.actNH ≠ 0) ∧
    Meets (.ard (fA 0 4 6 8 10 0)) bed0 (fun x => tileFree x (fA 0 4 6 8 10 0) = true ∧ x.c.nan = [] ∧ (x.c.tile 0).poison = []) ∧
    Meets (.ard (fA 0 4 6 8 10 0)) bedPz (fun x => tileFree x (fA 0 4 6 8 10 0) = true ∧ x.c.nan = [] ∧ x.act.getLsbD 0 = true ∧ (x.c.tile 0).poison = [0] ∧
      x.raw32 0 8 0 = 0 ∧ x.raw32 0 10 0 = 0) := by
  and_intros <;> exact meets (by decide +kernel)

/-! ## The visibility path -/

/-- A pipeline cast's bundle. -/
def bedV (e : Bundle → Bundle) : State := bed (fun c b => (c, e b)) (withCast (2 ^ 14))
/-- A primitive-buffer slot is free for the bundle. -/
def slotFreeB (x : Ctx) : Bool :=
  x.b.primTicket.isNone && (x.s.core x.c.core).primOrder.isEmpty && decide (x.c.core < x.s.cores.length) &&
    decide (x.s.blocksUsed x.c.core + slotBlocks x.cast.na ≤ 256)
/-- A slot with one vertex and one triangle. -/
def prim1 : PrimSlot := { na := 0, verts := [(0, [1, 2, 3, 4])], tris := [(0, 0)] }

theorem witness_EmitAndCommit :
    Meets (.vemit (fA 0 0 6 0 0 0)) bed0 (fun x => x.cast.kind ≠ 1) ∧ Meets (.pemit (fAp0 0 0 6 8 0 0)) (bedV id) (fun x => x.cast.kind = 1 ∧ x.act = 0) ∧
    Meets (.vemit (fA 0 0 6 0 0 0)) (bedV id) (fun x => x.cast.kind = 1 ∧ x.act ≠ 0 ∧ slotFreeB x = true ∧ ∀ L, L < 32 → x.raw32 0 6 L < 96) ∧
    Meets (.pemit (fA 0 0 6 8 0 0)) (bedV fun b => { b with prim := some prim1 }) (fun x => x.cast.kind = 1 ∧ x.act ≠ 0 ∧ x.b.prim.isSome = true ∧
      ∀ L, L < 32 → x.raw32 0 6 L < 160 ∧ x.raw32 0 8 L = 0) ∧
    Meets (.mcommit (fA 0 0 6 8 10 0)) bed0 (fun x => x.cast.kind ≠ 1) ∧
    Meets (.mcommit (fA 0 0 6 8 10 0)) (bedV id) (fun x => x.cast.kind = 1 ∧ x.b.prim = none) ∧
    Meets (.mcommit (fA 0 0 6 8 10 0)) (bedV fun b => { (putV b 10 0x10001) with prim := some prim1 }) (fun x => x.cast.kind = 1 ∧ x.actNH ≠ 0 ∧
      x.b.prim = some prim1 ∧ x.raw64 4 10 (lowLane x.act) % 16 ≠ 0) ∧
    Meets (.mcommit (fA 0 0 6 8 10 0)) (bedV fun b => { (putV b 10 0x10100) with prim := some prim1 }) (fun x => x.cast.kind = 1 ∧ x.actNH ≠ 0 ∧
      x.b.prim = some prim1 ∧ x.raw64 4 10 (lowLane x.act) = 0x10100 ∧ freeB x 0 0 = true ∧
      prim1.block.length = 36 ∧ ((pieces 36).all fun e => mappedB x pteW (0x10100 + e.1) e.2) = true) := by
  and_intros <;> exact meets (by decide +kernel)

theorem witness_RayTests : Meets (.ixbox (fA 3 4 8 12 16 0)) bed0 (fun x => x.act ≠ 0) ∧ Meets (.ixtri (fA 3 4 8 12 16 1)) bed0 (fun x => x.act ≠ 0) :=
  ⟨meets (by decide +kernel), meets (by decide +kernel)⟩

/-- A surface of 8 × 8 pixels with a one-entry map, tile 0 HELD. -/
def surf1 : Surface :=
  { desc := 0x10100, region := 1, tiles := [{ tile := 0, st := .held, pix := List.replicate 64 (0, 0), castId := 1, sieved := 0, filed := true, sealSeq := 0, pinned := false }]
    d := { surf := 0, keep := false, retain := false, face := false, cull := 0, depth := false, height := 8, width := 8, map := 0, maplen := 1, dir := 0, mattab := 0 } }
/-- The cast writes that surface. -/
def bedSurf (e : Bundle → Bundle) : State := bed (fun c b => (c, e b)) fun s =>
  { s with casts := s.casts.map fun a => { a with surf := some 0 }, vis := { s.vis with surfaces := [surf1] } }
/-- A surface whose map, one entry at 0x1_0100, names material 0, of the material table at 0x1_0180. -/
def surfMat : Surface := { surf1 with tiles := [], d := { surf1.d with map := 0x10100, mattab := 0x10180 } }
/-- The cast writes that surface, and material 0 is shaded by cast 2. -/
def bedShade : State := bed (fun c b => (c, b)) fun s =>
  { s with
    casts := (s.casts.map fun a => { a with surf := some 0 }) ++
      s.casts.map fun a => { a with castId := 2, descVa := 0x10200, desc := a.desc.set 4 (a.word 4 ||| 0x8000) }
    vis := { s.vis with surfaces := [surfMat] }
    mem := s.mem.writeDev 0x10180 (leBytes 8 0x10200) }

/-- Words of an 8 × 8 descriptor at 0x1_0100, in a region of memory that v10 addresses. -/
def bedDesc : State := bed (fun c b => (c, putV b 10 0x10100)) fun s => { s with mem := s.mem.writeDev 0x10108 (leBytes 8 (8 + 8 * 2 ^ 16)) }.touchLine 0x10100
/-- `vtld` of v10 at the pixel v6. -/
def vtldF (func : Nat) : FmtM := { fM 4 10 6 1023 (if func = 0 then 5 else 4) 0 0 func with scale := 0 }

theorem witness_HitsAndTiles :
    Meets (.hitbin (fA 0 0 6 8 12 0)) bed0 (fun x => x.cast.surf = none) ∧
    Meets (.hitbin (fAp0 0 0 6 8 12 0)) (bedSurf id) (fun x => x.cast.surf = some 0 ∧ x.actNH = 0) ∧
    Meets (.hitbin (fA 0 0 6 8 12 0)) (bedSurf id) (fun x => x.cast.surf = some 0 ∧ (bedSurf id).surface? 0 = some surf1 ∧ x.actNH ≠ 0 ∧ (x.forceReds (.hitbin (fA 0 0 6 8 12 0))).memWaits 2 4 = false ∧
      (bedSurf id).unitLoad (hitUnit x.c.core) ≤ 480 ∧ hitUnit x.c.core < (bedSurf id).vis.riddle.length ∧
      ((bedSurf id).cores.all fun k => k.upd.isEmpty) = true ∧ ((bedSurf id).cast? x.c.castId).isSome) ∧
    Meets (.hitbin (fA 0 0 6 8 12 0)) bedShade (fun x => x.cast.surf = some 0 ∧ bedShade.surface? 0 = some surfMat ∧ x.actNH ≠ 0 ∧
      (x.forceReds (.hitbin (fA 0 0 6 8 12 0))).memWaits 2 4 = false ∧ bedShade.unitLoad (hitUnit x.c.core) ≤ 480 ∧
      hitUnit x.c.core < bedShade.vis.riddle.length ∧ (bedShade.cores.all fun k => k.upd.isEmpty) = true ∧ (bedShade.cast? x.c.castId).isSome ∧
      (x.s.materialAt x.c.region surfMat.d 0).2 = some 0 ∧ ((x.s.materialCast x.cast surfMat.d 0).2.map (·.castId)) = some 2 ∧
      ∀ L, L < 32 → idClus (BitVec.ofNat 64 (x.raw64 4 8 L)) = 0) ∧
    Meets (.hitbin (fA 0 0 6 8 12 0)) (bedSurf fun b => putV b 8 0x10000) (fun x => x.cast.surf = some 0 ∧ x.actNH ≠ 0 ∧ (x.forceReds (.hitbin (fA 0 0 6 8 12 0))).memWaits 2 4 = false ∧
      ∀ L, L < 32 → surf1.d.maplen ≤ idClus (BitVec.ofNat 64 (x.raw64 4 8 L))) ∧
    Meets (.vtrel (fA 0 0 10 6 0 0)) (bedSurf fun b => putV b 10 0x10100) (fun x => (bedSurf fun b => putV b 10 0x10100).surface? 0 = some surf1 ∧
      surf1.d.keep = false ∧ (surf1.tiles.map (·.tile)).Nodup ∧
      ∀ L, L < 32 → (bedSurf fun b => putV b 10 0x10100).surfaceOf x.c.region (x.raw64 4 10 L) = some 0 ∧ x.raw32 0 6 L = 0) ∧
    Meets (.vtld { vtldF 1 with guard := 0 }) bedDesc (fun x => x.act = 0) ∧
    (∀ func, func < 2 → Meets (.vtld (vtldF func)) bedDesc (fun x => x.act ≠ 0 ∧ freeB x 0 0 = true ∧ x.sub.stall = none ∧
      (bedDesc.cores.all fun k => k.upd.isEmpty) = true ∧ (bedDesc.mem.l2At 0x10100).isSome = true ∧ (∀ L, L < 32 → x.raw64 4 10 L = 0x10100 ∧ x.raw32 0 6 L = 0) ∧
      ((List.range 4).all fun i => mappedB x pteR (0x10100 + 16 * i) 16 && placeAt x (0x10100 + 16 * i) == 0x10100 + 16 * i) = true ∧
      surfBad [0, 8 + 8 * 2 ^ 16, 0, 0, 0, 0, 0, 0] = false ∧ bedDesc.mem.read 0 0x10100 64 = leBytes 64 ((8 + 8 * 2 ^ 16) * 2 ^ 64) ∧
      bedDesc.surfaceOf x.c.region 0x10100 = none)) := by
  and_intros <;> first | exact meets (by decide +kernel) | (rintro (_ | _ | n) h <;> first | exact meets (by decide +kernel) | omega)

/-! ## Events of bundles and crews -/

/-- The current sub-bundle edited. -/
def sub1 (b : Bundle) (e : SubB → SubB) : Bundle := { b with subs := b.subs.map e }
/-- The crew with a second bundle. -/
def two (c : Crew) (b : Bundle) : Crew := { c with bundles := c.bundles ++ [{ b with index := 1, slot := 1 }] }
/-- The bed at a time in core clocks. -/
def atClock (n : Nat) (s : State) : State := { s with time := 4 * n }
/-- The fetch request of the placed line. -/
def fetchElem : LaneVA := { lane := 0, elem := 0, va := 0x10000, bytes := 64 }
/-- The bundle waits for its line, once or again; the home has served its request or not. -/
def bedFetch (again served : Bool) (e : State → State) : State := bed (fun c b => (c, sub1 b fun y => { y with park := .fetch 0x10000 again })) fun s =>
  let s := e s
  { s with mem := { s.mem with requests := if served then [agentReq (.fetch 1 0) 0x10000 false .ready] else [] } }
/-- The line's last byte changed, which its PARITY does not match. -/
def flawed (s : State) : State := { s with mem := { s.mem with gddr := s.mem.gddr.set 0x1003F 0xFF } }
/-- The context's line is there, with the parity given, its request served or not. -/
def lineThere (again served good : Bool) (e : State → State) : Bool :=
  let s := bedFetch again served e
  match s.ctx? 1 0 30 with
  | some x => x.sub.stall.isNone && homeless 0x10000 == false && (s.mem.allReady (.fetch 1 0) false [(0x10000, placedPte)] == served) && decide (x.c.core < s.cores.length) && x.sub.park == .fetch 0x10000 again &&
      (match x.loadAccess pteX false true [fetchElem] with
        | .ok l => l == [(fetchElem, placedPte, 0x10000)] && parityOk (s.mem.read (s.rootHost x.c.region).2 0x10000 64) == good
        | _ => false)
  | none => false
/-- A result bound for v6 in every lane that sets IN, written or not. -/
def pendR (written : Bool) : Pending :=
  { pend6 false with
    result := some { RegResult.empty with v := [{ name := 6, mask := 0xFFFFFFFF, vals := List.replicate 32 9, full := none }], flags := 16 }
    written := written }
/-- A slot that enters a trap with that result pending, or that its debugger has halted, under a handler. -/
def bedIn (debug : Bool) (handler : Nat) : State := bed (fun c b => (c, { trapped b 4 with
    pend := [pendR true], trap := (trapped b 4).trap.map fun t => { t with entering := true, debug := debug } })) fun s =>
  { s with regions := s.regions.map fun r => { r with handler := BitVec.ofNat 64 handler } }

theorem witness_ArrivalsAndMarkers :
    (lineThere false false true id = true ∧ lineThere false true true id = true ∧ lineThere true true true id = true ∧
      lineThere false true false flawed = true ∧ lineThere true true false flawed = true) ∧
    FindsBundle (bedB fun b => { b with pend := [pendR false] }) (fun c b => b.pend.find? (fun q => q.id == 0) = some (pendR false) ∧ 6 < b.v.length ∧
      b.live ≠ 0 ∧ c.loadMarks b (pendR false) = []) ∧
    FindsBundle (bed fun c b => (c, { sub1 b (fun y => { y with park := .marker }) with pend := [pendR true] })) (fun c b => b.drained = true ∧
      (b.pend.all fun p => p.rivals.isEmpty) = true ∧ (bed0.castOf c).fpinv = false ∧ b.fpDue = none ∧ b.trap = none ∧
      (b.subs.head?.any fun y => y.park == .marker && y.rep == 0) = true) ∧
    FindsBundle (bedB fun b => { sub1 b (fun y => { y with park := .drain }) with pend := [pendR true] }) (fun c b => b.drained = true ∧
      (b.pend.all fun p => p.rivals.isEmpty) = true ∧ (bed0.castOf c).fpinv = false ∧ b.fpDue = none ∧ (b.subs.head?.any fun y => y.park == .drain) = true) ∧
    FindsBundle (bedIn false 0x10000) (fun c b => b.drained = true ∧ (b.trap.any fun t => t.entering && !t.debug) = true ∧ b.pend ≠ [] ∧
      (bedIn false 0x10000).handlerOf c.region ≠ 0) ∧
    FindsBundle (bedIn true 0) (fun _ b => b.drained = true ∧ (b.trap.any fun t => t.entering && t.debug) = true ∧ b.pend ≠ []) ∧
    FindsBundle (bedIn false 0) (fun c b => b.drained = true ∧ (b.trap.any fun t => t.entering && !t.debug) = true ∧ b.pend ≠ [] ∧
      (bedIn false 0).handlerOf c.region = 0) := by
  and_intros <;> first | decide +kernel | exact findsBundle (cid := 1) (bi := 0) (by decide +kernel)

/-- A stall since clock 0. -/
def stall0 : Stall := Stall.start 0
/-- A crew of a region with a handler. -/
def bedE (e : Crew → Bundle → Crew × Bundle) (n : Nat) : State := bed e fun s => atClock n (withCast 0 s)
/-- A crew whose bundles are parked as given. -/
def bedPark (p q : Park) (stuck gang : Option Nat) (n : Nat) : State :=
  bedE (fun c b => let d := sub1 b fun y => { y with park := p }
    ({ two { c with bundles := [d] } (sub1 b fun y => { y with park := q }) with stuck := stuck, gangStuck := gang }, d)) n
/-- An overcommitted crew of one register granule whose bundle owns 400 names, 384 of them rows, held for one more row. -/
def bedSpill : State := bed fun c b => ({ c with regGranules := 1, ovc := 16 },
  { b with
    v := List.replicate 384 { shape := .g (List.replicate 32 1), fmt := 0, last := 0 } ++ List.replicate 16 VReg.zero
    subs := b.subs.map fun y => { y with stall := some { stall0 with rows := some (1, [0, 1, 396]) } } })
/-- The same crew with a bin of the core that holds a record of 400 rows' worth of registers, its bundle owning none. -/
def bedSpillBin : State := bed (fun c b => ({ c with regGranules := 1, ovc := 16 },
  { b with v := [], subs := b.subs.map fun y => { y with stall := some { stall0 with rows := some (385, []) } } })) fun s =>
  s.setCore 0 { (s.core 0) with bins := (s.core 0).bins.set 0 (some { crew := 1, target := 0x10000, aged := false, spilled := 0, records :=
    [{ strand := 5, carried := List.replicate 4 (7, false), preds := 1, clock := 0 }] }) }

theorem witness_BundleEvents :
    FindsBundle (bedB fun b => sub1 b fun y => { y with issued := 1024 }) (fun _ b => (b.subs.head?.any fun y => y.stall.isNone && y.park == .run && decide (1024 ≤ y.issued)) = true) ∧
    FindsBundle (bedE (fun c b => (c, sub1 b fun y => { y with stall := some stall0 })) 300) (fun _ b =>
      (b.subs.head?.any fun y => y.stall == some stall0 && y.park == .run && decide (y.issued < 1024)) = true ∧
      stall0.since + 256 ≤ (bedE (fun c b => (c, sub1 b fun y => { y with stall := some stall0 })) 300).coreClock) ∧
    FindsBundle (bedE (fun c b => (c, sub1 b fun y => { y with park := .sleep 9 })) 10) (fun _ b =>
      (b.subs[0]?.any fun y => y.park == .sleep 9) = true ∧ b.trap = none ∧ 9 ≤ (bedE (fun c b => (c, sub1 b fun y => { y with park := .sleep 9 })) 10).coreClock) ∧
    FindsBundle (bedPark (.bar 1) .gbar none none 0) (fun c _ => (c.bundles.map (·.index)).Nodup ∧ c.stuck = none) ∧
    ((bedPark .join .join none none 0).crew? 1).any ((bedPark .join .join none none 0).crewStuck ·) = true ∧
    ((bedPark .join .join (some 0) none (2 ^ 20)).crew? 1).any (fun c => (bedPark .join .join (some 0) none (2 ^ 20)).crewStuck c && c.stuck == some 0) = true ∧
    ((bedPark .gbar .join none (some 0) (2 ^ 20)).crew? 1).any (fun c => (bedPark .gbar .join none (some 0) (2 ^ 20)).gangStuck ((bedPark .gbar .join none (some 0) (2 ^ 20)).gangOf c) &&
      ((bedPark .gbar .join none (some 0) (2 ^ 20)).gangOf c).all fun d => d.gangStuck == some 0) = true ∧
    FindsBundle (bedE (fun c b => (c, sub1 b fun y => { y with stall := some { stall0 with xacq := some (0, 0) } })) (2 ^ 20)) (fun c b => b.trap = none ∧
      (b.subs.find? fun y => y.xacq? == some (0, 0)).isSome ∧
      (c.bundles.all fun d => d.index == b.index) = true) ∧
    FindsBundle bedSpill (fun c b => (b.subs.head?.bind fun y => y.stall.bind (·.rows)) = some (1, [0, 1, 396]) ∧ bedSpill.freeRows c = 0 ∧
      bedSpill.bankAwake c.spillBank = true ∧ (c.bundles.map (·.index)).Nodup ∧
      (match bedSpill.victim c b [0, 1, 396] with
        | some (.name m _) => m == 0
        | _ => false) = true) ∧
    FindsBundle bedSpillBin (fun c b => (b.subs.head?.bind fun y => y.stall.bind (·.rows)) = some (385, []) ∧ bedSpillBin.freeRows c < 385 ∧
      bedSpillBin.bankAwake c.spillBank = true ∧ bedSpillBin.victim c b [] = some (.bin 0) ∧ ((bedSpillBin.core c.core).bins.getD 0 none).isSome) ∧
    (bed0.crews.filter (fun d => d.core == 0)).length = 1 ∧ (bed0.region? 1).isSome := by
  and_intros <;> first | exact findsBundle (cid := 1) (bi := 0) (by decide +kernel) | decide +kernel

/-- A bin of crew 1 with one record, filed at clock 0. -/
def bin1 : Bin := { crew := 1, target := 0x10000, records := [{ strand := 5, carried := [(7, false)], preds := 1, clock := 0 }], aged := false, spilled := 0 }
/-- Core 0 with that bin in place 0, and a crew with an empty slot. -/
def bedBin (n : Nat) : State := bed (fun c b => ({ c with bundles := c.bundles ++ [{ b with index := 1, slot := 1, present := 0, subs := [] }] }, b)) fun s =>
  atClock n (s.setCore 0 { (s.core 0) with bins := (s.core 0).bins.set 0 (some bin1) })
/-- An arrival of crew 1 on stage 0 of ring 0. -/
def arr1 : Arrival := { id := 0, bun := 0, ring := 0, stage := 0 }

theorem witness_CrewSynchronisation :
    ((bedBin 5000).core 0).bins.getD 0 none = some bin1 ∧ bin1.late (bedBin 5000).coreClock = true ∧ bin1.late (bedBin 0).coreClock = false ∧
    ((bedBin 5000).crew? 1).any (fun c => (bedBin 5000).binToDraw c == some (0, bin1) && decide (0 < ((bedBin 5000).freeBundles c ((bedBin 5000).castOf c).producer).length) &&
      decide (bin1.records.length ≤ 32) && c.st != .halted && bin1.spilled == 0 && c.ovc == 0) = true ∧
    FindsBundle (bedB fun b => sub1 b fun y => { y with park := .wait }) (fun c b => (bed0.castOf c).deps.all bed0.depDone = true ∧ b.trap = none ∧ b.halted = false ∧ c.st ≠ .halted ∧
      (b.subs.head?.any fun y => y.park == .wait) = true) ∧
    FindsBundle (bed (fun c b => (c, b)) fun s => { withCast (2 ^ 5) s with casts := (withCast (2 ^ 5) s).casts.map fun a => { a with desc := a.desc.set 5 1 } }) (fun c _ =>
      ((bed (fun c b => (c, b)) fun s => { withCast (2 ^ 5) s with casts := (withCast (2 ^ 5) s).casts.map fun a => { a with desc := a.desc.set 5 1 } }).castOf c).deps.all
        (bed (fun c b => (c, b)) fun s => { withCast (2 ^ 5) s with casts := (withCast (2 ^ 5) s).casts.map fun a => { a with desc := a.desc.set 5 1 } }).depDone = false) ∧
    ((bedPark .gbar .gbar none none 0).crew? 1).any (fun c => ((bedPark .gbar .gbar none none 0).gangOf c).contains c && c.bundles.any (fun b => b.live != 0) &&
      (bedPark .gbar .gbar none none 0).gangWhole c && ((bedPark .gbar .gbar none none 0).gangOf c).all (bedPark .gbar .gbar none none 0).gbarReady) = true ∧
    ((bed fun c b => ({ c with arrivals := [arr1], rings := c.rings.map fun r => r.map fun g => { g with prime := 0 } }, b)).crew? 1).any (fun c => c.arrivals.find? (fun e => e.id == 0) == some arr1 &&
      (c.ring? 0).any fun r => !r.spawn && r.prime == 0 && decide (0 < r.st.length)) = true := by
  and_intros <;> first | decide +kernel | exact findsBundle (cid := 1) (bi := 0) (by decide +kernel)

/-! ## Events of memory -/

/-- A request of crew 1, bundle 0, to a line: one load of 4 bytes in lane 0. -/
def reqAt (id line : Nat) (st : ReqSt) : Request :=
  { id := id, core := 0, crew := 1, bun := 0, pend := none, pc := 0x10000, host := 0, root := 0x4000, line := line,
    lanes := [{ lane := 0, va := line, pa := line, op := .load 4 }], order := 0, scope := 0, strands := [0], cacheL1 := false, first := false,
    uncached := false, time := 0, refusals := 0, st := st, golden := none }
/-- A pending load of 4 bytes in lane 0. -/
def pendLoad : Pending :=
  { pend6 false with gather := some { mask := 1, bytes := 4, signed := false, dst := 6, full := false, uniform := false, got := [], also := RegResult.empty, cell := none, acquire := false } }
/-- The bed with these requests at a core clock. -/
def bedReq (l : List Request) (n : Nat := 0) : State :=
  bed (fun c b => (c, { b with pend := [pendLoad] })) fun s => atClock n { s with mem := { s.mem with requests := l } }
/-- A stored word and the load behind it, uncached, bound to the pending load. -/
def reqIo (st : ReqSt) : Request :=
  { reqAt 0 0x10000 st with uncached := true, pend := some 0, lanes := [{ lane := 0, va := 0x10000, pa := 0x10000, op := .load 4 }] }
/-- Whether core 0 may send the request of that number. -/
def sends (s : State) (id : Nat) : Bool := (s.mem.injecting 0).any fun r => r.id == id
/-- Every update-only line is merged. -/
def noUpd (s : State) : Bool := s.cores.all fun k => k.upd.isEmpty
/-- `InLine`, decided. -/
def inLineB (s : State) (line pa n : Nat) : Bool := s.mem.place pa == pa && (!isHost pa || decide (pa < 2 ^ 46)) && lineOf pa == line && decide (pa % 128 + n ≤ 128)
/-- The 17 requests of a full queue of the slice. -/
def reqsFull : List Request := reqAt 0 0x10000 .flight :: (List.range 16).map fun i => reqAt (i + 1) 0x10000 .queued
/-- A list of a line's requests. -/
def list0 : WaitList := { line := 0x10000, entries := [{ kind := 0, tag := 0, agent := 0, req := 0 }] }
/-- A load in that list. -/
def bedList : State := bed (fun c b => (c, b)) fun s =>
  { s with mem := { s.mem with requests := [reqAt 0 0x10000 .listed], lists := [list0] } }
/-- A queued load of a line that L2 holds, bound to the pending load. -/
def bedHit : State := bed (fun c b => (c, { b with pend := [pendLoad] })) fun s =>
  { s with mem := { s.mem with requests := [{ reqAt 0 0x10000 .queued with pend := some 0 }] } }.touchLine 0x10000
/-- A reservation since clock 0 and another requester refused 8 times. -/
def bedRes (n : Nat) : State := bed (fun c b => (c, b)) fun s => atClock n
  { s with mem := { s.mem with requests := [{ reqAt 0 0x10000 .flight with refusals := 8 }], reserves := [{ line := 0x10000, req := 9, since := 0 }] } }

theorem witness_SlicesAnswer :
    (sends (bedReq [reqAt 0 0x10000 .flight]) 0 = true ∧ isHost 0x10000 = false ∧ isPeer 0x10000 = false ∧
      (bedReq [reqAt 0 0x10000 .flight]).mem.reserves = [] ∧ ((bedReq [reqAt 0 0x10000 .flight]).mem.queueOf 0x10000).length = 0 ∧
      ((bedReq [reqAt 0 0x10000 .flight]).mem.requests.all fun r => r.st != .inval) = true ∧ ((bedReq reqsFull).mem.requests.all fun r => r.st != .inval) = true ∧
      ((bedReq reqsFull).mem.queueOf 0x10000).length = 16 ∧ sends (bedReq reqsFull) 0 = true) ∧
    (sends (bedReq [reqIo .flight, { reqIo .flight with id := 1 }]) 1 = false ∧
      ((bedReq [reqIo .flight, { reqIo .flight with id := 1 }]).mem.requests.find? fun r => r.id == 1) = some { reqIo .flight with id := 1 }) ∧
    ((reqIo .queued).direct = true ∧ (reqIo .queued).agent = none ∧ (reqIo .queued).shared = false ∧ noUpd (bedReq [reqIo .queued]) = true ∧ inLineB (bedReq [reqIo .queued]) 0x10000 0x10000 4 = true ∧
      (bedReq [reqIo .queued]).mem.poisoned 0x10000 4 = false ∧ (bedReq [reqIo .queued]).mem.host.length = 2) ∧
    FindsBundle (bedReq [reqIo .queued]) (fun _ b => b.pend.find? (fun p => p.id == 0) = some pendLoad) ∧
    ((bedHit.mem.l2At 0x10000).isSome = true ∧ noUpd bedHit = true ∧ inLineB bedHit 0x10000 0x10000 4 = true ∧ bedHit.mem.poisoned 0x10000 4 = false) ∧
    FindsBundle bedHit (fun _ b => b.pend.find? (fun p => p.id == 0) = some pendLoad) ∧
    ((bedList.mem.lists.find? fun x => x.line == 0x10000) = some list0 ∧ noUpd bedList = true ∧ bedList.mem.poison = [] ∧
      (bedList.mem.requests.find? fun q => q.id == 0) = some (reqAt 0 0x10000 .listed) ∧
      (reqAt 0 0x10000 .listed).agent = none ∧ (reqAt 0 0x10000 .listed).wr = false) ∧
    (8 ≤ (bedReq [reqAt 0 0x10000 (.refused 8)] 6).netClock ∧ (bedReq [reqAt 0 0x10000 (.refused 8)] 0).netClock < 8) ∧
    ((bedRes 0).netClock < 0 + 8192 ∧ 0 + 8192 ≤ (bedRes 6144).netClock ∧ (bedRes 6144).mem.reserves.length = 1) := by
  and_intros <;> first | decide +kernel | exact findsBundle (cid := 1) (bi := 0) (by decide +kernel)

/-- An update-only line of core 0. -/
def upd0 : UpdLine := { line := 0x10000, words := [{ idx := 1, func := 0, bytes := 4, val := 5 }], users := [] }
/-- Core 0 with that line, which L2 holds, and with other requests. -/
def bedUpd (l : List Request) : State := bed (fun c b => (c, b)) fun s =>
  let s := s.setCore 0 { (s.core 0) with upd := [upd0] }
  { s with mem := { s.mem with requests := l } }.touchLine 0x10000
/-- A packet at a router, and a request of a core, after the turn given was taken by another. -/
def bedNoon (turn : Option Nat) : State := bed (fun c b => (c, b)) fun s =>
  { s with mem := { s.mem with
    requests := [reqAt 0 0x10000 .flight], noon := (turn, turn)
    replies := [{ router := 0, kind := .data 1 0 0 none, sent := none, golden := none }] } }
/-- A walk of a page of the placed program's region, the lines of its tables in L2 and its requests served or not. -/
def bedWalk (vpage : Nat) (served : Bool := true) : State := bed (fun c b => (c, b)) fun s =>
  let l := (walkPath s.mem 0 4 0x4000 (vpage * 8192)).map fun a => lineOf (s.mem.place a)
  let s := l.foldl (fun s a => s.touchLine a) s
  { s with mem := { s.mem with
    walks := [{ id := 0, cores := [0], host := 0, root := 0x4000, vpage := vpage }]
    requests := if served then l.map fun a => agentReq (.walk 0) a false .ready else [] } }
/-- Every entry of the walk's path is at home, and served or not. -/
def pathHome (s : State) (vpage : Nat) (served : Bool := true) : Bool :=
  (walkPath s.mem 0 4 0x4000 (vpage * 8192)).all fun a => (s.mem.l2At (s.mem.place a)).isSome && !homeless (lineOf (s.mem.place a)) &&
    (s.mem.requests.any fun q => q.agent == some (.walk 0) && !q.wr && q.st == .ready && q.line == lineOf (s.mem.place a)) == served
/-- The queued request of core 0's merge of 0x1_0000. -/
def reqMerge : Request := agentReq (.merge 0 0x10000) 0x10000 true .queued
/-- A store of lane 0 parked for a page. -/
def parked0 : Replay :=
  { crew := 1, bun := 0, pc := 0x10000, root := 0x4000, vpage := 8, lanes := [{ lane := 0, va := 0x10100, pa := 0, op := .store [1, 2, 3, 4] }], red := false, request := none, seq := 0 }
/-- That store in core 0's replay queue, the page with W or not. -/
def bedPark1 (w : Bool) : State := bed (fun c b => (c, b)) fun s =>
  let s := s.setCore 0 { (s.core 0) with replay := [parked0] }
  if w then s else { s with mem := { s.mem with
    tlb := s.mem.tlb.map fun e => { e with pte := e.pte &&& ~~~0x10 }, gddr := s.mem.gddr.set (0xA000 + 64) 0x2B } }
/-- The parked stores of that page, and the leaf. -/
def parkedAt (s : State) (w : Bool) : Bool :=
  ((s.core 0).replay.filter fun r => r.root == 0x4000 && r.vpage == 8 && r.request.isNone) == [parked0] &&
    (match s.translate 0 1 (8 * 8192) with
      | .leaf p => pteW p == w && !isHost (physOf p 8) && !pteShared p
      | _ => false)

theorem witness_MemoryEvents :
    (((bedUpd []).core 0).upd.find? (fun x => x.line == 0x10000) = some upd0 ∧ homeless 0x10000 = false) ∧
    (((bedUpd [reqMerge]).core 0).upd.find? (fun x => x.line == 0x10000) = some upd0 ∧
      (bedUpd [reqMerge]).mem.requests.find? (fun r => r.id == 0) = some reqMerge ∧ reqMerge.agent = some (.merge 0 0x10000) ∧ reqMerge.shared = false ∧
      ((bedUpd [reqMerge]).mem.l2At 0x10000).isSome = true ∧ 0 < (bedUpd [reqMerge]).cores.length ∧
      inLineB (bedUpd [reqMerge]) 0x10000 (0x10000 + 4 * 1) 4 = true) ∧
    ((atClock 4096 bed0).coreClock = 4096 ∧ (bed0.core 0).ltClock = 0 ∧ bed0.coreClock < 4096 ∧ 0 < bed0.cores.length) ∧
    ((bedNoon none).netClock / 16 % 128 = 0 ∧ ((bedNoon none).mem.replies.map fun r => (r.router, r.golden)) = [(0, none)] ∧
      ((bedNoon none).mem.injecting 0).map (fun q => (q.id, q.golden)) = [(0, none)] ∧ (bedNoon none).mem.noon = (none, none) ∧
      (bedNoon (some 0)).mem.noon = (some ((bedNoon (some 0)).netClock / 16), some 0)) ∧
    (pathHome (bedWalk 8 false) 8 false = true ∧ (walkPath (bedWalk 8 false).mem 0 4 0x4000 (8 * 8192)) ≠ []) ∧
    (noUpd (bedWalk 8) = true ∧ pathHome (bedWalk 8) 8 = true ∧ (bedWalk 8).mem.tlb2.all (fun e => e.vpage != 8) = true ∧
      walk (bedWalk 8).mem 0 0x4000 (8 * 8192) = .leaf placedPte) ∧
    (pathHome (bedWalk 9) 9 = true ∧ (bedWalk 9).mem.tlb2.all (fun e => e.vpage != 9) = true ∧ walk (bedWalk 9).mem 0 0x4000 (9 * 8192) = .absent) ∧
    (parkedAt (bedPark1 true) true = true ∧ parkedAt (bedPark1 false) false = true) ∧
    FindsBundle (bedPark1 false) (fun _ b => b.trap = none ∧ ∀ y ∈ b.subs, y.park = .run) := by
  and_intros <;> first | decide +kernel | exact findsBundle (cid := 1) (bi := 0) (by decide +kernel)

/-! ## Events of the engines -/

/-- The words of a copy of one row of 2 elements of 4 bytes, from 0x1_0000 to scratch 0. -/
def copyWords : List DWord := [BitVec.ofNat 64 (1 * 2 ^ 48 + 0x10000), 0, BitVec.ofNat 64 (8 * 2 ^ 48 + 2 * 2 ^ 32), BitVec.ofNat 64 (2 * 2 ^ 53)]
/-- A copy record: base, rows, scale bytes and their block code, K, format, vector length, NARROW, ROLE, pitch and columns; scratch 0. -/
def boxWords (boxr scl lsel param fmt vl : Nat) (narrow role : Bool) (dpitch boxc : Nat) : List DWord :=
  [BitVec.ofNat 64 (boxr * 2 ^ 48 + 0x10000), BitVec.ofNat 64 (lsel * 2 ^ 56 + 128 * 2 ^ 32), BitVec.ofNat 64 (dpitch * 2 ^ 48 + boxc * 2 ^ 32),
    BitVec.ofNat 64 (scl + fmt * 2 ^ 50 + param * 2 ^ 53 + vl * 2 ^ 57 + (if narrow then 2 ^ 62 else 0) + if role then 2 ^ 63 else 0)]
/-- An entry of queue 0 of crew 1. -/
def qEntry (kind : QKind) (unit : Nat) (stamp : Option (DWord × DWord)) : QEntry :=
  { entryIn .begun with kind := kind, recd := if kind == .lcode then [0x10000] else copyWords, unit := unit, stamp := stamp, range := some { area := .plain, off := 0, len := 32 } }
/-- An lcopy of that box. -/
def boxEntry (w : List DWord) : QEntry := { qEntry .lcopy 0 none with recd := w, range := some { area := .plain, off := 0, len := (CopyRec.read w).footprint false } }
/-- Lines that an entry of the bed may read: 16 for an lcode, 3 for others. -/
def linesFor (e : QEntry) : List Nat := (List.range (if e.kind == .lcode then 16 else 3)).map fun i => 0x10000 + 128 * i
/-- The bed with that entry on core 0, lines from 0x1_0000 in L2, some data there, codebook 0 filled, and the entry's requests to those lines served. -/
def bedEntry (e : QEntry) (wr : Bool := false) : State := bed (fun c b => (c, b)) fun s => atClock 4 <|
  let s := (s.setCore 0 { (s.core 0) with entries := [e], tables := (s.core 0).tables.set 0 { Codebook.init with data := Mem.write [] 64 (List.replicate 64 7) } })
  let s := { s with mem := s.mem.writeDev 0x10000 [0x80, 0x3F, 0xC1, 0x40, 0x9A] }
  let s := (linesFor e).foldl (fun s a => s.touchLine a) s
  { s with mem := { s.mem with requests := (linesFor e).map fun a => agentReq (.copy 0 1 e.id) a wr .ready } }
/-- The same with no request served. -/
def bedUnasked (e : QEntry) : State := let s := bedEntry e; { s with mem := { s.mem with requests := [] } }
/-- `EntryActs`, decided, of the bed's crew. -/
def entryActsB (s : State) (e : QEntry) : Bool :=
  (s.core 0).entry? e.id == some e && (s.crew? e.crew).isSome && s.entryReady 0 e && noUpd s && decide ((s.rootHost 1).2 < s.mem.host.length)
/-- An access of an entry that goes through and meets nothing. -/
def okAccess (s : State) (e : QEntry) (write : Bool) (l : List (Nat × Nat)) : Bool :=
  match s.engineAccess (.copy 0 1 e.id) false 1 write l with
  | .ok _ l => (s.engineMeets (.copy 0 e.id e.queue) write l).isNone &&
      (l.all fun z => (linesOf (s.mem.place z.2.2.2) z.2.1).all fun a => (s.mem.l2At a).isSome) && decide ((l.map (·.2.2.2)).Nodup) &&
      l.all fun y => l.all fun z => decide (y.1 ≤ z.1 → z.1 < y.1 + y.2.1 → z.1 = y.1 ∧ z.2.1 = y.2.1)
  | _ => false
/-- Such an access has left the bed as it was. -/
theorem okAccess_same {s : State} {e : QEntry} {write : Bool} {l : List (Nat × Nat)} (h : okAccess s e write l = true) (n : noUpd s = true) :
    ∃ z, s.engineAccess (.copy 0 1 e.id) false 1 write l = .ok s z := by
  unfold okAccess at h
  split at h
  · rename_i t z hz; exact ⟨z, State.engineAccess_ok_same hz n ▸ hz⟩
  · cases h
/-- An access that stops. -/
def stopAccess (s : State) (e : QEntry) (write : Bool) (l : List (Nat × Nat)) : Bool :=
  match s.engineAccess (.copy 0 1 e.id) false 1 write l with
  | .stop _ _ _ => true
  | _ => false
/-- An access that waits. -/
def waitAccess (s : State) (e : QEntry) (write : Bool) (l : List (Nat × Nat)) : Bool :=
  match s.engineAccess (.copy 0 1 e.id) false 1 write l with
  | .wait _ _ => true
  | _ => false
/-- Its page without R. -/
def bedNoR (e : QEntry) : State := bed (fun c b => (c, b)) fun s =>
  { (s.setCore 0 { (s.core 0) with entries := [e] }) with mem := { s.mem with
    tlb := s.mem.tlb.map fun t => { t with pte := t.pte &&& ~~~8 }, gddr := s.mem.gddr.set (0xA000 + 64) 0x33 } }
/-- Its record. -/
def recOf (e : QEntry) : CopyRec := CopyRec.read e.recd
/-- The bytes of its first line. -/
def putOf (e : QEntry) : List (Nat × Nat) :=
  ((recOf e).putCells.filter fun b => lineOf b.addr == (recOf e).putLines.getD 0 0).map fun b => (b.addr, 1)
/-- Its crew pages not on demand and holds no poison. -/
def plainCrew (e : QEntry) : Bool := ((bedEntry e).crew? 1).any fun c => !c.demand && c.poison.isEmpty && (c.areaMem .plain).wf
/-- What `CopyUnitsPerform` asks of an lcopy's first unit that performs. -/
def unitOk (e : QEntry) : Bool :=
  let r := recOf e
  let s := bedEntry e
  entryActsB s e && decide (e.unit < r.rows) && okAccess s e false (e.reads r) && e.held.isEmpty && plainCrew e && decide (r.fmt ≤ 5) &&
    (!r.narrow || ((r.fmt == 2 || r.fmt == 3) && !r.role)) && decide (r.rowBytes false ≤ r.pitch) && (!r.role || decide (r.boxr ≤ 64)) &&
    (r.bad e.recd false).isEmpty && ((s.core 0).tables.getD r.tbl Codebook.init).old.isNone &&
    (r.stripElems.all fun j => decide (leNat (s.mem.read 0 j.2 1) < 100))
/-- The stamp of a completion: 5 at 0x1_0100. -/
def stamp5 : Option (DWord × DWord) := some (0x10100, 5)

/-- A task of crew 1 that engine 0 runs. -/
def taskIn (kind : TKind) (w0 w1 : Nat) (engine : Option Nat) (stamp : Option (DWord × Nat × DWord)) : Task :=
  { id := 0, seq := 0, crew := 1, bun := 0, pc := 0x10000, kind := kind, w0 := BitVec.ofNat 64 w0, w1 := BitVec.ofNat 64 w1,
    range := some { area := .plain, off := 0, len := 256 }, stamp := stamp, engine := engine, left := false }
/-- The bed with that task, the home of 0x1_0100's line having served its stamp. -/
def bedTaskIn (u : Task) : State := bed (fun c b => ({ c with wbg := 8 }, b)) fun s =>
  let s := s.setCore 0 { (s.core 0) with tasks := [u] }
  { s with mem := { s.mem with requests := [agentReq (.task 0 1 0) 0x10100 true .ready] } }
/-- `TaskEnds`, decided, with a condition on the crew. -/
def taskEndsB (u : Task) (p : Crew → Bool) : Bool :=
  let s := bedTaskIn u
  (s.crew? 1).any (fun c => p c && (s.region? c.region).isSome) && decide (0 < s.cores.length) && (s.core 0).tasks.find? (fun t => t.engine == some 0) == some u &&
    noUpd s && u.stamp.all fun z => s.mem.requests.any fun q => q.agent == some (.task 0 1 u.id) && q.wr && q.st == .ready && q.line == lineOf z.2.1
/-- Tiles that the task's record names exist, with plain tables. -/
def tilesB (u : Task) (c : Crew) : Bool :=
  decide (u.record.ct + u.record.nt < c.tiles.length) && c.tiles.all fun z => decide ((z.elems.map Prod.fst).Pairwise (· < ·))
/-- An mma of that FMT, SLA and SLB on 64 rows and K of 64 (ks + 1). -/
def mmaTask (fmt sla slb ks : Nat) (engine : Option Nat) : Task := taskIn .mma (fmt * 2 ^ 48 + sla * 2 ^ 51 + slb * 2 ^ 54 + 16 * 2 ^ 32) (ks * 2 ^ 22) engine none
/-- What its clause asks. -/
def mmaOk (fmt sla slb ks : Nat) : Bool :=
  taskEndsB (mmaTask fmt sla slb ks (some 0)) (tilesB (mmaTask fmt sla slb ks (some 0))) && (mmaTask fmt sla slb ks none).record.fmt == fmt
/-- An mwld of that FMT and TRANS. -/
def mwldTask (fmt : Nat) (trans : Bool) (sla : Nat) : Task :=
  taskIn .mwld (fmt * 2 ^ 48 + sla * 2 ^ 51 + 16 * 2 ^ 32 + if trans then 2 ^ 57 else 0) (2 ^ 22) (some 0) none
/-- What its clause asks. -/
def mwldOk (fmt : Nat) (trans : Bool) (sla : Nat) : Bool :=
  taskEndsB (mwldTask fmt trans sla) (fun c => c.wdata.wf && c.wside.wf) && (mwldTask fmt trans sla).record.fmt == fmt && (mwldTask fmt trans sla).record.trans == trans
/-- An mst of that FMT and block code. -/
def mstTask (fmt sla : Nat) : Task := taskIn .mst (fmt * 2 ^ 48 + sla * 2 ^ 51 + 16 * 2 ^ 32) 0 (some 0) none
/-- What its clause asks. -/
def mstOk (fmt sla : Nat) : Bool :=
  taskEndsB (mstTask fmt sla) (fun c => (c.areaMem .plain).wf && tilesB (mstTask fmt sla) c) && (mstTask fmt sla).record.fmt == fmt &&
    decide ((mstTask fmt sla).record.rowBytes ≤ (mstTask fmt sla).record.pitch) && (mstTask fmt sla).record.sla == sla

theorem witness_CopyUnitsPerform :
    unitOk (qEntry .lcopy 0 none) = true ∧ unitOk (boxEntry (boxWords 1 0 0 0 1 0 false false 1 2)) = true ∧
    unitOk (boxEntry (boxWords 1 0x10100 3 4 2 0 false false 4 64)) = true ∧ unitOk (boxEntry (boxWords 1 0x10100 4 3 3 0 true false 4 128)) = true ∧
    unitOk (boxEntry (boxWords 2 0x10100 3 2 2 0 false true 1 64)) = true ∧
    unitOk (boxEntry (boxWords 1 0 0 0 4 1 false false 1 2)) = true ∧ unitOk (boxEntry (boxWords 1 0 0 0 5 1 false false 1 2)) = true ∧
    (entryActsB (bedUnasked (qEntry .lcopy 0 none)) (qEntry .lcopy 0 none) = true ∧
      waitAccess (bedUnasked (qEntry .lcopy 0 none)) (qEntry .lcopy 0 none) false ((qEntry .lcopy 0 none).reads (recOf (qEntry .lcopy 0 none))) = true) ∧
    (entryActsB (bedNoR (qEntry .lcopy 0 none)) (qEntry .lcopy 0 none) = true ∧
      stopAccess (bedNoR (qEntry .lcopy 0 none)) (qEntry .lcopy 0 none) false ((qEntry .lcopy 0 none).reads (recOf (qEntry .lcopy 0 none))) = true) ∧
    (entryActsB (bedEntry (qEntry .lput 0 none) true) (qEntry .lput 0 none) = true ∧ 0 < (recOf (qEntry .lput 0 none)).putLines.length ∧
      okAccess (bedEntry (qEntry .lput 0 none) true) (qEntry .lput 0 none) true (putOf (qEntry .lput 0 none)) = true ∧ plainCrew (qEntry .lput 0 none) = true) := by
  and_intros <;> decide +kernel

theorem witness_QueueEntriesComplete :
    (entryActsB (bedEntry (qEntry .lcopy 1 none)) (qEntry .lcopy 1 none) = true ∧ (qEntry .lcopy 1 none).units ≤ 1 ∧
      entryActsB (bedEntry (qEntry .lcopy 1 stamp5) true) (qEntry .lcopy 1 stamp5) = true ∧
      okAccess (bedEntry (qEntry .lcopy 1 stamp5) true) (qEntry .lcopy 1 stamp5) true [(0x10100, 8)] = true ∧
      ((bedEntry (qEntry .lcopy 1 stamp5)).crew? 1).any (fun c => decide (0 < c.stampDone.length)) = true) ∧
    (entryActsB (bedEntry (qEntry .qfence 0 none)) (qEntry .qfence 0 none) = true ∧ ((bedEntry (qEntry .qfence 0 none)).core 0).fenceMet (qEntry .qfence 0 none) = true ∧
      (qEntry .qfence 0 none).clock < (bedEntry (qEntry .qfence 0 none)).coreClock ∧
      (bedEntry { qEntry .qfence 0 none with clock := 4 }).coreClock ≤ 4 ∧
      ({ ((bedEntry (qEntry .qfence 0 none)).core 0) with tasks := [mmaTask 1 0 0 0 none] }).fenceMet { (qEntry .qfence 0 none) with mask := 16, seq := 1 } = false) ∧
    (entryActsB (bedEntry (qEntry .lcode 0 none)) (qEntry .lcode 0 none) = true ∧
      okAccess (bedEntry (qEntry .lcode 0 none)) (qEntry .lcode 0 none) false ((List.range 16).map fun i => (0x10000 + 128 * i, 128)) = true) := by
  and_intros <;> decide +kernel

theorem witness_MatrixTasksRun :
    ((bedTaskIn (mmaTask 1 0 0 0 none)).taskReady 0 (mmaTask 1 0 0 0 none) = true ∧ ((bedTaskIn (mmaTask 1 0 0 0 none)).core 0).tasks = [mmaTask 1 0 0 0 none]) ∧
    taskEndsB (taskIn .mzero 0 0x100 (some 0) none) (tilesB (taskIn .mzero 0 0x100 (some 0) none)) = true ∧
    taskEndsB (taskIn .mzero 0 0 (some 0) (some (0x10100, 0x10100, 5))) (fun _ => true) = true ∧ bed0.mem.place 0x10100 = 0x10100 ∧
    mmaOk 0 2 3 0 = true ∧ mmaOk 1 0 0 0 = true ∧ mmaOk 2 0 0 0 = true ∧ mmaOk 3 2 0 1 = true ∧ mmaOk 4 0 0 1 = true ∧ mmaOk 5 0 0 1 = true ∧ mmaOk 6 0 0 0 = true ∧
    mwldOk 0 false 0 = true ∧ mwldOk 0 true 2 = true ∧ mwldOk 1 true 0 = true ∧ mwldOk 2 false 0 = true ∧ mwldOk 2 true 0 = true ∧
    mstOk 0 0 = true ∧ mstOk 1 0 = true ∧ mstOk 2 2 = true := by
  and_intros <;> decide +kernel

/-! ## Events of the visibility path, the dispatcher and the context layer -/

/-- A surface of one tile: 8 by 8 pixels, two clusters, MAP, DIR and MATTAB on the placed program's page. -/
def surf8 (retain : Bool) (tiles : List TileRec) : Surface :=
  { desc := 0x20000, region := 1, tiles := tiles,
    d := { surf := 0x40000, keep := false, retain := retain, face := false, cull := 0, depth := false, height := 8, width := 8, map := 0x10200,
           maplen := 2, dir := 0x10400, mattab := 0x10300 } }
/-- Its tile in a state, all pixels clear. -/
def tile0 (st : TileSt) : TileRec :=
  { tile := 0, st := st, pix := List.replicate 64 (0x7F800000, clearId), castId := 1, sieved := 0, filed := false, sealSeq := 0, pinned := true }
/-- A meshlet of one triangle over the whole tile at depth 0.5. -/
def mesh0 : Meshlet :=
  { id := 0, castId := 1, surf := 0, core := 0, inst := 0, clus := 0, nv := 3, nt := 1,
    verts := [(0, [0xBF800000, 0xBF800000, 0x3F000000, 0x3F800000]), (1, [0x40400000, 0xBF800000, 0x3F000000, 0x3F800000]),
      (2, [0xBF800000, 0x40400000, 0x3F000000, 0x3F800000])],
    tris := [(0, 0x020100)] }
/-- The descriptor word 4 of a KIND. -/
def withKind (k : Nat) (a : Cast) : Cast := { a with desc := a.desc.set 4 (BitVec.ofNat 64 (k * 2 ^ 14)) }
/-- The bed whose cast is a pipeline cast of surface 0, its crew retired. -/
def bedTiles (retain : Bool) (tiles : List TileRec) (ms : List Meshlet) : State := bed (fun c b => (c, b)) fun s =>
  { s with
    casts := s.casts.map fun a => { withKind 1 a with surf := some 0, retired := 1 }
    vis := { s.vis with surfaces := [surf8 retain tiles], meshlets := ms } }
/-- A SEALED tile whose pixel 0 is of cluster 0, and a material cast for material 0. -/
def tileM : TileRec := { tile0 .sealed with pix := (List.replicate 64 (0x7F800000, clearId)).set 0 (0x3F000000, 1) }
/-- The device with that tile. -/
def bedMat : State :=
  let s := bedTiles false [tileM] []
  { s with casts := s.casts ++ [{ withKind 2 (placedCast 2) with descVa := 0x400 }]
           mem := { s.mem with gddr := (s.mem.gddr.set 0x10301 4) } }
/-- The quad record of a covered pixel. -/
def quad0 : MatRecord :=
  { surf := 0, tile := 0, quad := 0, cover := 1, material := 0, ids := [1, clearId, clearId, clearId], depths := [0x3F000000, 0, 0, 0], hit := false, ray := 0,
    t := 0, b1 := 0, b2 := 0, cone := 0, castId := 1, matCast := 2, filed := 0, core := 0 }
/-- A bin of unit 0 with it. -/
def rbin0 (qual : Option Nat) : RBin := { surf := 0, material := 0, hits := none, records := [quad0], qual := qual }
/-- The device with that bin at a clock. -/
def bedRBin (qual : Option Nat) (n : Nat) : State := atClock n { bedMat with vis := { bedMat.vis with riddle := bedMat.vis.riddle.set 0 [rbin0 qual] } }

theorem witness_VisibilityPath :
    ((bedTiles false [tile0 .open] [mesh0]).surface? 0 = some (surf8 false [tile0 .open]) ∧ (mesh0.samples (surf8 false []).d 0).length = 64 ∧
      sampleTiles (surf8 false []).d (mesh0.samples (surf8 false []).d 0) = [0] ∧ (bedTiles false [tile0 .open] [mesh0]).step = 0) ∧
    ((surf8 false []).tile? 0 = none ∧ (bedTiles false [] [mesh0]).pinsFull (surf8 false []) 0 = false ∧ (bedTiles false [] [mesh0]).tileWays (surf8 false []) 0 = true) ∧
    ((bedTiles false [tile0 .open] []).cast? 1).any (fun a => a.kind == 1 && !a.done && !a.geomEnded && a.crewsDone && a.surf == some 0) = true ∧
    ((bedMat.surface? 0).any fun f => f.tile? 0 == some tileM && f.d.tileSlice 0 / 4 == 0 &&
      quadItems (bedMat.tileMaterials 1 f.d tileM.pix).2 == [(0, 0, 1)] && ((bedMat.cast? 1).any fun a => (bedMat.materialCast a f.d 0).2.any (·.castId == 2)) &&
      decide (bedMat.unitLoad 0 < 512) && decide (0 < bedMat.vis.riddle.length) && noUpd bedMat) = true ∧
    ((bedTiles true [tile0 .sealed] []).cast? 1).any (fun a => a.killed == none && !(bedTiles true [tile0 .sealed] []).quadHeld 0 0) = true ∧
    ((bedRBin none 1536).netClock = 2048 ∧ (bedRBin none 0).netClock < 2048 ∧ ((bedRBin none 0).vis.riddle.getD 0 [])[0]? = some (rbin0 none)) ∧
    ((bedRBin (some 0) 0).candidateList = [(0, .riddle 0 0)] ∧ (rbin0 (some 0)).next = [quad0] ∧ (bedRBin (some 0) 0).disp.passed = [] ∧
      (((bedRBin (some 0) 0).cast? 2).any fun a => (bedRBin (some 0) 0).rampFits (a.need (bedRBin (some 0) 0)).slots &&
        (bedRBin (some 0) 0).budgetFits a.region [a.need (bedRBin (some 0) 0)] && (a.need (bedRBin (some 0) 0)).reserve == 0 &&
        ((bedRBin (some 0) 0).nearestFit (a.need (bedRBin (some 0) 0)) (quad0.homeCore (surf8 false []).d)).isSome) = true ∧
      ((bedRBin (some 0) 0).crews.all fun c => c.cid != (bedRBin (some 0) 0).disp.nextCrewId) = true) := by
  and_intros <;> decide +kernel

/-- A crew of records, one quad in its bundle, on the bed of that material cast. -/
def bedRun (g : State → State) : State :=
  bed (fun c b => ({ c with records := [{ quad0 with cover := 15, ids := [1, 1, 1, 1] }], runnerDone := false }, { b with present := 15 })) fun s =>
    g { s with vis := { s.vis with surfaces := [surf8 false []] } }
/-- DIR, the cluster table and a vertex block of one triangle on the placed program's page, their lines in L2. -/
def withTri (s : State) : State :=
  let w := fun (m : Mem) (a v n : Nat) => m.write a (leBytes n v)
  let g := w (w (w (w s.mem.gddr 0x10400 0x10500 8) 0x10500 0x10600 8) 0x10600 0x00000103 4) (0x10610 + 48) 0x020100 4
  let g := w (w g 0x1061C 0x3F800000 4) 0x1062C 0x3F800000 4
  [0x10400, 0x10500, 0x10600].foldl (fun s a => s.touchLine a) { s with mem := { s.mem with gddr := g } }
/-- The page without R. -/
def withoutR (s : State) : State :=
  { s with mem := { s.mem with tlb := s.mem.tlb.map (fun t => { t with pte := t.pte &&& ~~~8 }), gddr := s.mem.gddr.set (0xA000 + 64) 0x33 } }
/-- What the Runner reads for lane 0. -/
def runsTo (s : State) (p : RunRes → Bool) : Bool :=
  match s.ctx? 1 0 30 with
  | some x => x.sub.stall.isNone && x.c.st != .halted && !x.c.runnerDone && decide (8 + x.cast.nam ≤ x.b.v.length) && x.b.present == 15 &&
      (List.range 4).all fun L => (x.c.laneRecord L).isSome && (let r := x.runnerLane L x.cast.nam (surf8 false []).d 1; p r.2 && decide (r.1.s = x.s) &&
        decide (r.1.c = x.c) && decide (r.1.b = x.b) && decide (r.1.sub = x.sub))
  | none => false
/-- A cast whose crews wait for their launch. -/
def bedFresh : State := bed (fun c b => (c, b)) fun s => { s with casts := s.casts ++ [{ placedCast 2 with nextCrew := 0, admitted := 0 }], disp := { s.disp with nextCrewId := 7 } }
/-- The same, passed over since clock 0, at a core clock. -/
def bedPassed (n : Nat) : State := atClock n { bedFresh with disp := { bedFresh.disp with passed := [{ kind := .fresh 2, since := 0, blocking := false }] } }
/-- An idle time in the blob, column 2 waking, at a core clock. -/
def bedCols (n : Nat) : State := bed (fun c b => ({ c with st := .starting }, b)) fun s => atClock n
  { s with host := { s.host with blob := { s.host.blob with idleNs := 100 } }, disp := { s.disp with waking := [(2, 50)] } }
/-- A crew that waits for its start window, in a blob that allows so many starts in one. -/
def bedRamp (starts : Nat) : State := bed (fun c b => ({ c with st := .starting, startWin := 0 }, b)) fun s => atClock 900
  { s with host := { s.host with blob := { s.host.blob with rampStarts := starts } }, disp := { s.disp with waitStart := [1] } }
/-- No crew, an idle time in the blob, no column waking. -/
def bedIdle : State := { bedCols 900 with crews := [] }
/-- A crew whose strands have ended. -/
def bedEnded : State := bed (fun c b => (c, { b with exited := b.present, subs := [] })) fun s => s
/-- A cast whose crews have retired. -/
def bedEnd (done : Nat) : State := bed (fun c b => (c, b)) fun s =>
  { s with crews := [], casts := s.casts.map fun a => { a with retired := 1, desc := a.desc.set 12 (BitVec.ofNat 64 done) } }

theorem witness_CrewLife :
    runsTo (bedRun withTri) (fun r => match r with
      | .got _ => true
      | _ => false) = true ∧
    runsTo (bedRun (fun s => withoutR (withTri s))) (fun r => match r with
      | .fault _ _ => true
      | _ => false) = true ∧
    (bedFresh.candidateList = [(0, .fresh 2)] ∧ bedFresh.disp.passed = [] ∧ ((bedFresh.cast? 2).any fun a => a.gang == (1, 1) && a.place != 1 &&
      bedFresh.rampFits (a.need bedFresh).slots && bedFresh.budgetFits a.region [a.need bedFresh] && (a.need bedFresh).reserve == 0 &&
      (((List.range 128).map fun i => (bedFresh.disp.rr + i) % 128).find? (bedFresh.coreFits (a.need bedFresh))).isSome) = true ∧ bed0.candidateList = []) ∧
    ((bedPassed 75000).candidateList = [(0, .fresh 2)] ∧ 0 + 50000 ≤ (bedPassed 75000).ns ∧ (bedPassed 0).ns < 0 + 50000) ∧
    ((bedCols 900).disp.waitStart = [] ∧ ((bedCols 900).crews.all fun c => c.st == .starting &&
      ((bedCols 900).sameGang c).all fun d => decide (d.startWin < (bedCols 900).winNo)) = true) ∧
    ((bedRamp 2).disp.waitStart = [1] ∧ (bedRamp 0).disp.waitStart = [1] ∧ (((bedRamp 2).crew? 1).any fun c =>
      ((bedRamp 2).sameGang c).all (fun d => d.cid == 1) && (bedRamp 2).rampFits c.bundles.length && !(bedRamp 0).rampFits c.bundles.length) = true) ∧
    ((bedCols 900).columnAwake 1 = true ∧ ((bedCols 900).crews.all fun c => !c.usesColumn 1) = true ∧ (bedCols 900).host.blob.idleNs = 100 ∧
      (bedCols 900).disp.idleFrom.getD 1 0 + 100 ≤ (bedCols 900).ns ∧ (bedCols 0).ns < (bedCols 0).disp.idleFrom.getD 1 0 + 100) ∧
    (bedIdle.cacheIdle = true ∧ (bedCols 900).cacheIdle = false ∧ bedIdle.disp.cacheAsleep = [] ∧ bedIdle.disp.cacheWake = []) ∧
    ((bedCols 900).disp.waking.find? (fun u => u.1 == 2) = some (2, 50) ∧ 50 ≤ (bedCols 900).ns ∧ (bedCols 900).disp.asleep = []) ∧
    ((bedEnded.crew? 1).any fun c => bedEnded.mayRetire c && bedEnded.stopFits c.bundles.length && c.gangW * c.gangH == 1 && c.records.isEmpty) = true ∧
    ((bed0.crew? 1).any fun c => !bed0.mayRetire c) = true ∧
    ((bedEnd 0).cast? 1).any (fun a => a.kind != 2 && !a.done && (bedEnd 0).castOver a && a.done? == 0) = true ∧
    ((bedEnd 0x10400).cast? 1).any (fun a => (bedEnd 0x10400).castOver a && (writeVirt (bedEnd 0x10400).mem (bedEnd 0x10400).step ((bedEnd 0x10400).rootHost a.region).2
      ((bedEnd 0x10400).rootHost a.region).1 a.done? (a.record 1 0 (bedEnd 0x10400).ns)).isSome && !(bedEnd 0x10400).host.windowLost) = true ∧
    (bed0.cast? 1).any (fun a => !bed0.castOver a) = true := by
  and_intros <;> decide +kernel

/-- Region 2 of higher priority below region 1, whose granules its crew holds all, and a cast of it that waits. -/
def bedTight : State := bed (fun c b => (c, b)) fun s =>
  { s with
    regions := [{ placedRegion with granb := (s.crews.map (·.cost)).sum }, { placedRegion with num := 2, parent := 1, depth := 2, priority := 1 }]
    casts := s.casts ++ [{ placedCast 2 with region := 2, nextCrew := 0, admitted := 0 }] }
/-- A halted crew. -/
def bedHalted : State := bed (fun c b => ({ c with st := .halted }, b)) fun s => s
/-- Its saved context. -/
def savedBed : State := match exec (.contextSave 1) bedHalted with
  | .next t => t
  | _ => bedHalted

theorem witness_CrewsAreSavedAndResume :
    ((bedTight.candidateList = [(1, .fresh 2)] ∧ bedTight.disp.passed = [] ∧ (bedTight.tryPlace (.fresh 2)).isNone = true ∧
      (bedTight.crews.all fun c => c.st != .halted) = true ∧
      ((bedTight.chooseVictims (.fresh 2) [] (bedTight.victimOrder 1)).any fun l => l.map (·.cid) == [1] && l.all bedTight.crews.contains) = true) ∧
    bed0.candidateList = []) ∧
    ((bedHalted.crew? 1).any fun c => bedHalted.maySave c && !bedHalted.mayRetire c && bedHalted.stopFits c.bundles.length &&
      bedHalted.ctxFits c.region (ctxSlotsFor (bedHalted.saveBytes c) - c.spillSlots.length) && ((bedHalted.bankFor c.core (ctxSlotsFor (bedHalted.saveBytes c))).any
        bedHalted.bankAwake) && c.bundles.all fun b => b.pend.isEmpty) = true ∧
    ((savedBed.disp.contexts.find? fun y => y.id == 0).any fun x => savedBed.candidateList == [(0, .saved 0)] && savedBed.disp.passed == [] &&
      x.crew.gangW * x.crew.gangH == 1 && savedBed.rampFits (x.need savedBed).slots && savedBed.budgetFits x.crew.region [x.need savedBed] && savedBed.bankAwake x.bank &&
      savedBed.coreFits (x.need savedBed) 5 && (x.need savedBed).reserve == 0 && savedBed.ovcOf x.crew.region == 0 && !x.crew.bundles.isEmpty && x.crew.bundles.all fun b =>
        b.owed.isEmpty && b.live != 0 && b.subs.any fun y => !y.atJoin && y.park == .run) = true := by
  and_intros <;> decide +kernel

/-! ## Answers, debuggers and the hosts -/

/-- A page request of host 0. -/
def req0 : PageReq := { id := 3, host := 0, region := 1, root := 0x4000, vpage := 9, write := true, fetch := false, time := 0 }
/-- The device with it, a stall and a parked store that wait for it, and a fault timeout, at a core clock. -/
def bedAck (n : Nat) (parked : Bool) : State := bed (fun c b => (c, sub1 b fun y => { y with stall := some { stall0 with requests := [3] } })) fun s => atClock n
  { (if parked then s.setCore 0 { (s.core 0) with replay := [{ parked0 with vpage := 9, request := some 3 }] }
      else s.setCore 0 { (s.core 0) with entries := [{ entryIn .begun with requests := [3] }] }) with
    mem := { s.mem with pageReqs := [req0] }
    host := { s.host with bring := .ready, blob := { s.host.blob with faultTimeoutNs := 100 } } }
/-- A debugger of the cast. -/
def withDebugger (s : State) : State := { s with host := { s.host with debuggers := [{ castId := 1, causes := 0 }] } }

/-- A bundle that its debugger has halted: at its own request, or while its handler ran. -/
def haltedB (debug : Bool) (b : Bundle) : Bundle :=
  let b := trapped b 19
  { b with halted := true, trap := b.trap.map fun t => { t with debug := debug } }
/-- A bed with a debugger whose bundle is edited. -/
def bedDbg (e : Bundle → Bundle) : State := bed (fun c b => (c, e b)) withDebugger

theorem witness_FaultsAndDebuggers :
    ((bedAck 0 true).host.bring = .ready ∧ (bedAck 0 true).requestOf 0 3 = some req0 ∧ ((bedAck 0 true).mem.pageReqs.find? fun p => p.id == 3) = some req0 ∧
      (bedAck 0 true).ns < 0 + 100 ∧ 0 + 100 ≤ (bedAck 900 true).ns ∧ ((bedAck 0 false).cores.all fun k => k.replay.isEmpty) = true) ∧
    (bed0.cast? 1).any (fun a => !a.done) = true ∧
    FindsBundle (bedDbg id) (fun c b => (bedDbg id).debugged c.castId = true ∧ b.halted = false ∧ b.trap = none ∧
      (b.subs.head?.any fun x => !x.awaits && x.park == .run) = true) ∧
    FindsBundle (bedDbg fun b => sub1 b fun y => { y with park := .wait }) (fun _ b => b.halted = false ∧ b.trap = none ∧
      (b.subs.head?.any fun x => x.awaits) = true) ∧
    FindsBundle (bedDbg fun b => trapped b 1) (fun _ b => b.halted = false ∧ b.trap.isSome = true ∧ b.subs ≠ []) ∧
    FindsBundle (bedDbg (haltedB false)) (fun c b => (bedDbg (haltedB false)).debugged c.castId = true ∧ b.halted = true ∧ b.pend = [] ∧
      (b.trap.any fun tr => !tr.debug) = true) ∧
    FindsBundle (bedDbg (haltedB true)) (fun c b => (bedDbg (haltedB true)).debugged c.castId = true ∧ b.halted = true ∧ b.pend = [] ∧
      (b.trap.any fun tr => tr.debug && tr.mask &&& b.live != 0) = true ∧ 6 < b.v.length) := by
  and_intros <;> first | decide +kernel | exact findsBundle (cid := 1) (bi := 0) (by decide +kernel)

/-- A journal entry of host 0 and region 1. -/
def jent (seq kind : Nat) (st : JState) (w1 w2 w3 : Nat) : JEntry :=
  { seq := seq, digest := 0, host := 0, queue := 0, kind := kind, st := st, code := 0, value := 0, time := 0
    cmd := [BitVec.ofNat 64 (2 ^ 52 + kind), BitVec.ofNat 64 w1, BitVec.ofNat 64 w2, BitVec.ofNat 64 w3, 0, 0, 0, 0] }
/-- A ready device with a journal; port 0's firmware Ladle has the commands given. -/
def bedJ (l : List JEntry) (fw : List Nat := []) (rejected : Bool := false) : State := bed (fun c b => (c, b)) fun s =>
  { s with host := { s.host with bring := .ready, journal := l, nextSeq := 9, ports := [{ Port.init with fw := fw, fwRejected := rejected }, Port.init] } }
/-- A ready device whose queue 0 of port 0 has 4 entries. -/
def bedQueue (enable : Bool) : State := { bedJ [jent 1 5 .accepted 0 0 0] with host := { (bedJ [jent 1 5 .accepted 0 0 0]).host with ports :=
  [{ Port.init with queues := Port.init.queues.set 0 { CmdQueue.init with size := 4, enable := enable } }, Port.init] } }
/-- Entry 1's Ladle command on port 0, its requests to the lines of 0x1_0000 and 0x1_0100 served, a poisoned unit. -/
def bedLadle (e : JEntry) (poison : List Nat) : State :=
  let s := bedJ [e] [1]
  { s with mem := { s.mem with poison := poison, requests := [agentReq (.ladle 0 false) 0x10000 false .ready, agentReq (.ladle 0 true) 0x10100 true .ready] } }
/-- An access of the firmware Ladle in one part. -/
def oneAccess (s : State) (write : Bool) (a n : Nat) : Bool :=
  match s.engineAccess (.ladle 0 write) false 1 write [(a, n)] with
  | .ok _ [z] => z.1 == a && z.2.1 == n && decide (z.2.2.2 % 128 + n ≤ 128) && (s.engineMeets (.firmware 0) write [z]).isNone
  | _ => false
/-- What the entry of a WAITSIGNAL reads. -/
def signalOf (e : JEntry) : Option Nat := ((bedJ [e]).homeReadVirt 0 0x4000 (e.word 1).toNat 8).map fun r => leNat r.2
/-- A command whose page lies in the lost shared window. -/
def bedLost (e : JEntry) : State :=
  let s := bedJ [e]
  let pte : DWord := placedPte ||| 0x80
  { s with host := { s.host with windowLost := true, linksDown := [0] }
           mem := { s.mem with tlb := s.mem.tlb.map fun t => { t with pte := pte }, gddr := s.mem.gddr.write (0xA000 + 64) (leBytes 8 pte.toNat) } }
/-- The device that waits for a firmware image. -/
def bedRecovery : State := { bedJ [] with host := { (bedJ []).host with bring := .recovery } }

theorem witness_HostCommands :
    ((bedQueue true).barOn 0 = true ∧ ((bedQueue true).port 0).queue 0 = { CmdQueue.init with size := 4, enable := true } ∧
      ((bedQueue false).port 0).queue 0 = { CmdQueue.init with size := 4 } ∧ 0 < ((bedQueue true).port 0).queues.length ∧
      (bedQueue true).host.journal.length < journalKept ∧ ((bedQueue true).host.journal.all fun j => j.host == 0 && j.queue == 0 && j.st == .accepted) = true ∧
      (bedQueue true).refuseCode 0 ((jent 1 5 .accepted 0 0 0).cmd) = 0 ∧ (bedQueue true).refuseCode 0 [0] = 1) ∧
    (bedRecovery.host.bring = .recovery ∧ 0 < bedRecovery.host.ports.length) ∧
    ((bedJ [jent 1 5 .accepted 0x10100 7 0]).starting 1 5 = some (jent 1 5 .accepted 0x10100 7 0) ∧
      (physFor bed0.mem 0 0 0x4000 pteW 0x10100).isSome = true ∧ noUpd bed0 = true ∧ bed0.host.windowLost = false ∧ (writeVirt bed0.mem 0 0 0x4000 0x10100 (leBytes 8 7)).isSome = true ∧
      (physFor bed0.mem 0 0 0x4000 pteW 0x12000).isNone = true ∧
      (bedJ [jent 1 6 .accepted 0x10100 0 0]).rootHost 1 = (0x4000, 0) ∧
      signalOf (jent 1 6 .accepted 0x10100 0 0) = some 0 ∧ signalOf (jent 1 6 .accepted 0x12000 7 0) = none ∧
      (bedJ [jent 1 6 .accepted 0x10100 0 0]).starting 1 6 = some (jent 1 6 .accepted 0x10100 0 0) ∧
      (bedJ [jent 1 6 .started 0x10100 0 0]).jentry? 1 = some (jent 1 6 .started 0x10100 0 0)) ∧
    ((bedJ [jent 1 7 .accepted 2 1 0x10100]).starting 1 7 = some (jent 1 7 .accepted 2 1 0x10100) ∧
      (writeVirt bed0.mem 0 0 0x4000 0x10100 (List.replicate 32 0)).isSome = true ∧ (spanPhys bed0.mem 0 0 0x4000 pteW 0x10100 32).isSome = true) ∧
    ((bedLost (jent 1 5 .accepted 0x10100 7 0)).starting 1 5 = some (jent 1 5 .accepted 0x10100 7 0) ∧
      (physFor (bedLost (jent 1 5 .accepted 0x10100 7 0)).mem 0 0 0x4000 pteW 0x10100).any (bedLost (jent 1 5 .accepted 0x10100 7 0)).lostAt = true ∧
      (bedLost (jent 1 7 .accepted 1 1 0x10100)).starting 1 7 = some (jent 1 7 .accepted 1 1 0x10100) ∧
      (spanPhys (bedLost (jent 1 7 .accepted 1 1 0x10100)).mem 0 0 0x4000 pteW 0x10100 32).any (fun l => l.any (bedLost (jent 1 7 .accepted 1 1 0x10100)).lostAt) = true) ∧
    ((bedJ [jent 1 3 .accepted 0x10100 8 5]).starting 1 3 = some (jent 1 3 .accepted 0x10100 8 5) ∧
      (bedJ [jent 1 4 .accepted 0x10000 0x10100 8]).starting 1 4 = some (jent 1 4 .accepted 0x10000 0x10100 8) ∧
      (bedJ [jent 1 3 .accepted 0x10100 9 5]).starting 1 3 = some (jent 1 3 .accepted 0x10100 9 5)) ∧
    (((bedLadle (jent 1 4 .started 0x10000 0x10100 8) []).port 0).fw = [1] ∧ oneAccess (bedLadle (jent 1 4 .started 0x10000 0x10100 8) []) true 0x10100 8 = true ∧
      oneAccess (bedLadle (jent 1 4 .started 0x10000 0x10100 8) []) false 0x10000 8 = true ∧ noUpd (bedLadle (jent 1 4 .started 0x10000 0x10100 8) []) = true ∧
      oneAccess (bedLadle (jent 1 4 .started 0x10000 0x10100 8) [0x10100]) true 0x10100 8 = true ∧
      oneAccess (bedLadle (jent 1 4 .started 0x10000 0x10100 8) [0x10100]) false 0x10000 8 = true ∧
      oneAccess (bedLadle (jent 1 3 .started 0x10100 64 5) [0x10100]) true 0x10100 64 = true ∧
      oneAccess (bedLadle (jent 1 3 .started 0x10100 8 5) [0x10100]) true 0x10100 8 = true ∧ placedRegion.demand = false ∧
      ((bedJ [jent 1 3 .started 0x10100 8 5] [1] true).port 0).fwRejected = true) := by
  and_intros <;> decide +kernel

/-- A cast descriptor at 0x1_0400 with word i as given. -/
def bedCast (desc : List DWord) : State :=
  let s := bedJ [jent 1 1 .accepted 0x10400 0 0]
  { s with mem := { s.mem with gddr := (List.range 16).foldl (fun m i => m.write (0x10400 + 8 * i) (leBytes 8 (desc.getD i 0).toNat)) s.mem.gddr } }
/-- The cast it makes. -/
def castAt (desc : List DWord) : Cast :=
  { castId := (bedCast desc).disp.nextCast, host := 0, region := 1, seq := 1, descVa := 0x10400, desc := desc, consts := Vector.replicate 32 0, surf := none,
    nextCrew := 0, admitted := 0, retired := 0, mcrews := 0, flags := 0, fmask := 0, off := 0, dropped := 0, prodFail := false, geomEnded := false,
    done := false, killed := none, trigged := [], trigLT := 0 }
/-- A REGION command: operation, target, parent, further bits of word 0. -/
def jreg (op target parent bits : Nat) : JEntry :=
  { jent 1 2 .accepted 0 0 0 with cmd := [BitVec.ofNat 64 (2 ^ 52 + 2), BitVec.ofNat 64 (target * 2 ^ 52 + op), BitVec.ofNat 64 (parent * 2 ^ 52 + bits), 0, 0, 0, 0, 0] }
/-- The device with that command, and with region 5 below region 1. -/
def bedReg (e : JEntry) : State := { bedJ [e] with regions := [placedRegion, { placedRegion with num := 5, parent := 1, depth := 2 }] }

theorem witness_CastsAndRegions :
    ((bedCast placedDesc).starting 1 1 = some (jent 1 1 .accepted 0x10400 0 0) ∧ ((bedCast placedDesc).casts.all fun a => a.seq != 1) = true ∧
      (((bedCast placedDesc).wordsAt 1 0x10400 16).map fun r => r.2) = some placedDesc ∧ (castAt placedDesc).bad ((bedCast placedDesc).ovcOf 1) = false ∧ (castAt placedDesc).deps = [] ∧
      (castAt (placedDesc.set 14 1)).bad 0 = true ∧ bitsOf ((castAt placedDesc).word 10) 47 0 = 0 ∧ bitsOf ((castAt placedDesc).word 11) 47 0 = 0) ∧
    ((bedReg (jreg 0 7 1 0)).regionStarting 1 0 = some (jreg 0 7 1 0) ∧ (bedReg (jreg 0 7 1 0)).inHost 0 1 = true ∧ blockBad (jreg 0 7 1 0).block = false ∧
      (bedReg (jreg 0 7 1 0)).region? 7 = none ∧ blockBad (jreg 0 7 1 1).block = true ∧ (bedReg (jreg 0 7 1 1)).regionStarting 1 0 = some (jreg 0 7 1 1)) ∧
    ((bedReg (jreg 1 5 1 0)).regionStarting 1 1 = some (jreg 1 5 1 0) ∧ (bedReg (jreg 1 5 1 0)).inHost 0 5 = true ∧ (bedReg (jreg 1 5 1 0)).inSubtree 8 1 5 = false ∧
      ((bedReg (jreg 1 5 1 0)).region? 5).any (fun r => (((bedReg (jreg 1 5 1 0)).setRegion { (r.given (jreg 1 5 1 0).block) with parent := 1 }).inheritAll).regions.all
        fun d => decide (d.depth ≤ 7)) = true) ∧
    ((bedReg (jreg 2 5 0 0)).regionStarting 1 2 = some (jreg 2 5 0 0) ∧ (bedReg (jreg 2 5 0 0)).inHost 0 5 = true ∧ ((bedReg (jreg 2 5 0 0)).casts.map (·.castId)).Nodup) ∧
    ((bedJ [jent 1 8 .accepted 1 0 0]).starting 1 8 = some (jent 1 8 .accepted 1 0 0) ∧ (bedJ [jent 1 8 .accepted 1 0 0]).inHost 0 1 = true) := by
  and_intros <;> decide +kernel

/-- A saved context alone. -/
def bedCtx : State := { savedBed with crews := [] }

/-- The same device after many corrected errors of its first vertical buses. -/
def past (s : State) : State := { s with host := { s.host with errors := List.replicate 8 0xFFFF } }

/-- Folding from a bank gives a bank. -/
theorem isSome_fold (f : Nat → Nat → Nat) (l : List Nat) (a : Nat) :
    (l.foldl (fun best b => match best with
      | none => some b
      | some a => some (f a b)) (some a)).isSome = true := by
  induction l generalizing a with
  | nil => rfl
  | cons b l ih => exact ih _
/-- A bank that is open and has room is enough. -/
theorem bankFor_isSome (s : State) (core n b : Nat) (hb : b < Config.nCores) (ho : s.disp.retiredBanks.contains b = false)
    (hr : n ≤ (s.freeSlots b).length) : (s.bankFor core n).isSome = true := by
  have hm : b ∈ (List.range Config.nCores).filter fun b => !s.disp.retiredBanks.contains b && decide (n ≤ (s.freeSlots b).length) := by
    simp only [List.mem_filter, List.mem_range, ho, hr, decide_true, Bool.not_false, Bool.and_self, and_true]
    exact hb
  unfold State.bankFor
  revert hm
  generalize (List.range Config.nCores).filter _ = ok
  intro hm
  dsimp only
  split
  · rfl
  · cases ok with
    | nil => cases hm
    | cons c l =>
      have h := isSome_fold (fun a b => if coreDist core b < coreDist core a then b else a) l c
      simp only [List.foldl_cons]
      convert h using 3
      funext best d
      cases best with
      | none => rfl
      | some a => dsimp only; split <;> rfl

theorem witness_DeviceUpkeep :
    ({ bed0.host with linksDown := [2] } : HostSide).linksDown.contains 2 = true ∧ 2 ∉ bed0.host.linksDown ∧ bed0.mem.peerMem.wf = true ∧
    (past bed0).host.vbusPast 5 = true ∧ bed0.host.vbusPast 5 = false ∧ (past bedCtx).host.vbusPast 0 = true ∧ (past bedCtx).bankAwake 0 = true ∧ (past bedCtx).bankAwake 1 = true ∧
    ((bed0.crews.map (·.cid)).Nodup ∧ bed0.disp.contexts = [] ∧ (bed0.crews.all fun c => c.spillBank != 5 && !c.areaIn 5) = true) ∧
    (bedCtx.crews = [] ∧ (bedCtx.disp.contexts.map fun x => (x.bank, x.slots.length, x.crew.areaIn 0)) = [(0, 5, false)] ∧ ((bedCtx.closeBank 0).bankFor 0 5).isSome = true ∧
      bedCtx.castsIn 0 = [1] ∧ (bedCtx.cast? 1).any (fun a => !a.done) = true ∧ bedCtx.host.notes = []) := by
  refine ⟨?_, ?_, ?_, ?_, ?_, ?_, ?_, ?_, ⟨?_, ?_, ?_⟩, ?_, ?_, bankFor_isSome _ 0 5 1 (by decide) ?_ ?_, ?_, ?_, ?_⟩ <;> decide +kernel

/-! ## The machine -/

/-- The device whose next step is the issue of a placed slot. -/
def placed (w : Nat) : State := State.reset.withFetchWord 96 w
/-- The state of a step once its agenda's head is taken and the partition's bundles look for their lines. -/
def counted (s : State) : State := ({ s with step := s.step + 1, agenda := [] }).beginFetches 0 0
/-- What issues of the placed slot: the bundle is ready and its entered line decodes, or does not. -/
def placedIssue (w : Nat) (p : Except DecodeError Instr → Bool) : Bool :=
  let s := counted (placed w)
  ((s.rotated 0 0).ctx? 1 0 30).any fun x => x.b.ready x.c s.coreClock && x.b.runnerTrap.isNone && !x.b.fpOwed x.sub && pcWellFormed x.sub.pc &&
    x.sub.lineData.any fun d => targetBit d (pcSlot x.sub.pc) && !lineWordBad d && p (decode (slotBits d (pcSlot x.sub.pc)))

theorem witness_StepRunsDecoded :
    ((placed 0x00400000_00000000_001E0000).agenda = [.issue 0 0] ∧
      ((counted (placed 0x00400000_00000000_001E0000)).pick 0 0).any (fun r => r.1 == 0 && r.2.2 == (1, 0)) = true ∧
      ((counted (placed 0x00400000_00000000_001E0000)).candidates 0 0).map (fun r => r.1) = [0]) ∧
    placedIssue 0x00400000_00000000_001E0000 (fun r => decide (r.toOption = some (.nop (fA 0 0 0 0 0 0)))) = true ∧
    placedIssue 0 (fun r => r.toOption.isNone) = true ∧
    ((counted (placed 0)).crews.all fun c => c.bundles.all fun b => b.fetched) = true ∧ (State.reset.pick 0 0).isNone = true ∧
    opcodeOf (.dispatchPlace) = none := by
  and_intros <;> decide +kernel

theorem witness_DeviceMemoryStaysCanonical : DeviceMemWf State.reset.mem ∧ ∃ t, step State.reset = .next t :=
  ⟨⟨rfl, rfl, by decide, fun l h => by cases h⟩, _, rfl⟩

theorem witness_MemoryReadsBack : DeviceMemWf MemSys.init ∧ isHost 0x100 = false ∧ MemSys.init.place 0x100 + 4 ≤ sharedMark ∧ isHost (2 ^ 45) = true ∧
    0 < MemSys.init.host.length ∧ Mem.wf [] = true :=
  ⟨⟨rfl, rfl, by decide, fun l h => by cases h⟩, by and_intros <;> decide⟩

theorem witness_CoreMemoryStaysCanonical : CoreMemWf State.reset ∧ ∃ t, step State.reset = .next t :=
  ⟨⟨fun c h => (by cases h), fun x h => (by cases h), fun k h => List.eq_of_mem_replicate (n := 128) (a := CoreSt.init) h ▸ by decide⟩, _, rfl⟩

/-- The premises of DecodeEncode and of EncodeDecode, each way. -/
theorem witness_DecodeEncode : opcodeOf (.nop (fA 0 0 0 0 0 0)) = some 1 ∧ opcodeOf .dispatchPlace = none := by decide
theorem witness_EncodeDecode : Claims.assigned (slotOpcode 0x0040000000000000001E0000).toNat = true ∧ Claims.assigned (slotOpcode 0).toNat = false := by decide

/-! ## Decoding, checks and single steps -/

/-! Words are written from the field tables of R25, R32, R33, R35 to R37, each field at a value of its own, and the OPCODE map of R41. -/

/-- A slot with an OPCODE decodes to the instruction given. -/
def decodesTo (fields : Nat) (p : Nat × Instr) : Bool := match decode (BitVec.ofNat 96 (fields + p.1 * 2 ^ 86)) with
  | .ok i => decide (i = p.2)
  | .error _ => false

/-- The fields of format A that the words carry. -/
def fieldsA : FmtA :=
  { m := 1, dst := 1, opa := 2, opb := 3, opc := 4, moda := 5, modb := 6, modc := 7, ty := 3, guard := 9, dsub := 10, round := 3, func := 12 }
theorem test_decode_A1 : ([
    (0x001, .nop fieldsA), (0x007, .join fieldsA), (0x009, .exit fieldsA), (0x00A, .bar fieldsA), (0x00B, .gbar fieldsA), (0x00C, .wait fieldsA),
    (0x00D, .trig fieldsA), (0x00E, .yield fieldsA), (0x011, .tret fieldsA), (0x012, .brk fieldsA), (0x040, .mov fieldsA), (0x042, .sel fieldsA),
    (0x043, .sreg fieldsA), (0x044, .sset fieldsA), (0x045, .tag fieldsA), (0x046, .expand fieldsA), (0x048, .xrel fieldsA),
    (0x049, .tsave fieldsA), (0x04A, .tload fieldsA), (0x04B, .pbool fieldsA), (0x04C, .pmov fieldsA), (0x04D, .fclr fieldsA),
    (0x080, .add fieldsA), (0x081, .sub fieldsA), (0x082, .addc fieldsA), (0x083, .subb fieldsA), (0x084, .mul fieldsA), (0x085, .mulh fieldsA),
    (0x086, .mad fieldsA), (0x087, .madw fieldsA), (0x088, .min fieldsA), (0x089, .max fieldsA), (0x08A, .and fieldsA), (0x08B, .or fieldsA),
    (0x08C, .xor fieldsA), (0x08D, .andn fieldsA), (0x08E, .shl fieldsA), (0x08F, .shr fieldsA), (0x090, .sar fieldsA), (0x091, .rot fieldsA),
    (0x092, .bfe fieldsA), (0x093, .bfi fieldsA), (0x094, .popc fieldsA), (0x095, .clz fieldsA), (0x096, .ctz fieldsA), (0x097, .brev fieldsA),
    (0x098, .cmp fieldsA), (0x099, .lea fieldsA), (0x09A, .dp4 fieldsA)].all (decodesTo 0x80001008030102860E69530C)) = true := by decide +kernel
theorem test_decode_A2 : ([
    (0x09B, .dp2 fieldsA), (0x09C, .sadd fieldsA), (0x09D, .ssub fieldsA), (0x09E, .prmt fieldsA), (0x100, .fadd fieldsA),
    (0x101, .fmul fieldsA), (0x102, .ffma fieldsA), (0x103, .fmin fieldsA), (0x104, .fmax fieldsA), (0x105, .fcmp fieldsA),
    (0x106, .fclass fieldsA), (0x107, .frnd fieldsA), (0x108, .fdot2 fieldsA), (0x109, .fscale fieldsA), (0x10A, .fexp fieldsA),
    (0x10B, .cvt fieldsA), (0x10C, .cvtp fieldsA), (0x10D, .quant fieldsA), (0x10E, .rcp fieldsA), (0x10F, .rsq fieldsA), (0x110, .sqrt fieldsA),
    (0x111, .lg2 fieldsA), (0x112, .ex2 fieldsA), (0x113, .sinp fieldsA), (0x114, .cosp fieldsA), (0x115, .tanh fieldsA), (0x160, .shfl fieldsA),
    (0x161, .shfr fieldsA), (0x162, .vote fieldsA), (0x163, .ballot fieldsA), (0x164, .matchLanes fieldsA), (0x165, .lred fieldsA),
    (0x166, .lscan fieldsA), (0x167, .qswap fieldsA), (0x168, .ddx fieldsA), (0x169, .ddy fieldsA), (0x183, .stbar fieldsA),
    (0x184, .ringq fieldsA), (0x1A5, .fence fieldsA), (0x1D4, .qstat fieldsA), (0x1E4, .astat fieldsA), (0x1E5, .ard fieldsA),
    (0x1F0, .vemit fieldsA), (0x1F1, .pemit fieldsA), (0x1F2, .mcommit fieldsA), (0x1F3, .ixbox fieldsA), (0x1F4, .ixtri fieldsA),
    (0x1F5, .hitbin fieldsA), (0x1F6, .vtrel fieldsA)].all (decodesTo 0x80001008030102860E69530C)) = true := by decide +kernel
/-- The fields of format B that the words carry. -/
def fieldsB : FmtB :=
  { m := 1, reg := 1, aux := 2, rsvHi := 3, offset := 2309737967, rsvMid := 5, guard := 9, func := 12, rsvLo := 77 }
theorem test_decode_B : ([
    (0x002, .bra fieldsB), (0x003, .brx fieldsB), (0x004, .call fieldsB), (0x005, .callx fieldsB), (0x006, .ret fieldsB),
    (0x008, .reform fieldsB)].all (decodesTo 0x800010080389ABCDEFA90C4D)) = true := by decide +kernel
/-- The fields of format I that the words carry. -/
def fieldsI : FmtI :=
  { m := 1, dst := 1, opa := 2, opb := 3, imm := 2309737967, round := 3, guard := 9, ty := 5, func := 12, rsv := 6 }
theorem test_decode_I : ([
    (0x00F, .sleep fieldsI), (0x010, .trap fieldsI), (0x041, .movi fieldsI), (0x047, .xacq fieldsI)].all (decodesTo 0x800010080389ABCDEF6950C6)) = true := by decide +kernel
/-- The fields of format M that the words carry. -/
def fieldsM : FmtM :=
  { m := 1, data := 1, base := 2, index := 3, aux := 4, offset := 2800862, scale := 2, rsvHi := 1, guard := 9, width := 5, order := 3, scope := 4, func := 12, rsvLo := 6 }
theorem test_decode_M : ([
    (0x180, .lds fieldsM), (0x181, .sts fieldsM), (0x182, .atoms fieldsM), (0x1A0, .ld fieldsM), (0x1A1, .st fieldsM), (0x1A2, .cst fieldsM),
    (0x1A3, .xld fieldsM), (0x1A4, .pref fieldsM), (0x1A6, .mwait fieldsM), (0x1A7, .cctl fieldsM), (0x1C0, .atom fieldsM),
    (0x1C1, .red fieldsM), (0x1C2, .xsadd fieldsM), (0x1C3, .xsrd fieldsM), (0x1C4, .xsclr fieldsM), (0x1F7, .vtld fieldsM)].all (decodesTo 0x8000100803012ABCDEA9AE66)) = true := by decide +kernel
/-- The fields of format P that the words carry. -/
def fieldsP : FmtP :=
  { m := 1, count := 33, dstep := 2, astep := 3, bstep := 4, cstep := 5, rsvHi := 1250999896491, guard := 9, rsvLo := 4660 }
theorem test_decode_P : ([
    (0x013, .rep fieldsP)].all (decodesTo 0x802123452468ACF135691234)) = true := by decide +kernel
/-- The fields of format E that the words carry. -/
def fieldsE : FmtE :=
  { m := 1, recd := 1, stamp := 2, aux := 3, queue := 4, rsvHi := 591751049, guard := 9, func := 12, rsvLo := 77 }
theorem test_decode_E : ([
    (0x1D0, .lcopy fieldsE), (0x1D1, .lput fieldsE), (0x1D2, .lcode fieldsE), (0x1D3, .qfence fieldsE), (0x1E0, .mma fieldsE),
    (0x1E1, .mwld fieldsE), (0x1E2, .mst fieldsE), (0x1E3, .mzero fieldsE)].all (decodesTo 0x80001008032468ACF1290C4D)) = true := by decide +kernel

/-- The worked encoding of chapter 2: the bytes of `?~p3 ffma.f32 v12, v4.b2, -v5, #0.5 !` in memory. -/
theorem test_decode_bytes : decodeBytes [0x00, 0x00, 0x67, 0x00, 0xA0, 0x01, 0xD4, 0x05, 0x10, 0xC0, 0x80, 0xC0] = .ok (.ffma
    { m := 1, dst := 12, opa := 4, opb := 5, opc := 848, moda := 3, modb := 32, modc := 0, ty := 3, guard := 7, dsub := 0, round := 0, func := 0 }, []) := rfl
/-- The worked `rep` of chapter 2: COUNT 3, DSTEP 1, ASTEP 1. -/
theorem test_decode_rep : decode 0x04C311000000000000_1E0000 = .ok (.rep
    { m := 0, count := 3, dstep := 1, astep := 1, bstep := 0, cstep := 0, rsvHi := 0, guard := 30, rsvLo := 0 }) := rfl
/-- The padding `nop` of chapter 2. -/
theorem test_decode_nop : decode 0x0040000000000000001E0000 = .ok (.nop (fA 0 0 0 0 0 0)) := rfl
theorem test_decode_zeros : decode 0 = .error (.unassignedOpcode 0) := rfl
theorem test_encode_nop : encode (.nop (fA 0 0 0 0 0 0)) = some 0x0040000000000000001E0000 := rfl

/-- An ill-formed term for each check of R26 to R42, and the term it was made from. -/
theorem test_wellFormed : ([.add (fA 1 4 6 8 0 0), .add (fA 5 4 6 8 0 0), .fadd (fA 3 4 6 8 0 0), .ld (fM 4 10 1023 1023 4 0 0 0), .bra (fB 1023 1023 7),
    .movi (fI 0 4 7 0), .lcopy (fE 644 1023 1023 0 0), .tret (fA 0 0 0 0 0 0), .columnSleep 31, .qctlEnable 1 63].all WellFormed) = true := by decide
theorem test_refused_type : WellFormed (.add (fA 3 4 6 8 0 0)) = false := by decide
theorem test_refused_pair : WellFormed (.add (fA 5 5 6 8 0 0)) = false := by decide
theorem test_refused_operand : WellFormed (.add (fA 1 4 864 8 0 0)) = false := by decide
theorem test_refused_unused : WellFormed (.add (fA 1 4 6 8 1 0)) = false := by decide
theorem test_refused_modifier : WellFormed (.add { fA 2 4 6 8 0 0 with moda := 32 }) = false := by decide
theorem test_refused_dsub : WellFormed (.fadd { fA 3 4 6 8 0 0 with dsub := 20 }) = false := by decide
theorem test_refused_round : WellFormed (.and { fA 0 4 6 8 0 0 with round := 1 }) = false := by decide
theorem test_refused_func : WellFormed (.add (fA 1 4 6 8 0 1)) = false := by decide
/-- R74: `nop` has FUNC 0; R102: `sreg` of WIDTH is 32 bits. -/
theorem test_refused_nop : WellFormed (.nop (fA 0 0 0 0 0 1)) = false := by decide
theorem test_refused_sreg : (WellFormed (.sreg (fA 0 4 0 0 0 1)), WellFormed (.sreg (fA 4 4 0 0 0 1))) = (true, false) := by decide
/-- R227: `mwait` is an acquire. -/
theorem test_refused_mwait : (WellFormed (.mwait (fM 4 10 1023 6 5 1 4 0)), WellFormed (.mwait (fM 4 10 1023 6 5 0 0 0))) = (true, false) := by decide
theorem test_refused_guard : WellFormed (.bar (fAp0 0 0 0 0 0 1)) = false := by decide
theorem test_refused_scale : WellFormed (.ld { fM 4 10 1023 1023 4 0 0 0 with scale := 1 }) = false := by decide
theorem test_refused_width : WellFormed (.atom (fM 4 10 1023 6 0 0 0 0)) = false := by decide
theorem test_refused_order : WellFormed (.ld (fM 4 10 1023 1023 4 2 4 0)) = false := by decide
theorem test_refused_scope : WellFormed (.ld (fM 4 10 1023 1023 4 0 4 0)) = false := by decide
theorem test_refused_reserved : WellFormed (.ld { fM 4 10 1023 1023 4 0 0 0 with rsvHi := 1 }) = false := by decide
theorem test_refused_branch : WellFormed (.bra (fB 4 1023 7)) = false := by decide
theorem test_refused_immediate : WellFormed (.movi { fI 0 4 7 0 with rsv := 1 }) = false := by decide
theorem test_refused_record : WellFormed (.lcopy (fE 645 1023 1023 0 0)) = false := by decide
theorem test_refused_stamp : WellFormed (.lcopy (fE 644 648 1023 0 0)) = false := by decide
theorem test_refused_trapMode : Machine.failing (anyBundle false) (.tret (fA 0 0 0 0 0 0)) ≠ none := by decide
theorem test_refused_event : WellFormed (.columnSleep 32) = false := by decide
theorem test_refused_port : WellFormed (.qctlEnable 2 0) = false := by decide

/-- The state after a placed slot is issued, with a property of its bundle. -/
def stepsTo (w : Nat) (p : State → Bundle → Bool) : Bool := match step (placed w) with
  | .next t => (t.bundle? 1 0).any fun cb => p t cb.2
  | _ => false
/-- The lane of a v register. -/
def laneOf (b : Bundle) (n L : Nat) : Word := (b.vreg n).shape.lane L
/-- The PC of the only sub-bundle. -/
def pcOf (b : Bundle) : List DWord := b.subs.map (·.pc)

/-! Each slot is the next instruction after reset; the values are worked by hand from the rule cited. -/

/-- R104: `movi.b32 v7, #0x1234_5678`; the PC moves to slot 1. -/
theorem test_movi : stepsTo 0x1040700000123456781E0000 (fun _ b => laneOf b 7 31 == 0x12345678 && pcOf b == [0x10001]) = true := by decide +kernel
/-- R141: `add.s32 v4, lane, lane`. -/
theorem test_add : stepsTo 0x20004DE378000000003E0000 (fun _ b => laneOf b 4 31 == 62 && laneOf b 4 0 == 0) = true := by decide +kernel
/-- R141: `sub.s32 v4, v6, lane` wraps below 0. -/
theorem test_sub : stepsTo 0x2040401B78000000003E0000 (fun _ b => laneOf b 4 1 == 0xFFFFFFFF) = true := by decide +kernel
/-- R147: `cmp.lt.s32 p4, v6, lane`: 0 is below every lane number but 0. -/
theorem test_cmp : stepsTo 0x2636401B78000000003E0002 (fun _ b => b.predOf 4 == 0xFFFFFFFE) = true := by decide +kernel
/-- R144: `shl.b32 v4, lane, lane`: 31 shifted by 31 keeps its low bit. -/
theorem test_shl : stepsTo 0x23804DE378000000001E0000 (fun _ b => laneOf b 4 31 == 0x80000000 && laneOf b 4 2 == 8) = true := by decide +kernel
/-- R154: `fadd.f32 v4, v6, #0.5` of 0 and 0.5. -/
theorem test_fadd : stepsTo 0x4000401B50000000007E0000 (fun _ b => laneOf b 4 9 == 0x3F000000 && b.flags == 0) = true := by decide +kernel
/-- R106: `sreg.b32 v5, strand`. -/
theorem test_sreg : stepsTo 0x10C0500000000000001E0002 (fun _ b => laneOf b 5 3 == 3) = true := by decide +kernel
/-- R76: `bra` to its own slot. -/
theorem test_bra : stepsTo 0x00BFFFFC00000000001E0000 (fun _ b => pcOf b == [0x10000]) = true := by decide +kernel
/-- R81: `exit` ends the strands. -/
theorem test_exit : stepsTo 0x0240000000000000001E0000 (fun _ b => b.live == 0 && b.subs == []) = true := by decide +kernel
/-- R60, R170: `shfl` is long: pending, its registers not written. -/
theorem test_shfl : stepsTo 0x58004DE006028000001E0011 (fun _ b => b.pend.length == 1 && laneOf b 4 3 == 0) = true := by decide +kernel
/-- R42, R370: an unassigned OPCODE traps ILLEGAL_OP; without a handler the cast is killed. -/
theorem test_zeros : (match step (placed 0) with
  | .next t => t.crews.isEmpty && (t.cast? 1).any fun a => a.done && a.killed == some 1
  | _ => false) = true := by decide +kernel
/-- R10: an empty agenda lets a sixth of a nanosecond pass. -/
theorem test_tick : step State.reset = .next { State.reset with time := 1, step := 1 } := rfl
/-- R392: bring-up from reset leaves regions 0 to 2. -/
theorem test_reset_up : (match exec (.deviceReset true { Blob.init with roots := [] }) State.reset with
  | .next t => t.host.bring == .ready && t.regions.map (·.num) == [0, 1, 2]
  | _ => false) = true := by decide +kernel
/-- R205: the placed program's page tables map its page to itself. -/
theorem test_walk : walk (placed 0).mem 0 0x4000 0x10008 = .leaf placedPte := by decide +kernel
/-- A byte written reads back. -/
theorem test_memory : ((Mem.set [] 5 7).get 5, (Mem.set (Mem.set [] 5 7) 5 0)) = (7, []) := by decide
end Sys2Proof.Tests
end

section
/-! What a short instruction that issues leaves behind, said once for the whole device: the state it answers, its bundle's registers, and the frame
`Keeps` of a result that writes in the ACTIVE lanes only (R59, R92). -/

namespace Sys2Proof.Laws

open Machine Safety

/-! ## The end of a short instruction -/

/-- Of two crews put in the same place the later stands. -/
theorem setCrew_setCrew (s : State) {c d : Crew} (h : c.cid = d.cid) : (s.setCrew c).setCrew d = s.setCrew d := by
  simp only [State.setCrew, List.map_map]
  congr 1
  refine List.map_congr_left fun e _ => ?_
  by_cases he : e.cid = d.cid <;> simp [he, h]

/-- Putting a bundle into a crew whose issuing bundle has been committed replaces what was committed. -/
theorem commit_setBundle (x : Ctx) (b : Bundle) : x.commit.setBundle x.c b = x.s.setCrew (x.c.setBundle b) :=
  setCrew_setCrew x.s rfl

/-- With no FP_INVALID due outside trap mode, none is owed. -/
theorem fpOwed_of_none {x : Ctx} (h : x.inTrap = false → x.b.fpDue = none) : x.b.fpOwed x.sub = false := by
  unfold Bundle.fpOwed
  cases ht : x.b.trap with
  | none => simp [h (by simp [Ctx.inTrap, ht])]
  | some t => rfl

/-- The marker changes the issuing bundle's sub-bundles only, of which one has the lanes and PC of the context's. -/
theorem mark_ends {x : Ctx} (m : Bool) (hq : m = true → x.inTrap = false → x.b.fpDue = none) :
    ∃ l, x.mark m = x.s.setCrew (x.c.setBundle { x.b with subs := l }) ∧ ∃ y ∈ l, y.mask = x.sub.mask ∧ y.pc = x.sub.pc := by
  cases m with
  | false => exact ⟨x.sub :: x.b.subs.tail, rfl, x.sub, List.mem_cons_self, rfl, rfl⟩
  | true =>
    have ho := fpOwed_of_none (hq rfl)
    cases he : x.b.pend.isEmpty with
    | true =>
      obtain ⟨l, hl⟩ := rotate_eq (x.b.setCurrent x.sub) x.commit.coreClock
      obtain ⟨z, hz, hmask, hpc⟩ := rotate_keeps (b := x.b.setCurrent x.sub) (y := x.sub) x.commit.coreClock List.mem_cons_self
      rw [hl] at hz
      refine ⟨l, ?_, z, hz, hmask, hpc⟩
      simp only [Ctx.mark, he, ho, hl, commit_setBundle]
      rfl
    | false =>
      refine ⟨{ x.sub with park := .marker } :: x.b.subs.tail, ?_, _, List.mem_cons_self, rfl, rfl⟩
      simp only [Ctx.mark, he]
      rfl

/-! Storing a short result keeps the trap registers and a due FP_INVALID. -/

theorem shortBundle_trap (x : Ctx) (r : RegResult) : (shortBundle x r).trap = x.b.trap := by
  obtain ⟨l, h⟩ := writeShort_eq x.b x.s.coreClock r
  unfold shortBundle
  cases x.inTrap <;> simp [h]

theorem shortBundle_fpDue (x : Ctx) (r : RegResult) : (shortBundle x r).fpDue = x.b.fpDue := by
  obtain ⟨l, h⟩ := writeShort_eq x.b x.s.coreClock r
  unfold shortBundle
  cases x.inTrap <;> simp [h]

/-- A short instruction that raises no FP_INVALID puts its bundle back with its result, past the instruction, and changes nothing else. -/
theorem endShort_ends {x : Ctx} (i : Instr) {r : RegResult} (hiv : r.iv = 0)
    (hm : (markOf i || x.asMarked i) = true → x.inTrap = false → x.b.fpDue = none) :
    ∃ l, x.endShort i none r = x.s.setCrew (x.c.setBundle { shortBundle x r with subs := l }) ∧
      ∃ y ∈ l, y.mask = x.sub.mask ∧ y.pc = nextPc x.sub.pc := by
  have he : x.endShort i none r = Ctx.mark { x with b := shortBundle x r, sub := x.advance none } (markOf i || x.asMarked i) := by
    simp [Ctx.endShort, hiv, shortBundle, markNow]
  rw [he]
  refine mark_ends (x := { x with b := shortBundle x r, sub := x.advance none }) _ fun hm' ht => ?_
  rw [shortBundle_fpDue]
  exact hm hm' (by simpa only [Ctx.inTrap, shortBundle_trap] using ht)

/-- A short instruction that issues, is no release and fails no check of its cast: from the bundle `b'` its effect hands on, which keeps the trap
registers, its bundle gets the result, and it goes on past itself. -/
theorem short_ends {i : Instr} {s : State} {x : Ctx} {eff : Ctx → Eff} (b' : Bundle) {r : RegResult} (h : Issues i s x) (hx : exec i s = run i eff s)
    (hc : x.castChecks i = []) (hr : isRelease i = false) (he : eff x = .short { x with b := b' } r) (hiv : r.iv = 0)
    (ht : b'.trap = x.b.trap) (hd : b'.fpDue = x.b.fpDue) :
    ∃ l, Ends i s x { shortBundle { x with b := b' } r with subs := l } := by
  obtain ⟨l, hs, hp⟩ := endShort_ends (x := { x with b := b' }) i hiv fun hm hn => by
    simpa only [hd] using h.due hm (by simpa only [Ctx.inTrap, ht] using hn)
  refine ⟨l, ?_, hp⟩
  rw [hx, run_issues eff h hc, forceReds_other x hr, he, settle, hs]

/-! ## What the bundle of a short instruction holds -/

@[simp] theorem shortBundle_v (x : Ctx) (r : RegResult) : (shortBundle x r).v = vAfter x.b.v x.s.coreClock r.v := by
  obtain ⟨l, h⟩ := writeShort_eq x.b x.s.coreClock r
  unfold shortBundle
  cases x.inTrap <;> simp [h]

@[simp] theorem shortBundle_p (x : Ctx) (r : RegResult) : (shortBundle x r).p = pAfter x.b.p r.p := by
  obtain ⟨l, h⟩ := writeShort_eq x.b x.s.coreClock r
  unfold shortBundle
  cases x.inTrap <;> simp [h]

@[simp] theorem shortBundle_s (x : Ctx) (r : RegResult) : (shortBundle x r).s = sAfter x.b.s r.s := by
  obtain ⟨l, h⟩ := writeShort_eq x.b x.s.coreClock r
  unfold shortBundle
  cases x.inTrap <;> simp [h]

@[simp] theorem shortBundle_k (x : Ctx) (r : RegResult) : (shortBundle x r).k = kAfter x.b.k r.s := by
  obtain ⟨l, h⟩ := writeShort_eq x.b x.s.coreClock r
  unfold shortBundle
  cases x.inTrap <;> simp [h]

@[simp] theorem shortBundle_flags (x : Ctx) (r : RegResult) :
    (shortBundle x r).flags = if x.inTrap then x.b.flags else x.b.flags ||| r.flags := by
  obtain ⟨l, h⟩ := writeShort_eq x.b x.s.coreClock r
  unfold shortBundle
  cases x.inTrap <;> simp [h]

/-- A result that sets no flag leaves FLAGS. -/
theorem shortBundle_flags_same (x : Ctx) {r : RegResult} (h : r.flags = 0) : (shortBundle x r).flags = x.b.flags := by
  simp [h]

/-- An empty result leaves the bundle. -/
@[simp] theorem shortBundle_empty (x : Ctx) : shortBundle x RegResult.empty = x.b := by
  cases ht : x.inTrap <;> simp [shortBundle, ht, Bundle.writeShort, Bundle.store, RegResult.empty, RegResult.writes]

/-- Notes of writes of names with nothing pending change nothing. -/
theorem noteWrites_idle (ok : Pending → Bool) (sh : Bool) (b : Bundle) (ws : List (Nat × LaneMask)) (h : ∀ w ∈ ws, b.isPending w.1 = false) :
    ws.foldl (fun b w => b.noteWrite ok sh w.1 w.2) b = b := by
  induction ws with
  | nil => rfl
  | cons w t ih =>
    have hw : b.noteWrite ok sh w.1 w.2 = b := by simp [Bundle.noteWrite, h w List.mem_cons_self]
    rw [List.foldl_cons, hw, ih fun u hu => h u (List.mem_cons_of_mem _ hu)]

/-- A result that writes no pending name leaves the pending instructions (R60). -/
theorem shortBundle_pend {x : Ctx} {r : RegResult} (h : ∀ w ∈ r.writes, x.b.isPending w.1 = false) : (shortBundle x r).pend = x.b.pend := by
  have hw : (x.b.writeShort x.s.coreClock r).pend = x.b.pend := by
    unfold Bundle.writeShort
    rw [noteWrites_idle _ _ _ _ (by rw [store_eq]; exact h), store_eq]
  unfold shortBundle
  cases x.inTrap <;> simpa using hw

/-- But for registers, FLAGS and what is noted with pending results, the bundle is as it was. -/
theorem shortBundle_rest (x : Ctx) (r : RegResult) :
    { shortBundle x r with v := x.b.v, p := x.b.p, s := x.b.s, k := x.b.k, flags := x.b.flags, pend := x.b.pend } = x.b := by
  obtain ⟨l, h⟩ := writeShort_eq x.b x.s.coreClock r
  unfold shortBundle
  cases x.inTrap <;> simp [h]

/-! ## Registers that writes leave, and predicates they write -/

/-- The v registers after one more write. -/
theorem vAfter_cons (v : List VReg) (clock : Nat) (w : VWrite) (ws : List VWrite) :
    vAfter v clock (w :: ws) = vAfter (vAfter v clock [w]) clock ws := rfl

/-- One write keeps which names are owned. -/
theorem vAfter_one_length (v : List VReg) (clock : Nat) (w : VWrite) : (vAfter v clock [w]).length = v.length := by
  simp only [vAfter, List.foldl_cons, List.foldl_nil]
  split <;> simp

/-- Writes keep which names are owned. -/
theorem vAfter_length (clock : Nat) (ws : List VWrite) : ∀ v : List VReg, (vAfter v clock ws).length = v.length := by
  induction ws with
  | nil => intro v; rfl
  | cons w t ih => intro v; rw [vAfter_cons, ih, vAfter_one_length]

/-- A partial write keeps the lanes it does not write, in its own name and in every other (R92). -/
theorem vAfter_one_lane_kept {v : List VReg} {clock L : Nat} {w : VWrite} (hL : L < 32) (hm : w.mask.getLsbD L = false) (hf : w.full = none)
    (n : Nat) : ((vAfter v clock [w]).getD n VReg.zero).shape.lane L = (v.getD n VReg.zero).shape.lane L := by
  by_cases hn : w.name = n
  · subst hn
    simp only [vAfter, List.foldl_cons, List.foldl_nil]
    split
    · rfl
    · by_cases hlt : w.name < v.length
      · rw [List.getD_eq_getElem?_getD, List.getElem?_set_self hlt, Option.getD_some]
        exact written_keeps hL hm hf
      · rw [List.set_eq_of_length_le (Nat.le_of_not_lt hlt)]
  · rw [vAfter_other [w] v (by simpa using hn)]

/-- Partial writes keep a lane that none of them writes. -/
theorem vAfter_lane_kept {clock L : Nat} (hL : L < 32) (n : Nat) (ws : List VWrite) :
    ∀ v : List VReg, (∀ w ∈ ws, w.mask.getLsbD L = false ∧ w.full = none) →
      ((vAfter v clock ws).getD n VReg.zero).shape.lane L = (v.getD n VReg.zero).shape.lane L := by
  induction ws with
  | nil => intro v _; rfl
  | cons w t ih =>
    intro v h
    obtain ⟨hm, hf⟩ := h w List.mem_cons_self
    rw [vAfter_cons, ih _ fun u hu => h u (List.mem_cons_of_mem _ hu), vAfter_one_lane_kept hL hm hf]

/-- A predicate after one more write. -/
theorem pAfter_cons (p : Vector LaneMask 15) (w : PWrite) (ws : List PWrite) : pAfter p (w :: ws) = pAfter (pAfter p [w]) ws := rfl

/-- What one write makes of a predicate (R86, R92). -/
theorem pAfter_one (p : Vector LaneMask 15) (w : PWrite) {n : Nat} (hn : n < 15) :
    (pAfter p [w]).getD n 0 = if w.name = n then (p.getD n 0 &&& ~~~w.mask) ||| (w.vals &&& w.mask) else p.getD n 0 := by
  simp only [pAfter, List.foldl_cons, List.foldl_nil]
  split_ifs with h1 h2 h2
  · subst h2; simp [Vector.getD, hn]
  · simp [Vector.getD, hn, h2]
  · omega
  · rfl

/-- Predicates not written keep their lanes. -/
theorem pAfter_other {n : Nat} (hn : n < 15) (ws : List PWrite) :
    ∀ p : Vector LaneMask 15, (∀ w ∈ ws, w.name ≠ n) → (pAfter p ws).getD n 0 = p.getD n 0 := by
  induction ws with
  | nil => intro p _; rfl
  | cons w t ih =>
    intro p h
    rw [pAfter_cons, ih _ fun u hu => h u (List.mem_cons_of_mem _ hu), pAfter_one p w hn, if_neg (h w List.mem_cons_self)]

/-- A lane that no write reaches keeps its predicates. -/
theorem pAfter_lane_kept {n L : Nat} (hn : n < 15) (hL : L < 32) (ws : List PWrite) :
    ∀ p : Vector LaneMask 15, (∀ w ∈ ws, w.mask.getLsbD L = false) → ((pAfter p ws).getD n 0).getLsbD L = (p.getD n 0).getLsbD L := by
  induction ws with
  | nil => intro p _; rfl
  | cons w t ih =>
    intro p h
    rw [pAfter_cons, ih _ fun u hu => h u (List.mem_cons_of_mem _ hu), pAfter_one p w hn]
    split
    · simp only [BitVec.getLsbD_or, BitVec.getLsbD_and, h w List.mem_cons_self, BitVec.getLsbD_not, hL, decide_true, Bool.not_false, Bool.and_true,
        Bool.and_false, Bool.or_false]
    · rfl

/-- Where every write of a predicate gives a lane the same value, the lane holds it once one has written. -/
theorem pAfter_lane_written {n L : Nat} {v : Bool} (hn : n < 15) (ws : List PWrite) :
    ∀ p : Vector LaneMask 15, (∀ w ∈ ws, w.name = n → w.mask.getLsbD L = true ∧ w.vals.getLsbD L = v) →
      ((∃ w ∈ ws, w.name = n) ∨ (p.getD n 0).getLsbD L = v) → ((pAfter p ws).getD n 0).getLsbD L = v := by
  induction ws with
  | nil => intro p _ h; simpa [pAfter] using h
  | cons w t ih =>
    intro p hw h
    rw [pAfter_cons]
    refine ih _ (fun u hu => hw u (List.mem_cons_of_mem _ hu)) ?_
    by_cases hname : w.name = n
    · obtain ⟨hmask, hval⟩ := hw w List.mem_cons_self hname
      right
      simp only [pAfter_one p w hn, hname, if_true, BitVec.getLsbD_or, BitVec.getLsbD_and, BitVec.getLsbD_not, hmask, hval, Bool.not_true,
        Bool.and_false, Bool.and_true, Bool.false_or]
    · rw [pAfter_one p w hn, if_neg hname]
      rcases h with ⟨u, hu, hun⟩ | h
      · rcases List.mem_cons.mp hu with rfl | hu
        · exact absurd hun hname
        · exact .inl ⟨u, hu, hun⟩
      · exact .inr h

/-- s registers not written keep their values. -/
theorem sAfter_other {n : Nat} (ws : List (Nat × DWord)) :
    ∀ s : Vector DWord 128, (∀ w ∈ ws, w.1 ≠ n) → (sAfter s ws).getD n 0 = s.getD n 0 := by
  induction ws with
  | nil => intro s _; rfl
  | cons w t ih =>
    intro s h
    have hc : sAfter s (w :: t) = sAfter (s.setIfInBounds w.1 w.2) t := rfl
    rw [hc, ih _ fun u hu => h u (List.mem_cons_of_mem _ hu)]
    by_cases hn : n < 128
    · simp [Vector.getD, hn, h w List.mem_cons_self]
    · simp [Vector.getD, hn]

/-- k registers not written keep their values. -/
theorem kAfter_other {n : Nat} (ws : List (Nat × DWord)) :
    ∀ k : Vector DWord 8, (∀ w ∈ ws, w.1 ≠ 240 + n) → (kAfter k ws).getD n 0 = k.getD n 0 := by
  induction ws with
  | nil => intro k _; rfl
  | cons w t ih =>
    intro k h
    have hw : w.1 ≠ 240 + n := h w List.mem_cons_self
    have hc : kAfter k (w :: t) = kAfter (if w.1 < 240 then k else k.setIfInBounds (w.1 - 240) w.2) t := rfl
    rw [hc, ih _ fun u hu => h u (List.mem_cons_of_mem _ hu)]
    split
    · rfl
    · have hne : w.1 - 240 ≠ n := by omega
      by_cases hn : n < 8
      · simp [Vector.getD, hn, hne]
      · simp [Vector.getD, hn]

/-! ## The frame of a short result -/

/-- A result writes names of `codes` only, v names and predicates in the ACTIVE lanes, and a whole v register only where its write is full (R92). -/
structure WritesWithin (x : Ctx) (r : RegResult) (codes : List Nat) : Prop where
  names : ∀ w ∈ r.writes, w.1 ∈ codes
  v : ∀ w ∈ r.v, w.mask = x.act ∧ (x.full = false → w.full = none)
  p : ∀ w ∈ r.p, w.mask = x.act

theorem mem_writes_v {r : RegResult} {w : VWrite} (h : w ∈ r.v) : (w.name, w.mask) ∈ r.writes := by
  simp only [RegResult.writes, List.mem_append, List.mem_map]
  exact .inl (.inl ⟨w, h, rfl⟩)

theorem mem_writes_s {r : RegResult} {w : Nat × DWord} (h : w ∈ r.s) : (640 + w.1, BitVec.allOnes 32) ∈ r.writes := by
  simp only [RegResult.writes, List.mem_append, List.mem_map]
  exact .inl (.inr ⟨w, h, rfl⟩)

theorem mem_writes_p {r : RegResult} {w : PWrite} (h : w ∈ r.p) : (864 + w.name, w.mask) ∈ r.writes := by
  simp only [RegResult.writes, List.mem_append, List.mem_map]
  exact .inr ⟨w, h, rfl⟩

/-- A lane that holds a strand and is not ACTIVE keeps a write from being full (R92). -/
theorem full_false {x : Ctx} {L : Nat} (hL : L < 32) (hlive : x.b.live.getLsbD L = true) (hact : x.act.getLsbD L = false) : x.full = false := by
  have hbit : (x.b.live &&& ~~~x.act).getLsbD L = true := by
    simp only [BitVec.getLsbD_and, BitVec.getLsbD_not, hlive, hact, hL, decide_true, Bool.not_false, Bool.and_true]
  have hne : x.b.live &&& ~~~x.act ≠ 0 := fun h0 => by simp [h0] at hbit
  simpa [Ctx.full] using hne

/-- The frame of a short instruction. -/
theorem WritesWithin.keeps {x : Ctx} {r : RegResult} {codes : List Nat} (h : WritesWithin x r codes) (l : List SubB) :
    Keeps x { shortBundle x r with subs := l } codes where
  rest := by
    have hr := congrArg (fun b : Bundle => { b with subs := x.b.subs }) (shortBundle_rest x r)
    exact hr
  owned := by simp [vAfter_length]
  v n hn := by
    simp only [Bundle.vreg, shortBundle_v]
    refine vAfter_other _ _ fun w hw hname => hn ?_
    exact hname ▸ h.names _ (mem_writes_v hw)
  s n hn := by
    simp only [shortBundle_s]
    refine sAfter_other _ _ fun w hw hname => hn ?_
    exact hname ▸ h.names _ (mem_writes_s hw)
  p n hn := by
    simp only [Bundle.predOf, shortBundle_p]
    split
    · next hlt =>
      refine pAfter_other hlt _ _ fun w hw hname => hn ?_
      exact hname ▸ h.names _ (mem_writes_p hw)
    · rfl
  k n hn := by
    simp only [shortBundle_k]
    refine kAfter_other _ _ fun w hw hname => hn ?_
    have hmem := h.names _ (mem_writes_s hw)
    rwa [hname, show 640 + (240 + n) = 880 + n by omega] at hmem
  lanes n L hL hlive hact := by
    simp only [Bundle.vreg, shortBundle_v]
    refine vAfter_lane_kept hL n _ _ fun w hw => ?_
    obtain ⟨hmask, hfull⟩ := h.v w hw
    exact ⟨hmask ▸ hact, hfull (full_false hL hlive hact)⟩
  preds n L hL hact := by
    simp only [Bundle.predOf, shortBundle_p]
    split
    · next hlt => exact pAfter_lane_kept hlt hL _ _ fun w hw => h.p w hw ▸ hact
    · rfl
  pend hidle := shortBundle_pend fun w hw => hidle _ (h.names w hw)

/-- An empty result writes nothing. -/
theorem writesWithin_empty (x : Ctx) (codes : List Nat) : WritesWithin x RegResult.empty codes where
  names := by simp [RegResult.empty, RegResult.writes]
  v := by simp [RegResult.empty]
  p := by simp [RegResult.empty]

/-- Predicate writes in the ACTIVE lanes stay within the predicates they name. -/
theorem writesWithin_preds (x : Ctx) (ws : List PWrite) (hm : ∀ w ∈ ws, w.mask = x.act) {codes : List Nat} (hn : ∀ w ∈ ws, 864 + w.name ∈ codes) :
    WritesWithin x { RegResult.empty with p := ws } codes where
  names := by simpa [RegResult.empty, RegResult.writes] using hn
  v := by simp [RegResult.empty]
  p := hm

/-- A 32-bit result stays within its destination. -/
theorem writesWithin_result32 (x : Ctx) (dst dsub : Nat) (sh : Option Shape) (uni : Bool) (f : Nat → Word → Word × Flags) :
    WritesWithin x (x.result32 dst dsub sh uni f) [dst] where
  names := by simp [Ctx.result32, RegResult.empty, RegResult.writes, Ctx.vwrite]
  v := by simp +contextual [Ctx.result32, RegResult.empty, Ctx.vwrite]
  p := by simp [Ctx.result32, RegResult.empty]

/-- Predicate writes of a short result, in the ACTIVE lanes: a predicate that one of them names holds what they all give it. -/
theorem shortBundle_predIs {x : Ctx} {r : RegResult} {n : Nat} {v : Nat → Bool} (l : List SubB) (hw : ∃ w ∈ r.p, w.name = n)
    (hv : ∀ w ∈ r.p, w.name = n → w.mask = x.act ∧ w.vals = maskOf v) : PredIs x { shortBundle x r with subs := l } n v := by
  intro hn L hL hact
  simp only [Bundle.predOf, hn, if_true, shortBundle_p]
  refine pAfter_lane_written hn _ _ (fun w hmem hname => ?_) (.inl hw)
  obtain ⟨hmask, hvals⟩ := hv w hmem hname
  exact ⟨hmask ▸ hact, hvals ▸ getLsbD_maskOf v hL⟩

end Sys2Proof.Laws
end

section
/-! Predicates and FLAGS (R112 to R114): the results of `pbool`, `pmov` and `fclr`, and the statement about them. -/

namespace Sys2Proof.Laws

open Machine Safety

/-! ## The three instructions as effects -/

theorem exec_pbool (f : FmtA) (s : State) : exec (.pbool f) s = run (.pbool f) (effPbool f) s := rfl
theorem exec_pmov (f : FmtA) (s : State) : exec (.pmov f) s = run (.pmov f) (effPmov f) s := rfl
theorem exec_fclr (f : FmtA) (s : State) : exec (.fclr f) s = run (.fclr f) (effFclr f) s := rfl

/-! ## Results that raise no flag -/

/-- Lanes that set no flag gather none, and none of them sets IV. -/
theorem gatherLanes_no_flags (m : LaneMask) {f : Nat → Word × Flags} (h : ∀ L, (f L).2 = 0) : (gatherLanes m f).2 = (0, 0) := by
  have hzero : ∀ r ∈ lanesOf fun L => if m.getLsbD L then f L else (0, 0), r.2 = 0 := by
    intro r hr
    obtain ⟨L, -, rfl⟩ := List.mem_map.mp hr
    split
    · exact h L
    · rfl
  have hfold : ∀ rs : List (Word × Flags), (∀ r ∈ rs, r.2 = 0) → rs.foldl (fun a r => a ||| r.2) (0 : Flags) = 0 := by
    intro rs hrs
    induction rs with
    | nil => rfl
    | cons r t ih =>
      rw [List.foldl_cons, hrs r List.mem_cons_self]
      exact ih fun u hu => hrs u (List.mem_cons_of_mem _ hu)
  have hiv : (maskOf fun L => ((lanesOf fun L => if m.getLsbD L then f L else (0, 0)).getD L (0, 0)).2.getLsbD 0) = 0 := by
    refine BitVec.eq_of_getLsbD_eq fun L hL => ?_
    rw [getLsbD_maskOf _ hL, getD_lanesOf _ _ hL]
    split <;> simp [h]
  exact Prod.ext (hfold _ hzero) hiv

/-- A 32-bit result whose lanes set no flag sets none. -/
theorem result32_no_flags (x : Ctx) (dst dsub : Nat) (sh : Option Shape) (uni : Bool) {f : Nat → Word → Word × Flags} (h : ∀ L o, (f L o).2 = 0) :
    (x.result32 dst dsub sh uni f).flags = 0 ∧ (x.result32 dst dsub sh uni f).iv = 0 := by
  have hg := gatherLanes_no_flags x.act (f := fun L => ((f L (x.oldLane dst L)).1, if x.b.helper.getLsbD L then 0 else (f L (x.oldLane dst L)).2))
    (by simp [h])
  exact ⟨congrArg Prod.fst hg, congrArg Prod.snd hg⟩

/-- An owned destination of a G result holds in every ACTIVE lane what the result gives it. -/
theorem result32_lanesAre {x : Ctx} {dst : Nat} (l : List SubB) (g : Nat → Word) (hdst : dst < x.b.v.length) :
    LanesAre x { shortBundle x (x.result32 dst 0 none false fun L _ => (g L, 0)) with subs := l } dst g := by
  intro L hL hact
  simp only [Bundle.vreg, shortBundle_v]
  have hshape : Agrees (x.vwrite dst 0 (gatherFlags x.act x.b.helper fun L => (g L, 0)).1 none false) L := by
    intro sh hsh hcode
    cases hf : x.full <;> simp [Ctx.vwrite, hf] at hsh
    exact absurd (hsh ▸ rfl) hcode
  have hlane := vAfter_one (clock := x.s.coreClock) (w := x.vwrite dst 0 (gatherFlags x.act x.b.helper fun L => (g L, 0)).1 none false)
    hdst hL hact hshape
  exact hlane.trans (gatherFlags_lane x.act x.b.helper (fun L => (g L, 0)) hL hact)

/-! ## Predicate writes -/

@[simp] theorem pwrite_name (x : Ctx) (dst : Nat) (g : Nat → Bool) : (x.pwrite dst g).name = dst - 864 := rfl
@[simp] theorem pwrite_mask (x : Ctx) (dst : Nat) (g : Nat → Bool) : (x.pwrite dst g).mask = x.act := rfl
@[simp] theorem pwrite_vals (x : Ctx) (dst : Nat) (g : Nat → Bool) : (x.pwrite dst g).vals = maskOf g := rfl

/-- A short instruction whose result is predicate writes in the ACTIVE lanes. -/
theorem short_preds {i : Instr} {s : State} {x : Ctx} {eff : Ctx → Eff} {ws : List PWrite} {codes : List Nat} (h : Issues i s x)
    (hx : exec i s = run i eff s) (hc : x.castChecks i = []) (hr : isRelease i = false) (he : eff x = .short x { RegResult.empty with p := ws })
    (hm : ∀ w ∈ ws, w.mask = x.act) (hn : ∀ w ∈ ws, 864 + w.name ∈ codes) :
    ∃ b, Ends i s x b ∧ (∀ n v, (∃ w ∈ ws, w.name = n) → (∀ w ∈ ws, w.name = n → w.vals = maskOf v) → PredIs x b n v) ∧
      b.flags = x.b.flags ∧ Keeps x b codes := by
  obtain ⟨l, hends⟩ := short_ends x.b h hx hc hr he rfl rfl rfl
  refine ⟨_, hends, fun n v hw hv => ?_, shortBundle_flags_same x rfl, (writesWithin_preds x ws hm hn).keeps l⟩
  exact shortBundle_predIs l hw fun w hmem hname => ⟨hm w hmem, hv w hmem hname⟩

/-! ## pbool -/

/-- R112: `pbool` writes its predicate from its truth table. -/
theorem pbool_writes {f : FmtA} {s : State} {x : Ctx} (h : Issues (.pbool f) s x) :
    let bit := fun (code : BitVec 10) L => if x.pred code.toNat L then 1 else 0
    WritesPred (.pbool f) s x (f.dst.toNat - 864) fun L => (f.func.getLsbD (4 * bit f.opa L + 2 * bit f.opb L + bit f.opc L), 0) := by
  obtain ⟨b, he, hpred, hflags, hkeeps⟩ := short_preds (ws := [x.pwrite f.dst.toNat _]) (codes := [864 + (f.dst.toNat - 864)]) h (exec_pbool f s)
    (castChecks_none x trivial) rfl rfl (by simp) (by simp)
  exact ⟨b, he, hpred _ _ (by simp) (by simp), fun j _ => by simp [hflags], hkeeps⟩

/-! ## pmov -/

/-- Bits of a number written as the powers of 2 of its bits below n. -/
theorem testBit_sum_pow (p : Nat → Bool) (n : Nat) :
    ((List.range n).map fun i => if p i then 2 ^ i else 0).sum < 2 ^ n ∧
      ∀ i, ((List.range n).map fun i => if p i then 2 ^ i else 0).sum.testBit i = (decide (i < n) && p i) := by
  induction n with
  | zero => simp
  | succ n ih =>
    obtain ⟨hlt, hbits⟩ := ih
    rw [List.range_succ, List.map_append, List.sum_append, List.map_singleton, List.sum_singleton]
    generalize ((List.range n).map fun i => if p i then 2 ^ i else 0).sum = m at hlt hbits ⊢
    cases hp : p n with
    | false =>
      refine ⟨by simp; omega, fun i => ?_⟩
      simp only [hbits, Bool.false_eq_true, if_false, Nat.add_zero]
      by_cases hi : i = n
      · simp [hi, hp]
      · simp [show i < n + 1 ↔ i < n by omega]
    | true =>
      refine ⟨by simp; omega, fun i => ?_⟩
      have hbit := Nat.testBit_two_pow_mul_add 1 hlt i
      rw [Nat.mul_one, Nat.add_comm] at hbit
      simp only [if_true, hbit, hbits]
      rcases lt_trichotomy i n with hi | rfl | hi
      · simp [hi, Nat.lt_succ_of_lt hi]
      · simp [hp]
      · have hn : ¬ i < n := by omega
        have hn' : ¬ i < n + 1 := by omega
        have hd : ¬ i - n = 0 := by omega
        simp [hn, hn', Nat.testBit_lt_two_pow (Nat.one_lt_two_pow hd)]

/-- Bit i of the sixteen predicates as a number. -/
theorem getLsbD_predWord (x : Ctx) (L : Nat) {i : Nat} (hi : i < 32) :
    (x.predWord L).getLsbD i = (decide (i < 16) && x.pred (864 + i) L) := by
  rw [Ctx.predWord, BitVec.getLsbD_ofNat, (testBit_sum_pow _ 16).2]
  simp [hi]

/-- Only a slot with no failing check passes (R43). -/
theorem firstFailure_none {l : List Failure} (h : firstFailure l = none) : l = [] := by
  cases l with
  | nil => rfl
  | cons f t =>
    simp only [firstFailure, List.foldr_cons] at h
    split at h
    · cases h
    · split at h <;> cases h

/-- A v destination that passes its check is owned (R42). -/
theorem owned_of_vdst_check {env : CheckEnv} {bit code : Nat} (h : (Pos.vdst 1 1).check env bit code = []) : code < env.owned := by
  by_cases hcode : code < 640
  · by_contra hle
    simp [Pos.check, Pos.vdst, Pos.used0, Pos.unused, hcode, firstUnowned, Nat.mod_one, Nat.not_lt.mp hle] at h
  · simp only [Pos.check, Pos.vdst, Pos.used0, Pos.unused, hcode] at h
    split_ifs at h <;> simp_all [illOperand]

/-- The destination of a format A slot that issues passes its check. -/
theorem dst_check_of_issues {i : Instr} {f : FmtA} {s : State} {x : Ctx} (h : Issues i s x) (hf : fmtOf i = .a f) :
    (specA i f).dst.check x.env 76 f.dst.toNat = [] := by
  have hnone := firstFailure_none h.legal
  simp only [checks, hf, SpecA.check, List.append_assoc] at hnone
  obtain ⟨-, hrest⟩ := List.append_eq_nil_iff.mp hnone
  obtain ⟨-, hslot⟩ := List.append_eq_nil_iff.mp hrest
  exact (List.append_eq_nil_iff.mp hslot).1

/-- `pmov` to a register that issues has an owned v destination. -/
theorem pmov_dst_owned {f : FmtA} {s : State} {x : Ctx} (h : Issues (.pmov f) s x) (hf : f.func = 0) : f.dst.toNat < x.b.v.length := by
  have hspec : (specA (.pmov f) f).dst = Pos.vdst 1 1 := by simp [specA, hf]
  exact owned_of_vdst_check (hspec ▸ dst_check_of_issues h rfl)

/-- R113: `pmov` puts the predicates into the low bits of its register. -/
theorem pmov_gets {f : FmtA} {s : State} {x : Ctx} (h : Issues (.pmov f) s x) (hf : f.func = 0) :
    ∃ b, Ends (.pmov f) s x b ∧ LanesAre x b f.dst.toNat x.predWord ∧ b.flags = x.b.flags ∧ Keeps x b [f.dst.toNat] := by
  obtain ⟨hflags, hiv⟩ := result32_no_flags x f.dst.toNat 0 none false (f := fun L _ => (x.predWord L, 0)) fun _ _ => rfl
  obtain ⟨l, he⟩ := short_ends x.b h (exec_pmov f s) (castChecks_none x trivial) rfl (if_pos hf) hiv rfl rfl
  exact ⟨_, he, result32_lanesAre l _ (pmov_dst_owned h hf), shortBundle_flags_same x hflags, (writesWithin_result32 ..).keeps l⟩

/-- R113: `pmov.set` writes p0 to p14 from the low bits of its source; p15 is not among them. -/
theorem pmov_sets {f : FmtA} {s : State} {x : Ctx} (h : Issues (.pmov f) s x) (hf : f.func ≠ 0) :
    ∃ b, Ends (.pmov f) s x b ∧ (∀ i, i < 15 → PredIs x b i fun L => (x.raw32 0 f.opa.toNat L).testBit i) ∧
      b.flags = x.b.flags ∧ Keeps x b ((List.range 15).map (864 + ·)) := by
  obtain ⟨b, he, hpred, hflags, hkeeps⟩ := short_preds
    (ws := (List.range 15).map fun i => x.pwrite (864 + i) fun L => (x.raw32 0 f.opa.toNat L).testBit i) (codes := (List.range 15).map (864 + ·))
    h (exec_pmov f s) (castChecks_none x trivial) rfl (if_neg hf) (by simp) (by simp)
  refine ⟨b, he, fun i hi => hpred _ _ (by simpa using hi) fun w hw hname => ?_, hflags, hkeeps⟩
  obtain ⟨j, -, rfl⟩ := List.mem_map.mp hw
  obtain rfl : j = i := by simpa using hname
  rfl

/-! ## fclr -/

/-- A short instruction with an empty result leaves the bundle `b'` that its effect hands on, but for the sub-bundles. -/
theorem short_empty_ends {i : Instr} {s : State} {x : Ctx} {eff : Ctx → Eff} (b' : Bundle) (h : Issues i s x) (hx : exec i s = run i eff s)
    (hc : x.castChecks i = []) (hr : isRelease i = false) (he : eff x = .short { x with b := b' } RegResult.empty)
    (ht : b'.trap = x.b.trap) (hd : b'.fpDue = x.b.fpDue) : ∃ l, Ends i s x { b' with subs := l } := by
  simpa using short_ends b' h hx hc hr he rfl ht hd

/-- New FLAGS and sub-bundles write no register and change nothing else. -/
theorem keeps_flags (x : Ctx) (fl : Flags) (l : List SubB) : Keeps x { x.b with flags := fl, subs := l } [] where
  rest := rfl
  owned := rfl
  v _ _ := rfl
  s _ _ := rfl
  p _ _ := rfl
  k _ _ := rfl
  lanes _ _ _ _ _ := rfl
  preds _ _ _ _ := rfl
  pend _ := rfl

/-- R114 with no lane that acts: nothing is cleared. -/
theorem fclr_idle {f : FmtA} {s : State} {x : Ctx} (h : Issues (.fclr f) s x) (ha : x.actNH = 0) : WritesNothing (.fclr f) s x := by
  obtain ⟨l, he⟩ := short_empty_ends x.b h (exec_fclr f s) (castChecks_none x trivial) rfl (if_pos ha) rfl rfl
  exact ⟨_, he, rfl, keeps_flags x x.b.flags l⟩

/-- R114: `fclr.hint` clears HINTDROP. -/
theorem fclr_hint {f : FmtA} {s : State} {x : Ctx} (h : Issues (.fclr f) s x) (ha : x.actNH ≠ 0) (hf : f.func = 1) :
    ∃ b, Ends (.fclr f) s x b ∧ b.hintDrop = 0 ∧ b.flags = x.b.flags ∧ Keeps x { b with hintDrop := x.b.hintDrop } [] := by
  obtain ⟨l, he⟩ := short_empty_ends { x.b with hintDrop := 0 } h (exec_fclr f s) (castChecks_none x trivial) rfl ((if_neg ha).trans (if_pos hf)) rfl rfl
  exact ⟨_, he, rfl, rfl, keeps_flags x x.b.flags l⟩

/-- R114: `fclr` clears the FLAGS bits that its source selects. -/
theorem fclr_flags {f : FmtA} {s : State} {x : Ctx} (h : Issues (.fclr f) s x) (ha : x.actNH ≠ 0) (hf : f.func ≠ 1) :
    ∃ b, Ends (.fclr f) s x b ∧ b.flags = x.b.flags &&& ~~~(BitVec.ofNat 5 (x.raw32 0 f.opa.toNat (lowLane x.actNH))) ∧ Keeps x b [] := by
  obtain ⟨l, he⟩ := short_empty_ends { x.b with flags := x.b.flags &&& ~~~(BitVec.ofNat 5 (x.raw32 0 f.opa.toNat (lowLane x.actNH))) } h (exec_fclr f s)
    (castChecks_none x trivial) rfl ((if_neg ha).trans (if_neg hf)) rfl rfl
  exact ⟨_, he, rfl, keeps_flags x _ l⟩

/-- Settles O12: each instruction's end by its own lemma above; `pmov`'s bits are those of `predWord`. -/
theorem predicatesAndFlags : Obligations.PredicatesAndFlags := by
  intro f s x bit
  refine ⟨fun h => pbool_writes h, fun h hf => ?_, pmov_sets, fun h => ⟨fclr_idle h, fclr_hint h, fclr_flags h⟩⟩
  obtain ⟨b, he, hlanes, hflags, hkeeps⟩ := pmov_gets h hf
  refine ⟨b, he, fun L i hL hact hi => ?_, hflags, hkeeps⟩
  rw [hlanes L hL hact, getLsbD_predWord x L hi]

end Sys2Proof.Laws
end

section
/-! A short instruction whose result is one v register, said once for every format A instruction of that kind: the flags its lanes raise (R127, R129),
the lane values that one U shape stands for (R93), and from these `WritesQuiet`. -/

namespace Sys2Proof.Laws

open Machine Safety

/-! ## The end of a short instruction whose FP_INVALID is not enabled -/

/-- Where no IV counts, an instruction ends as one whose lanes set none (R129). -/
theorem endShort_quiet {x : Ctx} (i : Instr) {r : RegResult} (hq : x.cast.fpinv = true → x.inTrap = false → r.iv = 0) :
    x.endShort i none r = x.endShort i none { r with iv := 0 } := by
  have hiv : (x.cast.fpinv && !x.inTrap && r.iv != 0) = false := by
    cases hf : x.cast.fpinv with
    | false => rfl
    | true => cases ht : x.inTrap <;> simp [hq, hf, ht]
  have hzero : (x.cast.fpinv && !x.inTrap && (0 : LaneMask) != 0) = false := by simp
  simp only [Ctx.endShort, hiv, hzero]
  rfl

/-- A short instruction that issues and raises no FP_INVALID: its bundle gets the result, and it goes on past itself. -/
theorem quiet_short_ends {i : Instr} {s : State} {x : Ctx} {eff : Ctx → Eff} {r : RegResult} (h : Issues i s x) (hx : exec i s = run i eff s)
    (hc : x.castChecks i = []) (hr : isRelease i = false) (he : eff x = .short x r)
    (hq : x.cast.fpinv = true → x.inTrap = false → r.iv = 0) : ∃ l, Ends i s x { shortBundle x r with subs := l } := by
  obtain ⟨l, hs, hp⟩ := endShort_ends i (r := { r with iv := 0 }) rfl h.due
  refine ⟨l, ?_, hp⟩
  rw [hx, run_issues eff h hc, forceReds_other x hr, he, settle, endShort_quiet i hq, hs]
  rfl

/-! ## Flags of the lanes -/

/-- A bit of the flags of a list of lanes. -/
theorem getLsbD_foldl_or (j : Nat) (rs : List (Word × Flags)) :
    ∀ fl : Flags, (rs.foldl (fun a r => a ||| r.2) fl).getLsbD j = (fl.getLsbD j || rs.any fun r => r.2.getLsbD j) := by
  induction rs with
  | nil => simp
  | cons r t ih => intro fl; simp [ih, Bool.or_assoc]

/-- A flag is gathered where a lane of the mask sets it. -/
theorem gatherLanes_flags (m : LaneMask) (f : Nat → Word × Flags) (j : Nat) :
    (gatherLanes m f).2.1.getLsbD j = m.lanes.any fun L => (f L).2.getLsbD j := by
  have hzero : (0 : Flags).getLsbD j = false := BitVec.getLsbD_zero
  simp only [gatherLanes, getLsbD_foldl_or, hzero, Bool.false_or, lanesOf, LaneMask.lanes, List.any_map, List.any_filter]
  refine List.any_congr rfl fun L => ?_
  cases hm : m.getLsbD L <;> simp [hm]

/-- The lanes gathered with IV are those of the mask that set it. -/
theorem gatherLanes_iv (m : LaneMask) (f : Nat → Word × Flags) {L : Nat} (hL : L < 32) :
    (gatherLanes m f).2.2.getLsbD L = (m.getLsbD L && (f L).2.getLsbD 0) := by
  simp only [gatherLanes]
  rw [getLsbD_maskOf _ hL, getD_lanesOf _ _ hL]
  cases m.getLsbD L <;> simp

/-- A lane counts for the flags where it is ACTIVE and holds no helper (R127). -/
theorem getLsbD_actNH (x : Ctx) (L : Nat) : x.actNH.getLsbD L = (x.act.getLsbD L && !x.b.helper.getLsbD L) := by
  by_cases hL : L < 32
  · simp only [Ctx.actNH, BitVec.getLsbD_and, BitVec.getLsbD_not, hL, decide_true, Bool.true_and]
  · simp only [BitVec.getLsbD_of_ge _ _ (Nat.le_of_not_lt hL), Bool.false_and]

/-- A flag is gathered where an ACTIVE lane that holds no helper sets it. -/
theorem gatherFlags_flags (x : Ctx) (f : Nat → Word × Flags) (j : Nat) :
    (gatherFlags x.act x.b.helper f).2.1.getLsbD j = x.actNH.lanes.any fun L => (f L).2.getLsbD j := by
  simp only [gatherFlags, gatherLanes_flags, LaneMask.lanes, List.any_filter]
  refine List.any_congr rfl fun L => ?_
  rw [getLsbD_actNH]
  cases x.act.getLsbD L <;> cases x.b.helper.getLsbD L <;> simp

/-- No IV is gathered where no ACTIVE lane that holds no helper sets it. -/
theorem gatherFlags_iv {x : Ctx} {f : Nat → Word × Flags} (h : ∀ L, L < 32 → x.actNH.getLsbD L = true → (f L).2.getLsbD 0 = false) :
    (gatherFlags x.act x.b.helper f).2.2 = 0 := by
  refine BitVec.eq_of_getLsbD_eq fun L hL => ?_
  rw [gatherFlags, gatherLanes_iv _ _ hL]
  cases hact : x.act.getLsbD L with
  | false => simp
  | true =>
    cases hhelp : x.b.helper.getLsbD L with
    | true => simp
    | false =>
      have hlane := h L hL (by rw [getLsbD_actNH, hact, hhelp]; rfl)
      simpa using hlane

/-! ## Sources that one value stands for -/

/-- A register read that is not pending is what the file holds. -/
theorem readLane_idle {b : Bundle} {code : Nat} (h : b.isPending code = false) (step L : Nat) : b.readLane step code L = b.fileLane code L := by
  simp [Bundle.readLane, h]

/-- A source is of shape U only if the operand is: no pending register, no G or A register, no LANE and no predicate (R93). -/
theorem operand_of_srcShape_isU {x : Ctx} {ty code : Nat} {m : BitVec 7} (h : (x.srcShape ty code m).isU = true) :
    (code < 888 → x.b.isPending code = false) ∧ (code < 640 → ∃ v, (x.b.vreg code).shape = .u v) ∧ code ≠ 888 ∧
      ¬ (864 ≤ code ∧ code < 880) := by
  have hplain : ∃ w, (if code < 888 && x.b.isPending code then shapeG
      else if code < 640 then (x.b.vreg code).shape
      else if code = 888 then .a 0 1
      else if 864 ≤ code && code < 880 then shapeG
      else .u (BitVec.ofNat 32 (x.raw32 ty code 0))) = Shape.u w := by
    simp only [Ctx.srcShape] at h
    split at h
    · generalize (if code < 888 && x.b.isPending code then shapeG else _) = sh at h ⊢
      cases sh with
      | u w => exact ⟨w, rfl⟩
      | a b t => cases h
      | g l => cases h
    · split at h
      · next w heq => exact ⟨w, heq⟩
      · split at h <;> cases h
      · cases h
  obtain ⟨w, hw⟩ := hplain
  split_ifs at hw with hpend hv hlane hpred
  · cases hw
  · exact ⟨fun hlt => by simpa [hlt] using hpend, fun _ => ⟨w, hw⟩, by omega, by omega⟩
  · cases hw
  · exact ⟨fun hlt => by simpa [hlt] using hpend, fun hlt => absurd hlt hv, hlane,
      by simpa only [Bool.and_eq_true, decide_eq_true_eq] using hpred⟩

/-- The register of a source of shape U holds the same for every lane. -/
theorem readLane_uniform {x : Ctx} {ty code : Nat} {m : BitVec 7} (h : (x.srcShape ty code m).isU = true)
    (hcode : code < 800 ∨ 880 ≤ code ∧ code < 888) (step L K : Nat) : x.b.readLane step code L = x.b.readLane step code K := by
  obtain ⟨hidle, hshape, -, -⟩ := operand_of_srcShape_isU h
  simp only [readLane_idle (hidle (by omega)), Bundle.fileLane]
  split
  · next hv =>
    obtain ⟨v, hu⟩ := hshape hv
    simp only [hu, Shape.lane]
  · split
    · rfl
    · rw [if_pos (by omega), if_pos (by omega)]

/-- An s register that is a source of shape U holds the same for every lane. -/
theorem sreg_uniform {x : Ctx} {ty code : Nat} {m : BitVec 7} (h : (x.srcShape ty code m).isU = true) (hlo : 640 ≤ code) (hhi : code < 800)
    (L K : Nat) : x.sreg (code - 640) L = x.sreg (code - 640) K := by
  unfold Ctx.sreg
  split
  · rw [show 640 + (code - 640) = code by omega, readLane_uniform h (.inl hhi) _ L K]
  · rfl

/-- A source of shape U reads the same in every lane, under every TYPE. -/
theorem raw32_uniform {x : Ctx} {ty code : Nat} {m : BitVec 7} (h : (x.srcShape ty code m).isU = true) (ty' L K : Nat) :
    x.raw32 ty' code L = x.raw32 ty' code K := by
  obtain ⟨-, -, hlane, hpred⟩ := operand_of_srcShape_isU h
  unfold Ctx.raw32
  split
  · next hv => rw [readLane_uniform h (by omega) _ L K]
  split
  · next hs => rw [sreg_uniform h (by omega) hs L K]
  split
  · rfl
  have hp : ¬ code < 880 := by omega
  rw [if_neg hp, if_neg hp]
  split
  · next hk => rw [readLane_uniform h (by omega) _ L K]
  · rfl

/-- A 64-bit source of shape U, both names of it where it is a v pair, reads the same in every lane. -/
theorem raw64_uniform {x : Ctx} {ty code : Nat} {m : BitVec 7} (h : (x.srcShape ty code m).isU = true)
    (hpair : 640 ≤ code ∨ (x.srcShape ty (code + 1) m).isU = true) (L K : Nat) : x.raw64 ty code L = x.raw64 ty code K := by
  unfold Ctx.raw64
  split
  · next hv => rw [raw32_uniform h ty L K, raw32_uniform (hpair.resolve_left (by omega)) ty L K]
  split
  · next hs => rw [sreg_uniform h (by omega) hs L K]
  split
  · rfl
  split
  · next hk =>
    simp only [Bool.and_eq_true, decide_eq_true_eq] at hk
    rw [readLane_uniform h (.inr hk) _ L K]
  · exact raw32_uniform h ty L K

/-- A source that is U at its TYPE's width is of shape U. -/
theorem srcU_isU {x : Ctx} {ty code : Nat} {m : BitVec 7} (h : x.srcU ty code m = true) : (x.srcShape ty code m).isU = true :=
  (Bool.and_eq_true_iff.mp h).1

/-- A source that is U at its TYPE's width reads the same in every lane (R93). -/
theorem src_uniform {x : Ctx} {ty code : Nat} {m : BitVec 7} (h : x.srcU ty code m = true) (L K : Nat) :
    x.src ty code m L = x.src ty code m K := by
  obtain ⟨hu, hpair⟩ : (x.srcShape ty code m).isU = true ∧ (tyWide ty = true → 640 ≤ code ∨ (x.srcShape ty (code + 1) m).isU = true) := by
    simpa [Ctx.srcU, or_assoc, Classical.or_iff_not_imp_left] using h
  unfold Ctx.src
  split
  · next hw => rw [raw64_uniform hu (hpair hw) L K]
  · rw [raw32_uniform hu ty L K]

/-- A float source that is U reads the same in every lane. -/
theorem srcF_uniform {x : Ctx} {ty code : Nat} {m : BitVec 7} (h : x.srcU ty code m = true) (L K : Nat) :
    x.srcF ty code m L = x.srcF ty code m K := by
  unfold Ctx.srcF
  rw [src_uniform h L K]

/-- The old value of a v destination of shape U is the same in every lane. -/
theorem oldLane_uniform {x : Ctx} {dst : Nat} (hdst : dst < 640) (h : (x.srcShape 0 dst 0).isU = true) (L K : Nat) :
    x.oldLane dst L = x.oldLane dst K := by
  unfold Ctx.oldLane
  rw [readLane_uniform h (by omega) _ L K]

/-! ## A 32-bit result -/

/-- The lane values of a result that depend on no old value but through DSUB, and on no lane where its sources are U, are one value wherever
its shape is U (R93, R94). -/
theorem result32_lane_uniform {x : Ctx} {dst dsub : Nat} {uni : Bool} {f : Nat → Word → Word × Flags} (hdst : dst < 640)
    (huni : uni = true → ∀ L K old, f L old = f K old) (hold : dsub = 0 → ∀ L old old', f L old = f L old') (hu : uni = true)
    (hd : dsub = 0 ∨ (x.srcShape 0 dst 0).isU = true) (L K : Nat) : f L (x.oldLane dst L) = f K (x.oldLane dst K) := by
  rw [huni hu L K]
  rcases hd with hd | hd
  · exact hold hd _ _ _
  · rw [oldLane_uniform hdst hd L K]

/-- A result without an A class is stored as its lanes, or as the value of its lowest lane where its sources are U and it fills its register or its
destination was U (R93, R94). -/
theorem vwrite_full_u {x : Ctx} {dst dsub : Nat} {vals : List Word} {uni : Bool} {sh : Shape} (h : (x.vwrite dst dsub vals none uni).full = some sh)
    (hcode : sh.code ≠ 2) :
    sh = .u (vals.getD (lowLane x.act) 0) ∧ uni = true ∧ (dsub = 0 ∨ (x.srcShape 0 dst 0).isU = true) := by
  simp only [Ctx.vwrite] at h
  split at h
  · obtain rfl := Option.some.inj h
    cases uni with
    | false => exact absurd (by simp [shapeG, Shape.isU, Shape.code]) hcode
    | true =>
      simp only [if_true] at hcode ⊢
      split_ifs at hcode ⊢ with hd hu
      · exact ⟨rfl, trivial, .inl hd⟩
      · exact ⟨rfl, trivial, .inr (Bool.and_eq_true_iff.mp hu).2⟩
      · exact absurd rfl hcode
  · cases h

/-- The shape of a result without an A class agrees with its values in every ACTIVE lane, where these are one value if it is U. -/
theorem vwrite_agrees {x : Ctx} {dst dsub L : Nat} {vals : List Word} {uni : Bool} (hL : L < 32) (hact : x.act.getLsbD L = true)
    (h : uni = true → dsub = 0 ∨ (x.srcShape 0 dst 0).isU = true → ∀ K, K < 32 → x.act.getLsbD K = true → vals.getD K 0 = vals.getD L 0) :
    Agrees (x.vwrite dst dsub vals none uni) L := by
  intro sh hsh hcode
  obtain ⟨hlow, hlowact⟩ := lowLane_mem hL hact
  obtain ⟨rfl, hu, hd⟩ := vwrite_full_u hsh hcode
  exact h hu hd _ hlow hlowact

/-- A 32-bit result gives each ACTIVE lane of its owned destination the value formed for that lane. -/
theorem result32_lanesAre_formed {x : Ctx} {dst dsub : Nat} {uni : Bool} {f : Nat → Word → Word × Flags} (l : List SubB)
    (hown : dst < x.b.v.length) (hdst : dst < 640) (huni : uni = true → ∀ L K old, f L old = f K old)
    (hold : dsub = 0 → ∀ L old old', f L old = f L old') :
    LanesAre x { shortBundle x (x.result32 dst dsub none uni f) with subs := l } dst fun L => (f L (x.oldLane dst L)).1 := by
  intro L hL hact
  simp only [Bundle.vreg, shortBundle_v]
  have hvals : ∀ K, K < 32 → x.act.getLsbD K = true →
      (gatherFlags x.act x.b.helper fun K => f K (x.oldLane dst K)).1.getD K 0 = (f K (x.oldLane dst K)).1 :=
    fun K hK hKact => gatherFlags_lane x.act x.b.helper _ hK hKact
  have hagrees : Agrees (x.vwrite dst dsub (gatherFlags x.act x.b.helper fun K => f K (x.oldLane dst K)).1 none uni) L :=
    vwrite_agrees hL hact fun hu hd K hK hKact => by
      rw [hvals K hK hKact, hvals L hL hact, result32_lane_uniform hdst huni hold hu hd K L]
  exact (vAfter_one (clock := x.s.coreClock) hown hL hact hagrees).trans (hvals L hL hact)

/-- A 32-bit result adds to FLAGS what its lanes set. -/
theorem result32_flagsGain {x : Ctx} {dst dsub : Nat} {uni : Bool} {f : Nat → Word → Word × Flags} (l : List SubB) :
    FlagsGain x { shortBundle x (x.result32 dst dsub none uni f) with subs := l } fun L => (f L (x.oldLane dst L)).2 := by
  intro j _
  have hfl := gatherFlags_flags x (fun L => f L (x.oldLane dst L)) j
  simp only [shortBundle_flags]
  cases ht : x.inTrap with
  | true => simp
  | false =>
    simp only [if_false, Bool.false_eq_true, BitVec.getLsbD_or, Bool.not_false, Bool.true_and]
    exact congrArg _ hfl

/-- Where FP_INVALID is enabled and no lane sets IV, a 32-bit result gathers none. -/
theorem result32_iv {x : Ctx} {dst dsub : Nat} {uni : Bool} {f : Nat → Word → Word × Flags} (hq : Quiet x fun L => (f L (x.oldLane dst L)).2)
    (hf : x.cast.fpinv = true) (ht : x.inTrap = false) : (x.result32 dst dsub none uni f).iv = 0 :=
  gatherFlags_iv (hq hf ht)

/-! ## Instructions that write one v register -/

/-- A v destination that passes its check is a v name, and owned (R42). -/
theorem vdst_of_check {env : CheckEnv} {bit code n : Nat} (hn : 0 < n) (h : (Pos.vdst n n).check env bit code = []) :
    code < 640 ∧ code < env.owned := by
  have hv : code < 640 := by
    by_contra hle
    simp only [Pos.check, Pos.vdst, Pos.used0, Pos.unused, hle] at h
    split_ifs at h <;> simp_all [illOperand]
  refine ⟨hv, ?_⟩
  by_contra hle
  have hfirst : ∃ m, firstUnowned env.owned code n = some m := by
    rw [← Option.isSome_iff_exists, firstUnowned, List.find?_isSome]
    exact ⟨code, List.mem_map.mpr ⟨0, List.mem_range.mpr hn, rfl⟩, by simpa using hle⟩
  obtain ⟨m, hm⟩ := hfirst
  simp only [Pos.check, Pos.vdst, Pos.used0, Pos.unused, hv, hm] at h
  split_ifs at h <;> simp_all [illOperand]

/-- The TYPE of a format A slot that issues is one its entry lists (R26). -/
theorem type_of_issues {i : Instr} {f : FmtA} {s : State} {x : Ctx} (h : Issues i s x) (hf : fmtOf i = .a f) :
    (specA i f).types.contains f.ty.toNat = true := by
  have hnone := firstFailure_none h.legal
  simp only [checks, hf, SpecA.check, List.append_eq_nil_iff] at hnone
  by_contra hty
  simp_all [illOp]

/-- A value has at least one name. -/
theorem namesOf_pos (ty : Nat) : 0 < namesOf ty := by
  unfold namesOf
  split <;> decide

/-- A short format A instruction with effect `eff` whose destination is a v register or pair by its TYPE. -/
structure ShortRegOp (i : Instr) (f : FmtA) (eff : Ctx → Eff) : Prop where
  fmt : fmtOf i = .a f
  dst : (specA i f).dst = .vdst (namesOf f.ty.toNat) (namesOf f.ty.toNat)
  exec : ∀ s, exec i s = run i eff s
  checks : ∀ x : Ctx, x.castChecks i = []
  release : isRelease i = false

/-- Such an instruction writes what its lanes form, where no lane raises FP_INVALID. -/
theorem ShortRegOp.writesQuiet {i : Instr} {f : FmtA} {s : State} {x : Ctx} {eff : Ctx → Eff} {dsub : Nat} {uni : Bool}
    {g : Nat → Word → Word × Flags} (hop : ShortRegOp i f eff) (he : eff x = .short x (x.result32 f.dst.toNat dsub none uni g))
    (huni : uni = true → ∀ L K old, g L old = g K old) (hold : dsub = 0 → ∀ L old old', g L old = g L old') :
    WritesQuiet i s x f.dst.toNat fun L => g L (x.oldLane f.dst.toNat L) := by
  intro h hq
  obtain ⟨hv, hown⟩ := vdst_of_check (namesOf_pos _) (hop.dst ▸ dst_check_of_issues h hop.fmt)
  obtain ⟨l, hends⟩ := quiet_short_ends h (hop.exec s) (hop.checks x) hop.release he fun hf ht => result32_iv hq hf ht
  exact ⟨_, hends, result32_lanesAre_formed l hown hv huni hold, result32_flagsGain l, (writesWithin_result32 ..).keeps l⟩

end Sys2Proof.Laws
end

section
/-! Float arithmetic, selection and classification (R154, R155, R157 to R160): the instructions as effects, when their lanes are one value, and the
statement about them. -/

namespace Sys2Proof.Laws

open Machine Safety

/-! ## The instructions as short instructions with one v destination -/

theorem fadd_op (f : FmtA) : ShortRegOp (.fadd f) f (effFadd f) := ⟨rfl, rfl, fun _ => rfl, fun x => castChecks_none x trivial, rfl⟩
theorem fmul_op (f : FmtA) : ShortRegOp (.fmul f) f (effFmul f) := ⟨rfl, rfl, fun _ => rfl, fun x => castChecks_none x trivial, rfl⟩
theorem ffma_op (f : FmtA) : ShortRegOp (.ffma f) f (effFfma f) := ⟨rfl, rfl, fun _ => rfl, fun x => castChecks_none x trivial, rfl⟩
theorem fdot2_op (f : FmtA) : ShortRegOp (.fdot2 f) f (effFdot2 f) := ⟨rfl, rfl, fun _ => rfl, fun x => castChecks_none x trivial, rfl⟩
theorem frnd_op (f : FmtA) : ShortRegOp (.frnd f) f (effFrnd f) := ⟨rfl, rfl, fun _ => rfl, fun x => castChecks_none x trivial, rfl⟩
theorem fscale_op (f : FmtA) : ShortRegOp (.fscale f) f (effFscale f) := ⟨rfl, rfl, fun _ => rfl, fun x => castChecks_none x trivial, rfl⟩
theorem fexp_op (f : FmtA) : ShortRegOp (.fexp f) f (effFexp f) := ⟨rfl, rfl, fun _ => rfl, fun x => castChecks_none x trivial, rfl⟩
theorem fmin_op (f : FmtA) : ShortRegOp (.fmin f) f (effFmin f) := ⟨rfl, rfl, fun _ => rfl, fun x => castChecks_none x trivial, rfl⟩
theorem fmax_op (f : FmtA) : ShortRegOp (.fmax f) f (effFmax f) := ⟨rfl, rfl, fun _ => rfl, fun x => castChecks_none x trivial, rfl⟩
theorem fclass_op (f : FmtA) : ShortRegOp (.fclass f) f (effFclass f) := ⟨rfl, rfl, fun _ => rfl, fun x => castChecks_none x trivial, rfl⟩

/-! ## Sources and forms -/

section
variable {f : FmtA} {x : Ctx}

/-- Source A of a U result is one value. -/
theorem fltA_uniform (h : uniA f x = true) (L K : Nat) : fltA f x L = fltA f x K := srcF_uniform h L K

/-- Sources A and B of a U result are one value each. -/
theorem fltAB_uniform (h : uniAB f x = true) (L K : Nat) : fltA f x L = fltA f x K ∧ fltB f x L = fltB f x K := by
  obtain ⟨ha, hb⟩ := Bool.and_eq_true_iff.mp h
  exact ⟨srcF_uniform ha L K, srcF_uniform hb L K⟩

/-- A result that fills its register depends on no old value (R29). -/
theorem formF_full {dsub : Nat} (hd : dsub = 0) (old old' : Word) (ty round : Nat) (ftz : Bool) (r : FRes) :
    formF ty dsub round ftz old r = formF ty dsub round ftz old' r := by
  rw [hd]
  rfl

/-- The float instructions that round one exact result into their destination (R152), where a shape U stands for one result of all lanes. -/
theorem fltResult_writesQuiet {i : Instr} {s : State} {eff : Ctx → Eff} {uni : Bool} {r : Nat → FRes} (hop : ShortRegOp i f eff)
    (he : eff x = fltResult f x uni r) (huni : uni = true → ∀ L K, r L = r K) :
    WritesQuiet i s x f.dst.toNat fun L => floatLane f x L (r L) :=
  hop.writesQuiet he (fun hu L K old => by rw [huni hu L K]) (fun hd L old old' => by simp only [formF_full hd old old'])

/-! ## fadd, fmul, ffma and fdot2 (R154, R159) -/

/-- `fadd` and `fmul`: one exact operation on their two sources. -/
theorem fltAB_writesQuiet {i : Instr} {s : State} {eff : Ctx → Eff} (op : FVal → FVal → FRes) (hop : ShortRegOp i f eff)
    (he : eff x = fltResult f x (uniAB f x) fun L => op (fltA f x L) (fltB f x L)) :
    WritesQuiet i s x f.dst.toNat fun L => floatLane f x L (op (fltA f x L) (fltB f x L)) :=
  fltResult_writesQuiet hop he fun hu L K => by
    obtain ⟨ha, hb⟩ := fltAB_uniform hu L K
    rw [ha, hb]

/-- R154: `ffma` rounds the exact a·b + c. -/
theorem ffma_writes (s : State) :
    WritesQuiet (.ffma f) s x f.dst.toNat fun L => floatLane f x L (fmaVal (isRdn f) (fltA f x L) (fltB f x L) (fltC f x L)) :=
  fltResult_writesQuiet (ffma_op f) rfl fun hu L K => by
    obtain ⟨hab, hc⟩ := Bool.and_eq_true_iff.mp hu
    obtain ⟨ha, hb⟩ := fltAB_uniform hab L K
    have hc' : fltC f x L = fltC f x K := srcF_uniform hc L K
    rw [ha, hb, hc']

/-- `fdot2` issues under TYPE f32 only. -/
theorem fdot2_type {s : State} (h : Issues (.fdot2 f) s x) : f.ty.toNat = 3 := by
  simpa [specA, spec3, spec2] using type_of_issues h rfl

/-- A half of a source that is U is the same in every lane. -/
theorem halfF_uniform {ty code : Nat} {m : BitVec 7} (h : x.srcU ty code m = true) (src half L K : Nat) :
    halfF x src m (x.raw32 0 code L) half = halfF x src m (x.raw32 0 code K) half := by
  rw [raw32_uniform (srcU_isU h) 0 L K]

/-- R159: `fdot2` rounds the exact sum of its products of halves and its third source. -/
theorem fdot2_writes (s : State) : WritesQuiet (.fdot2 f) s x f.dst.toNat (fdot2Lane f x) := by
  intro h
  refine fltResult_writesQuiet (fdot2_op f) rfl (fun hu L K => ?_) h
  obtain ⟨hab, hc⟩ := Bool.and_eq_true_iff.mp hu
  obtain ⟨ha, hb⟩ := Bool.and_eq_true_iff.mp hab
  have hc' : fltC f x L = fltC f x K := srcF_uniform ((fdot2_type h).symm ▸ hc) L K
  simp only [halfF_uniform ha _ _ L K, halfF_uniform hb _ _ L K, hc']

/-! ## frnd, fscale and fexp (R158, R160) -/

/-- R158: `frnd` writes the integral value, and IV of a signalling NaN is its only flag. -/
theorem frnd_writes (s : State) : WritesQuiet (.frnd f) s x f.dst.toNat (frndLane f x) :=
  (frnd_op f).writesQuiet rfl (fun hu L K old => by rw [fltA_uniform hu L K]) (fun hd L old old' => by simp only [formF_full hd old old'])

/-- R160: `fscale` rounds its source times a power of two. -/
theorem fscale_writes (s : State) : WritesQuiet (.fscale f) s x f.dst.toNat (fscaleLane f x) :=
  fltResult_writesQuiet (fscale_op f) rfl fun hu L K => by
    obtain ⟨ha, hb⟩ := Bool.and_eq_true_iff.mp hu
    rw [fltA_uniform ha L K, Ctx.srcInt, Ctx.srcInt, src_uniform hb L K]

/-- R160: `fexp` writes the exponent or the significand of its source read without flush to zero. -/
theorem fexp_writes (s : State) : WritesQuiet (.fexp f) s x f.dst.toNat (fexpLane f x) :=
  (fexp_op f).writesQuiet rfl (fun hu L K _ => by simp only [src_uniform hu L K]) (fun _ _ _ _ => rfl)

/-! ## fmin, fmax and fclass (R155, R157) -/

/-- R155: the value picked is the number where the other source is a NaN, a canonical NaN of two, and else the least or the greatest. -/
theorem minMaxVal_pick (isMax : Bool) (a b : FVal) :
    (minMaxVal isMax a b).1 =
      if a.isNan && b.isNan then FVal.nan false else if a.isNan then b else if b.isNan then a else if belowVal b a = isMax then a else b := by
  unfold minMaxVal
  cases a.isNan <;> cases b.isNan <;> simp

/-- R155: IV is that of a signalling NaN. -/
theorem minMaxVal_iv (isMax : Bool) (a b : FVal) : (minMaxVal isMax a b).2 = (a.isSnan || b.isSnan) := by
  unfold minMaxVal
  cases a.isNan <;> cases b.isNan <;> simp

/-- A lane of `fmin` or `fmax` forms the value picked, and adds the IV. -/
theorem minMaxLane_eq (f : FmtA) (x : Ctx) (isMax : Bool) (L : Nat) :
    minMaxLane f x isMax L =
      ((floatLane f x L (minMaxVal isMax (fltA f x L) (fltB f x L)).1.res).1,
       if (minMaxVal isMax (fltA f x L) (fltB f x L)).2 then (floatLane f x L (minMaxVal isMax (fltA f x L) (fltB f x L)).1.res).2 ||| flagIV
       else (floatLane f x L (minMaxVal isMax (fltA f x L) (fltB f x L)).1.res).2) := by
  rw [minMaxVal_pick, minMaxVal_iv]
  rfl

/-- R155: `fmin` and `fmax`. -/
theorem minMax_writes {i : Instr} {isMax : Bool} {eff : Ctx → Eff} (hop : ShortRegOp i f eff) (he : eff x = minMaxOp f x isMax) (s : State) :
    WritesQuiet i s x f.dst.toNat (minMaxLane f x isMax) := by
  rw [funext (minMaxLane_eq f x isMax)]
  refine hop.writesQuiet he (fun hu L K old => ?_) (fun hd L old old' => by simp only [formF_full hd old old'])
  obtain ⟨ha, hb⟩ := fltAB_uniform hu L K
  rw [ha, hb]

/-- R157: `fclass` writes the one bit of its source's class. -/
theorem fclass_writes (s : State) : WritesQuiet (.fclass f) s x f.dst.toNat fun L =>
    (BitVec.ofNat 32 (2 ^ classOf (tyFmt f.ty.toNat) (x.src f.ty.toNat f.opa.toNat f.moda L)), 0) :=
  (fclass_op f).writesQuiet rfl (fun hu L K _ => by simp only [src_uniform hu L K]) (fun _ _ _ _ => rfl)

end

/-- R154, R158 to R160: each instruction by its lemma above. -/
theorem floatArithmetic : Claims.FloatArithmetic := fun f s _ =>
  ⟨fltAB_writesQuiet (addVal (isRdn f)) (fadd_op f) rfl, fltAB_writesQuiet mulVal (fmul_op f) rfl, ffma_writes s,
    fdot2_writes s, frnd_writes s, fscale_writes s, fexp_writes s⟩

/-- R155 and R157: `minMaxOp` with each of its two senses, and the class. -/
theorem floatSelection : Claims.FloatSelection := fun f s _ =>
  ⟨minMax_writes (fmin_op f) rfl s, minMax_writes (fmax_op f) rfl s, fclass_writes s⟩

/-- Settles O5: every instruction forms its lanes as stated, and where a result is kept as one U value its lanes are one value. -/
theorem floatResults : Obligations.FloatResults := ⟨floatArithmetic, floatSelection⟩

end Sys2Proof.Laws
end

section
/-! Software traps (R375, R376): an instruction whose effect is a trap, one that acts once per bundle under its guard (R23), and the statement about
`trap` and `brk`. -/

namespace Sys2Proof.Laws

open Machine Safety

/-! ## An instruction whose effect is a trap -/

/-- An instruction that issues with a trap as its effect takes it at its own slot, before it has had any other effect. -/
theorem trap_taken {i : Instr} {s : State} {x : Ctx} {eff : Ctx → Eff} {cause : Nat} {info : BitVec 128} (h : Issues i s x)
    (hx : exec i s = run i eff s) (hc : x.castChecks i = []) (hr : isRelease i = false) (he : eff x = .trap x cause info) :
    exec i s = .next (x.commit.takeTrap x.c.cid x.b.index cause info x.sub.pc false 0 x.sub.cst) := by
  rw [hx, run_issues eff h hc, forceReds_other x hr, he]
  rfl

/-- A short instruction that issues with an empty result writes nothing. -/
theorem empty_writesNothing {i : Instr} {s : State} {x : Ctx} {eff : Ctx → Eff} (h : Issues i s x) (hx : exec i s = run i eff s)
    (hc : x.castChecks i = []) (hr : isRelease i = false) (he : eff x = .short x RegResult.empty) : WritesNothing i s x := by
  obtain ⟨l, hends⟩ := short_empty_ends x.b h hx hc hr he rfl rfl
  exact ⟨_, hends, rfl, keeps_flags x x.b.flags l⟩

/-- The guard rule of R375: with no ACTIVE lane but helpers nothing is written, and with another the trap is taken. -/
theorem traps_or_writesNothing {i : Instr} {s : State} {x : Ctx} {eff : Ctx → Eff} {cause : Nat} {info : BitVec 128} (h : Issues i s x)
    (hx : exec i s = run i eff s) (hc : x.castChecks i = []) (hr : isRelease i = false)
    (he : eff x = if x.actNH = 0 then .short x RegResult.empty else .trap x cause info) :
    (x.actNH = 0 → WritesNothing i s x) ∧
    (x.actNH ≠ 0 → exec i s = .next (x.commit.takeTrap x.c.cid x.b.index cause info x.sub.pc false 0 x.sub.cst)) :=
  ⟨fun ha => empty_writesNothing h hx hc hr (he.trans (if_pos ha)), fun ha => trap_taken h hx hc hr (he.trans (if_neg ha))⟩

/-! ## trap and brk -/

theorem exec_trap (f : FmtI) (s : State) : exec (.trap f) s = run (.trap f) (effTrap f) s := rfl
theorem exec_brk (f : FmtA) (s : State) : exec (.brk f) s = run (.brk f) (effBrk f) s := rfl

/-- TRAPINFO of SOFTWARE (R369): IMM in bits 31:0, the ACTIVE lanes in bits 95:64. -/
theorem softwareInfo_eq (imm : BitVec 32) (act : LaneMask) :
    BitVec.ofNat 128 (imm.toNat + act.toNat * 2 ^ 64) = act.setWidth 64 ++ imm.setWidth 64 := by
  refine BitVec.eq_of_toNat_eq ?_
  rw [toNat_side, BitVec.toNat_setWidth, BitVec.toNat_setWidth, BitVec.toNat_ofNat]
  omega

/-- R375: the effect of `trap`, its TRAPINFO as R369 lays it out. -/
theorem effTrap_eq (f : FmtI) (x : Ctx) :
    effTrap f x = if x.actNH = 0 then .short x RegResult.empty else .trap x 18 (x.act.setWidth 64 ++ f.imm.setWidth 64) := by
  rw [← softwareInfo_eq]
  rfl

/-- R376: the effect of `brk`, its TRAPINFO the code n. -/
theorem effBrk_eq (g : FmtA) (x : Ctx) :
    effBrk g x = if x.actNH = 0 then .short x RegResult.empty else .trap x 19 (g.func.setWidth 128) := by
  rw [← BitVec.ofNat_toNat]
  rfl

/-- Settles O22: `trap` and `brk` are the guard rule of R375 with the TRAPINFO of each. -/
theorem softwareTraps : Obligations.SoftwareTraps := fun f g s x =>
  ⟨fun h => traps_or_writesNothing h (exec_trap f s) (castChecks_none x trivial) rfl (effTrap_eq f x),
    fun h => traps_or_writesNothing h (exec_brk g s) (castChecks_none x trivial) rfl (effBrk_eq g x)⟩

end Sys2Proof.Laws
end
